-- ==== Sys2Proof/Word.lean ====
section
/-! DEFINITION. The words of the machine (spec/00_scope.md R3, spec/05_arithmetic_rules.md R93). -/

namespace Sys2Proof

/-- A byte of memory. -/
abbrev Byte := BitVec 8

/-- A 32-bit register word. -/
abbrev Word := BitVec 32

/-- A 64-bit value: an address, a register pair, a header. -/
abbrev Dword := BitVec 64

/-- One bit per lane of a crew, lane l at bit l. -/
abbrev LaneMask := BitVec 64

end Sys2Proof
end

