-- ==== Sys2Proof/Config.lean ====
section
/-! DEFINITION. What one part fixes (spec/00_scope.md R1) and the free values: constants with no body, so that nothing can
be proved of the value the spec leaves open (assumptions 4 and 6). -/

namespace Sys2Proof

/-- Clusters of the module (R1). -/
def Config.clusters : Nat := 48

/-- Cores of a cluster (R1, R129). -/
def Config.coresPerCluster : Nat := 8

/-- Issue partitions of a core (R15, R129). -/
def Config.partitions : Nat := 4

/-- Crew slots of a core (R1, R28). -/
def Config.crewSlots : Nat := 64

/-- Thread slots of a core (R1, R28). -/
def Config.threadSlots : Nat := 2048

/-- Register words of a core (R28). -/
def Config.regWords : Nat := 131072

/-- Tile lines of a core's L1 (R1). -/
def Config.l1Lines : Nat := 1024

/-- Plot bytes of a cluster: 4 MiB (R1, R28). -/
def Config.plotBytes : Nat := 4194304

/-- Pair-barrier contexts of a pair (R28). -/
def Config.pairContexts : Nat := 16

/-- Accumulator slots of a core (R28, R267). -/
def Config.accSlots : Nat := 4

/-- Physical base of the dump region (R412). -/
def Config.dumpBase : Nat := 0x000000BF00000000

/-- Size of the dump region: 4 GiB (R412). -/
def Config.dumpSize : Nat := 0x100000000

/-- Bytes of HBM: 768 GiB (R1); physical addresses 0 to its end, the dump region at its top (R412). -/
def Config.hbmBytes : Nat := 0xC000000000

/-- Bytes of one port buffer: 8 MiB (R406). -/
def Config.portBuffer : Nat := 8388608

/-- A 32-bit value the spec leaves undefined, fresh for each index (R5; assumption 4). -/
opaque Config.freeWord : Nat → Word

/-- The registers or slot elements of a bank whose contents are undefined: seed, then index (R43, R55, R267; assumption 4). -/
opaque Config.freeCell : Nat → Nat → Word

/-- A byte the spec leaves undefined: seed, then index (R303, R327; assumption 4). -/
opaque Config.freeByte : Nat → Nat → Byte

/-- A choice the spec leaves unspecified, fresh for each index; the user takes it modulo the number of outcomes (R5; assumption 4). -/
opaque Config.freeNat : Nat → Nat

/-- The choice of a faithfully rounded function between the two neighbours of its exact result: opcode, then input (R168). -/
opaque Config.faithfulUp : Nat → Word → Bool

/-- The digests and signature bytes of an attestation report: the nonce and the byte index (R409; assumption 30). -/
opaque Config.attestByte : Nat → Nat → Byte

/-- The frames of 64 KiB that hold MMP firmware, of those in no bed's share (R402; assumption 6). -/
opaque Config.firmwareFrame : Nat → Bool

/-- The fused security version of the firmware of a target: 0 the MMPs', 1 Trellis's (R408; assumption 6). -/
opaque Config.fusedVersion : Nat → Nat

/-- The peer module a Hyfin Link reaches, and whether it trains: what stands at its other end (R403; assumption 6). -/
opaque Config.linkPeer : Nat → Nat
opaque Config.linkTrains : Nat → Bool

end Sys2Proof
end

