-- ==== Sys2Proof/Syntax.lean ====
section
/-! DEFINITION. The instructions: one constructor for each row of spec/opcode_table.json. The first part are the words a
thread executes (spec/03_encoding_rules.md R51 to R76 and the chapters of the instructions); the second part are the steps of
the other agents (engines, Riddle, Cox, ports, MMPs, Trellis), which no word encodes. -/

namespace Sys2Proof

/-! ## Operands (R63, R66, R68, R71) -/

/-- Neighbour select (R71). -/
inductive Neigh where
  | self | left | right
  deriving DecidableEq, Repr

/-- A register code: v0-v511 or s0-s255 (R63). -/
inductive Reg where
  | v (r : BitVec 9)
  | s (r : BitVec 8)
  deriving DecidableEq, Repr

/-- A source operand (R63): a v-register with its neighbour select, an s-register, an integer constant (code - 0x300, value code - 0x310),
a constant of R64 (code - 0x370), or the literal of a 96-bit form. -/
inductive Src where
  | v (r : BitVec 9) (n : Neigh)
  | s (r : BitVec 8)
  | int (k : Fin 112)
  | con (k : Fin 13)
  | lit (w : Word)
  deriving DecidableEq, Repr

/-- Guard: negate, predicate index (R68). -/
structure Guard where
  neg : Bool
  p : BitVec 3
  deriving DecidableEq, Repr

/-- Rounding modes (R69, R101). -/
inductive Rm where
  | rn | rz | ru | rd
  deriving DecidableEq, Repr

/-- The offset of a branch: 20 bits in the 64-bit form, 32 bits in the far form (R121). -/
inductive Off where
  | near (o : BitVec 20)
  | far (o : BitVec 32)
  deriving DecidableEq, Repr

/-! ## Masks and predicates (R136, R137, R139) -/

/-- Forms of MMOV (R136): mask to mask, mask to s-pair, s-pair to mask. -/
inductive MmovForm where
  | mm (d a : BitVec 4)
  | sm (d : BitVec 8) (a : BitVec 4)
  | ms (d : BitVec 4) (a : BitVec 8)
  deriving DecidableEq, Repr

/-- Forms of VOTE (R137). -/
inductive VoteForm where
  | any (pd : BitVec 3)
  | all (pd : BitVec 3)
  | eq (pd : BitVec 3)
  | ballot (d : BitVec 9)
  deriving DecidableEq, Repr

/-- Forms of PMOV (R139). -/
inductive PmovForm where
  | pp (pd pa : BitVec 3)
  | toReg (d : BitVec 9)
  | fromSrc (a : Src)
  | nonzero (pd : BitVec 3) (a : Src)
  deriving DecidableEq, Repr

/-! ## Integer forms (R140 to R149) -/

/-- Compact integer form: D is also the first source (R61); K[3] is .64. -/
structure CInt where
  d : BitVec 9
  a : BitVec 9
  w64 : Bool
  deriving DecidableEq, Repr

/-- Two sources, with .64, .S and .SAT (R140, R145). -/
structure IBin where
  g : Guard
  d : Reg
  a : Src
  b : Src
  w64 : Bool
  sgn : Bool
  sat : Bool
  deriving DecidableEq, Repr

/-- Three sources (R140). IMADW has no .64 form. -/
structure ITri where
  g : Guard
  d : Reg
  a : Src
  b : Src
  c : Src
  w64 : Bool
  sgn : Bool
  sat : Bool
  deriving DecidableEq, Repr

/-- One source (R140, R147). -/
structure IUn where
  g : Guard
  d : Reg
  a : Src
  w64 : Bool
  sat : Bool
  deriving DecidableEq, Repr

/-- IDIV and IREM: long-latency, F[62] accepted without effect (R142). -/
structure IDivF where
  g : Guard
  d : Reg
  a : Src
  b : Src
  w64 : Bool
  sgn : Bool
  f62 : Bool
  la : BitVec 4
  deriving DecidableEq, Repr

/-- IADDC (R141). -/
structure IAddcF where
  g : Guard
  d : Reg
  a : Src
  b : Src
  cin : BitVec 3
  cinNeg : Bool
  cout : BitVec 3
  sub : Bool
  deriving DecidableEq, Repr

/-- Relations of ISET (R148). -/
inductive Rel where
  | eq | ne | lt | le | gt | ge
  deriving DecidableEq, Repr

/-- ISET (R148). -/
structure ISetF where
  g : Guard
  pd : BitVec 3
  a : Src
  b : Src
  rel : Rel
  w64 : Bool
  sgn : Bool
  deriving DecidableEq, Repr

/-- SEL (R148). -/
structure SelF where
  g : Guard
  d : Reg
  a : Src
  b : Src
  p : BitVec 3
  neg : Bool
  w64 : Bool
  deriving DecidableEq, Repr

/-- LOP3 with its eight-bit truth table (R144). -/
structure Lop3F where
  g : Guard
  d : Reg
  a : Src
  b : Src
  c : Src
  tt : BitVec 8
  deriving DecidableEq, Repr

/-- SHF (R146). -/
structure ShfF where
  g : Guard
  d : Reg
  a : Src
  b : Src
  c : Src
  left : Bool
  deriving DecidableEq, Repr

/-- BFI (R147): A, B, and the field word C. -/
structure BfiF where
  g : Guard
  d : Reg
  a : Src
  b : Src
  c : Src
  w64 : Bool
  deriving DecidableEq, Repr

/-- LEA (R149). -/
structure LeaF where
  g : Guard
  d : Reg
  a : Src
  b : Src
  sh : BitVec 3
  w64 : Bool
  sgn : Bool
  deriving DecidableEq, Repr

/-- IDP4 (R143). -/
structure Idp4F where
  g : Guard
  d : Reg
  a : Src
  b : Src
  c : Src
  sa : Bool
  sb : Bool
  i4 : Bool
  sat : Bool
  deriving DecidableEq, Repr

/-! ## Moves (R150 to R155) -/

/-- MOV (R150). -/
structure MovF where
  g : Guard
  d : Reg
  a : Src
  deriving DecidableEq, Repr

/-- Forms of MOVL (R150). -/
inductive MovlMode where
  | full | zx | hi
  deriving DecidableEq, Repr

/-- MOVL (R150). -/
structure MovlF where
  g : Guard
  d : Reg
  a : Src
  mode : MovlMode
  deriving DecidableEq, Repr

/-- BCAST (R150). -/
structure BcastF where
  g : Guard
  d : BitVec 9
  a : BitVec 9
  an : Neigh
  m : BitVec 4
  deriving DecidableEq, Repr

/-- RDLANE (R150). -/
structure RdlaneF where
  g : Guard
  d : BitVec 9
  a : BitVec 9
  an : Neigh
  b : Src
  deriving DecidableEq, Repr

/-- Forms of PERM (R150). -/
inductive PermMode where
  | idx | xor | rot
  deriving DecidableEq, Repr

/-- PERM (R150). -/
structure PermF where
  g : Guard
  d : BitVec 9
  a : BitVec 9
  an : Neigh
  b : Src
  mode : PermMode
  deriving DecidableEq, Repr

/-- Forms of IXSET (R152). -/
inductive IxsetForm where
  | bl (a b : Src)
  | cur (a : Src)
  | add (a : Src)
  deriving DecidableEq, Repr

/-- IXLD (R152). -/
structure IxldF where
  g : Guard
  d : BitVec 9
  ix : BitVec 2
  b : Src
  deriving DecidableEq, Repr

/-- IXST (R152). -/
structure IxstF where
  g : Guard
  ix : BitVec 2
  b : Src
  a : Src
  deriving DecidableEq, Repr

/-- Special registers (R79). -/
inductive Special where
  | tid | teamid | launchid | laneid | crewid | coreid | clusterid | bed | rkey | cycle
  | fflags | tcause | tpc | tval | tmask
  deriving DecidableEq, Repr

/-- GETSR (R154). -/
structure GetsrF where
  g : Guard
  d : Reg
  sel : Special
  w64 : Bool
  deriving DecidableEq, Repr

/-- SETSR (R154). -/
structure SetsrF where
  g : Guard
  sel : Special
  a : Src
  w64 : Bool
  deriving DecidableEq, Repr

/-! ## Floating forms (R160 to R182) -/

/-- Compact FADD, FMUL. -/
structure CFlt where
  d : BitVec 9
  a : BitVec 9
  rm : Rm
  deriving DecidableEq, Repr

/-- Compact FMIN, FMAX, MOV: two registers only. -/
structure CTwo where
  d : BitVec 9
  a : BitVec 9
  deriving DecidableEq, Repr

/-- Compact HADD2, HMUL2 (R160): the element format in imm4[3:2]. -/
structure CHalf where
  d : BitVec 9
  a : BitVec 9
  rm : Rm
  bf16 : Bool
  deriving DecidableEq, Repr

/-- Two-source floating arithmetic with a rounding mode (R162, R170). -/
structure FBin where
  g : Guard
  d : Reg
  a : Src
  b : Src
  rm : Rm
  fzi : Bool
  fzo : Bool
  deriving DecidableEq, Repr

/-- Fused multiply-add (R162, R170). -/
structure FTri where
  g : Guard
  d : Reg
  a : Src
  b : Src
  c : Src
  rm : Rm
  fzi : Bool
  fzo : Bool
  deriving DecidableEq, Repr

/-- FMIN, FMAX, FSCL: two sources, no rounding mode (R162, R166). -/
structure FTwo where
  g : Guard
  d : Reg
  a : Src
  b : Src
  fzi : Bool
  fzo : Bool
  deriving DecidableEq, Repr

/-- Ordered relations of FSET and DSET, each with its unordered twin (R164). -/
inductive FRel where
  | rel (r : Rel) (unordered : Bool)
  | num
  | nan
  deriving DecidableEq, Repr

/-- FSET and DSET (R164). -/
structure FSetF where
  g : Guard
  pd : BitVec 3
  a : Src
  b : Src
  rel : FRel
  fzi : Bool
  deriving DecidableEq, Repr

/-- Formats of FCLASS (R165). -/
inductive ClassFmt where
  | f32 | f64 | f16 | bf16
  deriving DecidableEq, Repr

/-- FCLASS (R165). -/
structure FClassF where
  g : Guard
  d : Reg
  a : Src
  fmt : ClassFmt
  deriving DecidableEq, Repr

/-- FFRX (R166). -/
structure FFrxF where
  g : Guard
  d : Reg
  a : Src
  exp : Bool
  fzi : Bool
  deriving DecidableEq, Repr

/-- FCEILX (R166). -/
structure FCeilxF where
  g : Guard
  d : Reg
  a : Src
  fzi : Bool
  deriving DecidableEq, Repr

/-- One-source special function, long-latency (R167). -/
structure FSpecial where
  g : Guard
  d : Reg
  a : Src
  rm : Rm
  la : BitVec 4
  fzi : Bool
  fzo : Bool
  deriving DecidableEq, Repr

/-- FDIV and FEX2M (R167). -/
structure FSpecial2 where
  g : Guard
  d : Reg
  a : Src
  b : Src
  rm : Rm
  la : BitVec 4
  fzi : Bool
  fzo : Bool
  deriving DecidableEq, Repr

/-- HADD2, HMUL2 (R171). -/
structure HBin where
  g : Guard
  d : Reg
  a : Src
  b : Src
  rm : Rm
  bf16 : Bool
  fzi : Bool
  fzo : Bool
  deriving DecidableEq, Repr

/-- HFMA2 (R171). -/
structure HTri where
  g : Guard
  d : Reg
  a : Src
  b : Src
  c : Src
  rm : Rm
  bf16 : Bool
  fzi : Bool
  fzo : Bool
  deriving DecidableEq, Repr

/-- CVT formats, code = position (R173). -/
inductive CvtFmt where
  | f32 | f64 | f16 | bf16 | e5m2 | e4m3 | e2m1 | e8m0
  | s8 | u8 | s16 | u16 | s32 | u32 | s64 | u64
  deriving DecidableEq, Repr

/-- CVT (R172): `q` is the stochastic word of .SR. F[62] is FZI, or saturate when both formats are integer. -/
structure CvtF where
  g : Guard
  d : Reg
  a : Src
  dst : CvtFmt
  src : CvtFmt
  rm : Rm
  q : Option Src
  ins : Bool
  e : BitVec 2
  f62 : Bool
  f63 : Bool
  deriving DecidableEq, Repr

/-- Block formats of QNT and DQNT (R176). -/
inductive BlockFmt where
  | sb8e4 | sb8e5 | sb4 | nb4
  deriving DecidableEq, Repr

/-- QNT (R176): `b` is g of NB4 (absent otherwise), `q` the stochastic word of .SR. -/
structure QntF where
  g : Guard
  d : BitVec 9
  a : Src
  b : Option Src
  fmt : BlockFmt
  scale : Bool
  rm : Rm
  q : Option Src
  deriving DecidableEq, Repr

/-- DQNT (R176): `c` is g of NB4. -/
structure DqntF where
  g : Guard
  d : Reg
  a : Src
  b : Src
  c : Option Src
  fmt : BlockFmt
  e : BitVec 3
  deriving DecidableEq, Repr

/-- Operations of REDL and SCANL (R180). -/
inductive RedOp where
  | fadd | fmin | fmax | iadd | imins | imaxs | iminu | imaxu | and | or | xor
  deriving DecidableEq, Repr

/-- REDL (R180). -/
structure RedlF where
  g : Guard
  d : BitVec 9
  a : Src
  m : BitVec 4
  op : RedOp
  la : BitVec 4
  deriving DecidableEq, Repr

/-- SCANL (R180). -/
structure ScanlF where
  g : Guard
  d : BitVec 9
  a : Src
  m : BitVec 4
  op : RedOp
  incl : Bool
  la : BitVec 4
  deriving DecidableEq, Repr

/-! ## Memory forms (R73, R236 to R264) -/

/-- HINT (R73). -/
inductive Hint where
  | dflt | stream | keep | nol1
  deriving DecidableEq, Repr

/-- ORD (R73). -/
inductive Ord where
  | none | rlx | acq | rel | ar | full | opnd
  deriving DecidableEq, Repr

/-- SCOPE (R73). -/
inductive Scope where
  | crew | team | cluster | device | system
  deriving DecidableEq, Repr

/-- The memory modifier of classes 0x9 and 0xA (R73). -/
structure MemMod where
  rmt : Bool
  hint : Hint
  ord : Ord
  scope : Scope
  deriving DecidableEq, Repr

/-- Access sizes, MOP code = position (R238). -/
inductive Size where
  | b32 | b64 | b128 | b256 | b8 | s8 | b16 | s16 | b512
  deriving DecidableEq, Repr

/-- Loads and stores by virtual address: address pair A, offset B (R236). -/
structure LdStF where
  g : Guard
  d : Reg
  a : Reg
  b : Src
  size : Size
  m : MemMod
  la : BitVec 4
  deriving DecidableEq, Repr

/-- Loads and stores by tensor coordinates: the group A holds x0-x3, B the identifier (R236, R244). -/
structure LdStTF where
  g : Guard
  d : Reg
  a : Reg
  b : Src
  size : Size
  m : MemMod
  la : BitVec 4
  deriving DecidableEq, Repr

/-- Loads and stores of plot memory (R236, R245). -/
structure LdStPF where
  g : Guard
  d : Reg
  a : Src
  b : Src
  size : Size
  m : MemMod
  la : BitVec 4
  deriving DecidableEq, Repr

/-- PF (R246). -/
structure PfF where
  g : Guard
  a : Reg
  b : Src
  l1 : Bool
  hint : Hint
  deriving DecidableEq, Repr

/-- Atomic operations, MOP code = position (R249). -/
inductive AOp where
  | add | minu | mins | maxu | maxs | and | or | xor | inc | dec | exch | cas | fadd | fmin | fmax
  deriving DecidableEq, Repr

/-- Atomic widths, MTY code = position (R249). -/
inductive AWidth where
  | b32 | b64 | b128 | b256
  deriving DecidableEq, Repr

/-- ATOM (R250): address pair A, operand B. -/
structure AtomF where
  g : Guard
  d : Reg
  a : Reg
  b : Src
  op : AOp
  w : AWidth
  m : MemMod
  la : BitVec 4
  deriving DecidableEq, Repr

/-- ATOMP (R250): plot offset A. -/
structure AtompF where
  g : Guard
  d : Reg
  a : Src
  b : Src
  op : AOp
  w : AWidth
  m : MemMod
  la : BitVec 4
  deriving DecidableEq, Repr

/-- RED (R250): operand D, address A + B. -/
structure RedF where
  g : Guard
  d : Reg
  a : Reg
  b : Src
  op : AOp
  w : AWidth
  m : MemMod
  deriving DecidableEq, Repr

/-- The object operand of BARI, BARA, BARW and BART (R259): a virtual address or a plot offset. -/
inductive BarObj where
  | va (a : Reg)
  | plot (a : Src)
  deriving DecidableEq, Repr

/-- BAR (R254). -/
structure BarF where
  g : Guard
  cnt : Src
  num : BitVec 4
  arv : Bool
  deriving DecidableEq, Repr

/-- BARI and BART: object and one source (R258). -/
structure BarSF where
  g : Guard
  o : BarObj
  b : Src
  hint : Hint
  scope : Scope
  deriving DecidableEq, Repr

/-- BARA: generation destination and object (R258). -/
structure BaraF where
  g : Guard
  d : Reg
  o : BarObj
  hint : Hint
  scope : Scope
  deriving DecidableEq, Repr

/-- BARW: generation destination, object, given generation (R258). -/
structure BarwF where
  g : Guard
  d : BitVec 9
  o : BarObj
  b : Src
  hint : Hint
  scope : Scope
  deriving DecidableEq, Repr

/-- PQPUT (R263). -/
structure PqputF where
  g : Guard
  pd : BitVec 3
  a : Src
  b : Reg
  deriving DecidableEq, Repr

/-- PQTAKE (R263): windows 1, 8, 32, 64. -/
structure PqtakeF where
  g : Guard
  d : Reg
  pb : BitVec 3
  a : Src
  win : BitVec 2
  la : BitVec 4
  deriving DecidableEq, Repr

/-! ## Engine, scheduling, reorder and debug forms (R293, R315, R321, R328, R359, R156, R126, R130) -/

/-- PUSH (R293): queue, first s-register / 16, full predicate (7 for none). -/
structure PushF where
  g : Guard
  q : BitVec 3
  sb : BitVec 4
  pd : BitVec 3
  deriving DecidableEq, Repr

/-- MARD (R315). -/
structure MardF where
  g : Guard
  d : BitVec 9
  slot : BitVec 2
  b : Src
  n1 : BitVec 4
  bf16 : Bool
  la : BitVec 4
  deriving DecidableEq, Repr

/-- RPOP (R321). -/
structure RpopF where
  g : Guard
  d : Reg
  a : Src
  la : BitVec 4
  deriving DecidableEq, Repr

/-- Two sources and no destination: RREL, RPUB, RTINC, EXPF (R321, R328). -/
structure TwoSrcF where
  g : Guard
  a : Src
  b : Src
  deriving DecidableEq, Repr

/-- RCSNAP (R328): the destination pair A, read from the lane its neighbour select names. -/
structure RcsnapF where
  g : Guard
  a : Reg
  an : Neigh
  b : Src
  c : Src
  deriving DecidableEq, Repr

/-- EMIT (R359): the record is n1 + 1 words from B. -/
structure EmitF where
  g : Guard
  pd : BitVec 3
  a : Src
  b : Reg
  n1 : BitVec 6
  deriving DecidableEq, Repr

/-- LAUNCH (R359). -/
structure LaunchF where
  g : Guard
  d : Reg
  a : Reg
  deriving DecidableEq, Repr

/-- SIGNAL (R359). -/
structure SignalF where
  g : Guard
  a : Reg
  b : Src
  deriving DecidableEq, Repr

/-- WAITEV (R359): the threshold is a pair, or a constant or literal sign-extended. -/
structure WaitevF where
  g : Guard
  d : Reg
  a : Reg
  b : Src
  deriving DecidableEq, Repr

/-- PARK.EV (R359). -/
structure ParkEvF where
  g : Guard
  a : Reg
  b : Src
  deriving DecidableEq, Repr

/-- REORDER (R156): key, first payload register, payload count, .TEAM. -/
structure ReorderF where
  g : Guard
  key : Src
  vp : BitVec 9
  n : BitVec 6
  team : Bool
  deriving DecidableEq, Repr

/-- SYSC.CAP (R126, R129). -/
structure SyscF where
  g : Guard
  d : Reg
  b : Src
  deriving DecidableEq, Repr

/-- DBG (R130): result pair D, target pair A; B and C are any source in every sub-operation. -/
structure DbgF where
  g : Guard
  d : Reg
  a : Reg
  b : Src
  c : Src
  deriving DecidableEq, Repr

/-! ## Parameters of the steps of other agents -/

/-- A team: bed, %launchid, %teamid. -/
structure TeamRef where
  bed : Nat
  launch : Nat
  team : Nat
  deriving DecidableEq, Repr

/-- A Riddle bin of a launch in a cluster: the key, prefixed with %teamid under .TEAM (R35). -/
structure BinRef where
  bed : Nat
  launch : Nat
  cluster : Nat
  team : Option Nat
  key : BitVec 16
  deriving DecidableEq, Repr

/-- What the MMP answers a fault request with (R200, R203): the leaf entry it installs, or a refusal. -/
inductive FaultAnswer where
  | backed (entry : Dword)
  | declined
  deriving DecidableEq, Repr

/-- Where an MMP request comes from (R207, R397): the next slot of a bed's service window, or the companion's passed request. -/
inductive ReqSource where
  | window (bed : Nat)
  | companion (bed : Nat)
  deriving DecidableEq, Repr

/-- What a peer's request asks (R360, R403): a read, a write, an atomic of R249, or a remote EMIT of a record of so many words: first
its increment of the count, then, that acknowledged, its record. -/
inductive PeerOp where
  | read (pa : Nat) (n : Nat)
  | write (pa : Nat) (bytes : List Byte)
  | atomic (pa : Nat) (op : AOp) (w : AWidth) (operand : Nat)
  | emitCount (bed inst node words : Nat)
  | emitRecord (bed inst node : Nat) (words : List Word)
  deriving DecidableEq, Repr

/-- A firmware image as Trellis verifies it (R408): whether its signature holds under Aedwell's root key, its security version, and
its bytes as a number, of which attestation gives the digest (R409). -/
structure FwImage where
  signed : Bool
  version : Nat
  body : Nat
  deriving DecidableEq, Repr

/-- A companion access through the device-memory aperture (R402). -/
inductive ApertureOp where
  | read (pa : Nat) (n : Nat)
  | write (pa : Nat) (bytes : List Byte)
  | atomic (pa : Nat) (op : AOp) (w : AWidth) (operand : Nat)
  deriving DecidableEq, Repr

/-- Where a detected uncorrectable error stands: the rows of R385. -/
inductive ErrSite where
  | registers (crew : Nat)
  | teamPlot (t : TeamRef)
  | clusterPlot (bed launch : Nat)
  | riddle (bed launch : Nat)
  | riddleNet (bed launch : Nat)
  | accumulator (t : TeamRef)
  | l1
  | tlb
  | l2Clean
  | l2Dirty (bed : Nat)
  | savedContext (t : TeamRef)
  | bedFrame (bed : Nat)
  | freeFrame (frame : Nat)
  | firmwareFrame
  | coxState
  | command (cmd : Nat)
  deriving DecidableEq, Repr

/-- The links whose exhausted replay is device-fatal (R385). -/
inductive FatalLink where
  | hbm (i : Nat)
  | lpddr (i : Nat)
  | binal
  deriving DecidableEq, Repr

/-! ## The instructions -/

/-- One constructor per row of spec/opcode_table.json, in the table's order. -/
inductive Instr where
  -- control (R121 to R128)
  | nopCompact
  | nop (g : Guard)
  | bra (g : Guard) (off : Off)
  | brx (g : Guard) (a : Reg)
  | call (g : Guard) (d : BitVec 9) (off : Off)
  | ret (g : Guard) (a : Reg)
  | exit (g : Guard)
  | yield (g : Guard)
  | trap (g : Guard) (a : Src)
  | brk (g : Guard) (a : Src)
  | rett (g : Guard)
  -- masks and predicates (R133 to R139)
  | join (g : Guard) (m : BitVec 4)
  | leave (g : Guard) (m : BitVec 4)
  | waitm (g : Guard) (m : BitVec 4)
  | mlop (g : Guard) (d a b tt : BitVec 4)
  | mmov (g : Guard) (f : MmovForm)
  | vote (g : Guard) (f : VoteForm) (pa : BitVec 3) (mb : BitVec 4)
  | elect (g : Guard) (pd : BitVec 3) (ma : BitVec 4)
  | plop (g : Guard) (pd pa pb : BitVec 3) (tt : BitVec 4)
  | pmov (g : Guard) (f : PmovForm)
  -- integer (R140 to R149)
  | iaddCompact (f : CInt)
  | iadd (f : IBin)
  | iadd3 (f : ITri)
  | isubCompact (f : CInt)
  | isub (f : IBin)
  | iaddc (f : IAddcF)
  | imulCompact (f : CInt)
  | imul (f : IBin)
  | imulh (f : IBin)
  | imad (f : ITri)
  | imadw (f : ITri)
  | idiv (f : IDivF)
  | irem (f : IDivF)
  | iminCompact (f : CInt)
  | imin (f : IBin)
  | imaxCompact (f : CInt)
  | imax (f : IBin)
  | iabs (f : IUn)
  | ineg (f : IUn)
  | iset (f : ISetF)
  | sel (f : SelF)
  | lop3 (f : Lop3F)
  | shlCompact (f : CInt)
  | shl (f : IBin)
  | shrCompact (f : CInt)
  | shr (f : IBin)
  | shaCompact (f : CInt)
  | sha (f : IBin)
  | shf (f : ShfF)
  | bfe (f : IBin)
  | bfi (f : BfiF)
  | popc (f : IUn)
  | clz (f : IUn)
  | brev (f : IUn)
  | lea (f : LeaF)
  | idp4 (f : Idp4F)
  -- moves (R150 to R155)
  | movCompact (f : CTwo)
  | mov (f : MovF)
  | movl (f : MovlF)
  | bcast (f : BcastF)
  | rdlane (f : RdlaneF)
  | perm (f : PermF)
  | ixset (g : Guard) (ix : BitVec 2) (f : IxsetForm)
  | ixld (f : IxldF)
  | ixst (f : IxstF)
  | getsr (f : GetsrF)
  | setsr (f : SetsrF)
  -- floating (R160 to R182)
  | faddCompact (f : CFlt)
  | fadd (f : FBin)
  | fmulCompact (f : CFlt)
  | fmul (f : FBin)
  | ffma (f : FTri)
  | fminCompact (f : CTwo)
  | fmin (f : FTwo)
  | fmaxCompact (f : CTwo)
  | fmax (f : FTwo)
  | fset (f : FSetF)
  | fclass (f : FClassF)
  | fscl (f : FTwo)
  | ffrx (f : FFrxF)
  | fceilx (f : FCeilxF)
  | frcp (f : FSpecial)
  | frsq (f : FSpecial)
  | fsqrt (f : FSpecial)
  | fdiv (f : FSpecial2)
  | fex2 (f : FSpecial)
  | flg2 (f : FSpecial)
  | fsin (f : FSpecial)
  | fcos (f : FSpecial)
  | ftanh (f : FSpecial)
  | fex2m (f : FSpecial2)
  | dadd (f : FBin)
  | dmul (f : FBin)
  | dfma (f : FTri)
  | dset (f : FSetF)
  | hadd2Compact (f : CHalf)
  | hadd2 (f : HBin)
  | hmul2Compact (f : CHalf)
  | hmul2 (f : HBin)
  | hfma2 (f : HTri)
  | cvt (f : CvtF)
  | qnt (f : QntF)
  | dqnt (f : DqntF)
  | redl (f : RedlF)
  | scanl (f : ScanlF)
  -- memory (R236 to R264)
  | ld (f : LdStF)
  | st (f : LdStF)
  | lds (f : LdStF)
  | sts (f : LdStF)
  | ldt (f : LdStTF)
  | stt (f : LdStTF)
  | ldp (f : LdStPF)
  | stp (f : LdStPF)
  | pf (f : PfF)
  | cctlIinv (g : Guard) (scope : Scope)
  | cctlShinv (g : Guard) (b : Src) (scope : Scope)
  | cctlL1inv (g : Guard) (scope : Scope)
  | atom (f : AtomF)
  | atomp (f : AtompF)
  | red (f : RedF)
  | fence (g : Guard) (ord : Ord) (scope : Scope)
  | bar (f : BarF)
  | bari (f : BarSF)
  | bara (f : BaraF)
  | barw (f : BarwF)
  | bart (f : BarSF)
  | pqput (f : PqputF)
  | pqtake (f : PqtakeF)
  -- engines (R293 to R328)
  | push (f : PushF)
  | mard (f : MardF)
  | rpop (f : RpopF)
  | rrel (f : TwoSrcF)
  | rpub (f : TwoSrcF)
  | rtinc (f : TwoSrcF)
  | rcsnap (f : RcsnapF)
  | expf (f : TwoSrcF)
  -- scheduling, reorder, system, debug (R359, R156, R126, R130)
  | emit (f : EmitF)
  | launch (f : LaunchF)
  | signal (f : SignalF)
  | waitev (f : WaitevF)
  | ordrel (g : Guard)
  | parkYield (g : Guard)
  | parkEv (f : ParkEvF)
  | reorder (f : ReorderF)
  | sysc (f : SyscF)
  | dbgHalt (f : DbgF)
  | dbgResume (f : DbgF)
  | dbgStep (f : DbgF)
  | dbgRdreg (f : DbgF)
  | dbgWrreg (f : DbgF)
  | dbgSetwp (f : DbgF)
  | dbgGetmask (f : DbgF)
  -- Riddle
  | riddleAgeFlush (bin : BinRef) (pick : Nat)
  | riddleDeferredFlush (bin : BinRef) (pick : Nat)
  -- engine commands: `cmd` is the number of an accepted command; `rows` bounds the row progress of a matrix command
  | mmaDense (cmd rows : Nat)
  | mmaGrouped (cmd rows : Nat)
  | mmaExpand (cmd rows : Nat)
  | mmaAbsorb (cmd rows : Nat)
  | spanGroupTimeout (cmd : Nat)
  | mast (cmd : Nat)
  | mald (cmd : Nat)
  | maz (cmd : Nat)
  | cpy (cmd : Nat)
  | gath (cmd : Nat)
  | scat (cmd : Nat)
  | rake (cmd : Nat)
  | rsub (cmd : Nat)
  | lxw (cmd : Nat)
  | qcast (cmd : Nat)
  | cmrg (cmd : Nat)
  | mergeGroupTimeout (cmd : Nat)
  | patx (cmd : Nat)
  | engineTokenWrite (cmd : Nat)
  | feederFillStart (cmd : Nat)
  | feederFillComplete (cmd : Nat)
  | storerDrainStart (cmd : Nat)
  | storerDrainComplete (cmd : Nat)
  -- the Cox
  | kernelLaunch (bed inlet : Nat)
  | graphStart (bed inlet : Nat)
  | closeRecord (bed inlet : Nat)
  | trayFlush (bed inst node : Nat) (key : Word)
  | dispatch (bed pick : Nat)
  | sliceExpiry (t : TeamRef)
  | parkThresholdExpiry (t : TeamRef)
  | teamWake (t : TeamRef)
  | teamRetire (t : TeamRef)
  -- ports
  | frameReceive (port : Nat) (frame : List Byte) (fcsGood : Bool)
  | heldRecordDelivery (port bed inst node : Nat)
  | ptpMessage (port : Nat) (offset : Int)
  -- MMPs
  | mmpFaultService (bed page : Nat) (answer : FaultAnswer)
  | map (src : ReqSource) (pick : Nat)
  | free (src : ReqSource)
  | share (src : ReqSource)
  | protect (src : ReqSource)
  | migrate (src : ReqSource) (pick : Nat)
  | lookup (src : ReqSource)
  | migrationCommit (bed page : Nat)
  | expertPrefetch (bed expert : Nat) (pick : Nat)
  -- links, companion, errors
  | peerRequest (link peer seq : Nat) (op : PeerOp)
  | hyfinLinkFailure (link : Nat)
  | apertureAccess (op : ApertureOp)
  | mailboxReport (bed : Nat)
  | uncorrectableError (site : ErrSite)
  | linkReplayExhausted (link : FatalLink)
  | watchdogExpiry
  | thermalTrip
  | throttleStep
  | bedIdle (bed : Nat)
  -- Trellis
  | configure
  | bedOn
  | bedOff
  | attest
  | update (image : FwImage)
  | updateComplete
  | reset
  | registerExpert
  | steer
  | mmpRequest
  | registerWrite (offset size : Nat) (data : Nat)
  | powerOn (trellis mmp : FwImage)
  | longLatencyResultWrite (crew lane index : Nat)
  | mmpFirmwareFault (die : Nat)
  | powerLoss
  deriving DecidableEq, Repr

end Sys2Proof
end

