-- ==== Sys2Proof/Machine/State.lean ====
section
/-! DEFINITION. The state of one module (INVENTORY.md, State): plain data, every piece of state the spec gives the machine,
and the machine right after reset (spec/24_outside_rules.md R396 to R412). -/

namespace Sys2Proof.Machine

/-! ## Storage -/

/-- Bytes by address: strictly rising addresses, no entry equal to 0, which an unlisted byte reads as (assumption 3). -/
abbrev Memory := List Host.Cell

/-- What an unlisted word of a bank holds: zero, or undefined words (assumption 4). -/
inductive Base where
  | zero
  | free (seed : Nat)
  deriving DecidableEq, Repr

/-- Words by index: the uniform registers, an accumulator slot, the routing counters. Indices strictly rising. -/
structure Bank where
  base : Base
  cells : List (Nat × Word)
  deriving DecidableEq, Repr

/-- A per-lane register and the step that wrote it (which FENCE.OPND and R227 compare). -/
structure VCell where
  idx : Nat
  val : Word
  stamp : Nat
  deriving DecidableEq, Repr

/-- The per-lane registers of a thread. -/
structure VBank where
  base : Base
  cells : List VCell
  deriving DecidableEq, Repr

/-- Where a byte stands: module memory, host memory, a peer module's memory, team plot, cluster-shared plot (R183, R184). -/
inductive Loc where
  | mod (pa : Nat)
  | host (a : Nat)
  | peer (p pa : Nat)
  | plot (t : TeamRef) (o : Nat)
  | shared (bed launch cluster o : Nat)
  deriving DecidableEq, Repr

/-- What an access needs of its leaf (R200). -/
inductive Right where
  | read | write | atomic | fetch
  deriving DecidableEq, Repr

/-! ## Agents and the order of accesses (13) -/

/-- Who makes an access (R214): a thread, an engine for a command, the Cox, a port, an MMP, the companion processor, a peer
module. `team` stands in clocks only, for every thread of a team. -/
inductive Agent where
  | thread (t : TeamRef) (tid : Nat)
  | cmd (id : Nat)
  | cox
  | port (i : Nat)
  | mmp
  | companion
  | peer (p : Nat)
  | team (t : TeamRef)
  deriving DecidableEq, Repr

/-- What happens before a point (R221): of each agent listed, its accesses up to a step. -/
abbrev Clock := List (Agent × Nat)

/-- The instances of the scopes an agent belongs to at an access (R215): its crew, its team, its cluster, where it has them. -/
structure Home where
  agent : Agent
  cid : Option Nat
  team : Option TeamRef
  cluster : Option Nat
  deriving DecidableEq, Repr

/-- The scope of an access or a fence, and who made it (R216). -/
structure Mark where
  scope : Scope
  home : Home
  deriving DecidableEq, Repr

/-- A release (R218): the scopes of its instruction or fence and of its write, and what happens before it. -/
structure Release where
  marks : List Mark
  seen : Clock
  deriving DecidableEq, Repr

/-- An arrival at a barrier object, in the phase of a GEN (R220). -/
structure Arrival where
  gen : Word
  release : Release
  deriving DecidableEq, Repr

/-- The strong writes of a location (R218): `now`, the releases in whose release sequences its last write stands; `past`, those of
every strong write so far, whose sequences a read-modify-write joins; the arrivals at a barrier object there. -/
structure StrongLoc where
  loc : Loc
  len : Nat
  now : List Release
  past : List Release
  arrivals : List Arrival
  deriving DecidableEq, Repr

/-- Releases that a strong read of an agent has met, which its later FENCE.ACQ or FENCE.FULL acquires (R218). -/
structure Heard where
  mark : Mark
  releases : List Release
  deriving DecidableEq, Repr

/-- What has a clock: an agent; a team, of what every thread of it knows as it is placed; a launch, as its teams start, and as they
retire; a team's commands that have written their tokens; a phase of a team barrier; a token register; a stage of a ring; an element of a priority queue; a node and an
instance, of the teams that have retired from them; a stream (R220). -/
inductive Point where
  | agent (a : Agent)
  | team (t : TeamRef)
  | launch (bed id : Nat)
  | retired (bed id : Nat)
  | commands (t : TeamRef)
  | bar (t : TeamRef) (num phase : Nat)
  | token (cid reg : Nat)
  | stage (t : TeamRef) (h i : Nat)
  | element (bed q seq : Nat)
  | node (bed inst node : Nat)
  | graph (bed inst : Nat)
  | stream (bed inst node : Nat) (key : Word)
  deriving DecidableEq, Repr

/-- A CCTL.IINV, or a CCTL.SHINV of an identifier: its scope, by whom, at which step (R248). -/
structure Purge where
  shape : Option Nat
  bed : Nat
  mark : Mark
  stamp : Nat
  deriving DecidableEq, Repr

/-- A 32-byte sector of a tile line in a core's L1 (R189, R195): its tag, identifier 0 being the linear view; its place in the line;
where its bytes stand, at the virtual address `va`; the bytes; and by whom and at which steps they have been overwritten since,
while the stale line is still there (R196). -/
structure L1Sector where
  cluster : Nat
  core : Nat
  bed : Nat
  id : Nat
  tile : List Nat
  sector : Nat
  va : Nat
  loc : Loc
  data : List Byte
  stale : List (Agent × Nat)
  deriving DecidableEq, Repr

/-! ## Threads (R12, R13, R31, R70, R349) -/

/-- An index register. -/
structure IxReg where
  base : Word
  limit : Word
  cur : Word
  deriving DecidableEq, Repr

/-- How a block is entered, which decides the trap of a word that is no header (R54). `branch`, `rett`: by the transfer at an
address, whose target's page was absent, so that its effect is still to come: the registers CALL writes, the end of handler mode
(R58, R204, R369). `wrreg`: at a PC a debugger wrote, with the block the thread stood at and had not entered, and whether that is a
region entry whatever its RH (R370, R377). -/
inductive EntryKind where
  | fall | enter
  | wrreg (block : Option (Dword × Bool))
  | branch (at_ : Dword) (due : List (Nat × Word))
  | rett (at_ : Dword)
  deriving DecidableEq, Repr

/-- A request for a page a lane waits for (R203): page index VA / 64 KiB, the right needed, whether it asks for that right on a
valid leaf with FW (R200). -/
structure PageReq where
  page : Nat
  right : Right
  fw : Bool
  deriving DecidableEq, Repr

/-- The MMP's answer to a request: the page, whether it is backed, whether the request asked for a right, and for which (R200,
R203). -/
structure PageAns where
  page : Nat
  backed : Bool
  fw : Bool
  right : Right
  deriving DecidableEq, Repr

/-- An object that a thread waits on: virtual memory of a bed, where it is looked up at each reading (R261), or plot memory. -/
inductive Obj where
  | va (bed a : Nat)
  | plot (l : Loc)
  deriving DecidableEq, Repr

/-- Why a thread does not issue (R31). `waitm`: the mask and the length of the WAITM. `bar`: the barrier and the phase it
awaits. `barw`, `waitev`: the object, the condition and the cycles waited. `token`, `reg`, `ring`, `queue`, `migr`: the
scoreboard (a token, a REDL result, a ring stage, a full queue, a migrating page). `cox`: a page that the Cox needs to decide a
LAUNCH (R332). `parked`: fault-parked. `trap`: R371. `step`: a DBG.STEP of a team
that goes on, this lane's own or an earlier one (R376). `halt`: this lane's DBG.HALT of a team, whose last register writes are
not made (R373). -/
inductive Wait where
  | none
  | waitm (m len : Nat)
  | bar (num phase : Nat)
  | barw (o : Obj) (gen : Word) (cycles : Nat)
  | waitev (o : Obj) (threshold cycles : Nat)
  | token (r : Nat)
  | reg
  | ring (h : Nat)
  | queue (q : Nat)
  | migr (page : Nat)
  | cox (page : Nat)
  | parked (pages : List PageReq)
  | trap
  | step (t : TeamRef) (mine : Bool)
  | halt (t : TeamRef)
  deriving DecidableEq, Repr

/-- Results of a long-latency instruction not yet written (R70): the step that issued it, instructions left of its window, its
block, the writes and the flags it raises as it completes (R108). A uniform one is in flight in every lane that issued it, its
writes in the lowest. -/
structure Pend where
  id : Nat
  left : Nat
  hdr : Dword
  v : List (Nat × Word)
  s : List (Nat × Word)
  fl : Word
  deriving DecidableEq, Repr

/-- A REDL or SCANL not yet released (R181), and the step that issued it. -/
structure RedPend where
  id : Nat
  m : Nat
  op : RedOp
  d : Nat
  scan : Bool
  incl : Bool
  pc : Dword
  value : Word
  left : Nat
  hdr : Dword
  deriving DecidableEq, Repr

/-- The per-thread part of a region checkpoint (R349, R370). -/
structure Ckpt where
  pc : Dword
  lv : Nat
  v : VBank
  p : BitVec 7
  ix : List IxReg
  handler : Bool
  redl : Option RedPend
  deriving DecidableEq, Repr

/-- A release fence as its thread executed it (R218, R226): its scope and where the thread stood, whether it is a FENCE.OPND, its
step, and what happens before it. -/
structure FenceMark where
  mark : Mark
  opnd : Bool
  stamp : Nat
  seen : Clock
  deriving DecidableEq, Repr

/-- A live thread in a lane of a crew. `pc` is the header address while the thread stands at its block's header (R395); `entry` is
a block entry whose header has not been fetched; `answered` are the MMP's answers for the instruction at `pc`; `ret` the value of an
atomic at `pc` that was held while its page migrated and has been performed (R209); `fences` its latest release fence of each kind at
each scope from each place; `exempt` the accesses Watchpoints were taken at (R380); `skip` the groups issued without it while it was
ready (R16). -/
structure Thread where
  team : Nat
  tid : Nat
  pc : Dword
  hdr : Dword
  hdrW : Dword
  entry : Option EntryKind
  v : VBank
  p : BitVec 7
  ix : List IxReg
  rkey : Word
  handler : Bool
  wait : Wait
  pend : List Pend
  redl : Option RedPend
  ck : Ckpt
  skip : Nat
  exempt : List Dword
  answered : List PageAns
  ret : Option Nat
  fences : List FenceMark
  deriving DecidableEq, Repr

/-! ## Crews (R12, R13, R22, R79, R107, R349, R368) -/

/-- The crew-level part of a region checkpoint (R349, R370). `toks`: the token registers a restart keeps whatever LS (R300). -/
structure CrewCkpt where
  ls : Nat
  s : Bank
  toks : List Nat
  masks : List LaneMask
  tcause : Word
  tpc : Dword
  tval : Word
  tmask : LaneMask
  deriving DecidableEq, Repr

/-- A crew in a slot. `cid` is the model's own name of it, rising with its age (R348); `owner` the team that claimed the slot
(R28). m0 is not stored: it follows from the lanes (R22). `tokens` are the pending token registers, `errs` the written ones
whose error mark stands (R299, R304), `tokRegs` the registers an engine wrote or will write last (R300). `rest`: the second half
of a converged crew of width 64 whose first half has issued (R17). `moves`: the clusters it has stood in, each with the step at which
it came there, the latest first (R215). -/
structure Crew where
  cid : Nat
  bed : Nat
  launch : Nat
  owner : Nat
  cluster : Nat
  core : Nat
  slot : Nat
  age : Nat
  lanes : List (Option Thread)
  s : Bank
  masks : List LaneMask
  fflags : Word
  tcause : Word
  tpc : Dword
  tval : Word
  tmask : LaneMask
  tokens : List Nat
  errs : List Nat
  tokRegs : List Nat
  ck : CrewCkpt
  yielded : Bool
  starve : Nat
  rest : List Nat
  moves : List (Nat × Nat)
  deriving DecidableEq, Repr

/-! ## Teams, launches, graphs, the pool (19) -/

/-- A kernel descriptor (R88): widths and sizes as the Cox rounds them (R9). -/
structure Kernel where
  entry : Dword
  handler : Dword
  width : Nat
  crews : Nat
  pair : Bool
  vregs : Nat
  acc : Nat
  plot : Nat
  cplot : Nat
  deriving DecidableEq, Repr

/-- A team barrier: arrivals, phase count, phases completed (R254). -/
structure Barrier where
  a : Nat
  c : Nat
  phase : Nat
  deriving DecidableEq, Repr

/-- An armed watchpoint unit (R132, R379). -/
structure Watch where
  unit : Nat
  plot : Bool
  rd : Bool
  wr : Bool
  len : Nat
  base : Dword
  deriving DecidableEq, Repr

/-- Where a resident team stands (R28): its cluster, its cores, the crew slots it claimed. -/
structure Place where
  cluster : Nat
  cores : List Nat
  claims : List (Nat × Nat)
  deriving DecidableEq, Repr

/-- An accumulator slot: the index of the core among the team's cores, the name, the 96 x 192 words (R267). -/
structure AccSlot where
  core : Nat
  name : Nat
  bank : Bank
  deriving DecidableEq, Repr

/-- A wait condition of a parked team (R356). -/
inductive Cond where
  | event (o : Obj) (threshold : Nat)
  | object (o : Obj) (gen : Word)
  deriving DecidableEq, Repr

/-- How a team leaves its cores (R352, R355, R364): pre-empted, with the entry time it takes in the pool, or parked on
conditions. -/
inductive Leaving where
  | preempt (time : Nat)
  | park (conds : List Cond)
  deriving DecidableEq, Repr

/-- A group that a crew issued for a DBG.STEP, at a step, whose REDL or SCANL is not released yet (R376). -/
structure Stepped where
  cid : Nat
  lanes : List Nat
  pc : Dword
  id : Nat
  deriving DecidableEq, Repr

/-- A team that has been placed at least once or that DBG has named, until it retires. `stepping`: the crews whose one group for a
DBG.STEP is not done, `stepped`: those of them that have issued it (R376). `leaving`: it leaves as soon as its DRAINING stages have finished (R287). `unit`: the number of
the unit it left in, 0 when alone (R48, R272, R283); `lastCores`: the cores it stood on last. -/
structure Team where
  ref : TeamRef
  place : Option Place
  started : Bool
  exited : Nat
  plot : Memory
  bars : List Barrier
  acc : List AccSlot
  halted : Bool
  stepping : List Nat
  stepped : List Stepped
  haltAtPlace : Bool
  attached : Bool
  watches : List Watch
  slice : Nat
  placeTime : Nat
  entryTime : Nat
  released : Bool
  parked : Bool
  saved : List Crew
  conds : List Cond
  leaving : Option Leaving
  unit : Nat
  lastCores : List Nat
  deriving DecidableEq, Repr

/-- The graph firing a launch came from (R338): instance, node, stream key under ORD, delivered records. -/
structure Firing where
  inst : Nat
  node : Nat
  key : Option Word
  recs : List (List Byte)
  deriving DecidableEq, Repr

/-- A launch that has not completed (R330, R333). `held`: not in the pool before its stream's predecessor releases it (R342).
`ublkAddr`: a firing's template not read yet (R338). `mixed`: clusters in which it has executed REORDER without .TEAM (R48).
`failed`: its threads are stopped, and it ends once its commands have (R388). -/
structure Launch where
  bed : Nat
  id : Nat
  kernel : Kernel
  teams : Nat
  prio : Nat
  rfl : Nat
  parkt : Nat
  slice : Nat
  dbg : Bool
  stat : Dword
  event : Dword
  tag : Word
  irq : Bool
  tev : Bool
  ublk : List Word
  ublkAddr : Option Dword
  firing : Option Firing
  begun : List Nat
  retired : Nat
  mixed : List Nat
  held : Bool
  entryTime : Nat
  failed : Bool
  deriving DecidableEq, Repr

/-- A record in a tray, the cycles it has been held (R337), and what happens before it (R220). -/
structure Rec where
  bytes : List Byte
  age : Nat
  seen : Clock
  deriving DecidableEq, Repr

/-- A node of a graph instance (R335), its tray, its unretired teams, and for each stream the launches not yet released, oldest
first (R342). -/
structure Node where
  kernel : Kernel
  rsz : Nat
  coal : Nat
  flush : Nat
  prio : Nat
  ord : Bool
  keyoff : Nat
  ublk : Dword
  nevent : Dword
  nirq : Bool
  tcap : Nat
  rpoff : Nat
  tray : List Rec
  fired : Nat
  streams : List (Word × List Nat)
  deriving DecidableEq, Repr

/-- A graph instance (R334, R339). -/
structure Graph where
  bed : Nat
  inst : Nat
  nodes : List Node
  count : Nat
  hold : Bool
  dbg : Bool
  rfl : Nat
  parkt : Nat
  slice : Nat
  stat : Dword
  event : Dword
  tag : Word
  irq : Bool
  deriving DecidableEq, Repr

/-- A ready-pool entry (R344): a launch with unplaced teams (`team` none) or a team. `passes` counts pass-overs (R345). -/
structure PoolEntry where
  bed : Nat
  launch : Nat
  team : Option Nat
  time : Nat
  passes : Nat
  deriving DecidableEq, Repr

/-! ## Riddle (R34 to R47) -/

/-- A binned thread: key, payload from v[vp], arrival number, cycles waited, whether it is due to leave (R38);
`cluster` is none while its team is not resident. -/
structure Binned where
  bed : Nat
  launch : Nat
  cluster : Option Nat
  bin : Option Nat
  key : BitVec 16
  team : Nat
  tid : Nat
  pc : Dword
  vp : Nat
  payload : List Word
  seq : Nat
  waited : Nat
  due : Bool
  exempt : List Dword
  fences : List FenceMark
  deriving DecidableEq, Repr

/-! ## Engines (16, 17) -/

/-- The walk of a ring subscription (R286, R320): direction, stage count, stage size, the page list, tiles, cursor. -/
structure Walk where
  hdr : Nat
  out : Bool
  nstg : Nat
  stsz : Nat
  list : Option Dword
  shape : Nat
  start : List Nat
  steps : List (List Int)
  counts : List Nat
  tiles : Nat
  cursor : Nat
  deriving DecidableEq, Repr

/-- A command accepted and whose token is not written (R266, R294). `stamp`: the step of its PUSH; `fence`: the latest
FENCE.OPND of the pushing thread at each scope; `rows`: captured A registers; `rp`: row progress (R271); `status`: set when the
command ends; `update`: the bytes of the transfer update still to be made (R260); `arrived`: the command has joined its span or merge
group, whose members `group` lists; `desc`: the group table or cache descriptor as it was read; `partial_`: a captured softmax
partial; `waits`: pages it waits for; `answered`: the MMP's answers to it (R200, R205); `resume`: its team has been placed again
and the engine has not resumed it (R272); `issue`: the cluster it was issued in (R215); `left`: registers of its crew's lanes
as their threads, or the whole crew, left since the PUSH (R227); `away`: its team has left, in the departure
of that number, and `cluster` and `core` say where it stood (R272, R283). -/
structure Cmd where
  id : Nat
  bed : Nat
  launch : Nat
  team : Nat
  tid : Nat
  cid : Nat
  cluster : Nat
  core : Nat
  queue : Nat
  words : List Word
  stamp : Nat
  m0 : LaneMask
  fences : List FenceMark
  rows : Option (List (List Word))
  rp : Nat
  entry : Nat
  status : Option Nat
  count : Nat
  update : Option Nat
  cycles : Nat
  arrived : Bool
  group : List Nat
  desc : List Word
  partial_ : List (List Word)
  walk : Option Walk
  waits : List PageReq
  answered : List PageAns
  resume : Bool
  issue : Nat
  left : List (Nat × VBank)
  away : Option Nat
  deriving DecidableEq, Repr

/-- A weight slot of a cluster's LXS (R277): its tag and its BF16 words. -/
structure LxsSlot where
  cluster : Nat
  slot : Nat
  bed : Nat
  launch : Nat
  addr : Dword
  dh : Nat
  data : List (BitVec 16)
  deriving DecidableEq, Repr

/-- A store to a range of plot memory, which a FENCE.OPND must cover (R226): where, how long, by whom, at which step. -/
structure PlotMark where
  bed : Nat
  launch : Nat
  team : Option Nat
  cluster : Nat
  off : Nat
  len : Nat
  home : Home
  stamp : Nat
  deriving DecidableEq, Repr

/-! ## Memory system (11) -/

/-- Code held in a core's instruction path (R78): a doubleword as it was fetched, and the step it was last fetched at. -/
structure CodeCopy where
  cluster : Nat
  core : Nat
  bed : Nat
  addr : Nat
  data : Dword
  stamp : Nat
  deriving DecidableEq, Repr

/-- A half of a shape record held by a cluster (R194), and the step it was last read at. -/
structure ShapeCopy where
  cluster : Nat
  bed : Nat
  id : Nat
  half : Nat
  data : List Byte
  stamp : Nat
  deriving DecidableEq, Repr

/-- What a write does to the bytes of its place: sets them; an atomic or a reduction; an arrival at a barrier object, or the
addition to its XFER that BART and a transfer update make (R249, R258). -/
inductive WriteOp where
  | bytes (data : List Byte)
  | atomic (op : AOp) (w : AWidth) (operand : Nat)
  | arrive
  | transfer (n : Word)
  deriving DecidableEq, Repr

/-- The order of a strong write (R214, R218): its scope and who makes it, the releases it carries, whether it is a read-modify-write,
whether that acquires, with .RMT, and whether it arrives at a barrier object (R220). -/
structure Strong where
  mark : Mark
  own : List Release
  rmw : Bool
  acq : Bool
  rmt : Bool
  arrival : Bool
  deriving DecidableEq, Repr

/-- A write as its agent makes it. -/
structure Write where
  op : WriteOp
  who : Agent
  strong : Option Strong
  deriving DecidableEq, Repr

/-- A write held for a migrating page, at an offset in it (R209); with `reply`, its thread waits for the value it returns. -/
structure Held where
  off : Nat
  write : Write
  reply : Bool
  deriving DecidableEq, Repr

/-- A page being migrated: its address, the shift of its size, the kind and place of the frame it moves to, the writes held in
order of arrival, the request it answers, none for the prefetcher (R209, R292). -/
structure Migration where
  bed : Nat
  va : Nat
  psz : Nat
  kind : Nat
  newPa : Nat
  held : List Held
  reply : Option ReqSource
  deriving DecidableEq, Repr

/-- A page the Cox has asked the MMP for, the right it needs and whether it asks for that (R200), and the MMP's answer (R332, R333,
R357). -/
structure CoxWait where
  bed : Nat
  page : Nat
  right : Right
  fw : Bool
  answer : Option Bool
  deriving DecidableEq, Repr

/-- What a completion makes the Cox do outside itself (R333, R357): write bytes, add 1 to an event object, send a message. -/
inductive CoxAct where
  | write (a : Dword) (bs : List Byte)
  | add (a : Dword)
  | message (kind id aux : Nat) (tag : Word)
  deriving DecidableEq, Repr

/-- Such acts, in order, that wait for a page; what happens before the completion they tell of (R220). -/
structure CoxPost where
  bed : Nat
  acts : List CoxAct
  seen : Clock
  deriving DecidableEq, Repr

/-- A frame in use: physical address / 64 KiB and its reference count (R208). -/
structure Frame where
  frame : Nat
  refs : Nat
  deriving DecidableEq, Repr

/-! ## Beds (24) -/

/-- A priority queue (R262): elements (key, value, sequence number) and the next number. -/
structure PQueue where
  elems : List (Word × Word × Nat)
  next : Nat
  deriving DecidableEq, Repr

/-- A report of R384 not yet written. -/
structure Report where
  launch : Nat
  team : Nat
  tid : Nat
  crew : Nat
  cluster : Nat
  core : Nat
  kind : Nat
  cause : Nat
  tval : Word
  tmask : LaneMask
  tpc : Dword
  deriving DecidableEq, Repr

/-- A registered expert (R292, R397): first page, pages, standing. -/
structure Expert where
  num : Nat
  va : Dword
  pages : Nat
  standing : Nat
  deriving DecidableEq, Repr

/-- A bed block (R398) as the companion writes it. -/
structure BedBlock where
  clus : BitVec 48
  hbmBase : Dword
  hbmSize : Dword
  capBase : Dword
  capSize : Dword
  shape : Dword
  mbox : Dword
  inlet : Dword
  irq : Dword
  prio : Word
  pq : Word
  ports : Word
  pstate : Word
  deriving DecidableEq, Repr

/-- A bed: its block, whether it is on, configured and fenced, its page table (root and table frames), its frames in use, the
16 inlets (one memory of 8 KiB), the next %launchid, routing counters, priority queues, reports waiting, consumed requests
(HEAD of R206), requests the companion passed (R397), experts, and whether its clusters' clocks are stopped (R400). -/
structure Bed where
  block : BedBlock
  on : Bool
  configured : Bool
  fenced : Bool
  root : Nat
  tables : List Nat
  frames : List Frame
  hostFrames : List Frame
  inlets : Memory
  nextLaunch : Nat
  counters : Bank
  pqs : List PQueue
  reports : List Report
  head : Nat
  passed : List Dword
  experts : List Expert
  idle : Bool
  deriving DecidableEq, Repr

/-! ## Ports, links, the module (24) -/

/-- A record a port holds for a full tray (R341, R406), and what happens before it (R220). -/
structure HeldRec where
  bed : Nat
  inst : Nat
  node : Nat
  bytes : List Byte
  seen : Clock
  deriving DecidableEq, Repr

/-- An Ethernet port: its 64 rules, frames steered by each, held records, its PTP clock, the offset it slews away in units of
2^-16 ns and the frequency trim in parts per million at which it does (R404 to R407). -/
structure Port where
  rules : List (BitVec 512)
  steered : List Nat
  held : List HeldRec
  sec : Nat
  ns : Nat
  frac : Nat
  slew : Int
  trim : Int
  holdover : Bool
  deriving DecidableEq, Repr

/-- A Hyfin Link: the peer it reaches and whether it is up (R403). -/
structure Link where
  peer : Nat
  up : Bool
  deriving DecidableEq, Repr

/-- A request of a peer performed (R403): the peer, its number, the 256-byte block it names. -/
structure PeerSeq where
  peer : Nat
  seq : Nat
  block : Nat
  deriving DecidableEq, Repr

/-- Physical addresses of a peer that belong to a bed it has fenced (R389). -/
structure PeerFence where
  peer : Nat
  lo : Nat
  hi : Nat
  deriving DecidableEq, Repr

/-- An interrupt message written to a bed's IRQ address (R401). -/
structure Message where
  bed : Nat
  addr : Dword
  data : BitVec 128
  deriving DecidableEq, Repr

/-- A record sent to a peer module's tray (R360). -/
structure PeerRecord where
  peer : Nat
  inst : Nat
  node : Nat
  words : List Word
  deriving DecidableEq, Repr

/-- The image of a section of the dump: its bytes, or bytes whose layout the spec does not give (assumption 4). -/
inductive Image where
  | bytes (m : Memory)
  | free (seed : Nat)
  deriving DecidableEq, Repr

/-- A section of the dump (R392). -/
structure Section_ where
  type : Nat
  unit : Nat
  bed : Nat
  offset : Nat
  length : Nat
  image : Image
  deriving DecidableEq, Repr

/-- What the dump region holds (R391, R392). -/
structure Dump where
  cause : Nat
  die : Nat
  detail : Nat
  cycle : Nat
  done : Bool
  sections : List Section_
  deriving DecidableEq, Repr

/-- A cluster-shared plot claim of a launch (R28, R29). -/
structure SharedPlot where
  bed : Nat
  launch : Nat
  cluster : Nat
  mem : Memory
  deriving DecidableEq, Repr

/-! ## Moves and the issue group -/

/-- Who moves next (assumption 1): a partition issues for a crew, at a PC; another agent takes a step; cycles pass; the
companion writes an inlet or host memory; a core's instruction path takes in a doubleword of code ahead of its fetch (R78); the
module's sensors read power, temperatures and coolant (R396, R411); an error is corrected (R386); a peer fences or frees a range
of its memory (R389); a peer's own agents write its memory (R234); a line of an L1 is removed, that of the n-th sector listed (R196);
Trellis reports a power trip (R390). -/
inductive Move where
  | issue (cid : Nat) (pc : Dword)
  | event (i : Instr)
  | tick (n : Nat)
  | inlet (bed : Nat) (off : Nat) (data : List Byte)
  | host (addr : Nat) (data : List Byte)
  | prefetch (cluster core bed : Nat) (addr : Dword)
  | sense (power package die coolant inlet : Nat)
  | corrected (row : Nat)
  | peerFence (f : PeerFence) (on : Bool)
  | peer (p pa : Nat) (data : List Byte)
  | dropLine (n : Nat)
  | powerTrip
  deriving DecidableEq, Repr

/-- The issue group that executes (R15): its crew, lanes in ascending order, the instruction's address and length in words,
the header of its block. -/
structure Group where
  cid : Nat
  lanes : List Nat
  pc : Dword
  hdr : Dword
  hdrW : Dword
  len : Nat
  deriving DecidableEq, Repr

/-- The state of one module. -/
structure State where
  -- the model's own: who moves next, the group executing, the step number from which free values and choices are drawn
  agenda : List Move
  cur : Option Group
  fresh : Nat
  -- crews, teams and the Cox
  crews : List Crew
  teams : List Team
  launches : List Launch
  graphs : List Graph
  pool : List PoolEntry
  bins : List Binned
  binSeq : Nat
  nextCid : Nat
  -- engines
  cmds : List Cmd
  nextCmd : Nat
  lxs : List LxsSlot
  plotMarks : List PlotMark
  -- the order of accesses: what happens before what, and the releases that strong reads may meet
  clocks : List (Point × Clock)
  strong : List StrongLoc
  heard : List Heard
  fulls : List Release
  purges : List Purge
  -- memory; `orphans`: a bed and a page asked of the MMP for lanes since discarded (R204)
  mem : Memory
  host : Memory
  peers : List (Nat × Memory)
  shared : List SharedPlot
  l1 : List L1Sector
  code : List CodeCopy
  shapes : List ShapeCopy
  migrations : List Migration
  retired : List Nat
  coxWaits : List CoxWait
  posts : List CoxPost
  orphans : List (Nat × Nat)
  -- beds, ports, links
  beds : List Bed
  ports : List Port
  links : List Link
  seqs : List PeerSeq
  peerFences : List PeerFence
  sent : List PeerRecord
  -- the module
  modState : Nat
  power : Nat
  packagePower : Nat
  inletTemp : Nat
  dieTemp : Nat
  coolant : Nat
  dumpap : Dword
  devap : Dword
  cmdReg : BitVec 512
  cstat : Word
  cdone : Bool
  errcnt : List Nat
  clock : Nat
  stopped : List Nat
  stepDowns : Nat
  mmpImage : FwImage
  trellisImage : FwImage
  update : Option (Nat × FwImage)
  dump : Option Dump
  messages : List Message
  deriving DecidableEq, Repr

/-! ## Reasons to stop -/

/-- Why a step faults. -/
inductive Fault where
  /-- Raised by the meaning of an instruction word when no issue group stands ready to execute it: the step always forms one
  first, so no step raises it. Safe: the hardware never executes an instruction without a group (R15). -/
  | noIssueGroup
  deriving DecidableEq, Repr

/-- Why an instruction is refused. -/
inductive Refusal where
  /-- Raised by an arm of `exec` whose instruction has no meaning yet. Safe: nothing follows from it. -/
  | notModelled (mnemonic : String)
  deriving DecidableEq, Repr

/-! ## Reset -/

/-- A bed block nothing has been written to (assumption 2). -/
def BedBlock.reset : BedBlock :=
  { clus := 0, hbmBase := 0, hbmSize := 0, capBase := 0, capSize := 0, shape := 0, mbox := 0, inlet := 0, irq := 0, prio := 0,
    pq := 0, ports := 0, pstate := 0 }

/-- A bed that is off (R412). -/
def Bed.reset : Bed :=
  { block := BedBlock.reset, on := false, configured := false, fenced := false, root := 0, tables := [], frames := [],
    hostFrames := [], inlets := [], nextLaunch := 1, counters := ⟨.zero, []⟩, pqs := [], reports := [], head := 0,
    passed := [], experts := [], idle := false }

/-- A port at reset: no valid rule (assumption 2). -/
def Port.reset : Port :=
  { rules := List.replicate 64 0, steered := List.replicate 64 0, held := [], sec := 0, ns := 0, frac := 0, slew := 0, trim := 0,
    holdover := false }

/-- The firmware the model names before an image has been verified (assumption 2). -/
def noImage : FwImage := { signed := false, version := 0, body := 0 }

/-- The module right after reset: STATE 0, every bed off, CSTAT status 0 with DONE set (R396, R397, R412). -/
def State.reset : State :=
  { agenda := [], cur := none, fresh := 0, crews := [], teams := [], launches := [], graphs := [], pool := [], bins := [],
    binSeq := 0, nextCid := 0, cmds := [], nextCmd := 0, lxs := [], plotMarks := [], clocks := [], strong := [], heard := [], fulls := [], purges := [],
    mem := [], host := [], peers := [],
    shared := [], l1 := [], code := [], shapes := [], migrations := [], retired := [], coxWaits := [], posts := [], orphans := [],
    beds := List.replicate 8 Bed.reset,
    ports := List.replicate 4 Port.reset, links := List.replicate 18 { peer := 0, up := false }, seqs := [],
    peerFences := [], sent := [], modState := 0, power := 0, packagePower := 0, inletTemp := 0, dieTemp := 0,
    coolant := 0, dumpap := 0, devap := 0, cmdReg := 0, cstat := 0, cdone := true,
    errcnt := List.replicate 40 0, clock := 0, stopped := List.replicate 48 0, stepDowns := 0, mmpImage := noImage,
    trellisImage := noImage, update := none, dump := none, messages := [] }

end Sys2Proof.Machine
end

