-- ==== Sys2Proof/Machine/Bits.lean ====
section
/-! DEFINITION. Byte order (spec/00_scope.md R3), bit fields, and updates of lists by position. -/

namespace Sys2Proof.Machine

/-! ## Bytes -/

/-- The little-endian value of bytes (R3). -/
def leNat : List Byte → Nat
  | [] => 0
  | b :: t => b.toNat + 256 * leNat t

/-- The n little-endian bytes of a value (R3). -/
def natBytes : Nat → Nat → List Byte
  | 0, _ => []
  | n + 1, x => BitVec.ofNat 8 x :: natBytes n (x / 256)

/-- The bytes of words, in register order (R238). -/
def wordsBytes (ws : List Word) : List Byte := ws.flatMap fun w => natBytes 4 w.toNat

/-- The words of bytes, in register order; a last piece shorter than a word is zero-extended. -/
def bytesWords : List Byte → List Word
  | b0 :: b1 :: b2 :: b3 :: t => BitVec.ofNat 32 (leNat [b0, b1, b2, b3]) :: bytesWords t
  | [] => []
  | l => [BitVec.ofNat 32 (leNat l)]

/-- A field of a little-endian value: `n` bits from bit `lo`. -/
def field (x lo n : Nat) : Nat := x / 2 ^ lo % 2 ^ n

/-- One bit of a value. -/
def bit (x i : Nat) : Bool := x / 2 ^ i % 2 == 1

/-- The value of words, the first lowest. -/
def wordsNat : List Word → Nat
  | [] => 0
  | w :: t => w.toNat + 2 ^ 32 * wordsNat t

/-- The pair of a 64-bit value: the even register holds bits [31:0] (R3). -/
def lo32 (x : Dword) : Word := x.extractLsb' 0 32
def hi32 (x : Dword) : Word := x.extractLsb' 32 32
def pair64 (lo hi : Word) : Dword := hi ++ lo

/-- An address is canonical (R183). -/
def canonical (a : Dword) : Bool := a.sshiftRight 55 == 0 || a.sshiftRight 55 == BitVec.allOnes 64

/-- 2^k for the least k with 2^k ≥ n, as k (for n up to 2^16). -/
def log2up (n : Nat) : Nat := go 20 0
where
  go : Nat → Nat → Nat
  | 0, k => k
  | f + 1, k => if n ≤ 2 ^ k then k else go f (k + 1)

/-- Round up to a multiple. -/
def roundUp (n m : Nat) : Nat := (n + m - 1) / m * m

/-! ## Lane masks -/

/-- The mask of a list of lanes. -/
def maskOf (ls : List Nat) : LaneMask := ls.foldl (fun m l => m ||| (1#64 <<< l)) 0

/-- The lanes of a mask, ascending, below `w`. -/
def lanesOf (w : Nat) (m : LaneMask) : List Nat := (List.range w).filter fun l => m.getLsbD l

/-- Set or clear one bit. -/
def putBit {w : Nat} (m : BitVec w) (i : Nat) (b : Bool) : BitVec w :=
  if b then m ||| (1#w <<< i) else m &&& ~~~(1#w <<< i)

/-! ## Lists -/

/-- Replace the elements that satisfy `p`. -/
def mapIf {α : Type} (p : α → Bool) (f : α → α) (l : List α) : List α := l.map fun x => if p x then f x else x

/-- Change the element at a position. -/
def modifyAt {α : Type} (l : List α) (i : Nat) (f : α → α) : List α :=
  match l, i with
  | [], _ => []
  | x :: t, 0 => f x :: t
  | x :: t, i + 1 => x :: modifyAt t i f

/-- The least of a nonempty list of numbers, 0 for the empty list. -/
def leastNat : List Nat → Nat
  | [] => 0
  | x :: t => t.foldl min x

/-- Insert in ascending order of a key, after equals. -/
def insertBy {α : Type} (key : α → Nat) (x : α) : List α → List α
  | [] => [x]
  | y :: t => if key x < key y then x :: y :: t else y :: insertBy key x t

/-- Sort by a key, keeping the order of equals. -/
def sortBy {α : Type} (key : α → Nat) (l : List α) : List α := l.foldl (fun acc x => insertBy key x acc) []

end Sys2Proof.Machine
end

