-- ==== Sys2Proof/Machine/Flags.lean ====
section
/-! DEFINITION. Narrowing of exact integers (spec/05_arithmetic_rules.md R94, R116, R120) and the floating flags (R107). -/

namespace Sys2Proof.Machine

/-! ## Integers -/

/-- An n-bit pattern as an unsigned or a two's-complement integer (R120). -/
def toInt (sgn : Bool) (n : Nat) (x : Nat) : Int :=
  if sgn && bit x (n - 1) then (x : Int) - 2 ^ n else (x : Int)

/-- x reduced modulo 2^n, as a pattern (R116). -/
def wrapNat (x : Int) (n : Nat) : Nat := (x % (2 ^ n : Nat)).toNat

/-- x clamped to the signed or unsigned n-bit range, as a pattern (R116). -/
def satNat (sgn : Bool) (x : Int) (n : Nat) : Nat :=
  let lo : Int := if sgn then -(2 ^ (n - 1) : Nat) else 0
  let hi : Int := if sgn then (2 ^ (n - 1) : Nat) - 1 else (2 ^ n : Nat) - 1
  wrapNat (max lo (min hi x)) n

/-- The destination pattern of an exact integer (R94, R120). -/
def narrow (sat sgn : Bool) (x : Int) (n : Nat) : Nat := if sat then satNat sgn x n else wrapNat x n

/-- Quotient and remainder with the cases of R95, as n-bit patterns. -/
def divNat (sgn : Bool) (n : Nat) (a b : Nat) : Nat :=
  if b = 0 then 2 ^ n - 1 else wrapNat (Int.tdiv (toInt sgn n a) (toInt sgn n b)) n

def remNat (sgn : Bool) (n : Nat) (a b : Nat) : Nat :=
  if b = 0 then a else wrapNat (Int.tmod (toInt sgn n a) (toInt sgn n b)) n

/-! ## Floating flags (R107) -/

def flagNV : Word := 1
def flagDZ : Word := 2
def flagOF : Word := 4
def flagUF : Word := 8
def flagNX : Word := 16
def flagDF : Word := 32

end Sys2Proof.Machine
end

