-- ==== Sys2Proof/Machine/Float.lean ====
section
/-! DEFINITION. Floating formats, decoding, one rounding of an exact value, flushes and flags
(spec/05_arithmetic_rules.md R96 to R106), the arithmetic of the floating instructions (R112, R113,
spec/09_float_instructions.md R161 to R169). A value is exact until it is rounded: a sign, a natural mantissa, an exponent,
and whether a positive remainder below the last bit was dropped. -/

namespace Sys2Proof.Machine

/-! ## Formats (R96, R98, R99) -/

/-- How a format uses its largest exponent: infinities and NaN, one NaN pattern, or neither. -/
inductive FmtTop where
  | ieee | oneNan | none
  deriving DecidableEq, Repr

/-- A floating format. -/
structure Fmt where
  e : Nat
  t : Nat
  bias : Nat
  top : FmtTop
  deriving DecidableEq, Repr

def f64 : Fmt := ⟨11, 52, 1023, .ieee⟩
def f32 : Fmt := ⟨8, 23, 127, .ieee⟩
def f16 : Fmt := ⟨5, 10, 15, .ieee⟩
def bf16 : Fmt := ⟨8, 7, 127, .ieee⟩
def e5m2 : Fmt := ⟨5, 2, 15, .ieee⟩
def e4m3 : Fmt := ⟨4, 3, 7, .oneNan⟩
def e2m1 : Fmt := ⟨2, 1, 1, .none⟩
/-- UE5M3 has no sign bit: its patterns are those of a positive value (R99). -/
def ue5m3 : Fmt := ⟨5, 3, 15, .oneNan⟩

def Fmt.signed (f : Fmt) : Bool := f != ue5m3

def Fmt.width (f : Fmt) : Nat := (if f.signed then 1 else 0) + f.e + f.t

/-- The canonical NaN (R96, R97); +0 in a format without one (R104). -/
def Fmt.nan (f : Fmt) : Nat :=
  match f.top with
  | .ieee => (2 ^ f.e - 1) * 2 ^ f.t + 2 ^ (f.t - 1)
  | .oneNan => 2 ^ (f.e + f.t) - 1
  | .none => 0

def Fmt.signBit (f : Fmt) (neg : Bool) : Nat := if neg then 2 ^ (f.e + f.t) else 0

/-- The largest finite value as n x 2^q. -/
def Fmt.maxN (f : Fmt) : Nat := if f.top == .oneNan then 2 ^ (f.t + 1) - 2 else 2 ^ (f.t + 1) - 1
def Fmt.maxQ (f : Fmt) : Int := (2 ^ f.e - (if f.top == .ieee then 2 else 1) : Nat) - (f.bias : Int) - f.t

/-- The exponent of the smallest normal value. -/
def Fmt.emin (f : Fmt) : Int := 1 - (f.bias : Int)

/-- The pattern of the largest finite magnitude, and of infinity. -/
def Fmt.largest (f : Fmt) : Nat :=
  match f.top with
  | .ieee => (2 ^ f.e - 1) * 2 ^ f.t - 1
  | .oneNan => 2 ^ (f.e + f.t) - 2
  | .none => 2 ^ (f.e + f.t) - 1

def Fmt.inf (f : Fmt) : Nat := if f.top == .ieee then (2 ^ f.e - 1) * 2 ^ f.t else f.largest

/-! ## Values -/

/-- An exact number: (-1)^neg x (m + d) x 2^e, with 0 < d < 1 when `st` and d = 0 otherwise. -/
structure Exact where
  neg : Bool
  m : Nat
  e : Int
  st : Bool
  deriving DecidableEq, Repr

/-- A decoded source. -/
inductive Val where
  | nan (sig : Bool)
  | inf (neg : Bool)
  | num (x : Exact)
  deriving DecidableEq, Repr

def Exact.zero (neg : Bool) : Exact := ⟨neg, 0, 0, false⟩

/-- An integer as an exact number. -/
def Exact.ofInt (x : Int) : Exact := ⟨decide (x < 0), x.natAbs, 0, false⟩

def Exact.isZero (x : Exact) : Bool := x.m == 0 && !x.st

/-- The value of a pattern (R96). -/
def Fmt.decode (f : Fmt) (w : Nat) : Val :=
  let neg := bit w (f.e + f.t)
  let e := field w f.t f.e
  let t := field w 0 f.t
  let top := decide (e = 2 ^ f.e - 1)
  if f.top == .ieee && top then (if t = 0 then .inf neg else .nan (!bit t (f.t - 1)))
  else if f.top == .oneNan && top && decide (t = 2 ^ f.t - 1) then .nan false
  else if e = 0 then .num ⟨neg, t, f.emin - f.t, false⟩
  else .num ⟨neg, 2 ^ f.t + t, (e : Int) - f.bias - f.t, false⟩

/-- A subnormal pattern. -/
def Fmt.isSubnormal (f : Fmt) (w : Nat) : Bool := field w f.t f.e == 0 && field w 0 f.t != 0

/-- FZI: a subnormal source becomes a zero of its sign, with DF (R105). -/
def Fmt.flushIn (f : Fmt) (fz : Bool) (w : Nat) : Nat × Word :=
  if fz && f.isSubnormal w then (f.signBit (bit w (f.e + f.t)), flagDF) else (w, 0)

/-- A pattern and the flags it came with. -/
structure FRes where
  bits : Nat
  fl : Word
  deriving DecidableEq, Repr

/-! ## Rounding (R101, R102, R105) -/

def bitLen (n : Nat) : Nat := if n = 0 then 0 else Nat.log2 n + 1

/-- Move the magnitude up to the next integer: by mode, sign, last bit, and how the remainder compares with a half. -/
def roundUp? (rm : Rm) (neg odd : Bool) (half : Ordering) (inexact : Bool) : Bool :=
  match rm with
  | .rn => match half with
    | .lt => false
    | .gt => true
    | .eq => odd
  | .rz => false
  | .ru => inexact && !neg
  | .rd => inexact && neg

/-- The integer n for which n x 2^q is the rounded magnitude, and whether it differs from the exact one. -/
def roundAt (rm : Rm) (x : Exact) (q : Int) : Nat × Bool :=
  if q ≤ x.e then (x.m * 2 ^ (x.e - q).toNat + (if roundUp? rm x.neg false .lt x.st then 1 else 0), x.st)
  else
    let d := (q - x.e).toNat
    let n := x.m / 2 ^ d
    let r := x.m % 2 ^ d
    let h := 2 ^ (d - 1)
    let half : Ordering := if r < h then .lt else if r = h then (if x.st then .gt else .eq) else .gt
    let inexact := r != 0 || x.st
    (n + (if roundUp? rm x.neg (n % 2 == 1) half inexact then 1 else 0), inexact)

/-- The magnitude n x 2^q is beyond the largest finite value. -/
def Fmt.beyond (f : Fmt) (n : Nat) (q : Int) : Bool := decide (f.maxQ < q) || (q == f.maxQ && decide (f.maxN < n))

/-- The pattern of a magnitude n x 2^q that the format represents. -/
def Fmt.pattern (f : Fmt) (n : Nat) (q : Int) : Nat :=
  let (n, q) := if n = 2 ^ (f.t + 1) then (2 ^ f.t, q + 1) else (n, q)
  if n < 2 ^ f.t then n else (q + f.t + f.bias).toNat * 2 ^ f.t + (n - 2 ^ f.t)

/-- The result beyond the largest finite value (R102). -/
def Fmt.overflow (f : Fmt) (rm : Rm) (neg : Bool) : Nat :=
  let toInf := match rm with
    | .rn => true
    | .rz => false
    | .ru => !neg
    | .rd => neg
  f.signBit neg + (if f.top == .ieee && toInf then f.inf else f.largest)

/-- The magnitude after rounding with unbounded exponent range is nonzero and below the smallest normal (R105). -/
def Fmt.tiny (f : Fmt) (rm : Rm) (x : Exact) : Bool :=
  let lead : Int := x.e + bitLen x.m - 1
  if f.emin ≤ lead then false
  else if lead < f.emin - 1 then true
  else (roundAt rm x (lead - f.t)).1 != 2 ^ (f.t + 1)

/-- One rounding of an exact value, the flush of FZO, and the flags (R101, R102, R105); of a negative one in a format with no sign, NaN
(R99). -/
def Fmt.round (f : Fmt) (rm : Rm) (fzo : Bool) (x : Exact) : FRes :=
  if !f.signed && x.neg then ⟨f.nan, flagNV⟩
  else if x.isZero then ⟨f.signBit x.neg, 0⟩
  else
    let lead : Int := x.e + bitLen x.m - 1
    let q := max lead f.emin - f.t
    let (n, inexact) := roundAt rm x q
    let tiny := f.tiny rm x
    if f.beyond n q then ⟨f.overflow rm x.neg, flagOF ||| flagNX⟩
    else if fzo && tiny then ⟨f.signBit x.neg, flagUF ||| flagNX⟩
    else ⟨f.signBit x.neg + f.pattern n q, (if inexact then flagNX else 0) ||| (if inexact && tiny then flagUF else 0)⟩

/-- The integer n for which n x 2^q is the magnitude under stochastic rounding, and whether it differs from the exact one
(R103). -/
def stochAt (q16 : Nat) (x : Exact) (q : Int) : Nat × Bool :=
  let (lo, inexact) := roundAt .rz x q
  if !inexact then (lo, false)
  else
    let d := (q - x.e).toNat
    (if 65536 ≤ x.m % 2 ^ d * 65536 / 2 ^ d + q16 then lo + 1 else lo, true)

/-- Stochastic rounding by a 16-bit word (R103), with the flush and the flags of R105. -/
def Fmt.roundSr (f : Fmt) (q16 : Nat) (fzo : Bool) (x : Exact) : FRes :=
  if !f.signed && x.neg then ⟨f.nan, flagNV⟩
  else if x.isZero then ⟨f.signBit x.neg, 0⟩
  else
    let lead : Int := x.e + bitLen x.m - 1
    let q := max lead f.emin - f.t
    let (n, inexact) := stochAt q16 x q
    let tiny := decide (lead < f.emin - 1) || (decide (lead < f.emin) && (stochAt q16 x (lead - f.t)).1 != 2 ^ (f.t + 1))
    if f.beyond n q then ⟨f.overflow .rn x.neg, flagOF ||| flagNX⟩
    else if fzo && tiny then ⟨f.signBit x.neg, flagUF ||| flagNX⟩
    else ⟨f.signBit x.neg + f.pattern n q, (if inexact then flagNX else 0) ||| (if inexact && tiny then flagUF else 0)⟩

/-! ## Exact operations -/

/-- What an operation gives before rounding: NaN or infinity with its flags, or an exact number. -/
inductive Raw where
  | nan (fl : Word)
  | inf (neg : Bool) (fl : Word)
  | num (x : Exact)
  deriving DecidableEq, Repr

def Fmt.finish (f : Fmt) (rm : Rm) (fzo : Bool) : Raw → FRes
  | .nan fl => ⟨f.nan, fl⟩
  | .inf neg fl => if f.signed then ⟨f.signBit neg + f.inf, fl⟩ else ⟨f.nan, fl ||| flagNV⟩
  | .num x => f.round rm fzo x

def Val.isNan : Val → Bool
  | .nan _ => true
  | .inf _ => false
  | .num _ => false

def Val.isSig : Val → Bool
  | .nan s => s
  | .inf _ => false
  | .num _ => false

/-- NV of signalling sources (R97). -/
def sigFlags (vs : List Val) : Word := if vs.any (·.isSig) then flagNV else 0

/-- The exact sum; a zero sum follows the signs of its operands (R101). -/
def addExact (rm : Rm) (a b : Exact) : Exact :=
  let e := min a.e b.e
  let ma : Int := (a.m * 2 ^ (a.e - e).toNat : Nat)
  let mb : Int := (b.m * 2 ^ (b.e - e).toNat : Nat)
  let s := (if a.neg then -ma else ma) + (if b.neg then -mb else mb)
  if s = 0 then Exact.zero (if a.neg == b.neg then a.neg else rm == .rd)
  else ⟨decide (s < 0), s.natAbs, e, false⟩

def mulExact (a b : Exact) : Exact := ⟨a.neg != b.neg, a.m * b.m, a.e + b.e, false⟩

/-- a / b for nonzero b, to 80 bits and more below the leading one. -/
def divExact (a b : Exact) : Exact :=
  let k := 80 + bitLen b.m
  let n := a.m * 2 ^ k
  ⟨a.neg != b.neg, n / b.m, a.e - b.e - k, n % b.m != 0⟩

def mulRaw (a b : Val) : Raw :=
  match a, b with
  | .nan s, _ => .nan (if s || b.isSig then flagNV else 0)
  | _, .nan s => .nan (if s then flagNV else 0)
  | .inf p, .inf q => .inf (p != q) 0
  | .inf p, .num y => if y.isZero then .nan flagNV else .inf (p != y.neg) 0
  | .num x, .inf q => if x.isZero then .nan flagNV else .inf (x.neg != q) 0
  | .num x, .num y => .num (mulExact x y)

/-- A product or a sum met by one more addend. -/
def addRaw (rm : Rm) (a : Raw) (c : Val) : Raw :=
  match a, c with
  | .nan fl, c => .nan (fl ||| sigFlags [c])
  | .inf _ _, .nan s => .nan (if s then flagNV else 0)
  | .num _, .nan s => .nan (if s then flagNV else 0)
  | .inf p fl, .inf q => if p == q then .inf p fl else .nan flagNV
  | .inf p fl, .num _ => .inf p fl
  | .num _, .inf q => .inf q 0
  | .num x, .num y => .num (addExact rm x y)

def Val.raw : Val → Raw
  | .nan s => .nan (if s then flagNV else 0)
  | .inf p => .inf p 0
  | .num x => .num x

def Raw.val : Raw → Val
  | .nan _ => .nan false
  | .inf p _ => .inf p
  | .num x => .num x

/-- Division (R106, R169). DEDUCED (assumption 62): an exactly zero quotient has the exclusive-or of the signs. -/
def divRaw (a b : Val) : Raw :=
  match a, b with
  | .nan s, _ => .nan (if s || b.isSig then flagNV else 0)
  | _, .nan s => .nan (if s then flagNV else 0)
  | .inf _, .inf _ => .nan flagNV
  | .inf p, .num y => .inf (p != y.neg) 0
  | .num x, .inf q => .num (Exact.zero (x.neg != q))
  | .num x, .num y =>
    if y.isZero then (if x.isZero then .nan flagNV else .inf (x.neg != y.neg) flagDZ)
    else if x.isZero then .num (Exact.zero (x.neg != y.neg)) else .num (divExact x y)

/-- The order of two exact numbers without remainder. -/
def Exact.cmp (a b : Exact) : Ordering :=
  let e := min a.e b.e
  let ma : Int := (a.m * 2 ^ (a.e - e).toNat : Nat)
  let mb : Int := (b.m * 2 ^ (b.e - e).toNat : Nat)
  compare (if a.neg then -ma else ma) (if b.neg then -mb else mb)

/-- The order of two numbers, infinities included; none with a NaN. -/
def Val.cmp : Val → Val → Option Ordering
  | .nan _, _ => none
  | _, .nan _ => none
  | .inf p, .inf q => some (compare (if p then (-1 : Int) else 1) (if q then -1 else 1))
  | .inf p, .num _ => some (if p then .lt else .gt)
  | .num _, .inf q => some (if q then .gt else .lt)
  | .num x, .num y => some (x.cmp y)

/-- The sign of a value. -/
def Val.neg : Val → Bool
  | .nan _ => false
  | .inf p => p
  | .num x => x.neg

/-- a is ordered below b, with -0 below +0 (R106). -/
def Val.below (a b : Val) : Bool :=
  match a.cmp b with
  | some .lt => true
  | some .eq => a.neg && !b.neg
  | some .gt => false
  | none => false

/-- minimumNumber or maximumNumber of two patterns (R106, R163): a pattern returned unchanged, flushed under FZO. -/
def Fmt.minmax (f : Fmt) (isMax fzo : Bool) (a b : Nat) : FRes :=
  let va := f.decode a
  let vb := f.decode b
  let fl := sigFlags [va, vb]
  let pick := if va.isNan then (if vb.isNan then f.nan else b)
    else if vb.isNan then a
    else if isMax then (if va.below vb then b else a) else (if vb.below va then b else a)
  if fzo && f.isSubnormal pick then ⟨f.signBit (bit pick (f.e + f.t)), fl ||| flagUF ||| flagNX⟩ else ⟨pick, fl⟩

/-! ## Whole operations on patterns (R161) -/

/-- Sources flushed under FZI and decoded. -/
def Fmt.sources (f : Fmt) (fzi : Bool) (ws : List Nat) : List Val × Word :=
  (ws.map fun w => f.decode (f.flushIn fzi w).1, ws.foldl (fun fl w => fl ||| (f.flushIn fzi w).2) 0)

def FRes.withFlags (r : FRes) (fl : Word) : FRes := { r with fl := r.fl ||| fl }

def Fmt.add (f : Fmt) (rm : Rm) (fzi fzo : Bool) (a b : Nat) : FRes :=
  match f.sources fzi [a, b] with
  | ([x, y], df) => (f.finish rm fzo (addRaw rm x.raw y)).withFlags df
  | _ => ⟨0, 0⟩

def Fmt.mul (f : Fmt) (rm : Rm) (fzi fzo : Bool) (a b : Nat) : FRes :=
  match f.sources fzi [a, b] with
  | ([x, y], df) => (f.finish rm fzo (mulRaw x y)).withFlags df
  | _ => ⟨0, 0⟩

def Fmt.fma (f : Fmt) (rm : Rm) (fzi fzo : Bool) (a b c : Nat) : FRes :=
  match f.sources fzi [a, b, c] with
  | ([x, y, z], df) => (f.finish rm fzo (addRaw rm (mulRaw x y) z)).withFlags df
  | _ => ⟨0, 0⟩

def Fmt.div (f : Fmt) (rm : Rm) (fzi fzo : Bool) (a b : Nat) : FRes :=
  match f.sources fzi [a, b] with
  | ([x, y], df) => (f.finish rm fzo (divRaw x y)).withFlags df
  | _ => ⟨0, 0⟩

/-- round_rne of a sum and of a product sum, FP32 patterns, without flags: the engines' and the tree unit's additions. -/
def add32 (a b : Nat) : Nat := (f32.add .rn false false a b).bits
def fma32 (a b c : Nat) : Nat := (f32.fma .rn false false a b c).bits

/-- FSCL (R112): n is the exact integer exponent added. -/
def fscl (fzi fzo : Bool) (x : Nat) (n : Int) : FRes :=
  let (w, df) := f32.flushIn fzi x
  match f32.decode w with
  | .nan s => ⟨f32.nan, df ||| (if s then flagNV else 0)⟩
  | .inf p => ⟨f32.signBit p + f32.inf, df⟩
  | .num v =>
    if v.isZero then ⟨w, df⟩
    else
      let n := max (-1000) (min 1000 n)
      (f32.round .rn fzo { v with e := v.e + n }).withFlags df

/-! ## Roots, powers, logarithms and circular functions (R167 to R169): fixed-point integers of 280 fraction bits -/

/-- The integer square root: the largest r with r x r at most n, for n below 2^(2 x bits). -/
def isqrt (bits n : Nat) : Nat := go bits 0
where
  go : Nat → Nat → Nat
  | 0, r => r
  | k + 1, r => let c := r + 2 ^ k
    if c * c ≤ n then go k c else go k r

/-- An exact square root of a positive number, to 90 bits and more. -/
def sqrtExact (x : Exact) : Exact :=
  let odd := x.e % 2 != 0
  let m := (if odd then 2 * x.m else x.m) * 2 ^ 200
  let e := (if odd then x.e - 1 else x.e) - 200
  let r := isqrt 130 m
  ⟨false, r, e / 2, r * r != m⟩

/-- An exact reciprocal square root of a positive number. -/
def rsqrtExact (x : Exact) : Exact :=
  let odd := x.e % 2 != 0
  let m := if odd then 2 * x.m else x.m
  let e := if odd then x.e - 1 else x.e
  let r := isqrt 130 (2 ^ 240 / m)
  ⟨false, r, -(e / 2) - 120, r * r * m != 2 ^ 240⟩

/-- Fraction bits of the fixed-point values. -/
def fixBits : Nat := 280

/-- ln 2 and pi, floor of their 2^280-fold. -/
def fixLn2 : Nat := 0xb17217f7d1cf79abc9e3b39803f2f6af40f343267298b62d8a0d175b8baafa2be7b876
def fixPi : Nat := 0x3243f6a8885a308d313198a2e03707344a4093822299f31d0082efa98ec4e6c89452821

def fixMul (a b : Nat) : Nat := a * b / 2 ^ fixBits

/-- The exponential series: e^t for t below 1. -/
def fixExp (t : Nat) : Nat := go 80 1 (2 ^ fixBits) 0
where
  go : Nat → Nat → Nat → Nat → Nat
  | 0, _, _, acc => acc
  | f + 1, n, term, acc => go f (n + 1) (fixMul term t / n) (acc + term)

/-- 2^f for a fixed-point fraction f below 1. -/
def fixPow2 (f : Nat) : Nat := fixExp (fixMul f fixLn2)

/-- The inverse hyperbolic tangent of z at most 1/3. -/
def fixAtanh (z : Nat) : Nat := go 96 1 z 0
where
  z2 : Nat := fixMul z z
  go : Nat → Nat → Nat → Nat → Nat
  | 0, _, _, acc => acc
  | f + 1, n, p, acc => go f (n + 2) (fixMul p z2) (acc + p / n)

/-- The sine and the cosine series of an angle at most pi/2: the sums of the positive and of the negative terms. -/
def fixSeries (start : Nat) (first t2 : Nat) : Nat := go 48 start first 0 0 false
where
  go : Nat → Nat → Nat → Nat → Nat → Bool → Nat
  | 0, _, _, pos, neg, _ => pos - neg
  | f + 1, n, term, pos, neg, sub =>
    let next := fixMul term t2 / ((n + 1) * (n + 2))
    if sub then go f (n + 2) next pos (neg + term) false else go f (n + 2) next (pos + term) neg true

def fixSin (t : Nat) : Nat := fixSeries 1 t (fixMul t t)
def fixCos (t : Nat) : Nat := fixSeries 0 (2 ^ fixBits) (fixMul t t)

/-- A number as an integer part and a fraction of 280 bits, toward minus infinity; exact when the fraction fits. -/
def floorFrac (x : Exact) : Int × Nat :=
  let n : Int := if 0 ≤ x.e + fixBits then ((x.m * 2 ^ (x.e + fixBits).toNat : Nat) : Int)
    else ((x.m / 2 ^ (-(x.e + fixBits)).toNat : Nat) : Int)
  let n := if x.neg then -n else n
  (n / (2 ^ fixBits : Nat), (n % (2 ^ fixBits : Nat)).toNat)

/-- 2^(i + f). -/
def pow2Exact (i : Int) (f : Nat) : Exact :=
  if f = 0 then ⟨false, 1, i, false⟩ else ⟨false, fixPow2 f, i - fixBits, true⟩

/-- 2^x of an exact number: far beyond the range the exponent alone decides. -/
def exp2Exact (x : Exact) : Exact :=
  if x.isZero then ⟨false, 1, 0, false⟩
  else if 12 < x.e + bitLen x.m then
    (if x.neg then ⟨false, 2 ^ 100, -5000, true⟩ else ⟨false, 2 ^ 100, 5000, true⟩)
  else let (i, f) := floorFrac x; pow2Exact i f

/-- log2 of a positive number. -/
def log2Exact (x : Exact) : Exact :=
  let k : Int := x.e + bitLen x.m - 1
  if x.m = 2 ^ (bitLen x.m - 1) then Exact.ofInt k
  else
    let one := 2 ^ fixBits
    let u := x.m * one / 2 ^ (bitLen x.m - 1)
    let z := (u - one) * one / (u + one)
    let l := 2 * fixAtanh z * one / fixLn2
    let v : Int := k * (one : Nat) + l
    ⟨decide (v < 0), v.natAbs, -(fixBits : Int), true⟩

/-- sin(2 pi r) for a fraction r of a turn, 0 < r < 1 and no multiple of 1/4: sign, then magnitude. -/
def sinTurn (r : Nat) : Exact :=
  let quarter := 2 ^ (fixBits - 2)
  let q := r / quarter
  let r0 := r % quarter
  let t := 2 * fixMul r0 fixPi
  let v := if q % 2 = 0 then fixSin t else fixCos t
  ⟨decide (2 ≤ q), v, -(fixBits : Int), true⟩

/-- FSIN: exact points first (R169). -/
def sinExact (x : Exact) : Exact :=
  if x.isZero then x
  else
    let (_, r) := floorFrac x
    let quarter := 2 ^ (fixBits - 2)
    if r = 0 ∨ r = 2 * quarter then Exact.zero false
    else if r = quarter then ⟨false, 1, 0, false⟩
    else if r = 3 * quarter then ⟨true, 1, 0, false⟩
    else sinTurn r

/-- FCOS: cos(2 pi a) = sin(2 pi (a + 1/4)); a tiny a is just below 1 (R169). -/
def cosExact (x : Exact) : Exact :=
  if x.isZero then ⟨false, 1, 0, false⟩
  else if x.e + bitLen x.m < -60 then ⟨false, 2 ^ 100 - 1, -100, true⟩
  else
    let (_, r) := floorFrac x
    let quarter := 2 ^ (fixBits - 2)
    let r := (r + quarter) % 2 ^ fixBits
    if r = 0 ∨ r = 2 * quarter then Exact.zero false
    else if r = quarter then ⟨false, 1, 0, false⟩
    else if r = 3 * quarter then ⟨true, 1, 0, false⟩
    else sinTurn r

/-- tanh a: below |a| x (1 - 2^-100) for a tiny a; from |a| = 16 on between 1 - 2^-40 and 1, which have no FP32 value between them;
else (1 - E) / (1 + E) with E = e^(-2|a|). -/
def tanhExact (x : Exact) : Exact :=
  if x.isZero then x
  else if x.e + bitLen x.m < -60 then ⟨x.neg, x.m * 2 ^ 100 - 1, x.e - 100, true⟩
  else if 4 < x.e + bitLen x.m then ⟨x.neg, 2 ^ 100 - 1, -100, true⟩
  else
    let one := 2 ^ fixBits
    let a := (floorFrac { x with neg := false })
    let w := 2 * (a.1.toNat * one + a.2) * one / fixLn2
    let i := w / one
    let f := w % one
    let e := fixPow2 (one - f) / 2 ^ (i + 1)
    ⟨x.neg, (one - e) * one / (one + e), -(fixBits : Int), true⟩

/-- The one-source special functions of a decoded FP32 source, before rounding. -/
def frcpRaw (v : Val) : Raw := divRaw (.num ⟨false, 1, 0, false⟩) v

def frsqRaw : Val → Raw
  | .nan s => .nan (if s then flagNV else 0)
  | .inf p => if p then .nan flagNV else .num (Exact.zero false)
  | .num x => if x.isZero then .inf x.neg flagDZ else if x.neg then .nan flagNV else .num (rsqrtExact x)

def fsqrtRaw : Val → Raw
  | .nan s => .nan (if s then flagNV else 0)
  | .inf p => if p then .nan flagNV else .inf false 0
  | .num x => if x.isZero then .num x else if x.neg then .nan flagNV else .num (sqrtExact x)

def fex2Raw : Val → Raw
  | .nan s => .nan (if s then flagNV else 0)
  | .inf p => if p then .num (Exact.zero false) else .inf false 0
  | .num x => .num (exp2Exact x)

def flg2Raw : Val → Raw
  | .nan s => .nan (if s then flagNV else 0)
  | .inf p => if p then .nan flagNV else .inf false 0
  | .num x => if x.isZero then .inf true flagDZ else if x.neg then .nan flagNV else .num (log2Exact x)

def fsinRaw : Val → Raw
  | .nan s => .nan (if s then flagNV else 0)
  | .inf _ => .nan flagNV
  | .num x => .num (sinExact x)

def fcosRaw : Val → Raw
  | .nan s => .nan (if s then flagNV else 0)
  | .inf _ => .nan flagNV
  | .num x => .num (cosExact x)

def ftanhRaw : Val → Raw
  | .nan s => .nan (if s then flagNV else 0)
  | .inf p => .num ⟨p, 1, 0, false⟩
  | .num x => .num (tanhExact x)

/-- FEX2M: 2^(x - M) with the difference exact (R112). -/
def fex2mRaw (v : Val) (m : Int) : Raw :=
  match v with
  | .nan s => .nan (if s then flagNV else 0)
  | .inf p => if p then .num (Exact.zero false) else .inf false 0
  | .num x => .num (exp2Exact (addExact .rn x (Exact.ofInt (-m))))

/-- A correctly rounded special function (R168). -/
def special (rm : Rm) (fzi fzo : Bool) (g : Val → Raw) (a : Nat) : FRes :=
  let (w, df) := f32.flushIn fzi a
  (f32.finish rm fzo (g (f32.decode w))).withFlags df

/-- A faithfully rounded one: toward one of the two neighbours, a fixed choice for each input (R168; assumption 56). -/
def faithful (op : Nat) (fzi fzo : Bool) (g : Val → Raw) (a : Word) : FRes :=
  special (if Config.faithfulUp op a then .ru else .rd) fzi fzo g a.toNat

/-! ## Exponent instructions (R112, R166) -/

/-- FCEILX. -/
def fceilx (fzi : Bool) (a : Nat) : FRes :=
  let (w, df) := f32.flushIn fzi a
  match f32.decode w with
  | .nan _ => ⟨0x80000000, df ||| flagNV⟩
  | .inf p => ⟨if p then 0x80000000 else 0x7FFFFFFF, df ||| flagNV⟩
  | .num x =>
    let (n, inexact) := roundAt .rz x 0
    let v : Int := if x.neg then -(n : Int) else if inexact then (n : Int) + 1 else n
    if 0x7FFFFFFF < v then ⟨0x7FFFFFFF, df ||| flagNV⟩
    else if v < -0x80000000 then ⟨0x80000000, df ||| flagNV⟩
    else ⟨wrapNat v 32, df⟩

/-- FFRX. -/
def ffrx (exp fzi : Bool) (a : Nat) : FRes :=
  let (w, df) := f32.flushIn fzi a
  match f32.decode w with
  | .nan s => if exp then ⟨0x80000000, df ||| flagNV⟩ else ⟨f32.nan, df ||| (if s then flagNV else 0)⟩
  | .inf p => if exp then ⟨0x7FFFFFFF, df ||| flagNV⟩ else ⟨f32.signBit p + f32.inf, df⟩
  | .num x =>
    if x.isZero then ⟨if exp then 0 else w, df⟩
    else if exp then ⟨wrapNat (x.e + bitLen x.m - 1) 32, df⟩
    else (f32.round .rn false { x with e := -((bitLen x.m : Int) - 1) }).withFlags df

/-! ## Conversion (R98, R104, R173, R174) -/

/-- The floating format of a CVT code. -/
def cvtFloat : CvtFmt → Option Fmt
  | .f32 => some f32 | .f64 => some f64 | .f16 => some f16 | .bf16 => some bf16
  | .e5m2 => some e5m2 | .e4m3 => some e4m3 | .e2m1 => some e2m1
  | .e8m0 => none | .s8 => none | .u8 => none | .s16 => none | .u16 => none | .s32 => none | .u32 => none
  | .s64 => none | .u64 => none

/-- Signedness and width of an integer CVT code. -/
def cvtInt : CvtFmt → Option (Bool × Nat)
  | .s8 => some (true, 8) | .u8 => some (false, 8) | .s16 => some (true, 16) | .u16 => some (false, 16)
  | .s32 => some (true, 32) | .u32 => some (false, 32) | .s64 => some (true, 64) | .u64 => some (false, 64)
  | .f32 => none | .f64 => none | .f16 => none | .bf16 => none | .e5m2 => none | .e4m3 => none | .e2m1 => none
  | .e8m0 => none

/-- E8M0 (R98). -/
def decodeE8m0 (c : Nat) : Val := if c % 256 = 255 then .nan false else .num ⟨false, 1, (c % 256 : Nat) - 127, false⟩

/-- Any floating value to E8M0 (R104): the nearest power of two under rm, a tie at 1.5 x 2^k to the even code. -/
def toE8m0 (rm : Rm) : Val → FRes
  | .nan _ => ⟨255, flagNV⟩
  | .inf _ => ⟨255, flagNV⟩
  | .num x =>
    if x.isZero || x.neg then ⟨255, flagNV⟩
    else
      let len := bitLen x.m
      let k : Int := x.e + len - 1
      let code := k + 127
      let exact := decide (x.m = 2 ^ (len - 1)) && !x.st
      let three := 3 * 2 ^ (len - 1)
      let half : Ordering := compare (2 * x.m) three
      let half := if half == .eq && x.st then .gt else half
      let up := !exact && roundUp? rm false (code % 2 != 0) half (!exact)
      let code := if up then code + 1 else code
      if code < 0 then ⟨0, flagUF ||| flagNX⟩
      else if 254 < code then ⟨254, flagOF ||| flagNX⟩
      else ⟨code.toNat, if exact then 0 else flagNX⟩

/-- A floating value to an integer (R104). -/
def toIntFmt (rm : Rm) (sgn : Bool) (n : Nat) : Val → FRes
  | .nan _ => ⟨0, flagNV⟩
  | .inf p => ⟨satNat sgn (if p then -(2 ^ 200 : Nat) else (2 ^ 200 : Nat)) n, flagNV⟩
  | .num x =>
    let (m, inexact) := roundAt rm x 0
    let v : Int := if x.neg then -(m : Int) else m
    if (satNat sgn v n : Int) == (wrapNat v n : Int) && toInt sgn n (wrapNat v n) == v then
      ⟨wrapNat v n, if inexact then flagNX else 0⟩
    else ⟨satNat sgn v n, flagNV⟩

/-- The source of a conversion: a floating value, or an integer. -/
def cvtDecode (src : CvtFmt) (fzi : Bool) (w : Nat) : Val × Word :=
  match cvtFloat src with
  | some f => let (w, df) := f.flushIn fzi w; (f.decode w, df)
  | none => match cvtInt src with
    | some (sgn, n) => (.num (Exact.ofInt (toInt sgn n (w % 2 ^ n))), 0)
    | none => (decodeE8m0 w, 0)

/-- The conversion step of CVT (R104, R174): `q` is the stochastic word of .SR. DEDUCED (assumption 62): integer 0 becomes +0 in
every rounding mode. -/
def convert (dst src : CvtFmt) (rm : Rm) (q : Option Nat) (f62 fzo : Bool) (w : Nat) : FRes :=
  match cvtInt src, cvtInt dst with
  | some (sa, na), some (sb, nb) => ⟨narrow f62 sb (toInt sa na (w % 2 ^ na)) nb, 0⟩
  | _, _ =>
    let (v, df) := cvtDecode src f62 w
    let r : FRes := match cvtFloat dst with
      | some f => match v with
        | .nan s => ⟨f.nan, if s || f.top == .none then flagNV else 0⟩
        | .inf p => ⟨f.signBit p + f.inf, if f.top == .ieee then 0 else flagNV⟩
        | .num x => match q with
          | some q => f.roundSr q fzo x
          | none => f.round rm fzo x
      | none => match cvtInt dst with
        | some (sgn, n) => toIntFmt rm sgn n v
        | none => toE8m0 rm v
    r.withFlags df

/-! ## Block formats (R100, R177 to R179) -/

/-- The element format of a block format. -/
def blockElem : BlockFmt → Fmt
  | .sb8e4 => e4m3 | .sb8e5 => e5m2 | .sb4 => e2m1 | .nb4 => e2m1

/-- The product of a decoded element and its scales (R100). -/
def scaled (e s : Val) (g : Option Val) : Val :=
  match e, s, g with
  | .nan _, _, _ => .nan false
  | _, .nan _, _ => .nan false
  | _, _, some (.nan _) => .nan false
  | a, b, none => (mulRaw a b).val
  | a, b, some c => (mulRaw (mulRaw a b).val c).val

/-- The least integer k with x at most E x 2^k, for a positive x without remainder. -/
def leastShift (x big : Exact) : Int :=
  let k0 : Int := (x.e + bitLen x.m) - (big.e + bitLen big.m)
  if x.cmp { big with e := big.e + (k0 - 1) } != .gt then k0 - 1
  else if x.cmp { big with e := big.e + k0 } != .gt then k0 else k0 + 1

end Sys2Proof.Machine
end

