-- ==== Sys2Proof/Machine/Mem.lean ====
section
/-! DEFINITION. Memories and register banks as canonical lists (assumption 3): reading and writing one place, and runs of
bytes; the memory a location names (spec/11_memory_rules.md R183 to R187, spec/24_outside_rules.md R402). -/

namespace Sys2Proof.Machine

/-! ## Memory -/

/-- The byte at an address: 0 where nothing is listed. -/
def Memory.get : Memory → Nat → Byte
  | [], _ => 0
  | (a, b) :: t, x => if x = a then b else Memory.get t x

/-- The memory with one byte written; a zero is not listed. -/
def Memory.set : Memory → Nat → Byte → Memory
  | [], x, b => if b = 0 then [] else [(x, b)]
  | (a, c) :: t, x, b =>
    if x < a then (if b = 0 then (a, c) :: t else (x, b) :: (a, c) :: t)
    else if x = a then (if b = 0 then t else (x, b) :: t)
    else (a, c) :: Memory.set t x b

/-- Addresses rise strictly from `lo`, and no listed byte is 0. -/
def Memory.wfFrom : Nat → Memory → Bool
  | _, [] => true
  | lo, (a, b) :: t => decide (lo ≤ a) && b != 0 && Memory.wfFrom (a + 1) t

/-- The canonical form: equal memories are equal lists. -/
def Memory.wf (m : Memory) : Bool := m.wfFrom 0

/-- `n` bytes from an address. -/
def Memory.read (m : Memory) : Nat → Nat → List Byte
  | _, 0 => []
  | a, n + 1 => m.get a :: Memory.read m (a + 1) n

/-- Bytes written from an address. -/
def Memory.write (m : Memory) (a : Nat) : List Byte → Memory
  | [] => m
  | b :: t => Memory.write (m.set a b) (a + 1) t

/-- Zero `n` bytes from an address, in one pass over the list. -/
def Memory.clear (m : Memory) (a n : Nat) : Memory := m.filter fun c => decide (c.1 < a ∨ a + n ≤ c.1)

/-! ## Banks -/

def Base.get : Base → Nat → Word
  | .zero, _ => 0
  | .free seed, i => Config.freeCell seed i

def cellsGet (b : Base) : List (Nat × Word) → Nat → Word
  | [], i => b.get i
  | (j, w) :: t, i => if i = j then w else cellsGet b t i

def cellsSet : List (Nat × Word) → Nat → Word → List (Nat × Word)
  | [], i, w => [(i, w)]
  | (j, x) :: t, i, w =>
    if i < j then (i, w) :: (j, x) :: t
    else if i = j then (i, w) :: t
    else (j, x) :: cellsSet t i w

/-- The word at an index. -/
def Bank.get (b : Bank) (i : Nat) : Word := cellsGet b.base b.cells i

/-- The bank with one word written. -/
def Bank.set (b : Bank) (i : Nat) (w : Word) : Bank := { b with cells := cellsSet b.cells i w }

/-- Words written from an index. -/
def Bank.setList (b : Bank) (i : Nat) : List Word → Bank
  | [] => b
  | w :: t => Bank.setList (b.set i w) (i + 1) t

/-- Words of zeros. -/
def Bank.zero : Bank := ⟨.zero, []⟩

def vcellsGet (b : Base) : List VCell → Nat → Word
  | [], i => b.get i
  | c :: t, i => if i = c.idx then c.val else vcellsGet b t i

def vcellsStamp : List VCell → Nat → Nat
  | [], _ => 0
  | c :: t, i => if i = c.idx then c.stamp else vcellsStamp t i

def vcellsSet : List VCell → VCell → List VCell
  | [], n => [n]
  | c :: t, n => if n.idx < c.idx then n :: c :: t else if n.idx = c.idx then n :: t else c :: vcellsSet t n

/-- A per-lane register. -/
def VBank.get (b : VBank) (i : Nat) : Word := vcellsGet b.base b.cells i

/-- The step that wrote it; 0 when nothing has. -/
def VBank.stamp (b : VBank) (i : Nat) : Nat := vcellsStamp b.cells i

/-- A per-lane register written at a step. -/
def VBank.set (b : VBank) (stamp i : Nat) (w : Word) : VBank := { b with cells := vcellsSet b.cells ⟨i, w, stamp⟩ }

/-- Registers of zeros. -/
def VBank.zero : VBank := ⟨.zero, []⟩

/-! ## The memory of a module -/

/-- Service-window words the MMP alone writes: HEAD and the two frame counts (R206); `pa` below Config.dumpBase. -/
def windowBase (bed : Nat) : Nat := Config.dumpBase - 0x1000000 + bed * 0x80000

/-- The physical address lies in the read-only part of a service window. -/
def windowRo (pa : Nat) : Bool :=
  decide (Config.dumpBase - 0x1000000 ≤ pa ∧ pa < Config.dumpBase - 0x1000000 + 8 * 0x80000)
    && decide (0x40008 ≤ (pa - (Config.dumpBase - 0x1000000)) % 0x80000)
    && decide ((pa - (Config.dumpBase - 0x1000000)) % 0x80000 < 0x40020)

/-- The bits of a byte of module memory that keep what is written: the reserved bits of a request slot in a service window read as
zero (R6, R207). -/
def slotMask (pa : Nat) : Byte :=
  let base := Config.dumpBase - 0x1000000
  if base ≤ pa ∧ pa < base + 8 * 0x80000 ∧ (pa - base) % 0x80000 < 0x40000 then
    (match pa % 64 with
      | 2 => 0x07
      | 7 => 0x80
      | k => if (2 < k ∧ k < 7) ∨ 40 ≤ k then 0 else 0xFF)
  else 0xFF

/-- The physical address holds no memory: the module has 768 GiB of HBM and 4 TiB of capacity tier above it (R1;
assumption 12). -/
def noMemory (pa : Nat) : Bool := decide (Config.hbmBytes + 0x40000000000 ≤ pa)

/-- The cluster-shared plot of a launch in a cluster. -/
def State.sharedPlot? (s : State) (bed launch cluster : Nat) : Option SharedPlot :=
  s.shared.find? fun p => p.bed == bed && p.launch == launch && p.cluster == cluster

def State.team? (s : State) (t : TeamRef) : Option Team := s.teams.find? fun x => x.ref == t

def State.setTeam (s : State) (t : TeamRef) (f : Team → Team) : State :=
  { s with teams := mapIf (fun x => x.ref == t) f s.teams }

def State.peerMem (s : State) (p : Nat) : Memory := ((s.peers.find? fun x => x.1 == p).map (·.2)).getD []

def State.setPeerMem (s : State) (p : Nat) (m : Memory) : State :=
  { s with peers := if s.peers.any (fun x => x.1 == p) then mapIf (fun x => x.1 == p) (fun x => (x.1, m)) s.peers
                    else insertBy (·.1) (p, m) s.peers }

/-- `n` bytes at a location. -/
def State.read (s : State) (l : Loc) (n : Nat) : List Byte :=
  match l with
  | .mod pa => if noMemory pa then List.replicate n 0 else s.mem.read pa n
  | .host a => s.host.read a n
  | .peer p pa => (s.peerMem p).read pa n
  | .plot t o => match s.team? t with
    | some tm => tm.plot.read o n
    | none => List.replicate n 0
  | .shared b la cl o => match s.sharedPlot? b la cl with
    | some p => p.mem.read o n
    | none => List.replicate n 0

/-- Bytes of module memory written, read-only words of the service windows apart (R206). -/
def writeMod (m : Memory) (pa : Nat) : List Byte → Memory
  | [] => m
  | b :: t => writeMod (if windowRo pa || noMemory pa then m else m.set pa (b &&& slotMask pa)) (pa + 1) t

/-- Bytes written at a location. -/
def State.write (s : State) (l : Loc) (bs : List Byte) : State :=
  match l with
  | .mod pa => { s with mem := writeMod s.mem pa bs }
  | .host a => { s with host := s.host.write a bs }
  | .peer p pa => s.setPeerMem p ((s.peerMem p).write pa bs)
  | .plot t o => s.setTeam t fun tm => { tm with plot := tm.plot.write o bs }
  | .shared b la cl o => { s with
      shared := mapIf (fun p => p.bed == b && p.launch == la && p.cluster == cl)
        (fun p => { p with mem := p.mem.write o bs }) s.shared }

/-- A location `n` bytes further. -/
def Loc.add (l : Loc) (n : Nat) : Loc :=
  match l with
  | .mod pa => .mod (pa + n)
  | .host a => .host (a + n)
  | .peer p pa => .peer p (pa + n)
  | .plot t o => .plot t (o + n)
  | .shared b la cl o => .shared b la cl (o + n)

/-- The space a location lies in, and its place there. -/
def Loc.space : Loc → Loc
  | .mod _ => .mod 0
  | .host _ => .host 0
  | .peer p _ => .peer p 0
  | .plot t _ => .plot t 0
  | .shared b l c _ => .shared b l c 0

def Loc.off : Loc → Nat
  | .mod a => a
  | .host a => a
  | .peer _ a => a
  | .plot _ o => o
  | .shared _ _ _ o => o

/-- `n` bytes at one location and `m` at another share a byte. -/
def Loc.meets (l : Loc) (n : Nat) (k : Loc) (m : Nat) : Bool :=
  l.space == k.space && decide (0 < n ∧ 0 < m ∧ l.off < k.off + m ∧ k.off < l.off + n)

end Sys2Proof.Machine
end

