-- ==== Sys2Proof/Machine/Order.lean ====
section
/-! DEFINITION. The order of accesses: what happens before what (spec/13_consistency_rules.md R214 to R221, R225 to R231), and the
sectors of the L1s that a write makes stale (spec/11_memory_rules.md R195, R196). Every agent has a clock of what happens before its
next access; a release leaves its clock where an acquire finds it. -/

namespace Sys2Proof.Machine

/-! ## Free values and choices (assumption 4) -/

/-- The index of the k-th free value of a kind in this step. -/
def freeIndex (fresh tag k : Nat) : Nat := (fresh * 2 ^ 16 + tag) * 2 ^ 64 + k

/-- A choice the spec leaves unspecified, among `n` outcomes. -/
def State.choose (s : State) (tag k n : Nat) : Nat := Config.freeNat (freeIndex s.fresh tag k) % n

/-! ## Clocks (R221) -/

/-- An agent's accesses up to a step are among those known. -/
def Clock.add (k : Clock) (a : Agent) (n : Nat) : Clock :=
  if k.any fun x => x.1 == a then mapIf (fun x : Agent × Nat => x.1 == a) (fun x => (a, max x.2 n)) k else k ++ [(a, n)]

/-- What either clock knows. -/
def Clock.join (k l : Clock) : Clock := l.foldl (fun k x => Clock.add k x.1 x.2) k

/-- What a clock says of one agent it says of another: of a team, of its threads. -/
def Agent.covers (a b : Agent) : Bool :=
  a == b || (match a, b with
    | .team t, .thread r _ => t == r
    | _, _ => false)

/-- An access of an agent at a step happens before the clock's point. -/
def Clock.has (k : Clock) (a : Agent) (n : Nat) : Bool := k.any fun x => x.1.covers a && decide (n ≤ x.2)

/-- What happens before a point. -/
def State.knows (s : State) (n : Point) : Clock := ((s.clocks.find? fun x => x.1 == n).map (·.2)).getD []

/-- A clock's accesses happen before a point too. -/
def State.learn (s : State) (n : Point) (k : Clock) : State :=
  if k.isEmpty then s
  else { s with clocks := if s.clocks.any fun x => x.1 == n
      then mapIf (fun x : Point × Clock => x.1 == n) (fun x => (n, Clock.join x.2 k)) s.clocks else s.clocks ++ [(n, k)] }

/-- Points that are gone. -/
def State.forgetPoints (s : State) (gone : Point → Bool) : State := { s with clocks := s.clocks.filter fun x => !gone x.1 }

/-- What happens before an agent's next access; of a thread, what its whole team knows is part. -/
def State.seenBy (s : State) (a : Agent) : Clock :=
  match a with
  | .thread t _ => Clock.join (s.knows (.agent a)) (s.knows (.team t))
  | _ => s.knows (.agent a)

/-- What happens before whatever acquires from an agent now: what it knows, and its own accesses so far. -/
def State.upTo (s : State) (a : Agent) : Clock := Clock.add (s.seenBy a) a s.fresh

/-- What a team's threads have done and know (R220, R229). -/
def State.teamClock (s : State) (t : TeamRef) : Clock :=
  let mine (n : Point) : Bool := match n with
    | .agent (.thread r _) => r == t
    | .team r => r == t
    | _ => false
  Clock.add ((s.clocks.filter fun x => mine x.1).foldl (fun k x => Clock.join k x.2) []) (.team t) s.fresh

/-- An agent releases to a point, and acquires from one (R220). -/
def State.give (s : State) (a : Agent) (n : Point) : State := s.learn n (s.upTo a)
def State.take (s : State) (a : Agent) (n : Point) : State := s.learn (.agent a) (s.knows n)

/-! ## Scopes (R215, R216) -/

/-- The scope of an access or a fence includes an agent. -/
def Mark.includes (m : Mark) (h : Home) : Bool :=
  match m.scope with
  | .crew => m.home.cid.isSome && m.home.cid == h.cid
  | .team => m.home.team.isSome && m.home.team == h.team
  | .cluster => m.home.cluster.isSome && m.home.cluster == h.cluster
  | .device => m.home.agent != .companion && h.agent != .companion
  | .system => true

/-- Two operations have inclusive scopes. -/
def Mark.meets (a b : Mark) : Bool := a.includes b.home && b.includes a.home

/-- A strong access to peer memory is one at DEVICE scope (R234). -/
def scopeAt (l : Loc) (sc : Scope) : Scope :=
  match l with
  | .peer _ _ => .device
  | .mod _ => sc
  | .host _ => sc
  | .plot _ _ => sc
  | .shared _ _ _ _ => sc

/-- An agent of the module that stands in no crew, team or cluster. -/
def Agent.home (a : Agent) : Home := { agent := a, cid := none, team := none, cluster := none }

/-! ## Releases and acquires (R218, R219, R225) -/

/-- A release joins others; those of the same operations are one. -/
def addRelease (l : List Release) (r : Release) : List Release :=
  if l.any fun x => x.marks == r.marks
  then mapIf (fun x : Release => x.marks == r.marks) (fun x => { x with seen := Clock.join x.seen r.seen }) l else l ++ [r]

def addReleases (l rs : List Release) : List Release := rs.foldl addRelease l

/-- The releases that a strong write carries: its own, when it is one, and those of its thread's earlier release fences (R218). -/
def State.releases (s : State) (m : Mark) (rel : Bool) (fences : List FenceMark) : List Release :=
  (if rel then [{ marks := [m], seen := s.upTo m.home.agent }] else []) ++
    fences.map fun f => { marks := [f.mark, m], seen := f.seen }

/-- The releases that a strong read of a location meets. -/
def State.releasesAt (s : State) (l : Loc) (n : Nat) : List Release :=
  (s.strong.filter fun x => x.loc.meets x.len l n).foldl (fun rs x => addReleases rs x.now) []

/-- Under .RMT a release at TEAM or CLUSTER scope counts as one at DEVICE scope (R225). -/
def Mark.promoted (m : Mark) : Mark := if m.scope == .team || m.scope == .cluster then { m with scope := .device } else m

/-- An agent acquires from those releases whose operations and its own, all in pairs, have inclusive scopes (R218). -/
def State.acquire (s : State) (a : Agent) (rs : List Release) (marks : List Mark) (rmt : Bool) : State :=
  (rs.filter fun r => r.marks.all fun m => marks.all fun q => (if rmt then m.promoted else m).meets q).foldl
    (fun s r => s.learn (.agent a) r.seen) s

/-- A strong read has met releases. -/
def State.hear (s : State) (m : Mark) (rs : List Release) : State :=
  if rs.isEmpty then s
  else { s with heard := if s.heard.any fun h => h.mark == m
      then mapIf (fun h : Heard => h.mark == m) (fun h => { h with releases := addReleases h.releases rs }) s.heard
      else s.heard ++ [{ mark := m, releases := rs }] }

/-- A strong read that met releases: an acquire at once, or by a fence to come. -/
def State.strongRead (s : State) (rs : List Release) (m : Mark) (acq rmt : Bool) : State :=
  let s := s.hear m rs
  if acq then s.acquire m.home.agent rs [m] rmt else s

/-- A FENCE.ACQ or FENCE.FULL: the thread's earlier strong reads acquire. -/
def State.fenceAcquire (s : State) (m : Mark) : State :=
  (s.heard.filter fun h => h.mark.home.agent == m.home.agent).foldl
    (fun s h => s.acquire m.home.agent h.releases [h.mark, m] false) s

/-- A FENCE.FULL takes its place in the order of those with inclusive scopes: what was written before the earlier ones happens before
what is read after it (R219; assumption 70). -/
def State.fenceFull (s : State) (m : Mark) : State :=
  let s := s.acquire m.home.agent s.fulls [m] false
  { s with fulls := addRelease s.fulls { marks := [m], seen := [(m.home.agent, s.fresh)] } }

/-- A place that gets new contents from outside memory, or none: no strong write stands there. -/
def State.forgetStrong (s : State) (l : Loc) (n : Nat) : State :=
  if s.strong.isEmpty then s else { s with strong := s.strong.filter fun x => !x.loc.meets x.len l n }

/-- The contents of a place have been copied to another, and with them stand its strong writes. -/
def State.copyStrong (s : State) (old new : Loc) (n : Nat) : State :=
  { s with strong := s.strong ++ (s.strong.filter fun x => x.loc.meets x.len old n).map fun x =>
      { x with loc := new.add (x.loc.off - old.off) } }

/-- A weak write: a strong read of its bytes meets no release of an earlier write. -/
def State.weakWrite (s : State) (l : Loc) (n : Nat) : State :=
  if s.strong.isEmpty then s
  else { s with strong := s.strong.map fun x => if x.loc.meets x.len l n then { x with now := [], arrivals := [] } else x }

/-- A strong write has been made (R218): it heads the release sequences of its own releases, and, as a read-modify-write, stands in
those of every earlier strong write of the location. `gen`: the GEN of a barrier object it arrived at, with the
first of its releases; a plain write replaces an object, and its arrivals with it. -/
def State.strongWrite (s : State) (l : Loc) (n : Nat) (w : Strong) (gen : Word) : State :=
  let met := s.strong.filter fun x => x.loc.meets x.len l n
  let past := met.foldl (fun rs x => addReleases rs x.past) []
  let old := if w.rmw then ((s.strong.find? fun x => x.loc == l && x.len == n).map (·.arrivals)).getD [] else []
  let arrivals := if w.arrival then old ++ (w.own.take 1).map fun r => { gen := gen, release := r } else old
  let x : StrongLoc := { loc := l, len := n, now := addReleases (if w.rmw then past else []) w.own, past := addReleases past w.own,
                         arrivals := arrivals }
  if x.past.isEmpty && x.arrivals.isEmpty then s
  else { s with strong := (s.strong.filter fun x => !(x.loc == l && x.len == n)) ++ [x] }

/-- A wait on a barrier object returns because of the phases from one GEN up to another: it acquires from their arrivals (R220). -/
def State.departObject (s : State) (l : Loc) (m : Mark) (from_ to_ : Word) : State :=
  let rs := (s.strong.filter fun x => x.loc == l).flatMap fun x =>
    (x.arrivals.filter fun a => decide ((a.gen - from_).toNat < (to_ - from_).toNat)).map (·.release)
  s.acquire m.home.agent rs [m] false

/-! ## L1 sectors (R195, R196) -/

/-- The core a thread stands on. -/
def State.coreOf (s : State) : Agent → Option (Nat × Nat)
  | .thread t tid => (s.crews.find? fun c => c.bed == t.bed && c.launch == t.launch &&
      c.lanes.any fun x => (x.map fun x => x.team == t.team && x.tid == tid).getD false).map fun c => (c.cluster, c.core)
  | _ => none

/-- Two sectors belong to one tile line of one core's L1. -/
def L1Sector.sameLine (x y : L1Sector) : Bool :=
  x.cluster == y.cluster && x.core == y.core && x.bed == y.bed && x.id == y.id && x.tile == y.tile

/-- A write takes every line that holds one of its sectors out of the L1 of its own core, and out of another's now or later (R196):
which, for each such line by its place among them, the spec does not say. -/
def State.staleL1 (s : State) (who : Agent) (l : Loc) (n : Nat) : State :=
  let hit := s.l1.filter fun x => x.loc.meets 32 l n
  if hit.isEmpty then s
  else
    let own := s.coreOf who
    let gone := ((List.range hit.length).zip hit).filter fun x => own == some (x.2.cluster, x.2.core) || s.choose 43 x.1 2 == 0
    { s with l1 := (s.l1.filter fun x => !gone.any fun g => g.2.sameLine x).map fun x =>
        if x.loc.meets 32 l n then { x with stale := x.stale ++ [(who, s.fresh)] } else x }

/-- A thread may be served from a sector: none of the writes that made it stale happens before its access or is its own (R196,
R217). -/
def L1Sector.serves (x : L1Sector) (a : Agent) (k : Clock) : Bool := x.stale.all fun w => w.1 != a && !Clock.has k w.1 w.2

/-! ## A write performed -/

/-- An agent's write of bytes, beyond L1 (R195, R197). -/
def State.perform (s : State) (who : Agent) (l : Loc) (bs : List Byte) : State :=
  ((s.write l bs).staleL1 who l bs.length).weakWrite l bs.length

end Sys2Proof.Machine
end

