-- ==== Sys2Proof/Machine/Translate.lean ====
section
/-! DEFINITION. Page tables, the walk, and the pieces of an access (spec/11_memory_rules.md R183, R198 to R202, R209, R211):
the tables stand in module memory, and a walk reads them there. -/

namespace Sys2Proof.Machine

/-! ## Beds, launches, crews -/

def State.bed (s : State) (b : Nat) : Bed := (s.beds[b]?).getD Bed.reset

def State.setBed (s : State) (b : Nat) (f : Bed → Bed) : State := { s with beds := modifyAt s.beds b f }

def State.launch? (s : State) (b id : Nat) : Option Launch := s.launches.find? fun l => l.bed == b && l.id == id

def State.setLaunch (s : State) (b id : Nat) (f : Launch → Launch) : State :=
  { s with launches := mapIf (fun l => l.bed == b && l.id == id) f s.launches }

def State.crew? (s : State) (cid : Nat) : Option Crew := s.crews.find? fun c => c.cid == cid

def State.setCrew (s : State) (cid : Nat) (f : Crew → Crew) : State :=
  { s with crews := mapIf (fun c => c.cid == cid) f s.crews }

/-! ## The walk (R198, R199) -/

/-- A leaf as an address translates through it. `at_` is the physical address of its entry, `va` and `shift` the page. -/
structure Leaf where
  at_ : Nat
  va : Nat
  shift : Nat
  entry : Nat
  deriving DecidableEq, Repr

/-- The fields of an entry (R199). -/
def Leaf.fw (l : Leaf) : Bool := bit l.entry 58
def Leaf.peer (l : Leaf) : Nat := field l.entry 52 6
def Leaf.frame (l : Leaf) : Nat := field l.entry 16 36
def Leaf.mig (l : Leaf) : Bool := bit l.entry 12
def Leaf.kind (l : Leaf) : Nat := field l.entry 9 3
def Leaf.cache (l : Leaf) : Nat := field l.entry 7 2
def Leaf.r (l : Leaf) : Bool := bit l.entry 3
def Leaf.w (l : Leaf) : Bool := bit l.entry 4
def Leaf.x (l : Leaf) : Bool := bit l.entry 5
def Leaf.ac (l : Leaf) : Bool := bit l.entry 6

/-- The shift of a page at each level (R198). -/
def pageShift : Nat → Nat
  | 0 => 46
  | 1 => 36
  | 2 => 26
  | _ => 16

/-- The physical address of the entry a level looks at. -/
def entryAt (table va level : Nat) : Nat := table + 8 * (va / 2 ^ pageShift level % 1024)

/-- The table a non-leaf entry names. -/
def nextTable (e : Nat) : Nat := field e 13 39 * 8192

/-- An entry at a level is a leaf, a table, or neither: invalid, or malformed, which counts as invalid (R199). -/
inductive EntryClass where
  | leaf | table | none
  deriving DecidableEq, Repr

def entryClass (e level : Nat) : EntryClass :=
  if !bit e 0 || bit e 2 then .none
  else if level == 3 || bit e 1 then
    if level == 0 || decide (4 ≤ field e 9 3) || field e 7 2 == 3 || field e 16 (pageShift level - 16) != 0 then .none
    else .leaf
  else .table

/-- The walk of the levels from a table. -/
def walkFrom (m : Memory) (va : Nat) : Nat → Nat → Nat → Option Leaf
  | 0, _, _ => none
  | fuel + 1, level, table =>
    let a := entryAt table va level
    let e := leNat (m.read a 8)
    match entryClass e level with
    | .none => none
    | .table => walkFrom m va fuel (level + 1) (nextTable e)
    | .leaf =>
      let sh := pageShift level
      some { at_ := a, va := va / 2 ^ sh * 2 ^ sh, shift := sh, entry := e }

/-- The index of a canonical virtual address: its bits [55:0] (R198). -/
def vaIndex (a : Dword) : Nat := a.toNat % 2 ^ 56

/-- The leaf that translates an address in a bed, if the walk reaches one. -/
def State.walk (s : State) (bed va : Nat) : Option Leaf :=
  if (s.bed bed).on then walkFrom s.mem va 4 0 (s.bed bed).root else none

/-- Where a byte of the page stands (R184). -/
def Leaf.loc (l : Leaf) (va : Nat) : Loc :=
  let off := va % 2 ^ l.shift
  let pa := l.frame * 65536 + off
  match l.kind with
  | 2 => .host pa
  | 3 => .peer l.peer pa
  | _ => .mod pa

/-- The single-copy atomic size of a kind (R184). -/
def kindGrain (k : Nat) : Nat := if k == 2 then 8 else 32

/-- The right an access needs of its leaf (R200). -/
def Leaf.allows (l : Leaf) : Right → Bool
  | .read => l.r
  | .write => l.w
  | .atomic => l.r && l.w && l.ac
  | .fetch => l.x

/-! ## The pages of an access (R202, R203) -/

/-- A run of bytes in one 64 KiB page: where it stands, its length, its memory kind, and, in a migrating page, its bed and
virtual address (R209). -/
structure Part where
  loc : Loc
  len : Nat
  kind : Nat
  mig : Option (Nat × Nat)
  deriving DecidableEq, Repr

/-- What the translation of an access gives: its parts, a Permission sub-cause, or the pages to ask the MMP for. -/
inductive Access where
  | ok (parts : List Part)
  | deny (sub : Nat)
  | fault (reqs : List PageReq)
  deriving DecidableEq, Repr

/-- What one page says: a part, a right missing for good, a page that cannot be backed, a request. -/
inductive PageSays where
  | part (p : Part)
  | missing
  | unbacked
  | ask (r : PageReq)
  deriving DecidableEq, Repr

/-- A byte of a virtual address lies in a page with a migration that stands. -/
def Migration.covers (m : Migration) (bed va : Nat) : Bool := m.bed == bed && m.va / 2 ^ m.psz == va / 2 ^ m.psz

/-- Some write to the page of an address is held, or may have to be (R209). -/
def State.moving (s : State) (bed va : Nat) : Bool := s.migrations.any fun m => m.covers bed va

/-- One page of an access. DESIGN CHOICE (assumption 72): a page migrates by its virtual address, so that a write through another page
that shares its frame is performed at once on the old frame. `answered` are the MMP's answers for this execution: one to a request
for the same right is not asked for again (R200, R203). -/
def State.page (s : State) (bed : Nat) (answered : List PageAns) (right : Right) (va len : Nat) : PageSays :=
  let pg := va / 65536
  match s.walk bed va with
  | none => if answered.any fun x => x.page == pg && !x.backed && !x.fw then .unbacked else .ask ⟨pg, right, false⟩
  | some l =>
    if l.allows right then .part ⟨l.loc va, len, l.kind, if s.moving bed va then some (bed, va) else none⟩
    else if l.fw && !answered.any (fun x => x.page == pg && x.fw && x.right == right) then .ask ⟨pg, right, true⟩
    else .missing

/-- The runs of an access in the 64 KiB pages it touches: at most `fuel` of them. -/
def chunks : Nat → Nat → Nat → List (Nat × Nat)
  | 0, _, _ => []
  | fuel + 1, va, n =>
    let room := 65536 - va % 65536
    if n = 0 then [] else if n ≤ room then [(va, n)] else (va, room) :: chunks fuel (va + room) (n - room)

/-- The first 64 KiB pages that `n` bytes touch bound the runs. -/
def chunksOf (va n : Nat) : List (Nat × Nat) := chunks (n / 65536 + 2) va n

/-- What the pages of an access say together (R202). -/
def combine (ps : List PageSays) : Access :=
  if ps.any (· == .missing) then .deny 2
  else if ps.any (· == .unbacked) then .deny 3
  else
    let reqs := ps.filterMap fun p => match p with
      | .ask r => some r
      | .part _ => none
      | .missing => none
      | .unbacked => none
    if reqs.isEmpty then
      .ok (ps.filterMap fun p => match p with
        | .part q => some q
        | .ask _ => none
        | .missing => none
        | .unbacked => none)
    else .fault reqs

/-- The access of `n` bytes at an address whose bytes are all canonical (R183, R202). -/
def State.translate (s : State) (bed : Nat) (answered : List PageAns) (right : Right) (a : Dword) (n : Nat) : Access :=
  if !canonical a || !canonical (a + BitVec.ofNat 64 (n - 1)) then .deny 1
  else combine ((chunksOf (vaIndex a) n).map fun c => s.page bed answered right (c.1 % 2 ^ 56) c.2)

/-! ## Reading and writing parts; migrating pages hold writes (R209) -/

/-- The migration a byte of a virtual address lies in. -/
def State.migration? (s : State) (bed va : Nat) : Option Migration :=
  s.migrations.find? fun m => m.covers bed va

/-- Hold a write for the commit; with `reply`, its thread waits for what it returns. -/
def State.hold (s : State) (bed va : Nat) (w : Write) (reply : Bool := false) : State :=
  let here (m : Migration) : Bool := m.covers bed va
  let add (m : Migration) : Migration := { m with held := m.held ++ [{ off := va % 2 ^ m.psz, write := w, reply := reply }] }
  { s with migrations := mapIf here add s.migrations }

/-- The bytes a write touches. -/
def WriteOp.len : WriteOp → Nat
  | .bytes d => d.length
  | .atomic _ w _ => (match w with
    | .b32 => 4 | .b64 => 8 | .b128 => 16 | .b256 => 32)
  | .arrive => 16
  | .transfer _ => 16

/-- Bytes a held write changes: offset and length. -/
def Held.span (h : Held) : Nat × Nat := (h.off, h.write.op.len)

/-- Some 32-byte sector of a run has a held write. -/
def State.heldSector (s : State) (bed va len : Nat) : Bool :=
  match s.migration? bed va with
  | none => false
  | some m =>
    let o := va % 2 ^ m.psz
    m.held.any fun h => let (ho, hl) := h.span
      decide (ho / 32 ≤ (o + len - 1) / 32 ∧ o / 32 ≤ (ho + hl - 1) / 32)

/-- A part whose load waits for the commit. -/
def State.partWaits (s : State) (p : Part) : Option Nat :=
  match p.mig with
  | some (bed, va) => if s.heldSector bed va p.len then some (va / 65536) else none
  | none => none

def State.readParts (s : State) (ps : List Part) : List Byte := ps.flatMap fun p => s.read p.loc p.len

/-- A weak write, or an engine's, of an agent to a part, made or held. -/
def State.writePart (s : State) (who : Agent) (p : Part) (bs : List Byte) : State :=
  match p.mig with
  | some (bed, va) => s.hold bed va { op := .bytes bs, who := who, strong := none }
  | none => s.perform who p.loc bs

def State.writeParts (s : State) (who : Agent) : List Part → List Byte → State
  | [], _ => s
  | p :: t, bs => (s.writePart who p (bs.take p.len)).writeParts who t (bs.drop p.len)

/-- The Hyfin path to a peer module is up (R366, sub-cause 0x09). -/
def State.peerUp (s : State) (p : Nat) : Bool := s.links.any fun l => l.up && l.peer == p

/-- Some part lies in a peer that cannot be reached, or in a bed that the peer has fenced (R389, R403). -/
def State.unreachable (s : State) (ps : List Part) : Bool :=
  ps.any fun p => match p.loc with
    | .peer q pa => !s.peerUp q || s.peerFences.any fun f => f.peer == q && decide (f.lo < pa + p.len ∧ pa < f.hi)
    | .mod _ => false
    | .host _ => false
    | .plot _ _ => false
    | .shared _ _ _ _ => false

/-! ## Instruction fetch (R78, R204) -/

/-- What the fetch of a doubleword gives. -/
inductive Fetch where
  | ok (d : Dword)
  | deny (sub : Nat)
  | fault (r : PageReq)
  deriving DecidableEq, Repr

/-- Where a thread of a crew stands (R215). -/
def Crew.home (c : Crew) (t : Thread) : Home :=
  let r : TeamRef := ⟨c.bed, c.launch, t.team⟩
  { agent := .thread r t.tid, cid := some c.cid, team := some r, cluster := some c.cluster }

/-- A copy held since a step is no longer one that an agent may use: a CCTL whose scope includes it, made later, happens before the
use or is its own (R194, R248). `shape`: the identifier of a shape record, none for code. -/
def State.purged (s : State) (bed : Nat) (shape : Option Nat) (stamp : Nat) (h : Home) : Bool :=
  s.purges.any fun p => p.shape == shape && (shape.isNone || p.bed == bed) && decide (stamp ≤ p.stamp) && p.mark.includes h &&
    (p.mark.home.agent == h.agent || Clock.has (s.seenBy h.agent) p.mark.home.agent p.stamp)

/-- Code held since a step is purged for a crew: for some thread of it, whose group may fetch (assumption 9). -/
def State.codePurged (s : State) (c : Crew) (stamp : Nat) : Bool :=
  !s.purges.isEmpty && c.lanes.any fun t => (t.map fun t => s.purged c.bed none stamp (c.home t)).getD false

/-- A doubleword of code as a core fetches it: the one memory holds, or one its instruction path still holds (R78). -/
def State.fetchDw (s : State) (c : Crew) (answered : List PageAns) (a : Dword) : Fetch :=
  if !canonical a then .deny 1 else
  match s.page c.bed answered .fetch (vaIndex a) 8 with
  | .missing => .deny 2
  | .unbacked => .deny 3
  | .ask r => .fault r
  | .part p =>
    let now := BitVec.ofNat 64 (leNat (s.read p.loc 8))
    let old := (s.code.filter fun k => k.cluster == c.cluster && k.core == c.core && k.bed == c.bed && k.addr == a.toNat &&
      !s.codePurged c k.stamp).map (·.data)
    let all := if old.any (· == now) then old else old ++ [now]
    match all with
    | [d] => .ok d
    | _ => .ok ((all[s.choose 1 a.toNat all.length]?).getD now)

/-- The instruction path of a core keeps the doubleword memory holds, when it is a doubleword that can be fetched (R78). -/
def State.keepDwAt (s : State) (cluster core bed : Nat) (a : Dword) : State :=
  match s.page bed [] .fetch (vaIndex a) 8 with
  | .part p =>
    let now := BitVec.ofNat 64 (leNat (s.read p.loc 8))
    let k : CodeCopy := { cluster := cluster, core := core, bed := bed, addr := a.toNat, data := now, stamp := s.fresh }
    let same (x : CodeCopy) : Bool := { x with stamp := s.fresh } == k
    if s.code.any same then { s with code := mapIf same (fun _ => k) s.code } else { s with code := s.code ++ [k] }
  | .missing => s
  | .unbacked => s
  | .ask _ => s

/-- The instruction path of a crew's core keeps the doubleword memory holds. -/
def State.keepDw (s : State) (c : Crew) (a : Dword) : State := s.keepDwAt c.cluster c.core c.bed a

/-- An instruction path takes in a doubleword ahead of its fetch: of it, too, a fetch may find the old contents (R56, R78;
assumption 9). -/
def State.prefetchDw (s : State) (cluster core bed : Nat) (a : Dword) : State :=
  if canonical a && a.toNat % 8 == 0 then s.keepDwAt cluster core bed a else s

/-- Words of code from a 4-byte-aligned address. -/
inductive FetchWords where
  | ok (ws : List Word)
  | deny (sub : Nat)
  | fault (r : PageReq)
  deriving DecidableEq, Repr

/-- The doubleword a word of code stands in, and the half. -/
def dwOf (a : Dword) : Dword := a &&& ~~~7#64
def wordOfDw (a : Dword) (d : Dword) : Word := if a.getLsbD 2 then hi32 d else lo32 d

/-- `n` words of code from an address. -/
def State.fetchWords (s : State) (c : Crew) (answered : List PageAns) : Nat → Dword → FetchWords
  | 0, _ => .ok []
  | n + 1, a => match s.fetchDw c answered (dwOf a) with
    | .deny k => .deny k
    | .fault r => .fault r
    | .ok d => match State.fetchWords s c answered n (a + 4) with
      | .ok ws => .ok (wordOfDw a d :: ws)
      | .deny k => .deny k
      | .fault r => .fault r

/-- The instruction path keeps the doublewords of `n` words from an address. -/
def State.keepWords (s : State) (c : Crew) : Nat → Dword → State
  | 0, _ => s
  | n + 1, a => State.keepWords (s.keepDw c (dwOf a)) c n (a + 4)

end Sys2Proof.Machine
end

