-- ==== Sys2Proof/Machine/L1.lean ====
section
/-! DEFINITION. The L1 of a core (spec/11_memory_rules.md R189, R195, R196, R201): tile lines of 256 bytes in sectors of 32, clean
and virtually tagged. A load that hits is served without translation. The TLBs and L2 need no state: R197 and R201 keep them from
being told apart from the tables and the memory (assumption 5). -/

namespace Sys2Proof.Machine

/-- Where a sector belongs in a core's L1: its tensor identifier, tile line and place in it, and its virtual address. -/
structure L1Ref where
  id : Nat
  tile : List Nat
  sector : Nat
  va : Nat
  deriving DecidableEq, Repr

/-- The bytes of an access in one sector: which sector, from which byte of it, how many. -/
structure L1Piece where
  ref : L1Ref
  off : Nat
  len : Nat
  deriving DecidableEq, Repr

/-- The sector of the linear view that holds an address (R189). -/
def linearRef (a : Nat) : L1Ref := { id := 0, tile := [a / 256], sector := a / 32 % 8, va := a / 32 * 32 }

/-- The sectors of the linear line of an address. -/
def linearLine (a : Nat) : List L1Ref := (List.range 8).map fun i => linearRef (a / 256 * 256 + 32 * i)

/-- The pieces of `n` bytes in sectors, the first of them at an offset: sector number, offset in it, length. -/
def sectorRuns (o n : Nat) : List (Nat × Nat × Nat) :=
  (List.range (n / 32 + 2)).filterMap fun i =>
    let lo := max o (32 * (o / 32 + i))
    let hi := min (o + n) (32 * (o / 32 + i + 1))
    if lo < hi then some (o / 32 + i, lo % 32, hi - lo) else none

/-- The pieces of an access to the linear view. -/
def linearPieces (a n : Nat) : List L1Piece := (sectorRuns a n).map fun r => ⟨linearRef (32 * r.1 % 2 ^ 64), r.2.1, r.2.2⟩

/-- A sector is the one of a reference in a core. -/
def L1Sector.is (x : L1Sector) (cluster core bed : Nat) (r : L1Ref) : Bool :=
  x.cluster == cluster && x.core == core && x.bed == bed && x.id == r.id && x.tile == r.tile && x.sector == r.sector

/-- A sector stands in the L1 of a crew's core, and a thread may be served from it; a strong load takes no stale one (R222), and none
has an address that is not canonical (R240). -/
def State.l1Find (s : State) (c : Crew) (a : Agent) (strong : Bool) (r : L1Ref) : Option L1Sector :=
  if !canonical (BitVec.ofNat 64 r.va) then none
  else match s.l1.find? fun x => x.is c.cluster c.core c.bed r with
  | some x => if (if strong then x.stale.isEmpty else x.stale.isEmpty || x.serves a (s.seenBy a)) then some x else none
  | none => none

/-- The bytes of an access every piece of which hits (R195). -/
def State.l1Hit (s : State) (c : Crew) (a : Agent) (strong : Bool) (ps : List L1Piece) : Option (List Byte) :=
  (ps.mapM fun p => (s.l1Find c a strong p.ref).map fun x => (x.data.drop p.off).take p.len).map (·.flatten)

/-- The lines a core's L1 holds. -/
def State.l1Lines (s : State) (cluster core : Nat) : List (Nat × Nat × List Nat) :=
  ((s.l1.filter fun x => x.cluster == cluster && x.core == core).map fun x => (x.bed, x.id, x.tile)).eraseDups

/-- A line leaves a core's L1. -/
def State.l1Drop (s : State) (cluster core : Nat) (line : Nat × Nat × List Nat) : State :=
  { s with l1 := s.l1.filter fun x => !(x.cluster == cluster && x.core == core && (x.bed, x.id, x.tile) == line) }

/-- The line that holds the n-th sector listed leaves its L1. -/
def State.dropLine (s : State) (n : Nat) : State :=
  match s.l1[n]? with
  | some x => { s with l1 := s.l1.filter fun y => !x.sameLine y }
  | none => s

/-- The runs of one line in a list of sectors: no fewer than the lines. -/
def lineRuns : List L1Sector → Nat
  | [] => 0
  | [_] => 1
  | x :: y :: t => (if x.sameLine y then 0 else 1) + lineRuns (y :: t)

/-- A core's L1 holds 1,024 lines (R1): a further one takes the place of another, which one the spec does not say. -/
def State.l1Fit (s : State) (cluster core : Nat) (new : Nat × Nat × List Nat) : State :=
  let here := s.l1.filter fun x => x.cluster == cluster && x.core == core
  if lineRuns here < Config.l1Lines || here.any fun x => (x.bed, x.id, x.tile) == new then s else
  let others := s.l1Lines cluster core
  if others.length < Config.l1Lines then s
  else match others[s.choose 44 0 others.length]? with
    | some k => s.l1Drop cluster core k
    | none => s

/-- A sector is filled from L2 or the peer, where its page may be read and its CACHE field does not exclude L1; none of a page that
migrates (assumption 5). -/
def State.l1Fill (s : State) (c : Crew) (r : L1Ref) : State :=
  if !canonical (BitVec.ofNat 64 r.va) then s
  else match s.walk c.bed (r.va % 2 ^ 56) with
  | none => s
  | some l =>
    let loc := l.loc (r.va % 2 ^ 56)
    if !l.r || l.cache != 0 || l.mig || s.moving c.bed (r.va % 2 ^ 56) || s.unreachable [⟨loc, 32, l.kind, none⟩] then s
    else
      let s := s.l1Fit c.cluster c.core (c.bed, r.id, r.tile)
      let x : L1Sector := { cluster := c.cluster, core := c.core, bed := c.bed, id := r.id, tile := r.tile, sector := r.sector,
                            va := r.va % 2 ^ 56, loc := loc, data := s.read loc 32, stale := [] }
      { s with l1 := (s.l1.filter fun y => !y.is c.cluster c.core c.bed r) ++ [x] }

/-- A load that misses fills its lines, but for the sectors that hit. -/
def State.l1FillLine (s : State) (c : Crew) (a : Agent) (strong : Bool) (line : List L1Ref) : State :=
  line.foldl (fun s r => if (s.l1Find c a strong r).isSome then s else s.l1Fill c r) s

/-- What a load of pieces gives once its lines are filled: of each piece what hits, else what memory holds. -/
def State.l1Read (s : State) (c : Crew) (a : Agent) (strong : Bool) : List L1Piece → List Byte → List Byte
  | [], _ => []
  | p :: t, bs =>
    (match s.l1Find c a strong p.ref with
      | some x => (x.data.drop p.off).take p.len
      | none => bs.take p.len) ++ State.l1Read s c a strong t (bs.drop p.len)

/-- Bytes of a list replaced from an offset. -/
def overlayBytes (old : List Byte) (off : Nat) (new : List Byte) : List Byte := old.take off ++ new ++ old.drop (off + new.length)

/-- The sectors of the line that holds one, as a state had them in a core's L1. -/
def State.l1LineOf (s : State) (c : Crew) (r : L1Ref) : List L1Sector :=
  s.l1.filter fun x => x.cluster == c.cluster && x.core == c.core && x.bed == c.bed && x.id == r.id && x.tile == r.tile

/-- After a store of a crew's thread to parts: the lines it addressed stand in its core's L1 as they were, with its bytes in the
sectors it addressed; every other sector it touched is gone (R195, R196). -/
def State.l1Update (s old : State) (c : Crew) (ps : List Part) (pieces : List L1Piece) (bs : List Byte) : State :=
  let lines := (pieces.map (·.ref)).foldl (fun acc r => if acc.any fun q : L1Ref => q.tile == r.tile then acc else acc ++ [r]) []
  let kept := lines.flatMap fun r => (old.l1LineOf c r).filter fun x => !ps.any fun p => x.loc.meets 32 p.loc p.len
  let now := (pieces.foldl (fun (acc : List L1Sector × List Byte) p =>
    ((match old.l1.find? fun x => x.is c.cluster c.core c.bed p.ref with
      | some x => acc.1 ++ [{ x with data := overlayBytes x.data p.off (acc.2.take p.len) }]
      | none => acc.1), acc.2.drop p.len)) ([], bs)).1
  let gone (x : L1Sector) : Bool := lines.any fun r => x.cluster == c.cluster && x.core == c.core && x.bed == c.bed && x.id == r.id &&
    x.tile == r.tile
  if kept.isEmpty && now.isEmpty then s else { s with l1 := (s.l1.filter fun x => !gone x) ++ kept ++ now }

/-- The lines of some pieces leave a core's L1 (R243). -/
def State.l1Forget (s : State) (c : Crew) (pieces : List L1Piece) : State :=
  pieces.foldl (fun s p => s.l1Drop c.cluster c.core (c.bed, p.ref.id, p.ref.tile)) s

/-- A shoot-down takes the lines of a page out of every L1 of its bed (R201). -/
def State.shootDown (s : State) (bed va shift : Nat) : State :=
  if s.l1.isEmpty then s else { s with l1 := s.l1.filter fun x => !(x.bed == bed && x.va / 2 ^ shift == va / 2 ^ shift) }

end Sys2Proof.Machine
end

