-- ==== Sys2Proof/WellFormed.lean ====
section
/-! DEFINITION. Which instruction terms are words of the ISA: the operand ranges, pairs, groups, literals, uniform operands
and memory modifiers that spec/03_encoding_rules.md (R60, R63 to R74, R76) and the instructions' encoding tables accept.
A step of another agent has no word, so it is not well-formed. -/

namespace Sys2Proof

/-- What the decode checks need of the kernel and the mode (R76): the allocation (R67), the accumulator slots (R315),
and whether every lane of the issue group is in handler mode (R154). -/
structure Limits where
  vregs : Nat
  acc : Nat
  handler : Bool
  deriving DecidableEq, Repr

namespace Wf

/-- A group of n registers from r, the first a multiple of `al`, inside the allocation (R67, R236). -/
def reg (l : Limits) (al n : Nat) : Reg → Bool
  | .v r => r.toNat % al == 0 && decide (r.toNat + n ≤ l.vregs)
  | .s r => r.toNat % al == 0 && decide (r.toNat + n ≤ 256)

/-- A source that names n registers (1, or 2 for a pair) when it is a register. -/
def src (l : Limits) (n : Nat) : Src → Bool
  | .v r _ => r.toNat % n == 0 && decide (r.toNat + n ≤ l.vregs)
  | .s r => r.toNat % n == 0
  | .int _ => true
  | .con _ => true
  | .lit _ => true

/-- The source is not a per-lane register (R19). -/
def us : Src → Bool
  | .v _ _ => false
  | .s _ => true
  | .int _ => true
  | .con _ => true
  | .lit _ => true

/-- No neighbour select stands on the source (R71, R72). -/
def noNeigh : Src → Bool
  | .v _ n => n == .self
  | .s _ => true
  | .int _ => true
  | .con _ => true
  | .lit _ => true

/-- The literal a list of sources shares (R60, R91). -/
def litOf : List Src → Option Word
  | [] => none
  | .lit w :: _ => some w
  | .v _ _ :: t => litOf t
  | .s _ :: t => litOf t
  | .int _ :: t => litOf t
  | .con _ :: t => litOf t

/-- Every literal among the sources is the one literal of the form (R91). -/
def litsAgree (ss : List Src) : Bool :=
  ss.all fun s => match s with
    | .lit w => litOf ss == some w
    | .v _ _ => true
    | .s _ => true
    | .int _ => true
    | .con _ => true

/-- A register is uniform (R66). -/
def isS : Reg → Bool
  | .v _ => false
  | .s _ => true

/-- A uniform instruction takes no per-lane source (R19, R66). -/
def uni (d : Reg) (ss : List Src) : Bool := !isS d || ss.all us

/-- As `uni`, for a source that is a register. -/
def uniR (d : Reg) (a : Reg) : Bool := !isS d || isS a

/-- Registers named in a destination and sources of one width, with the common rules. -/
def alu (l : Limits) (nd : Nat) (d : Reg) (ss : List (Nat × Src)) : Bool :=
  reg l nd nd d && ss.all (fun p => src l p.1 p.2) && uni d (ss.map (·.2)) && litsAgree (ss.map (·.2))

/-- A predicate that may be written (R117 p(0–6)). -/
def pw (p : BitVec 3) : Bool := p != 7

/-- A mask number (R117). -/
def mask (lo : Nat) (m : BitVec 4) : Bool := decide (lo ≤ m.toNat ∧ m.toNat ≤ 11)

/-- The registers of a width: 2 for .64. -/
def n64 (w : Bool) : Nat := if w then 2 else 1

/-- Bytes of a size (R238). -/
def sizeBytes : Size → Nat
  | .b32 => 4 | .b64 => 8 | .b128 => 16 | .b256 => 32 | .b8 => 1 | .s8 => 1 | .b16 => 2 | .s16 => 2 | .b512 => 64

/-- Registers of a size (R238). -/
def sizeRegs (z : Size) : Nat := max 1 (sizeBytes z / 4)

/-- Registers of an atomic width (R249). -/
def widthRegs : AWidth → Nat
  | .b32 => 1 | .b64 => 2 | .b128 => 4 | .b256 => 8

/-- A weak access's modifier (R74). -/
def weakMod (m : MemMod) : Bool := !m.rmt && m.ord == .none && m.scope == .crew

/-- .RMT requires ORD 2 or 4 and DEVICE, on LDS or an atomic (R74). -/
def rmtOk (m : MemMod) : Bool := !m.rmt || ((m.ord == .acq || m.ord == .ar) && m.scope == .device)

/-- A plot access has scope at most CLUSTER and no hint (R74). -/
def plotMod (m : MemMod) : Bool := m.hint == .dflt && (m.scope == .crew || m.scope == .team || m.scope == .cluster)

/-- A store size (R238): no sign-extending code. -/
def storeSize : Size → Bool
  | .s8 => false | .s16 => false | .b512 => false
  | .b32 => true | .b64 => true | .b128 => true | .b256 => true | .b8 => true | .b16 => true

/-- A virtual-address load or store. -/
def ldst (l : Limits) (f : LdStF) : Bool :=
  let n := sizeRegs f.size
  reg l n n f.d && reg l 2 2 f.a && src l 1 f.b && noNeigh f.b && uniR f.d f.a && uni f.d [f.b] && f.size != .b512

/-- A tensor load or store. -/
def ldstT (l : Limits) (f : LdStTF) : Bool :=
  let n := sizeRegs f.size
  reg l n n f.d && reg l 4 4 f.a && src l 1 f.b && noNeigh f.b && uniR f.d f.a && uni f.d [f.b] && f.size != .b512
    && weakMod f.m

/-- A plot load or store. -/
def ldstP (l : Limits) (f : LdStPF) : Bool :=
  let n := sizeRegs f.size
  alu l n f.d [(1, f.a), (1, f.b)] && noNeigh f.a && noNeigh f.b && weakMod f.m && f.m.hint == .dflt

/-- Widths of an atomic operation (R249). -/
def atomWidth : AOp → AWidth → Bool
  | .exch, _ => true
  | .cas, _ => true
  | .fmin, w => w == .b32
  | .fmax, w => w == .b32
  | .add, w => w == .b32 || w == .b64
  | .minu, w => w == .b32 || w == .b64
  | .mins, w => w == .b32 || w == .b64
  | .maxu, w => w == .b32 || w == .b64
  | .maxs, w => w == .b32 || w == .b64
  | .and, w => w == .b32 || w == .b64
  | .or, w => w == .b32 || w == .b64
  | .xor, w => w == .b32 || w == .b64
  | .inc, w => w == .b32 || w == .b64
  | .dec, w => w == .b32 || w == .b64
  | .fadd, w => w == .b32 || w == .b64

/-- The registers of an atomic's operand B: none beyond one for .B32 operations other than .CAS (R250). -/
def atomOperandRegs (op : AOp) (w : AWidth) : Nat :=
  if op == .cas then 2 * widthRegs w else widthRegs w

/-- The operand B of an atomic: any source for a one-register operand, a register group otherwise (R250). -/
def atomOperand (l : Limits) (op : AOp) (w : AWidth) : Src → Bool
  | .v r n => let k := atomOperandRegs op w
      n == .self && r.toNat % k == 0 && decide (r.toNat + k ≤ l.vregs)
  | .s r => let k := atomOperandRegs op w
      r.toNat % k == 0 && decide (r.toNat + k ≤ 256)
  | .int _ => atomOperandRegs op w == 1
  | .con _ => atomOperandRegs op w == 1
  | .lit _ => atomOperandRegs op w == 1

/-- ORD of an atomic is 1 to 4 (R74). -/
def atomOrd : Ord → Bool
  | .rlx => true | .acq => true | .rel => true | .ar => true
  | .none => false | .full => false | .opnd => false

/-- The object operand (R259). -/
def obj (l : Limits) (h : Hint) (sc : Scope) : BarObj → Bool
  | .va a => reg l 2 2 a
  | .plot a => src l 1 a && noNeigh a && h == .dflt && (sc == .crew || sc == .team || sc == .cluster)

/-- The sources in an object operand. -/
def objSrc : BarObj → List Src
  | .va _ => []
  | .plot a => [a]

/-- An object operand of a uniform instruction. -/
def objUni (d : Reg) : BarObj → Bool
  | .va a => uniR d a
  | .plot a => uni d [a]

/-- A WAITEV threshold: a register pair, a constant or the literal (R359). -/
def threshold (l : Limits) (b : Src) : Bool := src l 2 b && noNeigh b

/-- Width in bits of a CVT format (R173). -/
def cvtBits : CvtFmt → Nat
  | .f32 => 32 | .f64 => 64 | .f16 => 16 | .bf16 => 16 | .e5m2 => 8 | .e4m3 => 8 | .e2m1 => 4 | .e8m0 => 8
  | .s8 => 8 | .u8 => 8 | .s16 => 16 | .u16 => 16 | .s32 => 32 | .u32 => 32 | .s64 => 64 | .u64 => 64

/-- Integer CVT formats (R173: codes 8 to 15). -/
def cvtIsInt : CvtFmt → Bool
  | .f32 => false | .f64 => false | .f16 => false | .bf16 => false | .e5m2 => false | .e4m3 => false
  | .e2m1 => false | .e8m0 => false
  | .s8 => true | .u8 => true | .s16 => true | .u16 => true | .s32 => true | .u32 => true | .s64 => true | .u64 => true

/-- Destinations of .SR (R175). -/
def cvtSrDst : CvtFmt → Bool
  | .bf16 => true | .e5m2 => true | .e4m3 => true | .e2m1 => true
  | .f32 => false | .f64 => false | .f16 => false | .e8m0 => false
  | .s8 => false | .u8 => false | .s16 => false | .u16 => false | .s32 => false | .u32 => false | .s64 => false | .u64 => false

/-- The registers of a CVT operand of a format. -/
def cvtRegs (f : CvtFmt) : Nat := if cvtBits f = 64 then 2 else 1

/-- CVT's limits (R172, R175). -/
def cvt (l : Limits) (f : CvtF) : Bool :=
  let qs := f.q.toList
  reg l (cvtRegs f.dst) (cvtRegs f.dst) f.d && src l (cvtRegs f.src) f.a && qs.all (src l 1)
    && uni f.d (f.a :: qs) && litsAgree (f.a :: qs)
    && (f.q.isNone || (cvtSrDst f.dst && f.rm == .rn))
    && (if f.ins then decide (cvtBits f.dst < 32) && decide (f.e.toNat < 32 / cvtBits f.dst)
        else if cvtBits f.src < 32 then decide (f.e.toNat < 32 / cvtBits f.src) else f.e == 0)
    && !(f.f63 && cvtIsInt f.src)

/-- g of NB4 stands exactly under NB4 (R176). -/
def nb4G (fmt : BlockFmt) (g : Option Src) : Bool := g.isSome == (fmt == .nb4)

/-- QNT's limits (R176). -/
def qnt (l : Limits) (f : QntF) : Bool :=
  let ss := f.a :: (f.b.toList ++ f.q.toList)
  decide (f.d.toNat < l.vregs) && ss.all (src l 1) && f.q.toList.all noNeigh && litsAgree ss && nb4G f.fmt f.b
    && (f.q.isNone || f.rm == .rn) && (!f.scale || (f.q.isNone && f.rm == .rn))

/-- DQNT's limits (R176). -/
def dqnt (l : Limits) (f : DqntF) : Bool :=
  let ss := f.a :: f.b :: f.c.toList
  reg l 1 1 f.d && ss.all (src l 1) && f.c.toList.all noNeigh && uni f.d ss && litsAgree ss && nb4G f.fmt f.c
    && (f.fmt == .sb4 || f.fmt == .nb4 || decide (f.e.toNat < 4))

/-- The special registers SETSR may name in the group's mode (R79, R154). -/
def setsrOk (l : Limits) : Special → Bool
  | .fflags => true
  | .tcause => l.handler | .tpc => l.handler | .tval => l.handler | .tmask => l.handler
  | .tid => false | .teamid => false | .launchid => false | .laneid => false | .crewid => false | .coreid => false
  | .clusterid => false | .bed => false | .rkey => false | .cycle => false

/-- Common limits of the DBG sub-operations (R130): B and C are any source; B names nb registers. -/
def dbg (l : Limits) (nb : Nat) (f : DbgF) : Bool :=
  reg l 2 2 f.d && reg l 2 2 f.a && uniR f.d f.a && uni f.d [f.b, f.c] && litsAgree [f.b, f.c]
    && src l nb f.b && noNeigh f.b && src l 1 f.c && noNeigh f.c

/-- REORDER's limits (R156). -/
def reorder (l : Limits) (f : ReorderF) : Bool :=
  src l 1 f.key && decide (f.n.toNat ≤ 32) && (if f.n == 0 then f.vp == 0 else decide (f.vp.toNat + f.n.toNat ≤ l.vregs))

/-- A v-register inside the allocation. -/
def vr (l : Limits) (r : BitVec 9) : Bool := decide (r.toNat < l.vregs)

/-- A v-register pair. -/
def vp (l : Limits) (r : BitVec 9) : Bool := r.toNat % 2 == 0 && decide (r.toNat + 1 < l.vregs)

/-- A pair operand of MOVL: a pair only when K = 0 and A is a register (R150). -/
def movl (l : Limits) (f : MovlF) : Bool :=
  reg l 2 2 f.d && src l (if f.mode == .full then 2 else 1) f.a && uni f.d [f.a]

end Wf

/-- The instruction is one the encoding tables accept, for a kernel with these limits. -/
def Instr.wf (l : Limits) : Instr → Bool
  | .nopCompact => true
  | .nop _ => true
  | .bra _ _ => true
  | .brx _ a => Wf.reg l 2 2 a
  | .call _ d _ => Wf.vp l d
  | .ret _ a => Wf.reg l 2 2 a
  | .exit _ => true
  | .yield _ => true
  | .trap _ a => Wf.us a
  | .brk _ a => Wf.us a
  | .rett _ => true
  | .join _ m => Wf.mask 1 m
  | .leave _ m => Wf.mask 1 m
  | .waitm _ m => Wf.mask 0 m
  | .mlop _ d a b _ => Wf.mask 1 d && Wf.mask 0 a && Wf.mask 0 b
  | .mmov _ (.mm d a) => Wf.mask 1 d && Wf.mask 0 a
  | .mmov _ (.sm d a) => d.toNat % 2 == 0 && Wf.mask 0 a
  | .mmov _ (.ms d a) => Wf.mask 1 d && a.toNat % 2 == 0
  | .vote _ (.any pd) _ m => Wf.pw pd && Wf.mask 0 m
  | .vote _ (.all pd) _ m => Wf.pw pd && Wf.mask 0 m
  | .vote _ (.eq pd) _ m => Wf.pw pd && Wf.mask 0 m
  | .vote _ (.ballot d) _ m => Wf.vp l d && Wf.mask 0 m
  | .elect _ pd m => Wf.pw pd && Wf.mask 0 m
  | .plop _ pd _ _ _ => Wf.pw pd
  | .pmov _ (.pp pd _) => Wf.pw pd
  | .pmov _ (.toReg d) => Wf.vr l d
  | .pmov _ (.fromSrc a) => Wf.src l 1 a
  | .pmov _ (.nonzero pd a) => Wf.pw pd && Wf.src l 1 a
  | .iaddCompact f => Wf.reg l (Wf.n64 f.w64) (Wf.n64 f.w64) (.v f.d) && Wf.reg l (Wf.n64 f.w64) (Wf.n64 f.w64) (.v f.a)
  | .isubCompact f => Wf.reg l (Wf.n64 f.w64) (Wf.n64 f.w64) (.v f.d) && Wf.reg l (Wf.n64 f.w64) (Wf.n64 f.w64) (.v f.a)
  | .imulCompact f => Wf.reg l (Wf.n64 f.w64) (Wf.n64 f.w64) (.v f.d) && Wf.reg l (Wf.n64 f.w64) (Wf.n64 f.w64) (.v f.a)
  | .iminCompact f => Wf.reg l (Wf.n64 f.w64) (Wf.n64 f.w64) (.v f.d) && Wf.reg l (Wf.n64 f.w64) (Wf.n64 f.w64) (.v f.a)
  | .imaxCompact f => Wf.reg l (Wf.n64 f.w64) (Wf.n64 f.w64) (.v f.d) && Wf.reg l (Wf.n64 f.w64) (Wf.n64 f.w64) (.v f.a)
  | .shlCompact f => Wf.reg l (Wf.n64 f.w64) (Wf.n64 f.w64) (.v f.d) && Wf.vr l f.a
  | .shrCompact f => Wf.reg l (Wf.n64 f.w64) (Wf.n64 f.w64) (.v f.d) && Wf.vr l f.a
  | .shaCompact f => Wf.reg l (Wf.n64 f.w64) (Wf.n64 f.w64) (.v f.d) && Wf.vr l f.a
  | .iadd f => Wf.alu l (Wf.n64 f.w64) f.d [(Wf.n64 f.w64, f.a), (Wf.n64 f.w64, f.b)]
  | .isub f => Wf.alu l (Wf.n64 f.w64) f.d [(Wf.n64 f.w64, f.a), (Wf.n64 f.w64, f.b)]
  | .imul f => Wf.alu l (Wf.n64 f.w64) f.d [(Wf.n64 f.w64, f.a), (Wf.n64 f.w64, f.b)]
  | .imulh f => Wf.alu l (Wf.n64 f.w64) f.d [(Wf.n64 f.w64, f.a), (Wf.n64 f.w64, f.b)] && !f.sat
  | .imin f => Wf.alu l (Wf.n64 f.w64) f.d [(Wf.n64 f.w64, f.a), (Wf.n64 f.w64, f.b)] && !f.sat
  | .imax f => Wf.alu l (Wf.n64 f.w64) f.d [(Wf.n64 f.w64, f.a), (Wf.n64 f.w64, f.b)] && !f.sat
  | .iadd3 f => Wf.alu l (Wf.n64 f.w64) f.d [(Wf.n64 f.w64, f.a), (Wf.n64 f.w64, f.b), (Wf.n64 f.w64, f.c)] && Wf.noNeigh f.c
  | .imad f => Wf.alu l (Wf.n64 f.w64) f.d [(Wf.n64 f.w64, f.a), (Wf.n64 f.w64, f.b), (Wf.n64 f.w64, f.c)] && Wf.noNeigh f.c
  | .imadw f => Wf.alu l 2 f.d [(1, f.a), (1, f.b), (2, f.c)] && Wf.noNeigh f.c && !f.w64
  | .iaddc f => Wf.alu l 1 f.d [(1, f.a), (1, f.b)]
  | .idiv f => Wf.alu l (Wf.n64 f.w64) f.d [(Wf.n64 f.w64, f.a), (Wf.n64 f.w64, f.b)]
  | .irem f => Wf.alu l (Wf.n64 f.w64) f.d [(Wf.n64 f.w64, f.a), (Wf.n64 f.w64, f.b)]
  | .iabs f => Wf.alu l (Wf.n64 f.w64) f.d [(Wf.n64 f.w64, f.a)]
  | .ineg f => Wf.alu l (Wf.n64 f.w64) f.d [(Wf.n64 f.w64, f.a)]
  | .popc f => Wf.alu l 1 f.d [(Wf.n64 f.w64, f.a)] && !f.sat
  | .clz f => Wf.alu l 1 f.d [(Wf.n64 f.w64, f.a)] && !f.sat
  | .brev f => Wf.alu l (Wf.n64 f.w64) f.d [(Wf.n64 f.w64, f.a)] && !f.sat
  | .iset f => Wf.pw f.pd && Wf.src l (Wf.n64 f.w64) f.a && Wf.src l (Wf.n64 f.w64) f.b && Wf.litsAgree [f.a, f.b]
  | .sel f => Wf.alu l (Wf.n64 f.w64) f.d [(Wf.n64 f.w64, f.a), (Wf.n64 f.w64, f.b)]
  | .lop3 f => Wf.alu l 1 f.d [(1, f.a), (1, f.b), (1, f.c)] && Wf.noNeigh f.b && Wf.noNeigh f.c
  | .shl f => Wf.alu l (Wf.n64 f.w64) f.d [(Wf.n64 f.w64, f.a), (1, f.b)]
  | .shr f => Wf.alu l (Wf.n64 f.w64) f.d [(Wf.n64 f.w64, f.a), (1, f.b)] && !f.sat && !f.sgn
  | .sha f => Wf.alu l (Wf.n64 f.w64) f.d [(Wf.n64 f.w64, f.a), (1, f.b)] && !f.sat && !f.sgn
  | .shf f => Wf.alu l 1 f.d [(1, f.a), (1, f.b), (1, f.c)] && Wf.noNeigh f.c
  | .bfe f => Wf.alu l (Wf.n64 f.w64) f.d [(Wf.n64 f.w64, f.a), (1, f.b)] && !f.sat
  | .bfi f => Wf.alu l (Wf.n64 f.w64) f.d [(Wf.n64 f.w64, f.a), (Wf.n64 f.w64, f.b), (1, f.c)] && Wf.noNeigh f.c
  | .lea f => Wf.alu l (Wf.n64 f.w64) f.d [(Wf.n64 f.w64, f.a), (1, f.b)]
  | .idp4 f => Wf.alu l 1 f.d [(1, f.a), (1, f.b), (1, f.c)] && Wf.noNeigh f.c
  | .movCompact f => Wf.vr l f.d && Wf.vr l f.a
  | .mov f => Wf.alu l 1 f.d [(1, f.a)]
  | .movl f => Wf.movl l f
  | .bcast f => Wf.vr l f.d && Wf.vr l f.a && Wf.mask 0 f.m
  | .rdlane f => Wf.vr l f.d && Wf.vr l f.a && Wf.us f.b
  | .perm f => Wf.vr l f.d && Wf.vr l f.a && Wf.src l 1 f.b
  | .ixset _ _ (.bl a b) => Wf.src l 1 a && Wf.src l 1 b && Wf.noNeigh b && Wf.litsAgree [a, b]
  | .ixset _ _ (.cur a) => Wf.src l 1 a
  | .ixset _ _ (.add a) => Wf.src l 1 a
  | .ixld f => Wf.vr l f.d && Wf.src l 1 f.b && Wf.noNeigh f.b
  | .ixst f => Wf.src l 1 f.a && Wf.src l 1 f.b && Wf.noNeigh f.b && Wf.litsAgree [f.a, f.b]
  | .getsr f => Wf.reg l (Wf.n64 f.w64) (Wf.n64 f.w64) f.d
  | .setsr f => Wf.setsrOk l f.sel && Wf.src l (Wf.n64 f.w64) f.a
  | .faddCompact f => Wf.vr l f.d && Wf.vr l f.a
  | .fmulCompact f => Wf.vr l f.d && Wf.vr l f.a
  | .fminCompact f => Wf.vr l f.d && Wf.vr l f.a
  | .fmaxCompact f => Wf.vr l f.d && Wf.vr l f.a
  | .hadd2Compact f => Wf.vr l f.d && Wf.vr l f.a
  | .hmul2Compact f => Wf.vr l f.d && Wf.vr l f.a
  | .fadd f => Wf.alu l 1 f.d [(1, f.a), (1, f.b)]
  | .fmul f => Wf.alu l 1 f.d [(1, f.a), (1, f.b)]
  | .ffma f => Wf.alu l 1 f.d [(1, f.a), (1, f.b), (1, f.c)] && Wf.noNeigh f.c
  | .fmin f => Wf.alu l 1 f.d [(1, f.a), (1, f.b)]
  | .fmax f => Wf.alu l 1 f.d [(1, f.a), (1, f.b)]
  | .fset f => Wf.pw f.pd && Wf.src l 1 f.a && Wf.src l 1 f.b && Wf.litsAgree [f.a, f.b]
  | .fclass f => Wf.alu l 1 f.d [(if f.fmt == .f64 then 2 else 1, f.a)]
  | .fscl f => Wf.alu l 1 f.d [(1, f.a), (1, f.b)]
  | .ffrx f => Wf.alu l 1 f.d [(1, f.a)]
  | .fceilx f => Wf.alu l 1 f.d [(1, f.a)]
  | .frcp f => Wf.alu l 1 f.d [(1, f.a)]
  | .frsq f => Wf.alu l 1 f.d [(1, f.a)]
  | .fsqrt f => Wf.alu l 1 f.d [(1, f.a)]
  | .fdiv f => Wf.alu l 1 f.d [(1, f.a), (1, f.b)]
  | .fex2 f => Wf.alu l 1 f.d [(1, f.a)]
  | .flg2 f => Wf.alu l 1 f.d [(1, f.a)] && f.rm == .rn
  | .fsin f => Wf.alu l 1 f.d [(1, f.a)] && f.rm == .rn
  | .fcos f => Wf.alu l 1 f.d [(1, f.a)] && f.rm == .rn
  | .ftanh f => Wf.alu l 1 f.d [(1, f.a)] && f.rm == .rn
  | .fex2m f => Wf.alu l 1 f.d [(1, f.a), (1, f.b)]
  | .dadd f => Wf.alu l 2 f.d [(2, f.a), (2, f.b)]
  | .dmul f => Wf.alu l 2 f.d [(2, f.a), (2, f.b)]
  | .dfma f => Wf.alu l 2 f.d [(2, f.a), (2, f.b), (2, f.c)] && Wf.noNeigh f.c
  | .dset f => Wf.pw f.pd && Wf.src l 2 f.a && Wf.src l 2 f.b && Wf.litsAgree [f.a, f.b]
  | .hadd2 f => Wf.alu l 1 f.d [(1, f.a), (1, f.b)]
  | .hmul2 f => Wf.alu l 1 f.d [(1, f.a), (1, f.b)]
  | .hfma2 f => Wf.alu l 1 f.d [(1, f.a), (1, f.b), (1, f.c)] && Wf.noNeigh f.c
  | .cvt f => Wf.cvt l f
  | .qnt f => Wf.qnt l f
  | .dqnt f => Wf.dqnt l f
  | .redl f => Wf.vr l f.d && Wf.src l 1 f.a && Wf.mask 0 f.m
  | .scanl f => Wf.vr l f.d && Wf.src l 1 f.a && Wf.mask 0 f.m
  | .ld f => Wf.ldst l f && Wf.weakMod f.m
  | .st f => Wf.ldst l f && Wf.weakMod f.m && Wf.storeSize f.size && f.la == 0
  | .lds f => Wf.ldst l f && Wf.rmtOk f.m && (f.m.ord == .rlx || f.m.ord == .acq)
  | .sts f => Wf.ldst l f && !f.m.rmt && (f.m.ord == .rlx || f.m.ord == .rel) && Wf.storeSize f.size && f.la == 0
  | .ldt f => Wf.ldstT l f
  | .stt f => Wf.ldstT l f && Wf.storeSize f.size && f.la == 0
  | .ldp f => Wf.ldstP l f
  | .stp f => Wf.ldstP l f && (Wf.storeSize f.size || f.size == .b512) && f.la == 0
  | .pf f => Wf.reg l 2 2 f.a && Wf.src l 1 f.b && Wf.noNeigh f.b
  | .cctlIinv _ _ => true
  | .cctlShinv _ b _ => Wf.src l 1 b && Wf.noNeigh b
  | .cctlL1inv _ _ => true
  | .atom f => Wf.reg l (Wf.widthRegs f.w) (Wf.widthRegs f.w) f.d && Wf.reg l 2 2 f.a && Wf.atomOperand l f.op f.w f.b
      && Wf.uniR f.d f.a && Wf.uni f.d [f.b] && Wf.atomWidth f.op f.w && Wf.atomOrd f.m.ord && Wf.rmtOk f.m
  | .atomp f => Wf.reg l (Wf.widthRegs f.w) (Wf.widthRegs f.w) f.d && Wf.src l 1 f.a && Wf.noNeigh f.a
      && Wf.atomOperand l f.op f.w f.b && Wf.uni f.d [f.a, f.b] && Wf.litsAgree [f.a, f.b] && Wf.atomWidth f.op f.w
      && Wf.atomOrd f.m.ord && !f.m.rmt && Wf.plotMod f.m
  | .red f => Wf.reg l (Wf.widthRegs f.w) (Wf.widthRegs f.w) f.d && Wf.reg l 2 2 f.a && Wf.src l 1 f.b && Wf.noNeigh f.b
      && Wf.uniR f.d f.a && Wf.uni f.d [f.b] && Wf.atomWidth f.op f.w && f.op != .exch && f.op != .cas
      && (f.m.ord == .rlx || f.m.ord == .rel) && !f.m.rmt
  | .fence _ o _ => o == .acq || o == .rel || o == .full || o == .opnd
  | .bar f => Wf.src l 1 f.cnt && Wf.noNeigh f.cnt
  | .bari f => Wf.obj l f.hint f.scope f.o && Wf.src l 1 f.b && Wf.noNeigh f.b && Wf.litsAgree (f.b :: Wf.objSrc f.o)
  | .bara f => Wf.obj l f.hint f.scope f.o && Wf.reg l 1 1 f.d && Wf.objUni f.d f.o
  | .barw f => Wf.obj l f.hint f.scope f.o && Wf.vr l f.d && Wf.src l 1 f.b && Wf.noNeigh f.b && Wf.litsAgree (f.b :: Wf.objSrc f.o)
  | .bart f => Wf.obj l f.hint f.scope f.o && Wf.src l 1 f.b && Wf.noNeigh f.b && Wf.litsAgree (f.b :: Wf.objSrc f.o)
  | .pqput f => Wf.pw f.pd && Wf.src l 1 f.a && Wf.noNeigh f.a && Wf.reg l 2 2 f.b
  | .pqtake f => Wf.pw f.pb && Wf.src l 1 f.a && Wf.noNeigh f.a && Wf.reg l 2 2 f.d && Wf.uni f.d [f.a]
  | .push _ => true
  | .mard f => decide (f.d.toNat + f.n1.toNat + 1 ≤ l.vregs) && decide (f.slot.toNat < l.acc) && Wf.src l 1 f.b && Wf.noNeigh f.b
  | .rpop f => Wf.alu l 1 f.d [(1, f.a)]
  | .rrel f => Wf.src l 1 f.a && Wf.src l 1 f.b && Wf.litsAgree [f.a, f.b]
  | .rpub f => Wf.src l 1 f.a && Wf.src l 1 f.b && Wf.litsAgree [f.a, f.b]
  | .rtinc f => Wf.src l 1 f.a && Wf.src l 1 f.b && Wf.litsAgree [f.a, f.b]
  | .rcsnap f => Wf.reg l 2 2 f.a && (f.an == .self || !Wf.isS f.a) && Wf.src l 1 f.b && Wf.src l 1 f.c && Wf.noNeigh f.c &&
      Wf.litsAgree [f.b, f.c]
  | .expf f => Wf.src l 1 f.a && Wf.src l 1 f.b && Wf.litsAgree [f.a, f.b]
  | .emit f => Wf.src l 1 f.a && Wf.noNeigh f.a && decide (3 ≤ f.n1.toNat) && Wf.reg l 1 (f.n1.toNat + 1) f.b
  | .launch f => Wf.reg l 1 1 f.d && Wf.reg l 2 2 f.a && Wf.uniR f.d f.a
  | .signal f => Wf.reg l 2 2 f.a && Wf.src l 1 f.b && Wf.noNeigh f.b
  | .waitev f => Wf.reg l 2 2 f.d && Wf.reg l 2 2 f.a && Wf.threshold l f.b && Wf.uniR f.d f.a && Wf.uni f.d [f.b]
  | .ordrel _ => true
  | .parkYield _ => true
  | .parkEv f => Wf.reg l 2 2 f.a && Wf.threshold l f.b
  | .reorder f => Wf.reorder l f
  | .sysc f => Wf.alu l 1 f.d [(1, f.b)] && Wf.noNeigh f.b
  | .dbgHalt f => Wf.dbg l 1 f
  | .dbgResume f => Wf.dbg l 1 f
  | .dbgStep f => Wf.dbg l 1 f
  | .dbgRdreg f => Wf.dbg l 1 f
  | .dbgWrreg f => Wf.dbg l 1 f
  | .dbgSetwp f => Wf.dbg l 2 f
  | .dbgGetmask f => Wf.dbg l 1 f
  | .riddleAgeFlush _ _ => false
  | .riddleDeferredFlush _ _ => false
  | .mmaDense _ _ => false
  | .mmaGrouped _ _ => false
  | .mmaExpand _ _ => false
  | .mmaAbsorb _ _ => false
  | .spanGroupTimeout _ => false
  | .mast _ => false
  | .mald _ => false
  | .maz _ => false
  | .cpy _ => false
  | .gath _ => false
  | .scat _ => false
  | .rake _ => false
  | .rsub _ => false
  | .lxw _ => false
  | .qcast _ => false
  | .cmrg _ => false
  | .mergeGroupTimeout _ => false
  | .patx _ => false
  | .engineTokenWrite _ => false
  | .feederFillStart _ => false
  | .feederFillComplete _ => false
  | .storerDrainStart _ => false
  | .storerDrainComplete _ => false
  | .kernelLaunch _ _ => false
  | .graphStart _ _ => false
  | .closeRecord _ _ => false
  | .trayFlush _ _ _ _ => false
  | .dispatch _ _ => false
  | .sliceExpiry _ => false
  | .parkThresholdExpiry _ => false
  | .teamWake _ => false
  | .teamRetire _ => false
  | .frameReceive _ _ _ => false
  | .heldRecordDelivery _ _ _ _ => false
  | .ptpMessage _ _ => false
  | .mmpFaultService _ _ _ => false
  | .map _ _ => false
  | .free _ => false
  | .share _ => false
  | .protect _ => false
  | .migrate _ _ => false
  | .lookup _ => false
  | .migrationCommit _ _ => false
  | .expertPrefetch _ _ _ => false
  | .peerRequest _ _ _ _ => false
  | .hyfinLinkFailure _ => false
  | .apertureAccess _ => false
  | .mailboxReport _ => false
  | .uncorrectableError _ => false
  | .linkReplayExhausted _ => false
  | .watchdogExpiry => false
  | .thermalTrip => false
  | .throttleStep => false
  | .bedIdle _ => false
  | .configure => false
  | .bedOn => false
  | .bedOff => false
  | .attest => false
  | .update _ => false
  | .updateComplete => false
  | .reset => false
  | .registerExpert => false
  | .steer => false
  | .mmpRequest => false
  | .registerWrite _ _ _ => false
  | .powerOn _ _ => false
  | .longLatencyResultWrite _ _ _ => false
  | .mmpFirmwareFault _ => false
  | .powerLoss => false

end Sys2Proof
end

