-- ==== Sys2Proof/Machine/Ops.lean ====
section
/-! DEFINITION. The named operations over threads, crews and teams: register writes, results in flight
(spec/03_encoding_rules.md R70), block entry (R54 to R58), region checkpoints and restarts (spec/19_scheduling_rules.md R349),
taking a trap and returning from it (spec/22_faults_rules.md R365 to R375, spec/07_core_instructions.md R128). -/

namespace Sys2Proof.Machine

/-! ## Threads of a crew -/

def Crew.width (c : Crew) : Nat := c.lanes.length

def Crew.thread? (c : Crew) (l : Nat) : Option Thread := (c.lanes[l]?).join

def Crew.setThread (c : Crew) (l : Nat) (f : Thread → Thread) : Crew := { c with lanes := modifyAt c.lanes l (·.map f) }

def Crew.setThreads (c : Crew) (ls : List Nat) (f : Thread → Thread) : Crew :=
  ls.foldl (fun c l => c.setThread l f) c

/-- The lanes that hold a thread. -/
def Crew.live (c : Crew) : List Nat := (List.range c.width).filter fun l => (c.thread? l).isSome

def Wait.isParked : Wait → Bool
  | .parked _ => true
  | .none => false
  | .waitm _ _ => false
  | .bar _ _ => false
  | .barw _ _ _ => false
  | .waitev _ _ _ => false
  | .token _ => false
  | .reg => false
  | .ring _ => false
  | .queue _ => false
  | .migr _ => false
  | .cox _ => false
  | .trap => false
  | .step _ _ => false
  | .halt _ => false

/-- m0: the live members, those not fault-parked (R22). -/
def Crew.m0 (c : Crew) : LaneMask :=
  maskOf (c.live.filter fun l => match c.thread? l with
    | some t => !t.wait.isParked
    | none => false)

/-- Mask mK (R22). -/
def Crew.mask (c : Crew) (k : Nat) : LaneMask := if k = 0 then c.m0 else (c.masks[k - 1]?).getD 0

/-- Set a mask m1 to m11. -/
def Crew.setMask (c : Crew) (k : Nat) (m : LaneMask) : Crew :=
  if k = 0 then c else { c with masks := modifyAt c.masks (k - 1) fun _ => m }

/-- A thread leaves every mask and its lane (R24). -/
def Crew.remove (c : Crew) (l : Nat) : Crew :=
  { c with lanes := modifyAt c.lanes l fun _ => none, masks := c.masks.map fun m => putBit m l false }

/-- Some thread of the crew is in handler mode (R371). -/
def Crew.inHandler (c : Crew) : Bool := c.lanes.any fun t => (t.map (·.handler)).getD false

/-- The team of a thread. -/
def Crew.ref (c : Crew) (t : Thread) : TeamRef := ⟨c.bed, c.launch, t.team⟩

/-- The address of a thread's instruction: past the header while it stands there (R395). -/
def Thread.iaddr (t : Thread) : Dword := if t.pc == t.hdr then t.hdr + 8 else t.pc

/-- The thread at its instruction: once that has issued, its PC is the instruction's (R395). -/
def Thread.atInstr (t : Thread) : Thread := if t.entry.isNone then { t with pc := t.iaddr } else t

/-- Threads in one issue group have one address, block and entry (R15); an entry keeps the block it comes from where that
decides its trap or its place (R54, R377). -/
def Thread.key (t : Thread) : Dword × Dword × Dword × Option EntryKind :=
  match t.entry with
  | none => (t.iaddr, t.hdr, t.hdrW, none)
  | some .enter => (t.pc, 0, 0, t.entry)
  | some (.branch _ _) => (t.pc, 0, 0, t.entry)
  | some (.rett _) => (t.pc, 0, 0, t.entry)
  | some .fall => (t.pc, t.hdr, t.hdrW, t.entry)
  | some (.wrreg _) => (t.pc, t.hdr, t.hdrW, t.entry)

def State.setThread (s : State) (cid l : Nat) (f : Thread → Thread) : State := s.setCrew cid fun c => c.setThread l f

def State.setThreads (s : State) (cid : Nat) (ls : List Nat) (f : Thread → Thread) : State :=
  s.setCrew cid fun c => c.setThreads ls f

/-- The kernel of a crew's launch (R88); none once the launch has completed. -/
def State.kernel? (s : State) (bed launch : Nat) : Option Kernel := (s.launch? bed launch).map (·.kernel)

/-- Remove the crews whose last lane is empty (R44). -/
def State.dropEmpty (s : State) : State :=
  { s with crews := s.crews.filter fun c => c.lanes.any (·.isSome) }

/-! ## Headers (R53) -/

def hdrLen (h : Dword) : Nat := (h.extractLsb' 2 10).toNat
def hdrLv (h : Dword) : Nat := (h.extractLsb' 12 10).toNat
def hdrLs (h : Dword) : Nat := (h.extractLsb' 22 9).toNat
def hdrRh (h : Dword) : Bool := h.getLsbD 31
def isHeader (w : Word) : Bool := w.setWidth 2 == 3#2

/-- The address after a block. -/
def blockEnd (hdr hdrW : Dword) : Dword := hdr + BitVec.ofNat 64 (4 * hdrLen hdrW)

/-- The first failing check of R57 other than 0x06 and 0x07, of a header entered at an address. -/
def headerSub (h addr : Dword) (vregs : Nat) : Option Nat :=
  if h.getLsbD 33 || h.extractLsb' 62 2 != 0 then some 1
  else if hdrLen h < 2 then some 2
  else if vregs < hdrLv h then some 3
  else if 256 < hdrLs h then some 4
  else if addr.extractLsb' 0 3 != 0 then some 5
  else none

/-! ## Writes of registers -/

/-- A register, predicate, mask or flag an instruction writes. -/
inductive Put where
  | v (r : Nat) (w : Word)
  | s (r : Nat) (w : Word)
  | p (i : Nat) (b : Bool)
  | ix (i : Nat) (x : IxReg)
  | mask (k : Nat) (m : LaneMask)
  | join (k : Nat) (b : Bool)
  | flags (w : Word)
  | setFlags (w : Word)
  | tcause (w : Word)
  | tval (w : Word)
  | tpc (w : Dword)
  | tmask (w : Dword)
  | redl (r : RedPend)
  | fence (f : FenceMark)
  deriving DecidableEq, Repr

/-- A write of an s-register by an instruction ends the register's token marks (R304). -/
def Crew.setS (c : Crew) (r : Nat) (w : Word) : Crew :=
  { c with s := c.s.set r w, errs := c.errs.filter (· != r), tokRegs := c.tokRegs.filter (· != r) }

/-- The latest release fence of a kind at a scope from a place. -/
def addFence (f : FenceMark) (l : List FenceMark) : List FenceMark := f :: l.filter fun g => !(g.mark == f.mark && g.opnd == f.opnd)

/-- One write, by the thread in a lane, at a step. -/
def Crew.put (c : Crew) (stamp l : Nat) : Put → Crew
  | .v r w => c.setThread l fun t => { t with v := t.v.set stamp r w }
  | .s r w => c.setS r w
  | .p i b => c.setThread l fun t => { t with p := putBit t.p i b }
  | .ix i x => c.setThread l fun t => { t with ix := modifyAt t.ix i fun _ => x }
  | .mask k m => c.setMask k m
  | .join k b => c.setMask k (putBit (c.mask k) l b)
  | .flags w => { c with fflags := c.fflags ||| w }
  | .setFlags w => { c with fflags := w }
  | .tcause w => { c with tcause := w }
  | .tval w => { c with tval := w }
  | .tpc w => { c with tpc := w }
  | .tmask w => { c with tmask := w }
  | .redl r => c.setThread l fun t => { t with redl := some r }
  | .fence f => c.setThread l fun t => { t with fences := addFence f t.fences }

def Crew.puts (c : Crew) (stamp l : Nat) (ps : List Put) : Crew := ps.foldl (fun c p => c.put stamp l p) c

/-- The results of a long-latency instruction, waiting to be written (R70). -/
def pendOf (id left : Nat) (hdr : Dword) (ps : List Put) : Pend :=
  { id := id, left := left, hdr := hdr,
    v := ps.filterMap fun p => match p with
      | .v r w => some (r, w)
      | _ => none,
    s := ps.filterMap fun p => match p with
      | .s r w => some (r, w)
      | _ => none,
    fl := ps.foldl (fun fl p => match p with
      | .flags w => fl ||| w
      | _ => fl) 0 }

/-- A write that waits for the window rather than being made at once; flags are raised as the instruction completes (R108). -/
def Put.isLate : Put → Bool
  | .v _ _ => true
  | .s _ _ => true
  | .flags _ => true
  | _ => false

/-- A register that the step `issued` has a result in flight for keeps a later write of its window, or takes the result: which
one is unspecified (R70; assumption 4). -/
def lateStays (stamp l : Nat) (v : VBank) (issued r : Nat) : Bool :=
  decide (issued < v.stamp r) && Config.freeNat (freeIndex stamp 13 (l * 512 + r)) % 2 == 0

/-- Write the results in flight that satisfy a test. -/
def Crew.flush (c : Crew) (stamp l : Nat) (which : Pend → Bool) : Crew :=
  match c.thread? l with
  | none => c
  | some t =>
    let go := t.pend.filter which
    let c := c.setThread l fun t => { t with pend := t.pend.filter fun p => !which p }
    go.foldl (fun c p => (p.s.foldl (fun c w => c.setS w.1 w.2) c).puts stamp l
      (.flags p.fl :: (p.v.filter fun w => !lateStays stamp l t.v p.id w.1).map fun w => .v w.1 w.2)) c

/-- Long-latency instructions complete, named by the steps that issued them: in every lane their results are written (R70, R108). -/
def Crew.complete (c : Crew) (stamp : Nat) (ids : List Nat) : Crew :=
  if ids.isEmpty then c else c.live.foldl (fun c l => c.flush stamp l fun p => ids.contains p.id) c

/-- The long-latency instructions of some lanes that are in flight. -/
def Crew.inFlight (c : Crew) (ls : List Nat) : List Nat :=
  ls.flatMap fun l => ((c.thread? l).map fun t => t.pend.map (·.id)).getD []

/-- Every long-latency instruction that a lane issued completes, in all its lanes. -/
def Crew.completeAll (c : Crew) (stamp l : Nat) : Crew := c.complete stamp (c.inFlight [l])

/-- The results of a long-latency instruction for s-registers pass from a lane that exits to another that issued it; where none
did, they are discarded (R125). -/
def Crew.passOn (c : Crew) (l : Nat) : Crew :=
  match c.thread? l with
  | none => c
  | some t => t.pend.foldl (fun c p => match c.live.find? fun j => j != l && (((c.thread? j).map (·.pend)).getD []).any (·.id == p.id) with
    | none => c
    | some j => c.setThread j fun u => { u with pend := mapIf (·.id == p.id) (fun q => { q with s := q.s ++ p.s }) u.pend }) c

/-- The registers of lanes whose threads leave their crew, kept with the crew's commands: a write since a PUSH still counts (R227). -/
def State.leaveRegs (s : State) (cid : Nat) (ls : List Nat) : State :=
  if s.cmds.isEmpty then s
  else match s.crew? cid with
    | none => s
    | some c =>
      let regs := ls.filterMap fun l => (c.thread? l).map fun t => (l, t.v)
      { s with cmds := mapIf (fun k => k.cid == cid && k.queue == 0) (fun k => { k with left := k.left ++ regs }) s.cmds }

/-! ## Region checkpoints (R55, R349, R370) -/

/-- The per-thread part of a checkpoint. -/
def Thread.checkpoint (t : Thread) (addr : Dword) (lv : Nat) : Thread :=
  { t with ck := { pc := addr, lv := lv, v := t.v, p := t.p, ix := t.ix, handler := t.handler, redl := t.redl } }

/-- The crew-level part. -/
def Crew.checkpoint (c : Crew) (ls : Nat) : Crew :=
  { c with ck := { ls := ls, s := c.s, toks := c.tokRegs, masks := c.masks, tcause := c.tcause, tpc := c.tpc, tval := c.tval,
                   tmask := c.tmask } }

/-- Registers kept below a bound; the others hold undefined values (R55). -/
def VBank.keep (b : VBank) (seed n : Nat) : VBank :=
  { base := .free seed, cells := (List.range n).map fun i => { idx := i, val := b.get i, stamp := b.stamp i } }

def Bank.keep (b : Bank) (seed n : Nat) (also : List Nat) : Bank :=
  { base := .free seed,
    cells := ((List.range 256).filter fun i => decide (i < n) || also.contains i).map fun i => (i, b.get i) }

/-- A barrier wait stands at the region head after its arrival, and a restart there resumes it (R256). -/
def Wait.afterRestart : Wait → Wait
  | .bar num phase => .bar num phase
  | _ => .none

/-- A thread at its restart PC with its own checkpoint (R349). -/
def Thread.restart (t : Thread) (seed : Nat) : Thread :=
  { t with
    pc := t.ck.pc, hdr := 0, hdrW := 0, entry := some .enter, v := t.ck.v.keep seed t.ck.lv, p := t.ck.p, ix := t.ck.ix,
    handler := t.ck.handler, pend := [], redl := t.ck.redl, wait := t.wait.afterRestart, skip := 0, answered := [], ret := none }

/-- A crew after a restart: every thread at its restart PC, the latest crew-level checkpoint, %fflags as it stands (R349,
R353). DESIGN CHOICE (assumption 61): the masks m1 to m11 come back whole, with the bits of lanes whose threads have exited or
entered a bin since the checkpoint, which R24 and R50 would keep out of them. -/
def Crew.restart (c : Crew) (fresh : Nat) : Crew :=
  { c with
    lanes := (List.range c.width).map fun l => (c.thread? l).map (·.restart (freeIndex fresh 2 (c.cid * 64 + l)))
    s := c.ck.s.keep (freeIndex fresh 3 c.cid) c.ck.ls (c.tokens ++ c.ck.toks)
    masks := c.ck.masks, tcause := c.ck.tcause, tpc := c.ck.tpc, tval := c.ck.tval, tmask := c.ck.tmask
    tokRegs := c.ck.toks, yielded := false, starve := 0, rest := [] }

/-! ## Reports and messages (R372, R383, R384, R401) -/

/-- An interrupt message of a bed: 16 bytes written at its IRQ address in host memory. -/
def State.message (s : State) (bed kind id aux : Nat) (tag : Word) : State :=
  let m : Message :=
    { bed := bed, addr := (s.bed bed).block.irq,
      data := BitVec.ofNat 128 (tag.toNat + 2 ^ 32 * (aux % 2 ^ 32) + 2 ^ 64 * (id % 2 ^ 32) + 2 ^ 96 * kind + 2 ^ 104 * bed) }
  { s.perform .cox (.host m.addr.toNat) (natBytes 16 m.data.toNat) with messages := s.messages ++ [m] }

/-- A report enters the queue of the bed's debug mailbox. -/
def State.report (s : State) (bed : Nat) (r : Report) : State := s.setBed bed fun b => { b with reports := b.reports ++ [r] }

/-! ## Traps (R365 to R375) -/

/-- A trap as delivery would write it: cause, %tval, %tpc; whether the stop PC is a block still to be entered; the
token register whose error mark it clears (R304). -/
structure Trap where
  cause : Nat
  tval : Word
  tpc : Dword
  entry : Option EntryKind := none
  clearErr : Option Nat := none
  deriving DecidableEq, Repr

/-- The lanes of a crew by team, teams in order of their lowest lane. -/
def Crew.byTeam (c : Crew) (ls : List Nat) : List (Nat × List Nat) :=
  ls.foldl (fun acc l => match c.thread? l with
    | none => acc
    | some t => if acc.any (·.1 == t.team) then mapIf (·.1 == t.team) (fun x => (x.1, x.2 ++ [l])) acc else acc ++ [(t.team, [l])])
    []

/-- The report of an event that stops lanes of a crew (R384). -/
def reportOf (c : Crew) (team : Nat) (ls : List Nat) (kind cause : Nat) (tval : Word) (tpc : Dword) : Report :=
  { launch := c.launch, team := team, tid := (((ls.head?).bind c.thread?).map (·.tid)).getD 0, crew := c.slot,
    cluster := c.cluster, core := c.core, kind := kind, cause := cause, tval := tval, tmask := maskOf ls, tpc := tpc }

/-- A team halts; from then on it is attached (R373, R375). -/
def State.haltTeam (s : State) (t : TeamRef) : State :=
  s.setTeam t fun x => { x with halted := true, attached := true }

/-- The teams of lanes halt, each with a report, its TVAL and TPC those of its lowest lane; a trap without handler also sends a
message (R371, R372, R375, R384). -/
def State.haltLanes (s : State) (c : Crew) (ls : List Nat) (kind cause : Nat) (tval : Nat → Word) (tpc : Nat → Dword) : State :=
  (c.byTeam ls).foldl (fun s g =>
    let s := (s.haltTeam ⟨c.bed, c.launch, g.1⟩).report c.bed
      (reportOf c g.1 g.2 kind cause (tval (g.2.headD 0)) (tpc (g.2.headD 0)))
    if kind == 0 then s.message c.bed 5 c.launch g.1 (((s.launch? c.bed c.launch).map (·.tag)).getD 0) else s) s

/-- The team of a lane is attached (R375). -/
def State.attachedLane (s : State) (c : Crew) (l : Nat) : Bool :=
  match c.thread? l with
  | none => false
  | some t => ((s.team? (c.ref t)).map (·.attached)).getD false

/-! ### Block entry (R54, R57, R58) -/

/-- What the entry of a block gives. -/
inductive Entry where
  | ok (hdrW : Dword)
  | trap (t : Trap)
  | fault (r : PageReq)
  deriving DecidableEq, Repr

/-- How a transfer of control or another entry reaches a block; `branch` names the transferring instruction. -/
inductive Enter where
  | branch (at_ : Dword)
  | fall (hdr : Dword)
  | enter
  | wrreg (block : Option (Dword × Bool))
  deriving DecidableEq, Repr

/-- The entry that still stands after a page fault. -/
def Enter.kind : Enter → EntryKind
  | .branch a => .branch a []
  | .fall _ => .fall
  | .enter => .enter
  | .wrreg b => .wrreg b

/-- The trap of a word that is no header (R54, R58). -/
def notHeader (addr : Dword) : Enter → Trap
  | .branch a => { cause := 3, tval := lo32 addr, tpc := a }
  | .wrreg b => { cause := 3, tval := lo32 addr, tpc := addr, entry := some (.wrreg b) }
  | .fall h => { cause := 4, tval := lo32 h, tpc := addr, entry := some .fall }
  | .enter => { cause := 2, tval := 7, tpc := addr, entry := some .enter }

/-- The checks of an entry (R54, R57, R58): the word must be a header, then the header's own checks. A fall-through alone may
reach an address that is not 8-byte-aligned with a header word (sub-cause 0x05). -/
def State.enterCheck (s : State) (c : Crew) (vregs : Nat) (answered : List PageAns) (addr : Dword) (k : Enter) : Entry :=
  let aligned := addr.extractLsb' 0 3 == 0
  let isFall := match k with
    | .fall _ => true
    | .branch _ => false
    | .enter => false
    | .wrreg _ => false
  if !aligned && !isFall then .trap (notHeader addr k)
  else match s.fetchWords c answered 1 addr with
    | .deny sub => .trap { cause := 8, tval := BitVec.ofNat 32 sub, tpc := addr, entry := some k.kind }
    | .fault r => .fault r
    | .ok ws =>
      if !isHeader (ws.headD 0) then .trap (notHeader addr k)
      else match s.fetchWords c answered 2 addr with
        | .deny sub => .trap { cause := 8, tval := BitVec.ofNat 32 sub, tpc := addr, entry := some k.kind }
        | .fault r => .fault r
        | .ok ws =>
          let h := pair64 (ws.headD 0) ((ws[1]?).getD 0)
          match headerSub h addr vregs with
          | some sub => .trap { cause := 2, tval := BitVec.ofNat 32 sub, tpc := addr, entry := some k.kind }
          | none => .ok h

/-- Threads stand at the header of the block they enter, what they had in flight complete (R70, R108); at RH = 1, or where R370 makes
the entry a region entry, the checkpoint is taken (R349). -/
def State.commitEntry (s : State) (cid : Nat) (ls : List Nat) (addr hdrW : Dword) (region : Bool) : State :=
  let s := s.setCrew cid fun c =>
    let c := c.complete s.fresh (c.inFlight ls)
    let c := c.setThreads ls fun t =>
      let t := { t with pc := addr, hdr := addr, hdrW := hdrW, entry := none, answered := [], ret := none, wait := .none }
      if hdrRh hdrW || region then t.checkpoint addr (hdrLv hdrW) else t
    if hdrRh hdrW || region then c.checkpoint (hdrLs hdrW) else c
  match s.crew? cid with
  | some c => s.keepWords c 2 addr
  | none => s

/-- Threads wait at a block they have not entered. -/
def State.standAt (s : State) (cid : Nat) (ls : List Nat) (addr : Dword) (k : EntryKind) (w : Wait) : State :=
  s.setThreads cid ls fun t => { t with pc := addr, entry := some k, wait := w }

/-! ### Taking a trap -/

/-- The accesses no watch unit matches at their next execution, once a lane has stopped for a trap (R380). -/
def Trap.spares (tr : Trap) (l : List Dword) : List Dword := if tr.cause == 0x10 && !l.contains tr.tpc then tr.tpc :: l else l

/-- The delivery of a trap to lanes of one crew that enter the handler: the trap registers are written, the lanes are in
handler mode at the handler's entry header, and the entry is a region entry (R368, R370). A handler header that cannot be
entered is a double trap (R371). -/
def State.takeTrap (s : State) (cid : Nat) (ls : List Nat) (k : Kernel) (tr : Trap) : State :=
  let s := s.setCrew cid fun c =>
    let c := { c with tcause := BitVec.ofNat 32 tr.cause, tpc := tr.tpc, tval := tr.tval, tmask := maskOf ls
                      errs := c.errs.filter fun r => tr.clearErr != some r }
    c.setThreads ls fun t =>
      { t with handler := true, wait := .none, entry := none, ret := none, exempt := tr.spares t.exempt }
  match s.crew? cid with
  | none => s
  | some c => match s.enterCheck c k.vregs [] k.handler .enter with
    | .ok h => s.commitEntry cid ls k.handler h true
    | .fault r => s.standAt cid ls k.handler .enter (.parked [r])
    | .trap t2 => (s.standAt cid ls k.handler .enter .none).haltLanes c ls 1 t2.cause (fun _ => t2.tval) fun _ => t2.tpc

/-- Lanes stop at their stop PC (R372, R375). -/
def State.stopAt (s : State) (cid : Nat) (ls : List Nat) (tr : Trap) : State :=
  s.setCrew cid fun c =>
    let c := { c with errs := c.errs.filter fun r => tr.clearErr != some r }
    c.setThreads ls fun t =>
      { t with pc := tr.tpc, entry := tr.entry, wait := .none, ret := none, exempt := tr.spares t.exempt }

/-- Where a double trap stops a lane: at the trapping instruction, a TRAP too, whose %tpc would be the next header (R365, R371). -/
def Trap.atInstr (tr : Trap) (pc : Dword) : Trap :=
  if tr.cause == 0x0E then { tr with tpc := pc, entry := none } else { tr with clearErr := none }

/-- A trap of lanes of one issue group that share its cause (R369 to R372, R375): a debug trap of an attached team halts it; a
lane in handler mode makes a double trap, stopped at the trapping instruction; without a handler the team halts; while a thread of
the crew is in handler mode the lane is blocked at its instruction; otherwise the trap is delivered. `tv`: each lane's own %tval,
of which a delivery and a report take their lowest lane's (R368, R384). -/
def State.trap (s : State) (cid : Nat) (ls : List Nat) (tr : Trap) (tv : Nat → Word := fun _ => tr.tval) : State :=
  match s.crew? cid with
  | none => s
  | some c =>
    let debug (l : Nat) : Bool := (tr.cause == 0x0F || tr.cause == 0x10) && s.attachedLane c l
    let inH (l : Nat) : Bool := ((c.thread? l).map (·.handler)).getD false
    let dbg := ls.filter debug
    let dbl := ls.filter fun l => !debug l && inH l
    let rest := ls.filter fun l => !debug l && !inH l
    let s := if dbg.isEmpty then s else (s.stopAt cid dbg tr).haltLanes c dbg 2 tr.cause tv fun _ => tr.tpc
    let here := tr.atInstr ((((dbl.head?).bind c.thread?).map (·.iaddr)).getD tr.tpc)
    let s := if dbl.isEmpty then s else (s.stopAt cid dbl here).haltLanes c dbl 1 tr.cause tv fun _ => here.tpc
    if rest.isEmpty then s else
    match s.kernel? c.bed c.launch with
    | none => s
    | some k =>
      if k.handler == 0 then (s.stopAt cid rest tr).haltLanes c rest 0 tr.cause tv fun _ => tr.tpc
      else if c.inHandler then s.setThreads cid rest fun t => { t.atInstr with wait := .trap }
      else s.takeTrap cid rest k { tr with tval := tv (rest.headD 0) }

/-- Lanes enter a block, or trap, or are fault-parked (R54, R204). -/
def State.enterBlock (s : State) (cid : Nat) (ls : List Nat) (addr : Dword) (k : Enter) (region : Bool) : State :=
  match s.crew? cid with
  | none => s
  | some c =>
    let answered := (((ls.head?).bind c.thread?).map (·.answered)).getD []
    let vregs := ((s.kernel? c.bed c.launch).map (·.vregs)).getD 512
    match s.enterCheck c vregs answered addr k with
    | .ok h => s.commitEntry cid ls addr h region
    | .fault r => s.standAt cid ls addr k.kind (.parked [r])
    | .trap tr => match k with
      | .branch _ => if tr.cause == 3 then s.trap cid ls tr else (s.standAt cid ls addr k.kind .none).trap cid ls tr
      | .fall _ => (s.standAt cid ls addr k.kind .none).trap cid ls tr
      | .enter => (s.standAt cid ls addr k.kind .none).trap cid ls tr
      | .wrreg _ => (s.standAt cid ls addr k.kind .none).trap cid ls tr

/-- Some instruction of a run of words begins `n` words on; the first words of instructions decide (R51). -/
def positionAt : Nat → List Word → Nat → Bool
  | _, _, 0 => true
  | 0, _, _ + 1 => false
  | _ + 1, [], _ + 1 => false
  | f + 1, w :: ws, n + 1 =>
    let k := match (w.setWidth 2).toNat with
      | 0 => 1 | 1 => 2 | 2 => 3 | _ => 2
    decide (k ≤ n + 1) && positionAt f ((w :: ws).drop k) (n + 1 - k)

/-- An address is an instruction position of a block: the block, or where no instruction begins there, none (R377). -/
inductive Position where
  | inside | outside
  | deny (sub : Nat)
  | fault (r : PageReq)
  deriving DecidableEq, Repr

def State.position (s : State) (c : Crew) (answered : List PageAns) (hdr hdrW pc : Dword) : Position :=
  let first := hdr + 8
  let n := (pc - first).toNat / 4
  if !decide (first.toNat ≤ pc.toNat ∧ pc.toNat < (blockEnd hdr hdrW).toNat ∧ pc.toNat % 4 = 0) then .outside
  else match s.fetchWords c answered n first with
    | .deny sub => .deny sub
    | .fault r => .fault r
    | .ok ws => if positionAt ws.length ws n then .inside else .outside

/-- A PC that a debugger wrote and that is no header: an instruction position of the block it stands in, else Branch Target
(R377). A thread at a block it has not entered stands in that block (R395), and enters it here. -/
def State.enterWritten (s : State) (cid : Nat) (ls : List Nat) (c : Crew) (t : Thread) (block : Option (Dword × Bool)) : State :=
  let own : Dword × Dword × Option Bool ⊕ PageReq := match block with
    | none => .inl (t.hdr, t.hdrW, none)
    | some (a, region) => match s.enterCheck c (((s.kernel? c.bed c.launch).map (·.vregs)).getD 512) t.answered a .enter with
      | .ok h => .inl (a, h, some region)
      | .trap _ => .inl (t.hdr, t.hdrW, none)
      | .fault r => .inr r
  match own with
  | .inr r => s.standAt cid ls t.pc (.wrreg block) (.parked [r])
  | .inl (hdr, hdrW, entry) => match s.position c t.answered hdr hdrW t.pc with
    | .outside => s.trap cid ls (notHeader t.pc (.wrreg block))
    | .deny sub => s.trap cid ls { cause := 8, tval := BitVec.ofNat 32 sub, tpc := t.pc, entry := some (.wrreg block) }
    | .fault r => s.standAt cid ls t.pc (.wrreg block) (.parked [r])
    | .inside =>
      let s := match entry with
        | some region => s.commitEntry cid ls hdr hdrW region
        | none => s
      s.setThreads cid ls fun u => { u with pc := t.pc, entry := none, wait := .none, answered := [], ret := none }

/-- The effect of a transfer whose target's page was absent (R204, R369). -/
def State.makeDue (s : State) (cid : Nat) (ls : List Nat) (due : List (Nat × Word)) (rett : Bool) : State :=
  s.setCrew cid fun c => (ls.foldl (fun c l => c.puts s.fresh l (due.map fun w => .v w.1 w.2)) c).setThreads ls fun t =>
    { t with handler := t.handler && !rett }

/-- A transfer reaches the block whose page was absent: it takes effect and enters it, or, where that is no block, traps at the
transferring instruction without effect (R58, R204, R369). -/
def State.enterDue (s : State) (cid : Nat) (ls : List Nat) (c : Crew) (t : Thread) (a : Dword) (due : List (Nat × Word)) (rett : Bool) :
    State :=
  match s.enterCheck c (((s.kernel? c.bed c.launch).map (·.vregs)).getD 512) t.answered t.pc (.branch a) with
  | .ok _ => (s.makeDue cid ls due rett).enterBlock cid ls t.pc (.branch a) rett
  | .fault r => s.setThreads cid ls fun u => { u with wait := .parked [r] }
  | .trap tr =>
    if tr.cause == 3 then (s.setThreads cid ls fun u => { u with pc := a, entry := none }).trap cid ls tr
    else (s.makeDue cid ls due rett).enterBlock cid ls t.pc (.branch a) rett

/-- The entry that a thread waiting at a block makes when it issues (R54, R370, R377). -/
def State.enterWaiting (s : State) (cid : Nat) (ls : List Nat) (t : Thread) (k : EntryKind) : State :=
  match s.crew? cid with
  | none => s
  | some c =>
    let handler := ((s.kernel? c.bed c.launch).map (·.handler)).getD 0
    match k with
    | .fall => s.enterBlock cid ls t.pc (.fall t.hdr) false
    | .enter => s.enterBlock cid ls t.pc .enter (t.handler && t.pc == handler)
    | .branch a due => s.enterDue cid ls c t a due false
    | .rett a => s.enterDue cid ls c t a [] true
    | .wrreg b => match s.enterCheck c (((s.kernel? c.bed c.launch).map (·.vregs)).getD 512) t.answered t.pc (.wrreg b) with
      | .trap tr => if tr.cause == 3 then s.enterWritten cid ls c t b else s.enterBlock cid ls t.pc (.wrreg b) false
      | .ok _ => s.enterBlock cid ls t.pc (.wrreg b) false
      | .fault _ => s.enterBlock cid ls t.pc (.wrreg b) false

/-! ### Returning from a trap (R128, R370) -/

/-- The lanes leave handler mode at the address in %tpc, a region entry. -/
def State.returnFromTrap (s : State) (cid : Nat) (ls : List Nat) (target hdrW : Dword) : State :=
  (s.setThreads cid ls fun t => { t with handler := false }).commitEntry cid ls target hdrW true

end Sys2Proof.Machine
end

