-- ==== Sys2Proof/Machine/Operands.lean ====
section
/-! DEFINITION. Operands: what a lane reads (spec/03_encoding_rules.md R63 to R71, spec/07_core_instructions.md R119), what a
destination writes, and the registers each instruction names, for the scoreboard (R70, R299). -/

namespace Sys2Proof.Machine

/-! ## The view of one lane -/

/-- What a lane of an issue group reads from: its crew as the group issued, the group, the lane, its thread, and the step
number from which free values are drawn. -/
structure Ctx where
  crew : Crew
  grp : Group
  lane : Nat
  t : Thread
  fresh : Nat

/-- A choice of this lane, among `n` outcomes (assumption 4). -/
def Ctx.choose (x : Ctx) (tag k n : Nat) : Nat := Config.freeNat (freeIndex x.fresh tag (x.lane * 2 ^ 32 + k)) % n

/-- A word of this lane the spec leaves undefined (assumption 4). -/
def Ctx.free (x : Ctx) (tag k : Nat) : Word := Config.freeWord (freeIndex x.fresh tag (x.lane * 2 ^ 32 + k))

/-- A register of a lane that is named, the reader's own among them, as it stands: zero for a lane with no thread; the old or the
new value of a result in flight (R50, R70, R71, R119). -/
def Ctx.other (x : Ctx) (l r : Nat) : Word :=
  match x.crew.thread? l with
  | none => 0
  | some t =>
    let late := (t.pend.flatMap (·.v)).filter (·.1 == r)
    match late with
    | [] => t.v.get r
    | _ => ((t.v.get r :: late.map (·.2))[x.choose 4 (l * 2 ^ 16 + r) (late.length + 1)]?).getD (t.v.get r)

/-- The lane's own register, named by a lane number, is the destination of a REDL or SCANL pending past its window, which the lane
waits for (R70, R181). -/
def Ctx.ownPends (x : Ctx) (l r : Nat) : Bool :=
  l == x.lane && (match x.t.redl with
    | none => false
    | some p => p.d == r && (p.left == 0 || p.hdr != x.grp.hdr))

/-- A per-lane register through a neighbour select (R71). -/
def Ctx.neigh (x : Ctx) (n : Neigh) (r : Nat) : Word :=
  match n with
  | .self => x.t.v.get r
  | .left => if x.lane = 0 then 0 else x.other (x.lane - 1) r
  | .right => if x.lane + 1 < x.crew.width then x.other (x.lane + 1) r else 0

/-- Guard-true (R68). -/
def guardTrue (g : Guard) (t : Thread) : Bool := (g.p == 7 || t.p.getLsbD g.p.toNat) != g.neg

/-- A predicate, index 7 reading as true (R68). -/
def predOf (t : Thread) (p : BitVec 3) : Bool := p == 7 || t.p.getLsbD p.toNat

/-! ## Constants (R64, R65) -/

/-- The words of codes 0x370 to 0x37C. -/
def conWord (k : Fin 13) : Word :=
  match k.val with
  | 0 => 0x3F000000 | 1 => 0x3F800000 | 2 => 0x40000000 | 3 => 0x40800000
  | 4 => 0xBF000000 | 5 => 0xBF800000 | 6 => 0xC0000000 | 7 => 0xC0800000
  | 8 => 0x3E22F983 | 9 => 0x3FB8AA3B | 10 => 0x3F317218 | 11 => 0
  | _ => 0xFFFFFFFF

/-- The word of an integer constant: code - 0x310. -/
def intWord (k : Fin 112) : Word := BitVec.ofInt 32 ((k.val : Int) - 16)

/-- An FP32 word widened exactly to binary64: an infinity or a NaN keeps its mantissa's bits, so that a signalling NaN stays one (R65,
R97). -/
def widen (w : Word) : Dword :=
  if w.extractLsb' 23 8 == 0xFF then BitVec.ofNat 64 ((if w.getLsbD 31 then 2 ^ 63 else 0) + 0x7FF * 2 ^ 52 + w.toNat % 2 ^ 23 * 2 ^ 29)
  else BitVec.ofNat 64 (convert .f64 .f32 .rn none false false w.toNat).bits

/-- An FP32 word rounded to a half format, in both halves. -/
def bothHalves (bf : Bool) (w : Word) : Word :=
  let h := (convert (if bf then .bf16 else .f16) .f32 .rn none false false w.toNat).bits
  BitVec.ofNat 32 (h * 65536 + h)

/-! ## Sources -/

/-- The 32-bit word of a source (R65). -/
def Ctx.w32 (x : Ctx) : Src → Word
  | .v r n => x.neigh n r.toNat
  | .s r => x.crew.s.get r.toNat
  | .int k => intWord k
  | .con k => conWord k
  | .lit w => w

/-- The 64-bit value of a source: a register pair, or a word sign-extended (R65, R67). -/
def Ctx.w64 (x : Ctx) : Src → Dword
  | .v r n => pair64 (x.neigh n r.toNat) (x.neigh n (r.toNat + 1))
  | .s r => pair64 (x.crew.s.get r.toNat) (x.crew.s.get (r.toNat + 1))
  | .int k => (intWord k).signExtend 64
  | .con k => (conWord k).signExtend 64
  | .lit w => w.signExtend 64

/-- A source of width 32 or 64, as a pattern (R120). -/
def Ctx.nat (x : Ctx) (w64 : Bool) (a : Src) : Nat := if w64 then (x.w64 a).toNat else (x.w32 a).toNat

/-- An FP64 source: FP32 constants and literals are widened (R65). -/
def Ctx.dbl (x : Ctx) : Src → Nat
  | .con k => if k.val = 12 then ((conWord k).signExtend 64).toNat else (widen (conWord k)).toNat
  | .lit w => (widen w).toNat
  | .v r n => (x.w64 (.v r n)).toNat
  | .s r => (x.w64 (.s r)).toNat
  | .int k => (x.w64 (.int k)).toNat

/-- A packed half source: the constants of R64 are rounded into both halves (R65). -/
def Ctx.half (x : Ctx) (bf : Bool) : Src → Word
  | .con k => if k.val = 12 then conWord k else bothHalves bf (conWord k)
  | .v r n => x.w32 (.v r n)
  | .s r => x.w32 (.s r)
  | .int k => x.w32 (.int k)
  | .lit w => w

/-- A register operand: one word, a pair, a group. -/
def Ctx.reg32 (x : Ctx) : Reg → Word
  | .v r => x.t.v.get r.toNat
  | .s r => x.crew.s.get r.toNat

def Ctx.reg64 (x : Ctx) : Reg → Dword
  | .v r => pair64 (x.t.v.get r.toNat) (x.t.v.get (r.toNat + 1))
  | .s r => pair64 (x.crew.s.get r.toNat) (x.crew.s.get (r.toNat + 1))

def Ctx.regs (x : Ctx) (n : Nat) : Reg → List Word
  | .v r => (List.range n).map fun i => x.t.v.get (r.toNat + i)
  | .s r => (List.range n).map fun i => x.crew.s.get (r.toNat + i)

end Sys2Proof.Machine

namespace Sys2Proof

open Sys2Proof.Machine

/-! ## Destinations -/

/-- The write of register number i of a group. -/
def Reg.put (d : Reg) (i : Nat) (w : Word) : Put :=
  match d with
  | .v r => .v (r.toNat + i) w
  | .s r => .s (r.toNat + i) w

def putsFrom (d : Reg) : Nat → List Word → List Put
  | _, [] => []
  | i, w :: t => Reg.put d i w :: putsFrom d (i + 1) t

/-- Words written to a group. -/
def Reg.puts (d : Reg) (ws : List Word) : List Put := putsFrom d 0 ws

/-- A 64-bit value written to a pair. -/
def Reg.put64 (d : Reg) (x : Dword) : List Put := Reg.puts d [lo32 x, hi32 x]

/-- A pattern of width 32 or 64. -/
def Reg.putN (d : Reg) (w64 : Bool) (n : Nat) : List Put :=
  if w64 then Reg.put64 d (BitVec.ofNat 64 n) else [Reg.put d 0 (BitVec.ofNat 32 n)]

/-- The destination is uniform (R66). -/
def Reg.isS : Reg → Bool
  | .v _ => false
  | .s _ => true

/-! ## The registers an instruction names (R70, R299) -/

/-- A register number in one file: `true` for s. -/
abbrev RegNum := Bool × Nat

/-- Registers read and written. -/
structure Touch where
  rd : List RegNum
  wr : List RegNum
  deriving DecidableEq, Repr

def regRun (s : Bool) (r n : Nat) : List RegNum := (List.range n).map fun i => (s, r + i)

/-- The registers of a group operand. -/
def Reg.run (n : Nat) : Reg → List RegNum
  | .v r => regRun false r.toNat n
  | .s r => regRun true r.toNat n

/-- The registers of its own thread or crew that a source of n words reads. -/
def Src.run (n : Nat) : Src → List RegNum
  | .v r .self => regRun false r.toNat n
  | .v _ .left => []
  | .v _ .right => []
  | .s r => regRun true r.toNat n
  | .int _ => []
  | .con _ => []
  | .lit _ => []

def BarObj.run : BarObj → List RegNum
  | .va a => Reg.run 2 a
  | .plot a => Src.run 1 a

def optRun : Option Src → List RegNum
  | some a => Src.run 1 a
  | none => []

def sizeWords (z : Size) : Nat := Wf.sizeRegs z

def cvtWords (f : CvtFmt) : Nat := Wf.cvtRegs f

def IBin.touch (f : IBin) : Touch :=
  let n := Wf.n64 f.w64
  ⟨Src.run n f.a ++ Src.run n f.b, Reg.run n f.d⟩

def ITri.touch (f : ITri) : Touch :=
  let n := Wf.n64 f.w64
  ⟨Src.run n f.a ++ Src.run n f.b ++ Src.run n f.c, Reg.run n f.d⟩

def IUn.touch (f : IUn) (nd : Nat) : Touch := ⟨Src.run (Wf.n64 f.w64) f.a, Reg.run nd f.d⟩

/-- Shifts and bit fields: B is one register (R145, R147). -/
def IBin.touch1 (f : IBin) : Touch :=
  let n := Wf.n64 f.w64
  ⟨Src.run n f.a ++ Src.run 1 f.b, Reg.run n f.d⟩

def CInt.touch (f : CInt) (nb : Nat) : Touch :=
  let n := Wf.n64 f.w64
  ⟨regRun false f.d.toNat n ++ regRun false f.a.toNat nb, regRun false f.d.toNat n⟩

def regs2 (d a : BitVec 9) : Touch := ⟨[(false, d.toNat), (false, a.toNat)], [(false, d.toNat)]⟩

def FBin.touch (f : FBin) (n : Nat) : Touch := ⟨Src.run n f.a ++ Src.run n f.b, Reg.run n f.d⟩
def FTri.touch (f : FTri) (n : Nat) : Touch := ⟨Src.run n f.a ++ Src.run n f.b ++ Src.run n f.c, Reg.run n f.d⟩
def FTwo.touch (f : FTwo) : Touch := ⟨Src.run 1 f.a ++ Src.run 1 f.b, Reg.run 1 f.d⟩
def FSpecial.touch (f : FSpecial) : Touch := ⟨Src.run 1 f.a, Reg.run 1 f.d⟩
def FSpecial2.touch (f : FSpecial2) : Touch := ⟨Src.run 1 f.a ++ Src.run 1 f.b, Reg.run 1 f.d⟩
def LdStF.touchLd (f : LdStF) : Touch := ⟨Reg.run 2 f.a ++ Src.run 1 f.b, Reg.run (sizeWords f.size) f.d⟩
def LdStF.touchSt (f : LdStF) : Touch := ⟨Reg.run 2 f.a ++ Src.run 1 f.b ++ Reg.run (sizeWords f.size) f.d, []⟩
def BarSF.touch (f : BarSF) : Touch := ⟨BarObj.run f.o ++ Src.run 1 f.b, []⟩
def DbgF.touch (f : DbgF) : Touch := ⟨Reg.run 2 f.a ++ Src.run 2 f.b ++ Src.run 1 f.c, Reg.run 2 f.d⟩

/-- The registers a word's instruction reads and writes; none for a step of another agent. -/
def Instr.touch : Instr → Touch
  | .brx _ a => ⟨Reg.run 2 a, []⟩
  | .call _ d _ => ⟨[], regRun false d.toNat 2⟩
  | .ret _ a => ⟨Reg.run 2 a, []⟩
  | .trap _ a => ⟨Src.run 1 a, []⟩
  | .brk _ a => ⟨Src.run 1 a, []⟩
  | .mmov _ f => match f with
    | .mm _ _ => ⟨[], []⟩
    | .sm d _ => ⟨[], regRun true d.toNat 2⟩
    | .ms _ a => ⟨regRun true a.toNat 2, []⟩
  | .vote _ f _ _ => match f with
    | .ballot d => ⟨[], regRun false d.toNat 2⟩
    | .any _ => ⟨[], []⟩
    | .all _ => ⟨[], []⟩
    | .eq _ => ⟨[], []⟩
  | .pmov _ f => match f with
    | .pp _ _ => ⟨[], []⟩
    | .toReg d => ⟨[], [(false, d.toNat)]⟩
    | .fromSrc a => ⟨Src.run 1 a, []⟩
    | .nonzero _ a => ⟨Src.run 1 a, []⟩
  | .iaddCompact f => f.touch (Wf.n64 f.w64)
  | .iadd f => f.touch
  | .iadd3 f => f.touch
  | .isubCompact f => f.touch (Wf.n64 f.w64)
  | .isub f => f.touch
  | .iaddc f => ⟨Src.run 1 f.a ++ Src.run 1 f.b, Reg.run 1 f.d⟩
  | .imulCompact f => f.touch (Wf.n64 f.w64)
  | .imul f => f.touch
  | .imulh f => f.touch
  | .imad f => f.touch
  | .imadw f => ⟨Src.run 1 f.a ++ Src.run 1 f.b ++ Src.run 2 f.c, Reg.run 2 f.d⟩
  | .idiv f => ⟨Src.run (Wf.n64 f.w64) f.a ++ Src.run (Wf.n64 f.w64) f.b, Reg.run (Wf.n64 f.w64) f.d⟩
  | .irem f => ⟨Src.run (Wf.n64 f.w64) f.a ++ Src.run (Wf.n64 f.w64) f.b, Reg.run (Wf.n64 f.w64) f.d⟩
  | .iminCompact f => f.touch (Wf.n64 f.w64)
  | .imin f => f.touch
  | .imaxCompact f => f.touch (Wf.n64 f.w64)
  | .imax f => f.touch
  | .iabs f => f.touch (Wf.n64 f.w64)
  | .ineg f => f.touch (Wf.n64 f.w64)
  | .iset f => ⟨Src.run (Wf.n64 f.w64) f.a ++ Src.run (Wf.n64 f.w64) f.b, []⟩
  | .sel f => ⟨Src.run (Wf.n64 f.w64) f.a ++ Src.run (Wf.n64 f.w64) f.b, Reg.run (Wf.n64 f.w64) f.d⟩
  | .lop3 f => ⟨Src.run 1 f.a ++ Src.run 1 f.b ++ Src.run 1 f.c, Reg.run 1 f.d⟩
  | .shlCompact f => f.touch 1
  | .shl f => f.touch1
  | .shrCompact f => f.touch 1
  | .shr f => f.touch1
  | .shaCompact f => f.touch 1
  | .sha f => f.touch1
  | .shf f => ⟨Src.run 1 f.a ++ Src.run 1 f.b ++ Src.run 1 f.c, Reg.run 1 f.d⟩
  | .bfe f => f.touch1
  | .bfi f => ⟨Src.run (Wf.n64 f.w64) f.a ++ Src.run (Wf.n64 f.w64) f.b ++ Src.run 1 f.c, Reg.run (Wf.n64 f.w64) f.d⟩
  | .popc f => f.touch 1
  | .clz f => f.touch 1
  | .brev f => f.touch (Wf.n64 f.w64)
  | .lea f => ⟨Src.run (Wf.n64 f.w64) f.a ++ Src.run 1 f.b, Reg.run (Wf.n64 f.w64) f.d⟩
  | .idp4 f => ⟨Src.run 1 f.a ++ Src.run 1 f.b ++ Src.run 1 f.c, Reg.run 1 f.d⟩
  | .movCompact f => ⟨[(false, f.a.toNat)], [(false, f.d.toNat)]⟩
  | .mov f => ⟨Src.run 1 f.a, Reg.run 1 f.d⟩
  | .movl f => match f.mode with
    | .full => ⟨Src.run 2 f.a, Reg.run 2 f.d⟩
    | .zx => ⟨Src.run 1 f.a, Reg.run 2 f.d⟩
    | .hi => ⟨Src.run 1 f.a, (Reg.run 2 f.d).drop 1⟩
  | .bcast f => ⟨[], [(false, f.d.toNat)]⟩
  | .rdlane f => ⟨Src.run 1 f.b, [(false, f.d.toNat)]⟩
  | .perm f => ⟨Src.run 1 f.b, [(false, f.d.toNat)]⟩
  | .ixset _ _ f => match f with
    | .bl a b => ⟨Src.run 1 a ++ Src.run 1 b, []⟩
    | .cur a => ⟨Src.run 1 a, []⟩
    | .add a => ⟨Src.run 1 a, []⟩
  | .ixld f => ⟨Src.run 1 f.b, [(false, f.d.toNat)]⟩
  | .ixst f => ⟨Src.run 1 f.b ++ Src.run 1 f.a, []⟩
  | .getsr f => ⟨[], Reg.run (Wf.n64 f.w64) f.d⟩
  | .setsr f => ⟨Src.run (Wf.n64 f.w64) f.a, []⟩
  | .faddCompact f => regs2 f.d f.a
  | .fadd f => f.touch 1
  | .fmulCompact f => regs2 f.d f.a
  | .fmul f => f.touch 1
  | .ffma f => f.touch 1
  | .fminCompact f => regs2 f.d f.a
  | .fmin f => f.touch
  | .fmaxCompact f => regs2 f.d f.a
  | .fmax f => f.touch
  | .fset f => ⟨Src.run 1 f.a ++ Src.run 1 f.b, []⟩
  | .fclass f => ⟨Src.run (if f.fmt == .f64 then 2 else 1) f.a, Reg.run 1 f.d⟩
  | .fscl f => f.touch
  | .ffrx f => ⟨Src.run 1 f.a, Reg.run 1 f.d⟩
  | .fceilx f => ⟨Src.run 1 f.a, Reg.run 1 f.d⟩
  | .frcp f => f.touch
  | .frsq f => f.touch
  | .fsqrt f => f.touch
  | .fdiv f => f.touch
  | .fex2 f => f.touch
  | .flg2 f => f.touch
  | .fsin f => f.touch
  | .fcos f => f.touch
  | .ftanh f => f.touch
  | .fex2m f => f.touch
  | .dadd f => f.touch 2
  | .dmul f => f.touch 2
  | .dfma f => f.touch 2
  | .dset f => ⟨Src.run 2 f.a ++ Src.run 2 f.b, []⟩
  | .hadd2Compact f => regs2 f.d f.a
  | .hadd2 f => ⟨Src.run 1 f.a ++ Src.run 1 f.b, Reg.run 1 f.d⟩
  | .hmul2Compact f => regs2 f.d f.a
  | .hmul2 f => ⟨Src.run 1 f.a ++ Src.run 1 f.b, Reg.run 1 f.d⟩
  | .hfma2 f => ⟨Src.run 1 f.a ++ Src.run 1 f.b ++ Src.run 1 f.c, Reg.run 1 f.d⟩
  | .cvt f => ⟨Src.run (cvtWords f.src) f.a ++ optRun f.q ++ (if f.ins then Reg.run 1 f.d else []), Reg.run (cvtWords f.dst) f.d⟩
  | .qnt f => ⟨Src.run 1 f.a ++ optRun f.b ++ optRun f.q, [(false, f.d.toNat)]⟩
  | .dqnt f => ⟨Src.run 1 f.a ++ Src.run 1 f.b ++ optRun f.c, Reg.run 1 f.d⟩
  | .redl f => ⟨Src.run 1 f.a, [(false, f.d.toNat)]⟩
  | .scanl f => ⟨Src.run 1 f.a, [(false, f.d.toNat)]⟩
  | .ld f => f.touchLd
  | .st f => f.touchSt
  | .lds f => f.touchLd
  | .sts f => f.touchSt
  | .ldt f => ⟨Reg.run 4 f.a ++ Src.run 1 f.b, Reg.run (sizeWords f.size) f.d⟩
  | .stt f => ⟨Reg.run 4 f.a ++ Src.run 1 f.b ++ Reg.run (sizeWords f.size) f.d, []⟩
  | .ldp f => ⟨Src.run 1 f.a ++ Src.run 1 f.b, Reg.run (sizeWords f.size) f.d⟩
  | .stp f => ⟨Src.run 1 f.a ++ Src.run 1 f.b ++ Reg.run (sizeWords f.size) f.d, []⟩
  | .pf f => ⟨Reg.run 2 f.a ++ Src.run 1 f.b, []⟩
  | .cctlShinv _ b _ => ⟨Src.run 1 b, []⟩
  | .atom f => ⟨Reg.run 2 f.a ++ Src.run (Wf.atomOperandRegs f.op f.w) f.b, Reg.run (Wf.widthRegs f.w) f.d⟩
  | .atomp f => ⟨Src.run 1 f.a ++ Src.run (Wf.atomOperandRegs f.op f.w) f.b, Reg.run (Wf.widthRegs f.w) f.d⟩
  | .red f => ⟨Reg.run 2 f.a ++ Src.run 1 f.b ++ Reg.run (Wf.atomOperandRegs f.op f.w) f.d, []⟩
  | .bar f => ⟨Src.run 1 f.cnt, []⟩
  | .bari f => f.touch
  | .bara f => ⟨BarObj.run f.o, Reg.run 1 f.d⟩
  | .barw f => ⟨BarObj.run f.o ++ Src.run 1 f.b, [(false, f.d.toNat)]⟩
  | .bart f => f.touch
  | .pqput f => ⟨Src.run 1 f.a ++ Reg.run 2 f.b, []⟩
  | .pqtake f => ⟨Src.run 1 f.a, Reg.run 2 f.d⟩
  | .push f => ⟨regRun true (f.sb.toNat * 16) 16, []⟩
  | .mard f => ⟨Src.run 1 f.b, regRun false f.d.toNat (f.n1.toNat + 1)⟩
  | .rpop f => ⟨Src.run 1 f.a, Reg.run 1 f.d⟩
  | .rrel f => ⟨Src.run 1 f.a ++ Src.run 1 f.b, []⟩
  | .rpub f => ⟨Src.run 1 f.a ++ Src.run 1 f.b, []⟩
  | .rtinc f => ⟨Src.run 1 f.a ++ Src.run 1 f.b, []⟩
  | .rcsnap f => ⟨(if f.an == .self then Reg.run 2 f.a else []) ++ Src.run 1 f.b ++ Src.run 1 f.c, []⟩
  | .expf f => ⟨Src.run 1 f.a ++ Src.run 1 f.b, []⟩
  | .emit f => ⟨Src.run 1 f.a ++ Reg.run (f.n1.toNat + 1) f.b, []⟩
  | .launch f => ⟨Reg.run 2 f.a, Reg.run 1 f.d⟩
  | .signal f => ⟨Reg.run 2 f.a ++ Src.run 1 f.b, []⟩
  | .waitev f => ⟨Reg.run 2 f.a ++ Src.run 2 f.b, Reg.run 2 f.d⟩
  | .parkEv f => ⟨Reg.run 2 f.a ++ Src.run 2 f.b, []⟩
  | .reorder f => ⟨Src.run 1 f.key ++ regRun false f.vp.toNat f.n.toNat, []⟩
  | .sysc f => ⟨Src.run 1 f.b, Reg.run 1 f.d⟩
  | .dbgHalt f => ⟨Reg.run 2 f.a, Reg.run 2 f.d⟩
  | .dbgResume f => ⟨Reg.run 2 f.a, Reg.run 2 f.d⟩
  | .dbgStep f => ⟨Reg.run 2 f.a, Reg.run 2 f.d⟩
  | .dbgRdreg f => ⟨Reg.run 2 f.a ++ Src.run 1 f.b, Reg.run 2 f.d⟩
  | .dbgWrreg f => ⟨Reg.run 2 f.a ++ Src.run 1 f.b ++ Src.run 1 f.c, Reg.run 2 f.d⟩
  | .dbgSetwp f => f.touch
  | .dbgGetmask f => ⟨Reg.run 2 f.a ++ Src.run 1 f.b, Reg.run 2 f.d⟩
  | _ => ⟨[], []⟩

/-- The commit instructions of R350, the host stores apart. -/
def Instr.isCommit : Instr → Bool
  | .atom _ => true
  | .atomp _ => true
  | .red _ => true
  | .push _ => true
  | .bar _ => true
  | .bara _ => true
  | .bart _ => true
  | .pqput _ => true
  | .pqtake _ => true
  | .reorder _ => true
  | .rpop _ => true
  | .rrel _ => true
  | .rpub _ => true
  | .rtinc _ => true
  | .rcsnap _ => true
  | .emit _ => true
  | .launch _ => true
  | .signal _ => true
  | .ordrel _ => true
  | .parkYield _ => true
  | .parkEv _ => true
  | _ => false

end Sys2Proof
end

