-- ==== Sys2Proof/Machine/Ready.lean ====
section
/-! DEFINITION. What blocks a thread and what ends the block (spec/01_execution_rules.md R31, R25 to R27, spec/14_memory_instructions.md
R254, R258, spec/17_engine_instructions.md R294, R299, R322): every wait is judged on the state, so a wait that a restart or a
new placement repeats needs nothing more. -/

namespace Sys2Proof.Machine

/-! ## Queues and rings -/

/-- The depth of a queue (R266). -/
def queueDepth : Nat → Nat
  | 0 => 4 | 1 => 32 | 2 => 16 | 3 => 16 | 4 => 16 | _ => 8

/-- The commands a queue instance holds: queue 0 is a core's, the others a cluster's (R266). A matrix command of a team that has
left stands in no core's queue (R272). -/
def State.queued (s : State) (c : Crew) (q : Nat) : Nat :=
  (s.cmds.filter fun x => x.queue == q && x.away.isNone && x.cluster == c.cluster && (q != 0 || x.core == c.core)).length

def State.queueFull (s : State) (c : Crew) (q : Nat) : Bool := decide (queueDepth q ≤ s.queued c q)

/-- The header of a ring in a team's plot (R284). -/
def State.ringHeader (s : State) (t : TeamRef) (h : Nat) : Nat :=
  match s.team? t with
  | some tm => leNat (tm.plot.read h 64)
  | none => 0

def ringStage (hdr i : Nat) : Nat := field hdr (3 * i) 3
def ringStages (hdr : Nat) : Nat := field hdr 48 4 + 1
def ringOut (hdr : Nat) : Bool := bit hdr 52
def ringDone (hdr : Nat) : Bool := bit hdr 53
def ringErr (hdr : Nat) : Bool := bit hdr 54
def ringSize (hdr : Nat) : Nat := field hdr 64 16
def ringHead (hdr : Nat) : Nat := field hdr 112 4
def ringTail (hdr : Nat) : Nat := field hdr 116 4
def ringTiles (hdr : Nat) : Nat := field hdr 128 32

/-- The stage at TAIL can be handed out (R285). -/
def ringFree (hdr : Nat) : Bool := ringStage hdr (ringTail hdr) == (if ringOut hdr then 0 else 2)

/-- The tiles of a ring's walk, while its subscription stands. -/
def State.ringWalk (s : State) (t : TeamRef) (h : Nat) : Option Walk :=
  ((s.cmds.find? fun x => x.bed == t.bed && x.launch == t.launch && x.team == t.team &&
    (match x.walk with
      | some w => w.hdr == h
      | none => false)).bind (·.walk))

/-- An output ring's stages handed out already cover the walk (R322). -/
def State.ringCovered (s : State) (t : TeamRef) (h hdr : Nat) : Bool :=
  ringOut hdr && (match s.ringWalk t h with
    | some w => decide (w.tiles ≤ ringTiles hdr +
        ringSize hdr * ((List.range (ringStages hdr)).filter fun i => ringStage hdr i != 0).length)
    | none => true)

/-- The walk of a ring has ended for RPOP (R322). -/
def State.ringEnded (s : State) (t : TeamRef) (h hdr : Nat) : Bool := ringDone hdr || ringErr hdr || s.ringCovered t h hdr

/-! ## Blocked and ready threads -/

/-- Some thread of a team has a REDL or SCANL that is not released. -/
def State.treeWaits (s : State) (r : TeamRef) : Bool :=
  s.crews.any fun c => c.lanes.any fun t => match t with
    | some t => c.ref t == r && t.redl.isSome
    | none => false

/-- What an object that a thread waits on holds, read anew at each look (R261): of virtual memory through the leaf that translates
its address now. None: it cannot be read now, or not without the instruction's own checks; a sector with a held write is not read
before its commit (R209). -/
inductive Look where
  | bytes (bs : List Byte)
  | retry
  | held
  deriving DecidableEq, Repr

def State.look (s : State) (o : Obj) (n : Nat) : Look :=
  match o with
  | .plot l => .bytes (s.read l n)
  | .va bed a => match s.page bed [] .read a n with
    | .part p => if (s.partWaits p).isSome then .held else if s.unreachable [p] then .retry else .bytes (s.read p.loc n)
    | .missing => .retry
    | .unbacked => .retry
    | .ask _ => .retry

/-- An object's bytes meet a condition, or its instruction must look again for itself. -/
def State.looksDone (s : State) (o : Obj) (n : Nat) (p : Nat → Bool) : Bool :=
  match s.look o n with
  | .bytes bs => p (leNat bs)
  | .retry => true
  | .held => false

/-- A wait has ended (R31). A WAITM ends only by its release (R25). -/
def State.waitOver (s : State) (c : Crew) (t : Thread) : Bool :=
  match t.wait with
  | .none => true
  | .waitm _ _ => false
  | .bar num phase => match s.team? (c.ref t) with
    | some tm => decide (phase < ((tm.bars[num]?).map (·.phase)).getD 0)
    | none => false
  | .barw o gen _ => s.looksDone o 4 fun x => x != gen.toNat
  | .waitev o th _ => s.looksDone o 8 fun x => decide (th ≤ x)
  | .token r => !c.tokens.contains r
  | .reg => t.redl.isNone
  | .ring h => let hdr := s.ringHeader (c.ref t) h; ringFree hdr || s.ringEnded (c.ref t) h hdr
  | .queue q => !s.queueFull c q
  | .migr pg => t.ret.isSome || (s.migration? c.bed (pg * 65536)).isNone
  | .cox pg => !(s.coxWaits.any fun w => w.bed == c.bed && w.page == pg && w.answer.isNone)
  | .parked ps => ps.isEmpty
  | .trap => !c.inHandler
  | .step r _ => match s.team? r with
    | some tm => tm.stepping.isEmpty
    | none => true
  | .halt r => !s.treeWaits r

/-- A matrix command of the team that its engine has not resumed since the team was placed again comes first (R272). -/
def State.resumeDue (s : State) (r : TeamRef) : Bool :=
  s.cmds.any fun k => k.resume && k.bed == r.bed && k.launch == r.launch && k.team == r.team

/-- An atomic that was held has been performed, and the group that a thread issues with takes its value (R209): a team that leaves
lets it end, so that it is not performed again. -/
def Crew.owes (c : Crew) (t : Thread) : Bool := c.lanes.any fun u => (u.map fun u => u.ret.isSome && u.iaddr == t.iaddr).getD false

/-- The team of a thread may issue: no matrix command is to be resumed first, and this crew has a step of a debugger to make, or the
team is neither leaving nor halted (R272, R364, R373, R376). -/
def State.teamRuns (s : State) (c : Crew) (t : Thread) : Bool :=
  !s.resumeDue (c.ref t) && match s.team? (c.ref t) with
  | some tm => (tm.stepping.contains c.cid && !tm.stepped.any fun e => e.cid == c.cid) || (!tm.halted && (tm.leaving.isNone || c.owes t))
  | none => true

/-- Ready: not blocked in the sense of R31. -/
def State.ready (s : State) (c : Crew) (t : Thread) : Bool := s.waitOver c t && s.teamRuns c t

/-- The lanes of a crew with ready threads, ascending. -/
def State.readyLanes (s : State) (c : Crew) : List Nat :=
  c.live.filter fun l => match c.thread? l with
    | some t => s.ready c t
    | none => false

/-- The thread is at a barrier or event wait, or fault-parked (R37). -/
def State.quietWait (s : State) (c : Crew) (t : Thread) : Bool :=
  !s.waitOver c t && (match t.wait with
    | .bar _ _ => true
    | .barw _ _ _ => true
    | .waitev _ _ _ => true
    | .parked _ => true
    | .none => false
    | .waitm _ _ => false
    | .token _ => false
    | .reg => false
    | .ring _ => false
    | .queue _ => false
    | .migr _ => false
    | .cox _ => false
    | .trap => false
    | .step _ _ => false
    | .halt _ => false)

/-! ## Continuing after an instruction -/

/-- Lanes of one block continue at an address: inside the block, or falling through at its end (R54). -/
def State.continueAt (s : State) (cid : Nat) (ls : List Nat) (hdr hdrW next : Dword) : State :=
  if ls.isEmpty then s
  else if next == blockEnd hdr hdrW then s.enterBlock cid ls next (.fall hdr) false
  else s.setThreads cid ls fun t => { t with pc := next, wait := .none, answered := [], ret := none }

/-! ## Steps of a debugger (R376) -/

/-- Where a thread that stood in a lane goes on: in its lane, after its REORDER (R43), or nowhere. -/
def State.nextPc (s : State) (c : Crew) (l : Nat) (pc : Dword) : Dword :=
  match ((s.crew? c.cid).bind fun c => c.thread? l), c.thread? l with
  | some t, _ => t.pc
  | none, some t => ((s.bins.find? fun b => b.bed == c.bed && b.launch == c.launch && b.team == t.team && b.tid == t.tid).map
      (·.pc)).getD pc
  | none, none => pc

/-- A step is over, with its report (R376). -/
def State.endStep (s : State) (c : Crew) (t : Team) (ls : List Nat) (pc : Dword) : State :=
  (s.setTeam t.ref fun x => { x with stepping := x.stepping.filter (· != c.cid), stepped := x.stepped.filter (·.cid != c.cid) }).report
    t.ref.bed (reportOf c t.ref.team ls 3 0x11 0 (s.nextPc c (ls.headD 0) pc))

/-! ## WAITM (R25, R26) -/

/-- Stalled at a WAITM on mK with no register write of its own outstanding (R25). -/
def Thread.stalledAt (t : Thread) (k : Nat) : Bool :=
  match t.wait with
  | .waitm m _ => m == k && t.redl.isNone
  | _ => false

def Crew.laneIs (c : Crew) (l : Nat) (p : Thread → Bool) : Bool := ((c.thread? l).map p).getD false

/-- The release condition of a mask holds and some thread waits for it. -/
def Crew.waitmOver (c : Crew) (k : Nat) : Bool :=
  (c.live.any fun l => c.laneIs l (·.stalledAt k)) &&
    ((lanesOf c.width (c.mask k)).all fun l => c.laneIs l (·.stalledAt k))

/-- Lanes grouped by a key of their threads, in order of first lane. -/
def Crew.groupBy {β : Type} [BEq β] (c : Crew) (key : Thread → β) (ls : List Nat) : List (β × List Nat) :=
  ls.foldl (fun acc l => match c.thread? l with
    | none => acc
    | some t => let b := key t
      if acc.any (·.1 == b) then mapIf (·.1 == b) (fun x => (x.1, x.2 ++ [l])) acc else acc ++ [(b, [l])]) []

def Wait.waitmLen : Wait → Nat
  | .waitm _ n => n
  | _ => 0

/-- Every thread stalled at a WAITM on mK continues after its own WAITM, its register writes complete. -/
def State.releaseWaitm (s : State) (cid k : Nat) : State :=
  match s.crew? cid with
  | none => s
  | some c =>
    let ls := c.live.filter fun l => c.laneIs l (·.stalledAt k)
    let groups := c.groupBy (fun t => (t.iaddr + BitVec.ofNat 64 (4 * t.wait.waitmLen), t.hdr, t.hdrW)) ls
    let s := s.setCrew cid fun c => c.complete s.fresh (c.inFlight ls)
    groups.foldl (fun s g => s.continueAt cid g.2 g.1.2.1 g.1.2.2 g.1.1) s

/-- The masks of a crew, m0 to m11, evaluated once each. -/
def State.evalMasks (s : State) (cid : Nat) : State :=
  (List.range 12).foldl (fun s k => match s.crew? cid with
    | some c => if c.waitmOver k then s.releaseWaitm cid k else s
    | none => s) s

/-- The release condition of some mask of a crew holds. -/
def State.maskDue (s : State) (cid : Nat) : Bool :=
  match s.crew? cid with
  | some c => (List.range 12).any c.waitmOver
  | none => false

/-- The masks of a crew, cycle after cycle until no condition holds: a thread that is released and then fault-parked leaves m0, which
the end of the next cycle finds (R26; assumption 69). Each cycle releases a thread, so that as many as the crew has lanes are enough. -/
def State.releaseFrom (cid : Nat) : Nat → State → State
  | 0, s => s
  | n + 1, s => if s.maskDue cid then State.releaseFrom cid n (s.evalMasks cid) else s

def State.releaseMasks (s : State) (cid : Nat) : State := State.releaseFrom cid (((s.crew? cid).map (·.width)).getD 0) s

end Sys2Proof.Machine
end

