-- ==== Sys2Proof/Machine/Riddle.lean ====
section
/-! DEFINITION. The Riddle: bins, flushes, the crews it builds (spec/01_execution_rules.md R34 to R48). -/

namespace Sys2Proof.Machine

/-- The order of bins: under .TEAM first by %teamid, then by key (R35). DESIGN CHOICE (assumption 72): R35 gives no order between a bin
of REORDER and one of REORDER.TEAM; those without .TEAM come first. -/
def Binned.order (b : Binned) : Nat := (match b.bin with
  | none => 0
  | some t => t + 1) * 65536 + b.key.toNat

/-- Two threads wait in one bin. -/
def Binned.sameBin (a b : Binned) : Bool :=
  a.bed == b.bed && a.launch == b.launch && a.cluster == b.cluster && a.bin == b.bin && a.key == b.key

/-- A thread waits in the bin a reference names. -/
def Binned.inBin (b : Binned) (r : BinRef) : Bool :=
  b.bed == r.bed && b.launch == r.launch && b.cluster == some r.cluster && b.bin == r.team && b.key == r.key

def Binned.ref (b : Binned) (cluster : Nat) : BinRef :=
  { bed := b.bed, launch := b.launch, cluster := cluster, team := b.bin, key := b.key }

/-- The threads of a domain, in bin order and then in arrival order. -/
def State.domain (s : State) (bed launch cluster : Nat) : List Binned :=
  sortBy (·.order) (sortBy (·.seq) (s.bins.filter fun b => b.bed == bed && b.launch == launch && b.cluster == some cluster))

/-- The threads of a bin in arrival order. -/
def State.binOf (s : State) (r : BinRef) : List Binned := sortBy (·.seq) (s.bins.filter fun b => b.inBin r)

/-- The empty slots a flush may use: claimed by a team of the launch in the cluster, or by the one team under .TEAM (R38). -/
def State.emptySlots (s : State) (bed launch cluster : Nat) (team : Option Nat) : List (Nat × Nat × Nat) :=
  (s.teams.filter fun t => t.ref.bed == bed && t.ref.launch == launch && (team.isNone || team == some t.ref.team)).flatMap fun t =>
    match t.place with
    | none => []
    | some p => if p.cluster != cluster then [] else
      (p.claims.filter fun k => !(s.crews.any fun c => c.cluster == cluster && c.core == k.1 && c.slot == k.2)).map fun k =>
        (t.ref.team, k.1, k.2)

/-- The words 0 to 63 of the launch-uniform block as s0 to s63; the others undefined (R43). -/
def uniformBank (seed : Nat) (ublk : List Word) : Bank :=
  { base := .free seed, cells := (List.range 64).map fun i => (i, (ublk[i]?).getD 0) }

/-- A thread that leaves its bin (R43): its payload, its key, the header after its REORDER. The successor region's checkpoint is
taken here, so that a restart finds the payload (R46). -/
def Binned.thread (b : Binned) (fresh : Nat) : Thread :=
  let seed := freeIndex fresh 5 b.seq
  let w (i : Nat) : Word := Config.freeWord (freeIndex fresh 6 (b.seq * 64 + i))
  let cells := (List.range b.payload.length).map fun i =>
    ({ idx := b.vp + i, val := (b.payload[i]?).getD 0, stamp := fresh } : VCell)
  let v : VBank := { base := .free seed, cells := cells }
  let p : BitVec 7 := (w 0).setWidth 7
  let ix := (List.range 4).map fun i => ({ base := w (3 * i + 1), limit := w (3 * i + 2), cur := w (3 * i + 3) } : IxReg)
  { team := b.team, tid := b.tid, pc := b.pc, hdr := 0, hdrW := 0, entry := some .enter, v := v, p := p, ix := ix,
    rkey := b.key.setWidth 32, handler := false, wait := .none, pend := [], redl := none,
    ck := { pc := b.pc, lv := b.vp + b.payload.length, v := v, p := p, ix := ix, handler := false, redl := none },
    skip := 0, exempt := b.exempt, answered := [], ret := none, fences := b.fences }

/-- Threads leave their bins as one crew in an empty slot, lanes in the order given (R38, R40, R43); the slot is chosen freely
among those that qualify. -/
def State.flushCrew (s : State) (bed launch cluster : Nat) (team : Option Nat) (bs : List Binned) (pick : Nat) : State :=
  let slots := s.emptySlots bed launch cluster team
  match s.launch? bed launch, slots[pick % max 1 slots.length]? with
  | some la, some (owner, core, slot) =>
    let ts := bs.map (·.thread s.fresh)
    let sb := uniformBank (freeIndex s.fresh 7 s.nextCid) la.ublk
    let masks := List.replicate 11 (0 : LaneMask)
    let c : Crew :=
      { cid := s.nextCid, bed := bed, launch := launch, owner := owner, cluster := cluster, core := core, slot := slot,
        age := s.clock, lanes := ts.map some ++ List.replicate (la.kernel.width - ts.length) none, s := sb, masks := masks,
        fflags := 0, tcause := 0, tpc := 0, tval := 0, tmask := 0, tokens := [], errs := [], tokRegs := [],
        ck := { ls := 64, s := sb, toks := [], masks := masks, tcause := 0, tpc := 0, tval := 0, tmask := 0 },
        yielded := false, starve := 0, rest := [], moves := [(s.fresh, cluster)] }
    let gone (b : Binned) : Bool := bs.any fun x => x.seq == b.seq
    let s := { s with crews := s.crews ++ [c], nextCid := s.nextCid + 1, bins := s.bins.filter fun b => !gone b }
    (c.groupBy (·.pc) c.live).foldl (fun s g => s.enterBlock c.cid g.2 g.1 .enter false) s
  | _, _ => s

/-- The threads of a bin are due to leave as soon as a slot empties (R38). -/
def State.markDue (s : State) (bs : List Binned) : State :=
  { s with bins := mapIf (fun b => bs.any fun x => x.seq == b.seq) (fun b => { b with due := true }) s.bins }

/-- Threads in bin order, bin by bin. -/
def byBin (bs : List Binned) : List (List Binned) :=
  bs.foldl (fun (acc : List (List Binned)) b =>
    if acc.any fun g => g.any (·.sameBin b) then mapIf (fun g => g.any (·.sameBin b)) (· ++ [b]) acc else acc ++ [[b]]) []

/-- Every live thread of the domain is in a bin, at a barrier or event wait, or fault-parked (R37). -/
def State.quiescent (s : State) (bed launch cluster : Nat) : Bool :=
  (s.crews.filter fun c => c.bed == bed && c.launch == launch && c.cluster == cluster).all fun c =>
    c.live.all fun l => c.laneIs l (s.quietWait c)

/-- Cut a sequence into crews of W threads, at most `n` of them. -/
def cutCrews {α : Type} (w : Nat) : Nat → List α → List (List α)
  | 0, _ => []
  | n + 1, l => if l.isEmpty then [] else l.take w :: cutCrews w n (l.drop w)

/-- Threads that leave together: the pool of slots they may use, and they, in lane order. -/
structure Flush where
  team : Option Nat
  crew : List Binned
  deriving DecidableEq, Repr

/-- The crews in which a bin that is due leaves, at most W threads each, and the threads behind them (R38). -/
def dueCrews (w : Nat) (bs : List Binned) : List (List Binned) × List Binned :=
  let n := (((List.range bs.length).filter fun i => ((bs[i]?).map (·.due)).getD false).getLast?).elim 0 fun i => i / max 1 w + 1
  (cutCrews w n bs, bs.drop (w * n))

/-- The crews of W threads that a bin fills, and the threads left in it (R37). -/
def fullCrews (w : Nat) (bs : List Binned) : List (List Binned) × List Binned :=
  let n := if w = 0 then 0 else bs.length / w
  (cutCrews w n bs, bs.drop (w * n))

/-- The oldest entry of a bin has waited the launch's reorder flush limit; zero is none (R37). -/
def aged (rfl : Nat) (bs : List Binned) : Bool :=
  rfl != 0 && ((bs.head?).map fun b => decide (rfl ≤ b.waited)).getD false

/-- What leaves of a bin, full or aged, and the threads left in it (R37). -/
def ripeCrews (w rfl : Nat) (bs : List Binned) : List (List Binned) × List Binned :=
  let (full, rest) := fullCrews w bs
  if aged rfl rest then (full ++ [rest], []) else (full, rest)

/-- What leaves of one pool's bins: full and aged bins, and at quiescence the rest, one crew for each bin, or packed when there are
more bins than the slots that the others leave; none where no slot is empty (R37, R39, R42). -/
def State.leavers (s : State) (bed launch cluster w rfl : Nat) (quiet : Bool) (team : Option Nat) : List Flush :=
  let bins := (byBin ((s.domain bed launch cluster).filter fun b => b.bin == team)).map fun bs => ripeCrews w rfl (dueCrews w bs).2
  let full := bins.flatMap (·.1)
  let rest := (bins.map (·.2)).filter fun b => !b.isEmpty
  let e := (s.emptySlots bed launch cluster team).length
  let drained := if !quiet || e = 0 then []
    else if full.length + rest.length ≤ e then rest else cutCrews w rest.length rest.flatten
  (full ++ drained).map fun c => ⟨team, c⟩

/-- One flush: now, or due when no slot is empty (R38). -/
def State.flushOne (s : State) (bed launch cluster pick : Nat) (f : Flush) : State :=
  if (s.emptySlots bed launch cluster f.team).isEmpty then s.markDue f.crew
  else s.flushCrew bed launch cluster f.team f.crew (pick + s.choose 8 s.nextCid (2 ^ 32))

/-- What is due already, bin by bin (R38). -/
def State.dueFlushes (s : State) (bed launch cluster w : Nat) : List Flush :=
  (byBin (s.domain bed launch cluster)).flatMap fun bs => (dueCrews w bs).1.map fun c => ⟨(bs.head?).bind (·.bin), c⟩

/-- The flushes of a domain that its contents demand: what is due takes the slots that have emptied; then full and aged bins and, at
quiescence, the others, decided on the bins as the step found them and served together in ascending bin order (R37, R38, R41,
R42). `pick`: of the choice of slots. -/
def State.riddle (s : State) (bed launch cluster : Nat) (pick : Nat := 0) : State :=
  match s.launch? bed launch with
  | none => s
  | some la =>
    if (s.domain bed launch cluster).isEmpty then s
    else
      let w := la.kernel.width
      let quiet := s.quiescent bed launch cluster
      let s := (s.dueFlushes bed launch cluster w).foldl (fun s f => s.flushOne bed launch cluster pick f) s
      let teams := (s.domain bed launch cluster).foldl (fun (acc : List (Option Nat)) b =>
        if acc.contains b.bin then acc else acc ++ [b.bin]) []
      let fs := sortBy (fun f => ((f.crew.head?).map (·.order)).getD 0) (teams.flatMap (s.leavers bed launch cluster w la.rfl quiet))
      fs.foldl (fun s f => s.flushOne bed launch cluster pick f) s

/-! ## Flushes that time brings -/

/-- RIDDLE_AGE_FLUSH: the oldest thread of a bin has waited the launch's limit; whatever else of its domain flushes in that cycle
is served with it (R37, R41). -/
def execRiddleAgeFlush (bin : BinRef) (pick : Nat) (s : State) : Host.Outcome State Fault Refusal :=
  match s.launch? bin.bed bin.launch, s.binOf bin with
  | some la, b :: _ =>
    if la.rfl = 0 || decide (b.waited < la.rfl) then .next s else .next (s.riddle bin.bed bin.launch bin.cluster pick)
  | _, _ => .next s

/-- RIDDLE_DEFERRED_FLUSH: a bin that is due leaves once a slot is empty (R38); the step that empties the slot does it first. -/
def execRiddleDeferredFlush (bin : BinRef) (pick : Nat) (s : State) : Host.Outcome State Fault Refusal :=
  match s.launch? bin.bed bin.launch with
  | some la =>
    match (dueCrews la.kernel.width (s.binOf bin)).1 with
    | [] => .next s
    | bs :: _ => .next (s.flushCrew bin.bed bin.launch bin.cluster bin.team bs pick)
  | none => .next s

end Sys2Proof.Machine
end

