-- ==== Sys2Proof/Machine/Tree.lean ====
section
/-! DEFINITION. The tree unit (spec/05_arithmetic_rules.md R111, spec/09_float_instructions.md R180 to R182): the fixed order of
REDL and SCANL, and their release. Then what settles after every issue group: releases of masks and of the tree unit, and the
Riddle's flushes (spec/01_execution_rules.md R26, R37). -/

namespace Sys2Proof.Machine

/-- The identity of an operation (R180). -/
def redIdentity : RedOp → Word
  | .fadd => 0x80000000 | .fmin => 0x7F800000 | .fmax => 0xFF800000
  | .iadd => 0 | .imins => 0x7FFFFFFF | .imaxs => 0x80000000 | .iminu => 0xFFFFFFFF | .imaxu => 0
  | .and => 0xFFFFFFFF | .or => 0 | .xor => 0

/-- A word and the flags of the combinations behind it. -/
abbrev FWord := Word × Word

def ofRes (r : FRes) : FWord := (BitVec.ofNat 32 r.bits, r.fl)

/-- One combination, the lower-lane partial first (R111, R180). -/
def redCombine (op : RedOp) (a b : Word) : FWord :=
  match op with
  | .fadd => ofRes (f32.add .rn false false a.toNat b.toNat)
  | .fmin => ofRes (f32.minmax false false a.toNat b.toNat)
  | .fmax => ofRes (f32.minmax true false a.toNat b.toNat)
  | .iadd => (a + b, 0)
  | .imins => (if a.slt b then a else b, 0)
  | .imaxs => (if a.slt b then b else a, 0)
  | .iminu => (if a < b then a else b, 0)
  | .imaxu => (if a < b then b else a, 0)
  | .and => (a &&& b, 0)
  | .or => (a ||| b, 0)
  | .xor => (a ^^^ b, 0)

def wordAt (l : List Word) (i : Nat) : Word := (l[i]?).getD 0

/-- One level of the up-sweep. -/
def upLevel (op : RedOp) (d : Nat) (t : List Word) : List Word × Word :=
  (List.range t.length).foldl (fun (acc : List Word × Word) i =>
    if (i + 1) % (2 * d) = 0 then
      let (w, fl) := redCombine op (wordAt t (i - d)) (wordAt t i)
      (acc.1 ++ [w], acc.2 ||| fl)
    else (acc.1 ++ [wordAt t i], acc.2)) ([], 0)

/-- One level of the down-sweep. -/
def downLevel (op : RedOp) (d : Nat) (t : List Word) : List Word × Word :=
  (List.range t.length).foldl (fun (acc : List Word × Word) i =>
    if (i + 1) % (2 * d) = 0 then
      let (w, fl) := redCombine op (wordAt t i) (wordAt t (i - d))
      (acc.1 ++ [w], acc.2 ||| fl)
    else if (i + 1) % (2 * d) = d then (acc.1 ++ [wordAt t (i + d)], acc.2)
    else (acc.1 ++ [wordAt t i], acc.2)) ([], 0)

/-- The distances 1, 2, 4, … below W. -/
def distances (w : Nat) : List Nat := (List.range (log2up w)).map fun k => 2 ^ k

/-- The up-sweep: REDL's result is the last element (R111). -/
def upSweep (op : RedOp) (x : List Word) : List Word × Word :=
  (distances x.length).foldl (fun (acc : List Word × Word) d =>
    let (t, fl) := upLevel op d acc.1
    (t, acc.2 ||| fl)) (x, 0)

/-- The down-sweep: the exclusive prefixes. -/
def downSweep (op : RedOp) (t : List Word) : List Word × Word :=
  (distances t.length).reverse.foldl (fun (acc : List Word × Word) d =>
    let (t, fl) := downLevel op d acc.1
    (t, acc.2 ||| fl)) (t.dropLast ++ [redIdentity op], 0)

/-- The results of a group of lanes: one word for each lane of the crew, and the flags (R182). -/
def treeResults (op : RedOp) (scan incl : Bool) (x : List Word) : List Word × Word :=
  let (t, fl) := upSweep op x
  if !scan then (List.replicate x.length (wordAt t (x.length - 1)), fl)
  else
    let (e, fl2) := downSweep op t
    if !incl then (e, fl ||| fl2)
    else (List.range x.length).foldl (fun (acc : List Word × Word) l =>
      let (w, f) := redCombine op (wordAt e l) (wordAt x l)
      (acc.1 ++ [w], acc.2 ||| f)) ([], fl ||| fl2)

/-- Pending at REDL or SCANL on mB (R181). -/
def Thread.pendingAt (t : Thread) (k : Nat) : Bool := (t.redl.map fun r => r.m == k).getD false

/-- The release condition of a mask: some thread is pending on it, and every member is, none of them fault-parked (R27, R181). -/
def Crew.redlOver (c : Crew) (k : Nat) : Bool :=
  (c.live.any fun l => c.laneIs l (·.pendingAt k)) &&
    ((lanesOf c.width (c.mask k)).all fun l => c.laneIs l fun t => t.pendingAt k && !t.wait.isParked)

/-- The result of a lane is written: to its register, where a later write of the window has not taken its place (R70), and to the
checkpoint of a region that began after the issue. -/
def Thread.writeRedl (t : Thread) (stamp l : Nat) (r : RedPend) (w : Word) : Thread :=
  let on (v : VBank) : VBank := if lateStays stamp l v r.id r.d then v else v.set stamp r.d w
  let ck := if t.ck.redl.isSome then { t.ck with v := on t.ck.v, redl := none } else t.ck
  { t with v := on t.v, redl := none, ck := ck }

/-- The pending lanes of mB receive their results, grouped by address (R182). -/
def Crew.releaseRedl (c : Crew) (stamp k : Nat) : Crew :=
  let ls := c.live.filter fun l => c.laneIs l (·.pendingAt k)
  let groups := c.groupBy (fun t => t.redl.map (·.pc)) ls
  groups.foldl (fun c g =>
    match ((g.2.head?).bind c.thread?).bind (·.redl) with
    | none => c
    | some r0 =>
      let x := (List.range c.width).map fun l =>
        if g.2.contains l then (((c.thread? l).bind (·.redl)).map (·.value)).getD 0 else redIdentity r0.op
      let (ys, fl) := treeResults r0.op r0.scan r0.incl x
      let c := g.2.foldl (fun c l => c.setThread l fun t => match t.redl with
        | some r => t.writeRedl stamp l r (wordAt ys l)
        | none => t) c
      { c with fflags := c.fflags ||| fl }) c

def State.releaseTrees (s : State) (cid : Nat) : State :=
  s.setCrew cid fun c => (List.range 12).foldl (fun c k => if c.redlOver k then c.releaseRedl s.fresh k else c) c

/-- The steps of a crew that waited for a REDL or SCANL which has been released are over (R376). -/
def State.settleSteps (s : State) (cid : Nat) : State :=
  (s.teams.filter fun t => t.stepping.contains cid).foldl (fun s t =>
    match s.crew? cid, t.stepped.find? fun e => e.cid == cid with
    | some c, some e =>
      if e.lanes.any fun l => c.laneIs l fun u => (u.redl.map (·.id)) == some e.id then s else s.endStep c t e.lanes e.pc
    | _, _ => s) s

/-- What waits on the threads of a crew settles: the tree unit, the steps that waited for it, the masks (R26, R182, R376). -/
def State.settleWaits (s : State) (cid : Nat) : State := ((s.releaseTrees cid).settleSteps cid).releaseMasks cid

/-- What settles after a crew has issued or changed: its waits, then the Riddle. -/
def State.settleCrew (s : State) (cid : Nat) : State :=
  let s := s.settleWaits cid
  match s.crew? cid with
  | none => s
  | some c => s.riddle c.bed c.launch c.cluster

/-- Every crew of a launch settles, then the Riddle of one cluster. -/
def State.settle (s : State) (bed launch cluster : Nat) : State :=
  let cids := (s.crews.filter fun c => c.bed == bed && c.launch == launch && c.cluster == cluster).map (·.cid)
  let s := cids.foldl (fun s cid => s.settleWaits cid) s.dropEmpty
  s.riddle bed launch cluster

end Sys2Proof.Machine
end

