-- ==== Sys2Proof/Machine/Drive.lean ====
section
/-! DEFINITION. How an issue group executes an instruction (spec/01_execution_rules.md R15 to R21, spec/07_core_instructions.md
R118, spec/22_faults_rules.md R369): each guard-true lane, in ascending order, answers what it does; the group concludes. -/

namespace Sys2Proof.Machine

/-! ## What a lane does -/

/-- The outcome of an instruction on one guard-true lane. `ok`: its writes; `late`: results that wait for a lookahead window
(R70); `jump`: writes, then a transfer; `rett`: leaves handler mode for the address; `toward`: either of these, its effect still to
come, where the target's page is absent (R204, R369); `exit`; `leave`: the thread is in a
Riddle bin; `trap`; `park`: fault-parked (R203); `stall`: not executed, waits (R31); `wait`: executed, then waits; `waitm`. -/
inductive LaneOut where
  | ok (ps : List Put)
  | late (k : Nat) (ps : List Put)
  | okCommit (ps : List Put)
  | jump (ps : List Put) (target : Dword)
  | rett (target : Dword)
  | toward (due : List (Nat × Word)) (target : Dword) (r : PageReq) (rett : Bool)
  | exit
  | leave
  | trap (t : Trap)
  | park (ps : List PageReq)
  | stall (w : Wait)
  | wait (w : Wait) (ps : List Put)
  | waitm (m : Nat)
  deriving DecidableEq, Repr

/-- A trap at the instruction of the group. -/
def Ctx.trap (x : Ctx) (cause : Nat) (tval : Word) : LaneOut := .trap { cause := cause, tval := tval, tpc := x.grp.pc }

/-- The Permission trap with a sub-cause of R366. -/
def Ctx.deny (x : Ctx) (sub : Nat) : LaneOut := x.trap 8 (BitVec.ofNat 32 sub)

/-- Where the lane's thread stands, and the thread as an agent (R215). -/
def Ctx.home (x : Ctx) : Home := x.crew.home x.t
def Ctx.agent (x : Ctx) : Agent := x.home.agent

/-- The team of the lane's thread. -/
def Ctx.ref (x : Ctx) : TeamRef := x.crew.ref x.t

/-- The predicate writes among a lane's writes. -/
def predPuts (ps : List Put) : List Put := ps.filter fun p => match p with
  | .p _ _ => true
  | _ => false

/-- What the other guard-true lanes of a uniform instruction do (R20, R239, R368): a long-latency one is in flight in them too. -/
def LaneOut.share : LaneOut → LaneOut
  | .ok ps => .ok (predPuts ps)
  | .late n ps => .late n (predPuts ps)
  | .okCommit ps => .okCommit (predPuts ps)
  | .jump ps a => .jump (predPuts ps) a
  | .rett a => .rett a
  | .toward due a r b => .toward due a r b
  | .exit => .exit
  | .leave => .leave
  | .trap t => .trap t
  | .park ps => .park ps
  | .stall w => .stall w
  | .wait w ps => .wait w (predPuts ps)
  | .waitm m => .waitm m

/-! ## Commits (R350) -/

/-- What the Region check of a commit gives. -/
inductive CommitSays where
  | ok
  | region (sub : Nat)
  | deny (sub : Nat)
  | fault (r : PageReq)
  deriving DecidableEq, Repr

/-- The words after a commit in its block are compact NOPs, and a header with RH = 1 stands at its fall-through address. -/
def State.commitCheck (s : State) (c : Crew) (k : Group) (answered : List PageAns) : CommitSays :=
  let stop := blockEnd k.hdr k.hdrW
  let after := k.pc + BitVec.ofNat 64 (4 * k.len)
  match s.fetchWords c answered ((stop - after).toNat / 4) after with
  | .deny sub => .deny sub
  | .fault r => .fault r
  | .ok ws =>
    if ws.any (· != 0) then .region 1
    else if stop.extractLsb' 0 3 != 0 then .region 2
    else match s.fetchWords c answered 1 stop with
      | .deny sub => .deny sub
      | .fault r => .fault r
      | .ok h => if isHeader (h.headD 0) && (h.headD 0).getLsbD 31 then .ok else .region 2

/-- The lane outcome of a failed Region check; none when it passes. -/
def Ctx.commitFails (x : Ctx) : CommitSays → Option LaneOut
  | .ok => none
  | .region sub => some (x.trap 6 (BitVec.ofNat 32 sub))
  | .deny sub => some (x.deny sub)
  | .fault r => some (.park [r])

/-! ## Teams: exits and barriers (R125, R254) -/

/-- The threads of a team that have not exited. -/
def State.liveThreads (s : State) (t : TeamRef) : Nat :=
  match s.team? t, s.kernel? t.bed t.launch with
  | some tm, some k => k.crews * k.width - tm.exited
  | _, _ => 0

/-- Complete a phase. -/
def Barrier.complete (b : Barrier) : Barrier := { a := 0, c := 0, phase := b.phase + 1 }

/-- The phase of a barrier is complete: `live` threads count when its count is 0 (R254). -/
def Barrier.done (b : Barrier) (live : Nat) : Bool := decide (0 < b.a) && decide ((if b.c = 0 then live else b.c) ≤ b.a)

/-- One arrival (R254). -/
def Barrier.arrive (b : Barrier) (count live : Nat) : Barrier :=
  let b := if b.a = 0 then { b with c := count } else b
  let b := { b with a := b.a + 1 }
  if b.done live then b.complete else b

/-- A thread exits: its team counts it, and phases that waited for it complete (R125, R254). -/
def State.exitThread (s : State) (t : TeamRef) : State :=
  let s := s.setTeam t fun x => { x with exited := x.exited + 1 }
  let live := s.liveThreads t
  s.setTeam t fun x => { x with bars := x.bars.map fun b => if b.done live then b.complete else b }

/-! ## Retirement of an instruction -/

/-- A thread whose instruction has executed: one instruction less in each lookahead window (R70). -/
def Thread.retire (t : Thread) (pc : Dword) : Thread :=
  { t with
    pend := t.pend.map fun p => { p with left := p.left - 1 }
    redl := t.redl.map fun r => { r with left := r.left - 1 }
    exempt := t.exempt.filter (· != pc)
    answered := []
    ret := none
    wait := .none }

/-- The writes of one lane's outcome. -/
def Crew.retireLane (c : Crew) (k : Group) (stamp l : Nat) : LaneOut → Crew
  | .ok ps => (c.setThread l (·.retire k.pc)).puts stamp l ps
  | .okCommit ps => (c.setThread l (·.retire k.pc)).puts stamp l ps
  | .jump ps _ => (c.setThread l (·.retire k.pc)).puts stamp l ps
  | .wait _ ps => (c.setThread l (·.retire k.pc)).puts stamp l ps
  | .rett _ => c.setThread l (·.retire k.pc)
  | .late n ps =>
    let c := (c.setThread l (·.retire k.pc)).puts stamp l (ps.filter fun p => !p.isLate)
    c.setThread l fun t => { t with pend := t.pend ++ [pendOf stamp n k.hdr ps] }
  | .waitm m => c.setThread l fun t => { t.retire k.pc with pc := k.pc, wait := .waitm m k.len }
  | .exit => c
  | .leave => c
  | .toward due a r rett => c.setThread l fun t =>
    { t.retire k.pc with pc := a, entry := some (if rett then .rett k.pc else .branch k.pc due), wait := .parked [r] }
  | .trap _ => c.setThread l fun t => { t with wait := .none }
  | .park ps => c.setThread l fun t => { t with pc := k.pc, wait := .parked ps }
  | .stall w => c.setThread l fun t => { t with pc := k.pc, wait := w }

/-- A lane's thread leaves the crew: an exit discards its results in flight, their flags apart (R125, R108). Commands of the crew
remember its registers (R227). -/
def State.departLane (s : State) (cid l : Nat) (o : LaneOut) : State :=
  match o, (s.crew? cid).bind (fun c => (c.thread? l).map fun t => c.ref t) with
  | .exit, some r =>
    let s := (s.leaveRegs cid [l]).setCrew cid fun c => (((c.passOn l).setThread l fun t =>
      { t with pend := t.pend.map fun p => { p with v := [], s := [] } }).flush s.fresh l fun _ => true).remove l
    s.exitThread r
  | .leave, some _ => (s.leaveRegs cid [l]).setCrew cid fun c => c.remove l
  | _, _ => s

/-- The per-lane registers a lane writes. -/
def vPuts (ps : List Put) : List (Nat × Word) := ps.filterMap fun p => match p with
  | .v r w => some (r, w)
  | _ => none

/-- A jump whose target is no header traps at the branch (R58); one whose target's page is absent waits at the target, with no
effect yet, since it may trap there still (R204, R369). -/
def State.jumpCheck (s : State) (c : Crew) (k : Group) (vregs : Nat) (o : LaneOut) : LaneOut :=
  let check (due : List (Nat × Word)) (a : Dword) (rett : Bool) : LaneOut := match s.enterCheck c vregs [] a (.branch k.pc) with
    | .ok _ => o
    | .fault r => .toward due a r rett
    | .trap t => if t.cause == 3 then .trap { cause := t.cause, tval := t.tval, tpc := k.pc } else o
  match o with
  | .jump ps a => check (vPuts ps) a false
  | .rett a => check [] a true
  | .toward _ _ _ _ => o
  | .ok _ => o
  | .late _ _ => o
  | .okCommit _ => o
  | .exit => o
  | .leave => o
  | .trap _ => o
  | .park _ => o
  | .stall _ => o
  | .wait _ _ => o
  | .waitm _ => o

/-- Lanes with the given outcome. -/
def lanesWhere (outs : List (Nat × LaneOut)) (p : LaneOut → Bool) : List Nat := (outs.filter fun x => p x.2).map (·.1)

def LaneOut.advances : LaneOut → Bool
  | .ok _ => true
  | .late _ _ => true
  | _ => false

/-- The lane goes on at the header after the block: a commit, or an arrival that then waits there (R256, R351). -/
def LaneOut.commits : LaneOut → Bool
  | .okCommit _ => true
  | .wait _ _ => true
  | _ => false

def LaneOut.target? : LaneOut → Option Dword
  | .jump _ a => some a
  | _ => none

def LaneOut.rett? : LaneOut → Option Dword
  | .rett a => some a
  | _ => none

def LaneOut.trap? : LaneOut → Option Trap
  | .trap t => some t
  | _ => none

def LaneOut.wait? : LaneOut → Option Wait
  | .wait w _ => some w
  | _ => none

/-- The trap of a group: the lowest trapping lane's cause, on every lane with that cause (R369). -/
def groupTrap (outs : List (Nat × LaneOut)) : Option (List Nat × Trap) :=
  match outs.findSome? fun x => x.2.trap? with
  | none => none
  | some t => some (lanesWhere outs fun o => (o.trap?.map (·.cause == t.cause)).getD false, t)

/-- Distinct targets in order, each with its lanes. -/
def byTarget (outs : List (Nat × LaneOut)) (f : LaneOut → Option Dword) : List (Dword × List Nat) :=
  outs.foldl (fun acc x => match f x.2 with
    | none => acc
    | some a => if acc.any (·.1 == a) then mapIf (·.1 == a) (fun y => (y.1, y.2 ++ [x.1])) acc else acc ++ [(a, [x.1])]) []

/-! ## Steps of a debugger (R376) -/

/-- A trap of lanes of a group was delivered or reported, as `s` became `t` (R376): one that R371 blocks is neither. -/
def State.trapShown (s t : State) (c : Crew) (k : Group) : Bool :=
  (s.bed c.bed).reports.length != (t.bed c.bed).reports.length ||
    k.lanes.any fun l => !c.laneIs l (·.handler) && ((t.crew? c.cid).map fun d => d.laneIs l (·.handler)).getD false

/-- The group a crew issued for a DBG.STEP, of the stepped team's threads, is done: its results are written, those of a REDL or
SCANL as it is released, then the step is reported, unless a trap has its own delivery or report. -/
def State.stepDone (s : State) (c : Crew) (k : Group) (trapped : Bool) : State :=
  (s.teams.filter fun t => t.stepping.contains c.cid && k.lanes.any fun l => c.laneIs l fun th => c.ref th == t.ref).foldl (fun s t =>
    let mine := k.lanes.filter fun l => c.laneIs l fun th => c.ref th == t.ref
    let s := s.setCrew c.cid fun c => c.complete s.fresh (c.inFlight mine)
    let pends := ((s.crew? c.cid).map fun d => mine.any fun l => d.laneIs l fun u => (u.redl.map (·.id)) == some s.fresh).getD false
    if trapped then s.setTeam t.ref fun x => { x with stepping := x.stepping.filter (· != c.cid) }
    else if pends then s.setTeam t.ref fun x => { x with stepped := x.stepped ++ [⟨c.cid, mine, k.pc, s.fresh⟩] }
    else s.endStep c t mine k.pc) s

/-! ## The conclusion of a group -/

/-- Lanes that have executed and now wait. -/
def State.beginWaits (s : State) (cid : Nat) (outs : List (Nat × LaneOut)) : State :=
  outs.foldl (fun s x => match x.2.wait? with
    | some w => s.setThread cid x.1 fun t => if t.entry.isNone && t.wait == .none then { t with wait := w } else t
    | none => s) s

/-- Jumps enter their blocks, target by target (R58). -/
def State.makeJumps (s : State) (k : Group) (outs : List (Nat × LaneOut)) : State :=
  (byTarget outs (·.target?)).foldl (fun s g => s.enterBlock k.cid g.2 g.1 (.branch k.pc) false) s

/-- Returns from a trap enter their blocks (R128); one whose target's page is absent is no return yet (`State.jumpCheck`). -/
def State.makeReturns (s : State) (c : Crew) (k : Group) (vregs : Nat) (outs : List (Nat × LaneOut)) : State :=
  (byTarget outs (·.rett?)).foldl (fun s g =>
    match s.enterCheck c vregs [] g.1 (.branch k.pc) with
    | .ok h => s.returnFromTrap k.cid g.2 g.1 h
    | .trap _ => (s.setThreads k.cid g.2 fun t => { t with handler := false }).enterBlock k.cid g.2 g.1 (.branch k.pc) true
    | .fault _ => s) s

/-- The group's issue is over: what waited on masks, trees and bins settles. -/
def State.endGroup (s : State) (c : Crew) : State :=
  let s := { s with cur := none }
  match s.crew? c.cid with
  | some _ => s.settleCrew c.cid
  | none => s.riddle c.bed c.launch c.cluster

/-- The trap of a group, if it has one, is taken; the lanes whose trap has another cause stand at the instruction, which they issue
again (R369, R395). -/
def State.groupTraps (s : State) (cid : Nat) (outs : List (Nat × LaneOut)) : State :=
  match groupTrap outs with
  | some (ls, t) =>
    let others := lanesWhere outs fun o => (o.trap?.map (·.cause != t.cause)).getD false
    (if others.isEmpty then s else s.setThreads cid others (·.atInstr)).trap cid ls t fun l => (((outs.find? fun x => x.1 == l).bind fun x => x.2.trap?).map (·.tval)).getD t.tval
  | none => s

/-- Every lane's outcome takes effect together: writes; departures; the trap; parks and stalls; then each lane continues,
jumps, or returns, and what waited on masks, trees and bins settles. -/
def State.conclude (s : State) (c : Crew) (k : Group) (outs : List (Nat × LaneOut)) : State :=
  let before := s
  let vregs := ((s.kernel? c.bed c.launch).map (·.vregs)).getD 512
  let outs := outs.map fun x => (x.1, s.jumpCheck c k vregs x.2)
  let s := s.setCrew k.cid fun c => outs.foldl (fun c x => c.retireLane k s.fresh x.1 x.2) c
  let s := outs.foldl (fun s x => s.departLane k.cid x.1 x.2) s
  let s := s.groupTraps k.cid outs
  let s := s.continueAt k.cid (lanesWhere outs (·.advances)) k.hdr k.hdrW (k.pc + BitVec.ofNat 64 (4 * k.len))
  let s := s.continueAt k.cid (lanesWhere outs (·.commits)) k.hdr k.hdrW (blockEnd k.hdr k.hdrW)
  let s := s.beginWaits k.cid outs
  let s := s.makeJumps k outs
  let s := s.makeReturns c k vregs outs
  let s := s.stepDone c k (before.trapShown s c k)
  s.dropEmpty.endGroup c

/-- A commit's lanes go on at the header after the block, in one step with the retirement (R351). -/
def LaneOut.asCommit : LaneOut → LaneOut
  | .ok ps => .okCommit ps
  | .late _ ps => .okCommit ps
  | o => o

/-- The lanes of a uniform or per-lane instruction, one after another in ascending order. -/
def runLanes (c : Crew) (k : Group) (fresh : Nat) (f : State → Ctx → State × LaneOut) :
    List Nat → State → State × List (Nat × LaneOut)
  | [], s => (s, [])
  | l :: t, s => match c.thread? l with
    | none => runLanes c k fresh f t s
    | some th =>
      let (s, o) := f s { crew := c, grp := k, lane := l, t := th, fresh := fresh }
      let (s, r) := runLanes c k fresh f t s
      (s, (l, o) :: r)

/-- The guard-true lanes of a group. -/
def actives (c : Crew) (k : Group) (g : Guard) : List Nat := k.lanes.filter fun l => c.laneIs l (guardTrue g)

/-- The outcomes of the guard-true lanes: a uniform instruction executes once, on the lowest of them (R20, R239). -/
def guardTrueOuts (uniform : Bool) (c : Crew) (k : Group) (s : State) (f : State → Ctx → State × LaneOut) (act : List Nat) :
    State × List (Nat × LaneOut) :=
  if uniform then
    let (s, r) := runLanes c k s.fresh f (act.take 1) s
    match r with
    | [] => (s, [])
    | x :: _ => (s, x :: (act.drop 1).map fun l => (l, x.2.share))
  else runLanes c k s.fresh f act s

/-- Every lane's outcome, in lane order: a lane that is not guard-true goes on; beside a commit it goes on at the next header
too, past words that have no effect. -/
def allOuts (k : Group) (commit : Bool) (outs : List (Nat × LaneOut)) : List (Nat × LaneOut) :=
  k.lanes.map fun l => match outs.find? fun x => x.1 == l with
    | some x => (l, if commit then x.2.asCommit else x.2)
    | none => (l, if commit && outs.any (fun x => match x.2 with
        | .trap _ => false
        | .park _ => false
        | .stall _ => false
        | _ => true) then .okCommit [] else .ok [])

/-- The group that executes: none stands, the machine stops (no step comes here without one). -/
def withGroup (s : State) (f : Crew → Group → State) : Host.Outcome State Fault Refusal :=
  match s.cur with
  | none => .fault .noIssueGroup
  | some k => match s.crew? k.cid with
    | none => .fault .noIssueGroup
    | some c => .next (f c k)

/-- An instruction of the current issue group. A commit passes the Region check first (R350). -/
def drive (commit uniform : Bool) (g : Guard) (s : State) (f : State → Ctx → State × LaneOut) :
    Host.Outcome State Fault Refusal :=
  withGroup s fun c k =>
    let act := actives c k g
    let answered := (((act.head?).bind c.thread?).map (·.answered)).getD []
    let verdict := if commit && !act.isEmpty then s.commitCheck c k answered else .ok
    match verdict with
    | .ok =>
      let (s, outs) := guardTrueOuts uniform c k s f act
      s.conclude c k (allOuts k commit outs)
    | verdict =>
      let (s, outs) := guardTrueOuts uniform c k s (fun s x => (s, (x.commitFails verdict).getD (.ok []))) act
      s.conclude c k (allOuts k false outs)

/-- An instruction that only writes registers. -/
def alu (g : Guard) (d : Reg) (s : State) (f : Ctx → List Put) : Host.Outcome State Fault Refusal :=
  drive false d.isS g s fun s x => (s, .ok (f x))

/-- As `alu`, on each lane. -/
def aluV (g : Guard) (s : State) (f : Ctx → List Put) : Host.Outcome State Fault Refusal :=
  drive false false g s fun s x => (s, .ok (f x))

/-- A long-latency instruction that only writes registers (R70). -/
def aluLong (g : Guard) (d : Reg) (la : BitVec 4) (s : State) (f : Ctx → List Put) : Host.Outcome State Fault Refusal :=
  drive false d.isS g s fun s x => (s, .late la.toNat (f x))

/-- The guard that is always true. -/
def always : Guard := { neg := false, p := 7 }

end Sys2Proof.Machine
end

