-- ==== Sys2Proof/Machine/Access.lean ====
section
/-! DEFINITION. Accesses of a lane to memory: the checks of spec/14_memory_instructions.md R240 in their order, watchpoints
(spec/22_faults_rules.md R378 to R380), shape records (spec/11_memory_rules.md R190 to R194), plot memory (R186, R187). -/

namespace Sys2Proof.Machine

/-! ## Traps of an access (R366, R367) -/

/-- A failed alignment to 2^k bytes. -/
def Ctx.misaligned (x : Ctx) (k : Nat) : LaneOut := x.trap 7 (BitVec.ofNat 32 k)

/-- A width of 2^k bytes above the memory's single-copy atomic size. -/
def Ctx.tooWide (x : Ctx) (k : Nat) : LaneOut := x.trap 7 (BitVec.ofNat 32 (512 + k))

/-- Plot Bounds: the offset that failed. -/
def Ctx.plotBounds (x : Ctx) (o : Word) : LaneOut := x.trap 9 o

/-- Tensor Bounds: identifier, and whether the record is not usable. -/
def Ctx.tensorBounds (x : Ctx) (id : Nat) (unusable : Bool) : LaneOut :=
  x.trap 0x0A (BitVec.ofNat 32 (id % 65536 + if unusable then 65536 else 0))

/-! ## Virtual addresses -/

/-- The parts of an access to virtual memory, or what the lane does instead: steps 2 and 8 of R240, and a peer that cannot be
reached (R389, R403). -/
def State.access (s : State) (x : Ctx) (right : Right) (a : Dword) (n : Nat) : LaneOut ⊕ List Part :=
  match s.translate x.crew.bed x.t.answered right a n with
  | .deny sub => .inl (x.deny sub)
  | .fault rs => .inl (.park rs)
  | .ok ps => if s.unreachable ps then .inl (x.deny 9) else .inr ps

/-- The parts of an atomic access of 2^k bytes: steps 2, 7, 8 and 9 of R240. -/
def State.atomicAccess (s : State) (x : Ctx) (right : Right) (a : Dword) (k : Nat) : LaneOut ⊕ List Part :=
  if !canonical a || !canonical (a + BitVec.ofNat 64 (2 ^ k - 1)) then .inl (x.deny 1)
  else if a.toNat % 2 ^ k ≠ 0 then .inl (x.misaligned k)
  else match s.access x right a (2 ^ k) with
    | .inl o => .inl o
    | .inr ps => if ps.any fun p => decide (kindGrain p.kind < 2 ^ k) then .inl (x.tooWide k) else .inr ps

/-- The migrating page whose held writes a load waits for (R209). -/
def State.migrWait (s : State) (ps : List Part) : Option LaneOut :=
  (ps.findSome? s.partWaits).map fun pg => .stall (.migr pg)

/-- Some part lies in host memory: a store there is a commit (R350). -/
def hostParts (ps : List Part) : Bool := ps.any fun p => p.kind == 2

/-! ## Strong accesses of a lane (R214, R218) -/

/-- The order holds a release, or an acquire. -/
def ordReleases (o : Ord) : Bool := o == .rel || o == .ar
def ordAcquires (o : Ord) : Bool := o == .acq || o == .ar

/-- The scope of a lane's access to a location. -/
def Ctx.mark (x : Ctx) (sc : Scope) (l : Loc) : Mark := { scope := scopeAt l sc, home := x.home }

/-- The order of a lane's strong write to a location. -/
def State.strongOf (s : State) (x : Ctx) (l : Loc) (m : MemMod) (rmw : Bool) : Strong :=
  { mark := x.mark m.scope l, own := s.releases (x.mark m.scope l) (ordReleases m.ord) x.t.fences, rmw := rmw, acq := ordAcquires m.ord,
    rmt := m.rmt, arrival := false }

/-- A lane's strong read of places: what it meets there, and, as an acquire, takes. -/
def State.strongReads (s : State) (x : Ctx) (m : MemMod) (places : List (Loc × Nat)) : State :=
  places.foldl (fun s p => s.strongRead (s.releasesAt p.1 p.2) (x.mark m.scope p.1) (ordAcquires m.ord) m.rmt) s

/-- The order and scope of a barrier object's or an event object's instruction (R258, R362). -/
def modOf (ord : Ord) (scope : Scope) : MemMod := { rmt := false, hint := .dflt, ord := ord, scope := scope }

/-! ## Plot memory (R186, R187) -/

/-- The size of the space a plot offset names, and where its byte stands. -/
def State.plotSpace (s : State) (x : Ctx) (o : Word) : Nat × Loc :=
  let k := s.kernel? x.crew.bed x.crew.launch
  let off := o.toNat % 2 ^ 31
  if o.getLsbD 31 then ((k.map (·.cplot)).getD 0, .shared x.crew.bed x.crew.launch x.crew.cluster off)
  else ((k.map (·.plot)).getD 0, .plot x.ref off)

/-- A plot access of `n` bytes: step 6 of R240. -/
def State.plotAccess (s : State) (x : Ctx) (o : Word) (n : Nat) : LaneOut ⊕ Loc :=
  let (size, loc) := s.plotSpace x o
  if size < o.toNat % 2 ^ 31 + n then .inl (x.plotBounds o) else .inr loc

/-- A store to plot memory is remembered until a FENCE.OPND covers it (R226): marks it covers whole are replaced. -/
def State.addMark (s : State) (m : PlotMark) : State :=
  let covered (p : PlotMark) : Bool := p.bed == m.bed && p.launch == m.launch && p.team == m.team &&
    (m.team.isSome || p.cluster == m.cluster) && decide (m.off ≤ p.off ∧ p.off + p.len ≤ m.off + m.len)
  { s with plotMarks := (s.plotMarks.filter fun p => !covered p) ++ [m] }

/-- A thread's store to plot memory. -/
def State.markPlot (s : State) (x : Ctx) (o : Word) (n : Nat) : State :=
  let off := o.toNat % 2 ^ 31
  let team := if o.getLsbD 31 then none else some x.t.team
  s.addMark { bed := x.crew.bed, launch := x.crew.launch, team := team, cluster := x.crew.cluster, off := off, len := n,
              home := x.home, stamp := s.fresh }

/-! ## Watchpoints (R378 to R380) -/

/-- Bytes [a, a + n) of a 64-bit space meet [b, b + l). -/
def overlap64 (a n b l : Nat) : Bool := decide (0 < n) && (decide (a < b + l ∧ b < a + n) || decide (2 ^ 64 + b < a + n))

/-- The Watchpoint of an access that has passed every other check: the lowest-numbered unit that matches. -/
def State.watch (s : State) (x : Ctx) (plot rd wr : Bool) (a n : Nat) : Option LaneOut :=
  if x.t.exempt.contains x.grp.pc then none
  else match s.team? x.ref with
    | none => none
    | some tm =>
      let hit (w : Watch) : Bool := w.plot == plot && ((w.rd && rd) || (w.wr && wr)) && overlap64 a n w.base.toNat (2 ^ w.len)
      let best := tm.watches.foldl (fun (b : Option Watch) w => if !hit w then b else match b with
        | some v => if w.unit < v.unit then some w else some v
        | none => some w) none
      best.map fun w => x.trap 0x10 (BitVec.ofNat 32 (w.unit + (if w.rd && rd then 4 else 0) + (if w.wr && wr then 8 else 0)))

/-! ## Shape records (R190 to R194) -/

/-- The fields of a shape record, a 512-bit value (R190). -/
abbrev Shape := Nat

namespace Shape
def base (r : Shape) : Dword := BitVec.ofNat 64 (field r 0 64)
def scale (r : Shape) : Dword := BitVec.ofNat 64 (field r 64 64)
def tensorScale (r : Shape) : Word := BitVec.ofNat 32 (field r 460 32)
def ndim (r : Shape) : Nat := field r 456 2 + 1
def fmt (r : Shape) : Nat := field r 448 5
def faults (r : Shape) : Bool := bit r 455
/-- The extent of a dimension: 1 beyond the used ones. -/
def dim (r : Shape) (i : Nat) : Nat := if i < ndim r then field r (128 + 32 * i) 32 else 1
/-- The signed byte stride of dimensions 1 to 3: not used beyond the used ones. -/
def stride (r : Shape) (i : Nat) : Int := if i < ndim r then toInt true 64 (field r (192 + 64 * i) 64) else 0
/-- The element width in bits (R192). -/
def ebits (r : Shape) : Nat :=
  match fmt r with
  | 0x0 => 32 | 0x1 => 64 | 0x2 => 16 | 0x3 => 16 | 0x4 => 8 | 0x5 => 8 | 0x6 => 4 | 0x7 => 8
  | 0x8 => 8 | 0x9 => 8 | 0xA => 16 | 0xB => 16 | 0xC => 32 | 0xD => 32 | 0xE => 64 | 0xF => 64
  | 0x10 => 4 | 0x11 => 4 | 0x12 => 8 | 0x13 => 8 | 0x14 => 4 | _ => 4
/-- Bytes of a row along dimension 0 (R192). -/
def rowBytes (r : Shape) : Nat := (dim r 0 * ebits r + 7) / 8
/-- The record is usable (R191). -/
def usable (r : Shape) : Bool :=
  bit r 458 && decide (fmt r ≤ 0x15) && ((List.range (ndim r)).all fun i => dim r i != 0) &&
    decide ((base r).toNat % 32 = 0) && ((List.range (ndim r - 1)).all fun i => stride r (i + 1) % 32 == 0) &&
    canonical (base r) && canonical (scale r) && field r 492 20 == 0 && !bit r 459
/-- The rows and the bytes of a row of a tile line (R190). -/
def tile (r : Shape) : Nat × Nat :=
  match field r 453 2 with
  | 0 => (1, 256) | 1 => (2, 128) | 2 => (4, 64) | _ => (8, 32)
/-- The row (x1, x2, x3) lies in the tensor. -/
def rowIn (r : Shape) (x1 x2 x3 : Nat) : Bool := decide (x1 < dim r 1 ∧ x2 < dim r 2 ∧ x3 < dim r 3)
/-- The address of byte b of a row (R192, R244). -/
def addr (r : Shape) (b x1 x2 x3 : Nat) : Dword :=
  BitVec.ofInt 64 ((base r).toNat + b + x1 * stride r 1 + x2 * stride r 2 + x3 * stride r 3)
end Shape

/-- The sector of a tile line that holds byte b of a row (R192). -/
def Shape.sector (r : Shape) (id b x1 x2 x3 : Nat) : L1Ref :=
  let (rows, width) := Shape.tile r
  { id := id, tile := [b / width, x1 / rows, x2, x3], sector := (x1 % rows * width + b % width) / 32,
    va := (Shape.addr r (b / 32 * 32) x1 x2 x3).toNat }

/-- The pieces of `m` bytes in bounds of a row, from byte b. -/
def Shape.pieces (r : Shape) (id b x1 x2 x3 m : Nat) : List L1Piece :=
  (sectorRuns b m).map fun q => ⟨Shape.sector r id (32 * q.1) x1 x2 x3, q.2.1, q.2.2⟩

/-- The sectors in bounds of the tile line that holds byte b of a row. -/
def Shape.line (r : Shape) (id b x1 x2 x3 : Nat) : List L1Ref :=
  let (rows, width) := Shape.tile r
  ((List.range rows).flatMap fun i => (List.range (width / 32)).map fun j => (b / width * width + 32 * j, x1 / rows * rows + i)).filterMap
    fun q => if q.1 < Shape.rowBytes r ∧ Shape.rowIn r q.2 x2 x3 then some (Shape.sector r id q.1 q.2 x2 x3) else none

/-- What the read of a record gives. -/
inductive ShapeSays where
  | record (r : Shape)
  | unusable
  | fault (rs : List PageReq)
  deriving DecidableEq, Repr

/-- The address of a record in the bed's table. -/
def State.shapeAddr (s : State) (bed id : Nat) : Dword := (s.bed bed).block.shape + BitVec.ofNat 64 (64 * id)

/-- The 64 bytes of a record in memory; nothing where the page makes it not usable, which a leaf that lacks R does at once: only
an invalid page is asked for (R191). -/
def State.shapeBytes (s : State) (bed id : Nat) (answered : List PageAns) : Access :=
  let a := s.shapeAddr bed id
  let noRight : List PageAns := (chunksOf (vaIndex a) 64).map fun c => ⟨c.1 % 2 ^ 56 / 65536, true, true, .read⟩
  match s.translate bed (answered ++ noRight) .read a 64 with
  | .ok ps => if ps.all fun p => decide (p.kind ≤ 1) then .ok ps else .deny 2
  | a => a

/-- The contents a user in a cluster may see in one half: those the cluster has cached and those memory holds (R194, R248). -/
def State.shapeHalf (s : State) (cluster bed id half : Nat) (h : Home) (now : List Byte) : List Byte :=
  let old := (s.shapes.filter fun k => k.cluster == cluster && k.bed == bed && k.id == id && k.half == half &&
    !s.purged bed (some id) k.stamp h).map (·.data)
  let all := if old.any (· == now) then old else old ++ [now]
  match all with
  | [d] => d
  | _ => (all[s.choose 12 (id * 2 + half) all.length]?).getD now

/-- The record that a thread or an engine uses in a cluster (R191, R194). -/
def State.shape (s : State) (cluster bed id : Nat) (h : Home) (answered : List PageAns) : ShapeSays :=
  if id = 0 then .unusable
  else match s.shapeBytes bed id answered with
    | .deny _ => .unusable
    | .fault rs => .fault rs
    | .ok ps =>
      let now := s.readParts ps
      let r := leNat (s.shapeHalf cluster bed id 0 h (now.take 32) ++ s.shapeHalf cluster bed id 1 h (now.drop 32))
      if Shape.usable r then .record r else .unusable

/-- The cluster keeps what memory held of a record it used, usable or not (R194). -/
def State.keepShape (s : State) (cluster bed id : Nat) : State :=
  if id = 0 then s else
  match s.shapeBytes bed id [] with
  | .ok ps =>
    let now := s.readParts ps
    let ks : List ShapeCopy := [{ cluster := cluster, bed := bed, id := id, half := 0, data := now.take 32, stamp := s.fresh },
      { cluster := cluster, bed := bed, id := id, half := 1, data := now.drop 32, stamp := s.fresh }]
    { s with shapes := (s.shapes.filter fun x => !(ks.any fun k => { x with stamp := s.fresh } == k)) ++ ks }
  | .deny _ => s
  | .fault _ => s

/-! ## Sizes (R238) -/

def sizeBytes (z : Size) : Nat := Wf.sizeBytes z

/-- The words a load writes (R241): sign-extended, zero-extended, or one word for each 4 bytes. -/
def loadWords (z : Size) (bs : List Byte) : List Word :=
  match z with
  | .s8 => [BitVec.ofInt 32 (toInt true 8 (leNat bs))]
  | .s16 => [BitVec.ofInt 32 (toInt true 16 (leNat bs))]
  | .b8 => [BitVec.ofNat 32 (leNat bs)]
  | .b16 => [BitVec.ofNat 32 (leNat bs)]
  | .b32 => bytesWords bs
  | .b64 => bytesWords bs
  | .b128 => bytesWords bs
  | .b256 => bytesWords bs
  | .b512 => bytesWords bs

/-- The bytes a store writes (R238, R242). -/
def Ctx.storeBytes (x : Ctx) (z : Size) (d : Reg) : List Byte := (wordsBytes (x.regs (sizeWords z) d)).take (sizeBytes z)

/-- Words of a group operand, or of a one-word source. -/
def Ctx.srcRegs (x : Ctx) (n : Nat) : Src → List Word
  | .v r nb => (List.range n).map fun i => x.neigh nb (r.toNat + i)
  | .s r => (List.range n).map fun i => x.crew.s.get (r.toNat + i)
  | .int k => List.replicate n (intWord k)
  | .con k => List.replicate n (conWord k)
  | .lit w => List.replicate n w

/-- A + sext(B, 64) (R241). -/
def Ctx.vaddr (x : Ctx) (a : Reg) (b : Src) : Dword := x.reg64 a + (x.w32 b).signExtend 64

end Sys2Proof.Machine
end

