-- ==== Sys2Proof/Machine/Atomics.lean ====
section
/-! DEFINITION. Atomics, reductions, team barriers, barrier objects and priority queues (spec/14_memory_instructions.md R249 to
R264). Every one is a commit but BARI and BARW (R350). -/

namespace Sys2Proof.Machine

/-! ## The operations (R249) -/

def aBits (w : AWidth) : Nat :=
  match w with
  | .b32 => 32 | .b64 => 64 | .b128 => 128 | .b256 => 256

/-- log2 of a width in bytes. -/
def aLog (w : AWidth) : Nat :=
  match w with
  | .b32 => 2 | .b64 => 3 | .b128 => 4 | .b256 => 5

/-- The value an operation other than .CAS writes. -/
def atomicValue (op : AOp) (n old b : Nat) : Nat :=
  let so := toInt true n old
  let sb := toInt true n b
  match op with
  | .add => (old + b) % 2 ^ n
  | .minu => min old b
  | .mins => if so ≤ sb then old else b
  | .maxu => max old b
  | .maxs => if so ≤ sb then b else old
  | .and => old &&& b
  | .or => old ||| b
  | .xor => old ^^^ b
  | .inc => if b ≤ old then 0 else old + 1
  | .dec => if old = 0 ∨ b < old then b else old - 1
  | .exch => b
  | .cas => b
  | .fadd => ((if n = 64 then f64 else f32).add .rn false false old b).bits
  | .fmin => (f32.minmax false false old b).bits
  | .fmax => (f32.minmax true false old b).bits

/-- The value written, from the operand's words: cmp then new for .CAS (R250). -/
def atomicNew (op : AOp) (w : AWidth) (old operand : Nat) : Nat :=
  let n := aBits w
  if op == .cas then (if old = operand % 2 ^ n then operand / 2 ^ n else old) else atomicValue op n old operand

/-- The words of an n-bit value. -/
def natWords (n x : Nat) : List Word := bytesWords (natBytes (n / 8) x)

/-! ## Barrier objects as values (R257, R258, R260) -/

/-- A barrier object as a 128-bit value. -/
abbrev BarVal := Nat

namespace BarVal
def gen (o : BarVal) : Word := BitVec.ofNat 32 (field o 0 32)
def arr (o : BarVal) : Int := toInt true 32 (field o 32 32)
def xfer (o : BarVal) : Word := BitVec.ofNat 32 (field o 64 32)
def exp (o : BarVal) : Nat := field o 96 32
def make (gen : Word) (arr : Int) (xfer : Word) (exp : Nat) : BarVal :=
  gen.toNat + 2 ^ 32 * wrapNat arr 32 + 2 ^ 64 * xfer.toNat + 2 ^ 96 * exp
/-- The completion test: the phases that a nonpositive ARR completes, in one step (R258). -/
def complete (o : BarVal) : BarVal :=
  if 0 < arr o ∨ xfer o ≠ 0 then o
  else if 1 ≤ exp o ∧ exp o < 2 ^ 31 then
    let n := (-(arr o)).toNat / exp o + 1
    make (gen o + BitVec.ofNat 32 n) (arr o + n * exp o) 0 (exp o)
  else make (gen o + 1) (arr o) 0 (exp o)
/-- BARI. -/
def init (e : Word) : BarVal :=
  let n : Nat := if e.toNat % 2 ^ 31 = 0 then 1 else e.toNat % 2 ^ 31
  make 0 n 0 n
/-- BARA: one arrival. -/
def arrive (o : BarVal) : BarVal := complete (make (gen o) (max (-(2 ^ 31)) (arr o - 1)) (xfer o) (exp o))
/-- BART, and a transfer update with the byte count negated (R260). -/
def transfer (o : BarVal) (n : Word) : BarVal := complete (make (gen o) (arr o) (xfer o + n) (exp o))
end BarVal

/-! ## Writes performed (R195, R197, R209, R218, R249, R258) -/

/-- The bytes a write leaves of those it finds. -/
def WriteOp.apply (op : WriteOp) (old : List Byte) : List Byte :=
  match op with
  | .bytes d => d
  | .atomic o w b => natBytes (aBits w / 8) (atomicNew o w (leNat old) b)
  | .arrive => natBytes 16 (BarVal.arrive (leNat old))
  | .transfer n => natBytes 16 (BarVal.transfer (leNat old) n)

/-- A write performed at a location, and the value it found there. A read-modify-write reads it as its order says. -/
def State.make (s : State) (l : Loc) (w : Write) : State × Nat :=
  let n := w.op.len
  let old := s.read l n
  let t := (s.write l (w.op.apply old)).staleL1 w.who l n
  (match w.strong with
    | none => t.weakWrite l n
    | some q => (if q.rmw then t.strongRead (s.releasesAt l n) q.mark q.acq q.rmt else t).strongWrite l n q (BarVal.gen (leNat old)),
   leNat old)

/-- The value that a held atomic found returns to its thread, which stalls for it (R209, R210). -/
def State.returnTo (s : State) (who : Agent) (old : Nat) : State :=
  let mine (c : Crew) (t : Thread) : Bool := match who, t.wait with
    | .thread r tid, .migr _ => c.ref t == r && t.tid == tid
    | _, _ => false
  { s with crews := s.crews.map fun c =>
      { c with lanes := c.lanes.map fun t => t.map fun t => if mine c t then { t with ret := some old } else t } }

/-- One held write applied to the frame at a place. -/
def State.applyOne (s : State) (place : Loc) (h : Held) : State :=
  let (t, old) := s.make (place.add h.off) h.write
  if h.reply then t.returnTo h.write.who old else t

/-- The writes held for a page, applied whole in order to the frame at a place (R209, R213). -/
def State.applyHeld (s : State) (place : Loc) (hs : List Held) : State := hs.foldl (fun s h => s.applyOne place h) s

/-- A write to a part, made or held. -/
def State.makePart (s : State) (p : Part) (w : Write) : State :=
  match p.mig with
  | some (bed, va) => s.hold bed va w
  | none => (s.make p.loc w).1

/-- A strong write of an agent that stands in no crew, a release of what happens before it and of what `seen` tells. -/
def State.releaseBy (s : State) (a : Agent) (sc : Scope) (seen : Clock) (rmw : Bool) : Strong :=
  let m : Mark := { scope := sc, home := a.home }
  { mark := m, own := [{ marks := [m], seen := Clock.join (s.upTo a) seen }], rmw := rmw, acq := false, rmt := false, arrival := false }

/-- Bytes written to parts by such a release. -/
def State.releaseParts (s : State) (q : Strong) : List Part → List Byte → State
  | [], _ => s
  | p :: t, bs =>
    (s.makePart p { op := .bytes (bs.take p.len), who := q.mark.home.agent, strong := some q }).releaseParts q t (bs.drop p.len)

/-- The lines a lane's write addressed, once it is made (R195, R243). -/
def State.lineAfter (s old : State) (x : Ctx) (p : Part) (hint : Hint) (a n : Nat) : State :=
  if p.mig.isSome then s
  else if hint == .nol1 then s.l1Forget x.crew (linearPieces a n)
  else s.l1Update old x.crew [p] (linearPieces a n) (s.read p.loc n)

/-- A lane's atomic that returns a value: on a migrating page it is held, and its lane stalls until the commit has applied it. -/
def State.fetchPart (s : State) (p : Part) (w : Write) (k : Nat → List Put) : State × LaneOut :=
  match p.mig with
  | some (bed, va) => (s.hold bed va w true, .stall (.migr (va / 65536)))
  | none =>
    let (t, old) := s.make p.loc w
    (t, .ok (k old))

/-- The value that has returned for the atomic of a group's lane; a uniform instruction executes once, for whichever lane it was
held (R20). -/
def Ctx.returned (x : Ctx) (d : Reg) : Option Nat :=
  if d.isS then x.grp.lanes.findSome? fun l => (x.crew.thread? l).bind (·.ret) else x.t.ret

/-! ## ATOM, ATOMP, RED (R250, R251) -/

/-- A lane's atomic or reduction as a write of it to a location. -/
def State.atomicWrite (s : State) (x : Ctx) (l : Loc) (m : MemMod) (op : AOp) (w : AWidth) (operand : Nat) : Write :=
  { op := .atomic op w operand, who := x.agent, strong := some (s.strongOf x l m true) }

/-- ATOM: once a held one has been applied, its lane takes the value that returned. -/
def execAtom (f : AtomF) (s : State) : Host.Outcome State Fault Refusal :=
  drive true f.d.isS f.g s fun s x =>
    let give (old : Nat) : List Put := Reg.puts f.d (natWords (aBits f.w) old)
    match x.returned f.d with
    | some old => (s, .ok (give old))
    | none =>
      let a := x.reg64 f.a
      match s.atomicAccess x .atomic a (aLog f.w) with
      | .inl o => (s, o)
      | .inr ps => match s.watch x false true true a.toNat (2 ^ aLog f.w), ps with
        | some o, _ => (s, o)
        | none, p :: _ =>
          let w := s.atomicWrite x p.loc f.m f.op f.w (wordsNat (x.srcRegs (Wf.atomOperandRegs f.op f.w) f.b))
          let (t, o) := s.fetchPart p w give
          (t.lineAfter s x p f.m.hint a.toNat (2 ^ aLog f.w), o)
        | none, [] => (s, .ok [])

/-- ATOMP. -/
def execAtomp (f : AtompF) (s : State) : Host.Outcome State Fault Refusal :=
  drive true f.d.isS f.g s fun s x =>
    let o := x.w32 f.a
    let n := 2 ^ aLog f.w
    match s.plotAccess x o n with
    | .inl out => (s, out)
    | .inr loc =>
      if o.toNat % n ≠ 0 then (s, x.misaligned (aLog f.w))
      else match s.watch x true true true o.toNat n with
      | some out => (s, out)
      | none =>
        let (t, old) := s.make loc (s.atomicWrite x loc f.m f.op f.w (wordsNat (x.srcRegs (Wf.atomOperandRegs f.op f.w) f.b)))
        (t.markPlot x o n, .ok (Reg.puts f.d (natWords (aBits f.w) old)))

/-- RED: held while its page migrates (R209). -/
def execRed (f : RedF) (s : State) : Host.Outcome State Fault Refusal :=
  drive true f.d.isS f.g s fun s x =>
    let a := x.vaddr f.a f.b
    match s.atomicAccess x .write a (aLog f.w) with
    | .inl o => (s, o)
    | .inr ps => match s.watch x false true true a.toNat (2 ^ aLog f.w), ps with
      | some o, _ => (s, o)
      | none, p :: _ =>
        let w := s.atomicWrite x p.loc f.m f.op f.w (wordsNat (x.regs (Wf.atomOperandRegs f.op f.w) f.d))
        ((s.makePart p w).lineAfter s x p f.m.hint a.toNat (2 ^ aLog f.w), .ok [])
      | none, [] => (s, .ok [])

/-! ## Team barriers (R254 to R256) -/

/-- BAR: each lane makes one arrival, of which the departures from its phase know (R220); a .SYNC arrival waits for that phase. -/
def execBar (f : BarF) (s : State) : Host.Outcome State Fault Refusal :=
  drive true false f.g s fun s x =>
    let num := f.num.toNat
    let phase := (((s.team? x.ref).bind fun t => t.bars[num]?).map (·.phase)).getD 0
    let live := s.liveThreads x.ref
    let s := s.give x.agent (.bar x.ref num phase)
    let s := s.setTeam x.ref fun t => { t with bars := modifyAt t.bars num fun b => b.arrive (x.w32 f.cnt).toNat live }
    (s, if f.arv then .ok [] else .wait (.bar num phase) [])

/-! ## Barrier objects (R257 to R261) -/

/-- Where a lane's object stands: the checks of R240 and R259. `right` is what a virtual object's page needs. -/
def State.barObject (s : State) (x : Ctx) (right : Right) (wr : Bool) (o : BarObj) : LaneOut ⊕ Part :=
  match o with
  | .va a =>
    let a := x.reg64 a
    match s.atomicAccess x right a 4 with
    | .inl out => .inl out
    | .inr ps => match s.watch x false true wr a.toNat 16, ps with
      | some out, _ => .inl out
      | none, p :: _ => .inr p
      | none, [] => .inl (.ok [])
  | .plot a =>
    let off := x.w32 a
    match s.plotAccess x off 16 with
    | .inl out => .inl out
    | .inr loc =>
      if off.toNat % 16 ≠ 0 then .inl (x.misaligned 4)
      else match s.watch x true true wr off.toNat 16 with
      | some out => .inl out
      | none => .inr ⟨loc, 16, 0, none⟩

/-- An object operand in plot memory is a plot store (R226). -/
def State.markObject (s : State) (x : Ctx) (o : BarObj) : State :=
  match o with
  | .va _ => s
  | .plot a => s.markPlot x (x.w32 a) 16

/-- The place of an object's bytes among the linear lines; plot memory is in none. -/
def State.objectLine (s old : State) (x : Ctx) (o : BarObj) (hint : Hint) (p : Part) : State :=
  match o with
  | .va a => s.lineAfter old x p hint (x.reg64 a).toNat 16
  | .plot _ => s

/-- A lane's write of an object: a read-modify-write but for BARI's (R258). -/
def State.objectWrite (s : State) (x : Ctx) (l : Loc) (m : MemMod) (op : WriteOp) : Write :=
  { op := op, who := x.agent, strong := some { s.strongOf x l m (match op with
      | .bytes _ => false
      | _ => true) with arrival := op == .arrive } }

/-- A write of an object that returns nothing. -/
def State.updateObject (s : State) (x : Ctx) (o : BarObj) (hint : Hint) (m : MemMod) (op : WriteOp) : State × LaneOut :=
  match s.barObject x .atomic true o with
  | .inl out => (s, out)
  | .inr p => (((s.makePart p (s.objectWrite x p.loc m op)).objectLine s x o hint p).markObject x o, .ok [])

/-- BARI: a relaxed strong write, and no commit. -/
def execBari (f : BarSF) (s : State) : Host.Outcome State Fault Refusal :=
  drive false false f.g s fun s x =>
    s.updateObject x f.o f.hint (modOf .rlx f.scope) (.bytes (natBytes 16 (BarVal.init (x.w32 f.b))))

/-- BARA: an arrival, and a release; a held one takes its value at the commit. -/
def execBara (f : BaraF) (s : State) : Host.Outcome State Fault Refusal :=
  drive true f.d.isS f.g s fun s x =>
    let give (old : Nat) : List Put := [Reg.put f.d 0 (BarVal.gen old)]
    match x.returned f.d with
    | some old => (s, .ok (give old))
    | none => match s.barObject x .atomic true f.o with
      | .inl out => (s, out)
      | .inr p =>
        let (t, o) := s.fetchPart p (s.objectWrite x p.loc (modOf .rel f.scope) .arrive) give
        ((t.objectLine s x f.o f.hint p).markObject x f.o, o)

/-- BART: a relaxed strong read-modify-write. -/
def execBart (f : BarSF) (s : State) : Host.Outcome State Fault Refusal :=
  drive true false f.g s fun s x => s.updateObject x f.o f.hint (modOf .rlx f.scope) (.transfer (x.w32 f.b))

/-- What a lane's object stands on, as a wait on it looks at it again. -/
def Ctx.obj (x : Ctx) (o : BarObj) (p : Part) : Obj :=
  match o with
  | .va a => .va x.crew.bed (vaIndex (x.reg64 a))
  | .plot _ => .plot p.loc

/-- BARW: stalls until GEN differs from B; the read that ends the wait acquires, from the arrivals of the phases since B too
(R220, R258, R261). -/
def execBarw (f : BarwF) (s : State) : Host.Outcome State Fault Refusal :=
  drive false false f.g s fun s x =>
    match s.barObject x .read false f.o with
    | .inl out => (s, out)
    | .inr p => match s.migrWait [p] with
      | some out => (s, out)
      | none =>
        let gen : Word := BitVec.ofNat 32 (leNat (s.read p.loc 4))
        if gen = x.w32 f.b then (s, .stall (.barw (x.obj f.o p) (x.w32 f.b) 0))
        else ((s.strongReads x (modOf .acq f.scope) [(p.loc, 4)]).departObject p.loc (x.mark f.scope p.loc) (x.w32 f.b) gen,
              .ok [.v f.d.toNat gen])

/-! ## Priority queues (R262 to R264) -/

/-- The capacity of a bed's queues (R262, R398). -/
def Bed.pqCapacity (b : Bed) : Nat := (field b.block.pq.toNat 20 12 + 1) * 16

/-- The elements of a queue in rank order (R262). -/
def PQueue.ranked (q : PQueue) : List (Word × Word × Nat) := sortBy (fun e => e.1.toNat) (sortBy (fun e => e.2.2) q.elems)

def Bed.setPq (b : Bed) (i : Nat) (q : PQueue) : Bed := { b with pqs := modifyAt b.pqs i fun _ => q }

/-- PQPUT. -/
def execPqput (f : PqputF) (s : State) : Host.Outcome State Fault Refusal :=
  drive true false f.g s fun s x =>
    let i := (x.w32 f.a).toNat
    let bed := s.bed x.crew.bed
    match bed.pqs[i]? with
    | none => (s, x.deny 4)
    | some q =>
      if bed.pqCapacity ≤ q.elems.length then (s, .ok [.p f.pd.toNat true])
      else
        let kv := x.reg64 f.b
        let t := s.give x.agent (.element x.crew.bed i q.next)
        let q := { elems := q.elems ++ [(lo32 kv, hi32 kv, q.next)], next := q.next + 1 }
        (t.setBed x.crew.bed fun b => b.setPq i q, .ok [.p f.pd.toNat false])

/-- The window of a PQTAKE (R263). -/
def takeWindow (w : BitVec 2) : Nat :=
  match w.toNat with
  | 0 => 1 | 1 => 8 | 2 => 32 | _ => 64

/-- PQTAKE: which element of rank below the window is removed is unspecified (assumption 4). -/
def execPqtake (f : PqtakeF) (s : State) : Host.Outcome State Fault Refusal :=
  drive true f.d.isS f.g s fun s x =>
    let i := (x.w32 f.a).toNat
    match (s.bed x.crew.bed).pqs[i]? with
    | none => (s, x.deny 4)
    | some q =>
      let ranked := q.ranked
      let k := x.choose 13 i (min (takeWindow f.win) ranked.length)
      match ranked[k]? with
      | none => (s, .ok ([.p f.pb.toNat true] ++ Reg.puts f.d [0xFFFFFFFF, 0]))
      | some e =>
        let q := { q with elems := q.elems.filter fun y => y.2.2 != e.2.2 }
        let s := (s.take x.agent (.element x.crew.bed i e.2.2)).forgetPoints (· == .element x.crew.bed i e.2.2)
        (s.setBed x.crew.bed fun b => b.setPq i q, .ok ([.p f.pb.toNat false] ++ Reg.puts f.d [e.1, e.2.1]))

end Sys2Proof.Machine
end

