-- ==== Sys2Proof/Machine/Control.lean ====
section
/-! DEFINITION. Control transfer, traps and returns (spec/07_core_instructions.md R121 to R128). -/

namespace Sys2Proof.Machine

/-- H + 8 x OFF (R121). -/
def branchTarget (hdr : Dword) : Off → Dword
  | .near o => hdr + (o.signExtend 64) * 8
  | .far o => hdr + (o.signExtend 64) * 8

/-- NOP, the all-zero word (R124). -/
def execNopCompact (s : State) : Host.Outcome State Fault Refusal := aluV always s fun _ => []

/-- NOP (R124). -/
def execNop (g : Guard) (s : State) : Host.Outcome State Fault Refusal := aluV g s fun _ => []

/-- BRA (R121, R122). -/
def execBra (g : Guard) (off : Off) (s : State) : Host.Outcome State Fault Refusal :=
  drive false false g s fun s x => (s, .jump [] (branchTarget x.grp.hdr off))

/-- BRX (R121, R122): each lane takes its own target. -/
def execBrx (g : Guard) (a : Reg) (s : State) : Host.Outcome State Fault Refusal :=
  drive false false g s fun s x => (s, .jump [] (x.reg64 a))

/-- CALL (R123): the return address is the header after the block. -/
def execCall (g : Guard) (d : BitVec 9) (off : Off) (s : State) : Host.Outcome State Fault Refusal :=
  drive false false g s fun s x =>
    (s, .jump (Reg.put64 (.v d) (blockEnd x.grp.hdr x.grp.hdrW)) (branchTarget x.grp.hdr off))

/-- RET (R122, R123). -/
def execRet (g : Guard) (a : Reg) (s : State) : Host.Outcome State Fault Refusal :=
  drive false false g s fun s x => (s, .jump [] (x.reg64 a))

/-- EXIT (R125). -/
def execExit (g : Guard) (s : State) : Host.Outcome State Fault Refusal := drive false false g s fun s _ => (s, .exit)

/-- YIELD (R124). -/
def execYield (g : Guard) (s : State) : Host.Outcome State Fault Refusal :=
  drive false false g s fun s x => (s.setCrew x.crew.cid fun c => { c with yielded := true }, .ok [])

/-- TRAP (R127): %tpc is the header after the block. -/
def execTrap (g : Guard) (a : Src) (s : State) : Host.Outcome State Fault Refusal :=
  drive false false g s fun s x =>
    (s, .trap { cause := 0x0E, tval := x.w32 a, tpc := blockEnd x.grp.hdr x.grp.hdrW, entry := some .fall })

/-- BRK (R127): %tpc is its own address. -/
def execBrk (g : Guard) (a : Src) (s : State) : Host.Outcome State Fault Refusal :=
  drive false false g s fun s x => (s, x.trap 0x0F (x.w32 a))

/-- RETT (R128): out of handler mode at %tpc; Permission outside handler mode. -/
def execRett (g : Guard) (s : State) : Host.Outcome State Fault Refusal :=
  drive false false g s fun s x => (s, if x.t.handler then .rett x.crew.tpc else x.deny 7)

end Sys2Proof.Machine
end

