-- ==== Sys2Proof/Decode.lean ====
section
/-! DEFINITION. From the words of an instruction to the instruction or the sub-cause of its Illegal Instruction trap
(spec/03_encoding_rules.md R51, R59 to R76, and the encoding tables of the instructions' chapters), and back: the encoder,
written from the same tables. -/

namespace Sys2Proof

/-- The checks of R76, in table order. -/
inductive Malformed where
  | unassignedOp | notCompact | literalMisuse | reservedCode | badDest | nonzeroReserved | badNeighbour | notUniform
  | maskZero | beyondVregs | oddPair | badModifier | badKind | badSelector
  deriving DecidableEq, Repr

/-- The sub-cause of a failed check (R76). -/
def Malformed.code : Malformed → Nat
  | .unassignedOp => 0x01 | .notCompact => 0x02 | .literalMisuse => 0x03 | .reservedCode => 0x04 | .badDest => 0x05
  | .nonzeroReserved => 0x06 | .badNeighbour => 0x07 | .notUniform => 0x08 | .maskZero => 0x09 | .beyondVregs => 0x0A
  | .oddPair => 0x0B | .badModifier => 0x0C | .badKind => 0x0D | .badSelector => 0x0E

/-- The fields of the 64-bit form (R59), with the literal of the 96-bit form (R60). -/
structure Fields where
  f : BitVec 2
  nb : BitVec 2
  na : BitVec 2
  k : BitVec 4
  g : BitVec 4
  c : BitVec 10
  b : BitVec 10
  a : BitVec 10
  d : BitVec 10
  op : BitVec 8
  lit : Option Word
  deriving DecidableEq, Repr

/-! ## Operand codes (R63) -/

def codeIsV (c : BitVec 10) : Bool := decide (c.toNat < 0x200)
def codeIsS (c : BitVec 10) : Bool := decide (0x200 ≤ c.toNat ∧ c.toNat < 0x300)
def codeIsLit (c : BitVec 10) : Bool := c == 0x380
def codeReserved (c : BitVec 10) : Bool := decide (0x37D ≤ c.toNat) && c != 0x380

/-- The source a code names, with the neighbour select of its field. Reserved codes are refused by the checks. -/
def srcOf (x : Fields) (c : BitVec 10) (n : BitVec 2) : Src :=
  if c.toNat < 0x200 then .v (c.setWidth 9) (if n == 1 then .left else if n == 2 then .right else .self)
  else if c.toNat < 0x300 then .s (c.setWidth 8)
  else if h : c.toNat - 0x300 < 112 then .int ⟨c.toNat - 0x300, h⟩
  else if h : c.toNat - 0x370 < 13 then .con ⟨c.toNat - 0x370, h⟩
  else .lit (x.lit.getD 0)

/-- The register a code names. -/
def regOf (c : BitVec 10) : Reg := if c.toNat < 0x200 then .v (c.setWidth 9) else .s (c.setWidth 8)

/-- The neighbour select a two-bit field names (R71). -/
def neighOf (n : BitVec 2) : Neigh := if n == 1 then .left else if n == 2 then .right else .self

def rmOf (k : BitVec 2) : Rm :=
  match k.toNat with
  | 0 => .rn | 1 => .rz | 2 => .ru | _ => .rd

/-! ## What each field of an instruction holds -/

/-- What a field holds: the entries of R117 and R236. `zero`: unused. `sblock`: the
command registers of PUSH (R293). `far`: 0, or the literal of a far branch (R121). `opn`: checked elsewhere. -/
inductive FieldKind where
  | zero
  | src (n : Nat)
  | us
  | reg (al n : Nat)
  | vreg (al n : Nat)
  | sreg
  | mask (lo : Nat)
  | pred (hi : Nat)
  | num (w : Nat)
  | sblock
  | far
  | opn
  deriving DecidableEq, Repr

/-- The field holds an operand code of R63. -/
def FieldKind.isOperand : FieldKind → Bool
  | .src _ => true | .us => true | .reg _ _ => true | .vreg _ _ => true | .sreg => true
  | .zero => false | .mask _ => false | .pred _ => false | .num _ => false | .sblock => false | .far => false | .opn => false

/-- How a neighbour-select field is checked: legal on a v-register code (R71), zero as the instruction's table says, or no
neighbour select at all (R69, R72). -/
inductive NbKind where
  | sel | zero | none
  deriving DecidableEq, Repr

/-- The encoding of one instruction or sub-operation: its fields and the checks that are its own. -/
structure Desc where
  d : FieldKind := .zero
  a : FieldKind := .zero
  b : FieldKind := .zero
  c : FieldKind := .zero
  na : NbKind := .sel
  nb : NbKind := .sel
  extra : List (Malformed × Bool) := []
  deriving DecidableEq, Repr

/-- A register group beyond the allocation, out of step, or past s255 (R67, R236). -/
def groupChecks (l : Limits) (al n : Nat) (c : BitVec 10) : List (Malformed × Bool) :=
  if c.toNat < 0x200 then
    [(.beyondVregs, decide (l.vregs < c.toNat + n)), (.oddPair, c.toNat % al != 0)]
  else if c.toNat < 0x300 then
    [(.oddPair, c.toNat % al != 0), (.badKind, decide (0x300 < c.toNat + n))]
  else []

/-- The kind of a source code is one the field takes. -/
def kindChecks (k : FieldKind) (c : BitVec 10) : List (Malformed × Bool) :=
  match k with
  | .us => [(.badKind, codeIsV c)]
  | .reg _ _ => [(.badKind, !codeIsV c && !codeIsS c)]
  | .vreg _ _ => [(.badKind, !codeIsV c)]
  | .sreg => [(.badKind, !codeIsS c)]
  | .zero => [] | .src _ => [] | .mask _ => [] | .pred _ => [] | .num _ => [] | .sblock => [] | .far => [] | .opn => []

/-- The checks of a field that holds a small unsigned number or nothing (R66, R117). -/
def smallChecks (k : FieldKind) (c : BitVec 10) : List (Malformed × Bool) :=
  match k with
  | .zero => [(.nonzeroReserved, c != 0)]
  | .mask lo => [(.nonzeroReserved, decide (16 ≤ c.toNat)), (.maskZero, decide (c.toNat % 16 < lo)),
      (.badKind, decide (11 < c.toNat % 16))]
  | .pred hi => [(.nonzeroReserved, decide (8 ≤ c.toNat)), (.badKind, decide (hi < c.toNat % 8))]
  | .num w => [(.nonzeroReserved, decide (2 ^ w ≤ c.toNat))]
  | .sblock => [(.badKind, !codeIsS c || c.toNat % 16 != 0)]
  | .far => [(.badKind, c != 0 && c != 0x380)]
  | .opn => []
  | .src _ => [] | .us => [] | .reg _ _ => [] | .vreg _ _ => [] | .sreg => []

/-- Alignment and number of the registers a field names. -/
def FieldKind.group : FieldKind → Nat × Nat
  | .src n => (n, n) | .reg al n => (al, n) | .vreg al n => (al, n) | .sreg => (2, 2)
  | .us => (1, 1) | .sblock => (1, 1) | .far => (1, 1)
  | .zero => (1, 1) | .mask _ => (1, 1) | .pred _ => (1, 1) | .num _ => (1, 1) | .opn => (1, 1)

/-- The checks of one source field. -/
def sourceChecks (l : Limits) (uniform hasLit : Bool) (k : FieldKind) (c : BitVec 10) : List (Malformed × Bool) :=
  if k.isOperand then
    [(.literalMisuse, codeIsLit c && !hasLit), (.reservedCode, codeReserved c), (.notUniform, uniform && codeIsV c)]
      ++ groupChecks l k.group.1 k.group.2 c ++ kindChecks k c
  else smallChecks k c

/-- The checks of the destination field. -/
def destChecks (l : Limits) (k : FieldKind) (c : BitVec 10) : List (Malformed × Bool) :=
  if k.isOperand then
    (.badDest, decide (0x300 ≤ c.toNat)) :: (groupChecks l k.group.1 k.group.2 c ++ kindChecks k c)
  else smallChecks k c

/-- The checks of a neighbour-select field on the field it goes with (R71). -/
def neighChecks (nk : NbKind) (k : FieldKind) (c : BitVec 10) (n : BitVec 2) : List (Malformed × Bool) :=
  match nk with
  | .sel => [(.badNeighbour, n == 3 || (n != 0 && !(k.isOperand && codeIsV c)))]
  | .zero => [(.nonzeroReserved, n != 0)]
  | .none => []

/-- Every check of the fields, beside those on the opcode and the form. -/
def Desc.checks (l : Limits) (x : Fields) (t : Desc) : List (Malformed × Bool) :=
  let uniform := (t.d.isOperand && codeIsS x.d) || x.op == 0xB0
  let anyLit := ((t.a.isOperand || t.a == .far) && codeIsLit x.a) || (t.b.isOperand && codeIsLit x.b) || (t.c.isOperand && codeIsLit x.c)
  (.literalMisuse, x.lit.isSome && !anyLit)
    :: (destChecks l t.d x.d ++ sourceChecks l uniform x.lit.isSome t.a x.a ++ sourceChecks l uniform x.lit.isSome t.b x.b
      ++ sourceChecks l uniform x.lit.isSome t.c x.c ++ neighChecks t.na t.a x.a x.na ++ neighChecks t.nb t.b x.b x.nb
      ++ t.extra)

/-- The first failing check in the order of R76. -/
def firstFail : List (Malformed × Bool) → Option Malformed
  | [] => none
  | (m, bad) :: t =>
    match bad, firstFail t with
    | false, r => r
    | true, none => some m
    | true, some m' => some (if m.code ≤ m'.code then m else m')

/-! ## Sub-operation codes -/

def relOf (n : Nat) : Option Rel :=
  match n with
  | 0 => some .eq | 1 => some .ne | 2 => some .lt | 3 => some .le | 4 => some .gt | 5 => some .ge | _ => none

def fRelOf (n : Nat) : Option FRel :=
  match n with
  | 6 => some .num
  | 14 => some .nan
  | _ => if n < 8 then (relOf n).map (.rel · false) else (relOf (n - 8)).map (.rel · true)

def sizeOf? (n : Nat) : Option Size :=
  match n with
  | 0 => some .b32 | 1 => some .b64 | 2 => some .b128 | 3 => some .b256 | 4 => some .b8 | 5 => some .s8
  | 6 => some .b16 | 7 => some .s16 | 8 => some .b512 | _ => none

def aopOf (n : Nat) : Option AOp :=
  match n with
  | 0 => some .add | 1 => some .minu | 2 => some .mins | 3 => some .maxu | 4 => some .maxs | 5 => some .and | 6 => some .or
  | 7 => some .xor | 8 => some .inc | 9 => some .dec | 10 => some .exch | 11 => some .cas | 12 => some .fadd
  | 13 => some .fmin | 14 => some .fmax | _ => none

def awidthOf (m : BitVec 2) : AWidth :=
  match m.toNat with
  | 0 => .b32 | 1 => .b64 | 2 => .b128 | _ => .b256

def redOpOf (n : Nat) : Option RedOp :=
  match n with
  | 0 => some .fadd | 1 => some .fmin | 2 => some .fmax | 3 => some .iadd | 4 => some .imins | 5 => some .imaxs
  | 6 => some .iminu | 7 => some .imaxu | 8 => some .and | 9 => some .or | 10 => some .xor | _ => none

def cvtFmtOf (n : Nat) : CvtFmt :=
  match n with
  | 0 => .f32 | 1 => .f64 | 2 => .f16 | 3 => .bf16 | 4 => .e5m2 | 5 => .e4m3 | 6 => .e2m1 | 7 => .e8m0
  | 8 => .s8 | 9 => .u8 | 10 => .s16 | 11 => .u16 | 12 => .s32 | 13 => .u32 | 14 => .s64 | _ => .u64

def blockFmtOf (f : BitVec 2) : BlockFmt :=
  match f.toNat with
  | 0 => .sb8e4 | 1 => .sb8e5 | 2 => .sb4 | _ => .nb4

def classFmtOf (k : BitVec 2) : ClassFmt :=
  match k.toNat with
  | 0 => .f32 | 1 => .f64 | 2 => .f16 | _ => .bf16

/-- Special-register selectors (R79). -/
def specialOf (n : Nat) : Option Special :=
  match n with
  | 0x00 => some .tid | 0x01 => some .teamid | 0x02 => some .launchid | 0x03 => some .laneid | 0x04 => some .crewid
  | 0x05 => some .coreid | 0x06 => some .clusterid | 0x07 => some .bed | 0x08 => some .rkey | 0x09 => some .cycle
  | 0x10 => some .fflags | 0x18 => some .tcause | 0x19 => some .tpc | 0x1A => some .tval | 0x1B => some .tmask
  | _ => none

/-- The memory modifier of classes 0x9 and 0xA (R72, R73). -/
def Fields.mop (x : Fields) : Nat := x.nb.toNat * 4 + x.na.toNat

def ordOf (n : Nat) : Option Ord :=
  match n with
  | 0 => some .none | 1 => some .rlx | 2 => some .acq | 3 => some .rel | 4 => some .ar | 5 => some .full | 6 => some .opnd
  | _ => none

def scopeOf (n : Nat) : Option Scope :=
  match n with
  | 0 => some .crew | 1 => some .team | 2 => some .cluster | 3 => some .device | 4 => some .system | _ => none

def hintOf (n : BitVec 2) : Hint :=
  match n.toNat with
  | 0 => .dflt | 1 => .stream | 2 => .keep | _ => .nol1

def modOf (c : BitVec 10) : Option MemMod :=
  match ordOf (c.extractLsb' 3 3).toNat, scopeOf (c.extractLsb' 0 3).toNat with
  | some o, some s => some { rmt := c.getLsbD 8, hint := hintOf (c.extractLsb' 6 2), ord := o, scope := s }
  | _, _ => none

/-- C holds a memory modifier that satisfies `ok`; C[9] is reserved (R73, R74, R237). -/
def modChecks (c : BitVec 10) (ok : MemMod → Bool) : List (Malformed × Bool) :=
  [(.nonzeroReserved, c.getLsbD 9), (.badModifier, match modOf c with | some m => !ok m | none => true)]

/-- The modifier is all zero but for what `hints` and `scopes` allow (R237). -/
def plainMod (hints : Bool) (maxScope : Nat) (c : BitVec 10) : List (Malformed × Bool) :=
  [(.nonzeroReserved, c.getLsbD 9),
   (.badModifier, c.getLsbD 8 || (c.extractLsb' 3 3) != 0 || (!hints && (c.extractLsb' 6 2) != 0)
      || decide (maxScope < (c.extractLsb' 0 3).toNat))]

/-! ## The tables -/

/-- A field, or some bits of one, that must be zero (0x06). -/
def must0 {w : Nat} (v : BitVec w) : Malformed × Bool := (.nonzeroReserved, v != 0)

/-- Low three bits of K, and K[3]. -/
def Fields.k3 (x : Fields) : Bool := x.k.getLsbD 3
def Fields.kLow (x : Fields) : BitVec 3 := x.k.setWidth 3
def Fields.kHi (x : Fields) : BitVec 2 := x.k.extractLsb' 2 2
def Fields.kRm (x : Fields) : BitVec 2 := x.k.extractLsb' 0 2
def Fields.f62 (x : Fields) : Bool := x.f.getLsbD 0
def Fields.f63 (x : Fields) : Bool := x.f.getLsbD 1

/-- Two-source integer arithmetic (R140): `sat` allows F[62]; `w64` allows .64. -/
def intBin (x : Fields) (sat : Bool) : Desc :=
  let n := if x.k3 then 2 else 1
  { d := .reg n n, a := .src n, b := .src n, extra := [must0 x.kLow, (.nonzeroReserved, !sat && x.f62)] }

/-- Shifts (R145). -/
def intShift (x : Fields) (flags : Bool) : Desc :=
  let n := if x.k3 then 2 else 1
  { d := .reg n n, a := .src n, b := .src 1, extra := [must0 x.kLow, (.nonzeroReserved, !flags && x.f != 0)] }

/-- One-source integer (R140, R147); `nd` registers in D. -/
def intUn (x : Fields) (sat single : Bool) : Desc :=
  let n := if x.k3 then 2 else 1
  let nd := if single then 1 else n
  { d := .reg nd nd, a := .src n, extra := [must0 x.kLow, (.nonzeroReserved, x.f63 || (!sat && x.f62))] }

/-- FP arithmetic of classes 0x5 and 0x7 (R160): n registers a value, `three` sources, `rm` a rounding mode. -/
def fltArith (x : Fields) (n : Nat) (two three rm : Bool) : Desc :=
  { d := .reg n n, a := .src n, b := if two then .src n else .zero, c := if three then .src n else .zero,
    extra := [(.badModifier, if rm then x.kHi != 0 else x.k != 0)] }

/-- Packed half precision (R171). -/
def fltHalf (x : Fields) (three : Bool) : Desc :=
  { d := .reg 1 1, a := .src 1, b := .src 1, c := if three then .src 1 else .zero,
    extra := [(.badModifier, decide (2 ≤ x.kHi.toNat))] }

/-- Special functions (R160, R167). -/
def fltSpecial (x : Fields) (two rm : Bool) : Desc :=
  { d := .reg 1 1, a := .src 1, b := if two then .src 1 else .zero, c := .opn,
    extra := [must0 (x.c.extractLsb' 2 8), (.badModifier, !rm && (x.c.extractLsb' 0 2) != 0)] }

/-- FSET and DSET (R164). -/
def fltSet (x : Fields) (n : Nat) : Desc :=
  { d := .pred 6, a := .src n, b := .src n, c := .opn,
    extra := [must0 (x.c.extractLsb' 4 6), (.nonzeroReserved, (fRelOf (x.c.extractLsb' 0 4).toNat).isNone),
      (.badModifier, x.k != 0), (.nonzeroReserved, x.f63)] }

/-- Registers of the access size of MOP; 1 for an unassigned code (R238). -/
def Fields.sizeRegs (x : Fields) : Nat :=
  match sizeOf? x.mop with
  | some z => Wf.sizeRegs z
  | none => 1

/-- The size code is assigned for the instruction (R238). -/
def sizeOk (x : Fields) (store plot : Bool) : Malformed × Bool :=
  (.nonzeroReserved, match sizeOf? x.mop with
    | some z => (z == .b512 && !plot) || (store && (z == .s8 || z == .s16))
    | none => true)

/-- A load or store by virtual address (R236). -/
def memVa (x : Fields) (store : Bool) (ok : MemMod → Bool) : Desc :=
  { d := .reg x.sizeRegs x.sizeRegs, a := .reg 2 2, b := .src 1, c := .opn, na := .none, nb := .none,
    extra := [sizeOk x store false, must0 x.f, (.nonzeroReserved, store && x.k != 0)] ++ modChecks x.c ok }

/-- A tensor load or store. -/
def memTensor (x : Fields) (store : Bool) : Desc :=
  { d := .reg x.sizeRegs x.sizeRegs, a := .reg 4 4, b := .src 1, c := .opn, na := .none, nb := .none,
    extra := [sizeOk x store false, must0 x.f, (.nonzeroReserved, store && x.k != 0)] ++ modChecks x.c Wf.weakMod }

/-- A plot load or store. -/
def memPlot (x : Fields) (store : Bool) : Desc :=
  { d := .reg x.sizeRegs x.sizeRegs, a := .src 1, b := .src 1, c := .opn, na := .none, nb := .none,
    extra := [sizeOk x store true, must0 x.f, (.nonzeroReserved, store && x.k != 0)]
      ++ modChecks x.c (fun m => Wf.weakMod m && m.hint == .dflt) }

/-- Registers of an atomic's value and of its operand (R249, R250). -/
def Fields.atomRegs (x : Fields) : Nat := Wf.widthRegs (awidthOf x.f)

/-- The operand field of ATOM and ATOMP (R250): any source for a one-register operand. -/
def atomOperandKind (x : Fields) : FieldKind :=
  let n := if x.mop == 11 then 2 * x.atomRegs else x.atomRegs
  if n == 1 then .src 1 else .reg n n

/-- The operation is assigned; the width is one the operation accepts (R236, R249). -/
def atomChecks (x : Fields) (red : Bool) : List (Malformed × Bool) :=
  [(.nonzeroReserved, match aopOf x.mop with
      | some o => red && (o == .exch || o == .cas)
      | none => true),
   (.badModifier, match aopOf x.mop with
      | some o => !Wf.atomWidth o (awidthOf x.f)
      | none => false)]

/-- A barrier-object instruction (R236, R259). -/
def barObjDesc (x : Fields) (d b : FieldKind) : Desc :=
  let plot := x.f == 1
  { d := d, a := if plot then .src 1 else .reg 2 2, b := b, c := .opn, na := .none, nb := .none,
    extra := [(.nonzeroReserved, x.mop != 0), (.badModifier, decide (2 ≤ x.f.toNat)), must0 x.k]
      ++ plainMod (!plot) (if plot then 2 else 4) x.c }

/-- The kinds of the fields and the instruction's own checks, by opcode and sub-operation; none for an unassigned opcode (R75). -/
def desc (l : Limits) (x : Fields) : Option Desc :=
  let k0 := must0 x.k
  let f0 := must0 x.f
  match x.op.toNat with
  -- control (R121, R124, R126)
  | 0x00 => some { na := .zero, nb := .zero, extra := [k0, f0] }
  | 0x01 => some
      { a := .far, b := .opn, c := .opn, na := .zero, nb := .zero,
        extra := [k0, f0, (.nonzeroReserved, x.lit.isSome && (x.b != 0 || x.c != 0)),
        (.literalMisuse, x.lit.isSome != codeIsLit x.a)] }
  | 0x02 => some { a := .reg 2 2, na := .zero, nb := .zero, extra := [k0, f0] }
  | 0x03 => some
      { d := .vreg 2 2, a := .far, b := .opn, c := .opn,
        na := .zero, nb := .zero,
        extra := [k0, f0, (.nonzeroReserved, x.lit.isSome && (x.b != 0 || x.c != 0)),
        (.literalMisuse, x.lit.isSome != codeIsLit x.a)] }
  | 0x04 => some { a := .reg 2 2, na := .zero, nb := .zero, extra := [k0, f0] }
  | 0x05 => some { na := .zero, nb := .zero, extra := [k0, f0] }
  | 0x06 => some { na := .zero, nb := .zero, extra := [k0, f0] }
  | 0x07 => some { a := .us, na := .zero, nb := .zero, extra := [k0, f0] }
  | 0x08 => some { a := .us, na := .zero, nb := .zero, extra := [k0, f0] }
  | 0x09 => some { na := .zero, nb := .zero, extra := [k0, f0] }
  -- masks and predicates (R133, R136, R137, R139)
  | 0x10 => some { d := .mask 1, na := .zero, nb := .zero, extra := [k0, f0] }
  | 0x11 => some { d := .mask 1, na := .zero, nb := .zero, extra := [k0, f0] }
  | 0x12 => some { d := .mask 0, na := .zero, nb := .zero, extra := [k0, f0] }
  | 0x13 => some { d := .mask 1, a := .mask 0, b := .mask 0, na := .zero, nb := .zero, extra := [f0] }
  | 0x14 => some (match x.k.toNat with
      | 0 => { d := .mask 1, a := .mask 0, na := .zero, nb := .zero, extra := [f0] }
      | 1 => { d := .sreg, a := .mask 0, na := .zero, nb := .zero, extra := [f0] }
      | 2 => { d := .mask 1, a := .sreg, na := .zero, nb := .zero, extra := [f0] }
      | _ => { d := .opn, a := .opn, na := .zero, nb := .zero, extra := [f0, (.nonzeroReserved, true)] })
  | 0x15 => some (match x.k.toNat with
      | 3 => { d := .vreg 2 2, a := .pred 7, b := .mask 0, na := .zero, nb := .zero, extra := [f0] }
      | n => { d := .pred 6, a := .pred 7, b := .mask 0, na := .zero, nb := .zero, extra := [f0, (.nonzeroReserved, decide (3 < n))] })
  | 0x16 => some { d := .pred 6, a := .mask 0, na := .zero, nb := .zero, extra := [k0, f0] }
  | 0x17 => some { d := .pred 6, a := .pred 7, b := .pred 7, na := .zero, nb := .zero, extra := [f0] }
  | 0x18 => some (match x.k.toNat with
      | 0 => { d := .pred 6, a := .pred 7, na := .zero, nb := .zero, extra := [f0] }
      | 1 => { d := .vreg 1 1, na := .zero, nb := .zero, extra := [f0] }
      | 2 => { a := .src 1, nb := .zero, extra := [f0] }
      | 3 => { d := .pred 6, a := .src 1, nb := .zero, extra := [f0] }
      | _ => { d := .opn, a := .opn, na := .zero, nb := .zero, extra := [f0, (.nonzeroReserved, true)] })
  -- integer (R140 to R149)
  | 0x20 => some (intBin x true)
  | 0x21 => let t := intBin x true
      some { t with c := t.b }
  | 0x22 => some (intBin x true)
  | 0x23 => some
      { d := .reg 1 1, a := .src 1, b := .src 1, c := .opn,
        extra := [f0, must0 (x.k.extractLsb' 1 3), must0 (x.c.extractLsb' 7 3)] }
  | 0x24 => some (intBin x true)
  | 0x25 => some (intBin x false)
  | 0x26 => let t := intBin x true
      some { t with c := t.b }
  | 0x27 => some { d := .reg 2 2, a := .src 1, b := .src 1, c := .src 2, extra := [k0] }
  | 0x28 => let n := if x.c.getLsbD 0 then 2 else 1
      some { d := .reg n n, a := .src n, b := .src n, c := .opn, extra := [must0 (x.c.extractLsb' 1 9)] }
  | 0x29 => let n := if x.c.getLsbD 0 then 2 else 1
      some { d := .reg n n, a := .src n, b := .src n, c := .opn, extra := [must0 (x.c.extractLsb' 1 9)] }
  | 0x2A => some (intBin x false)
  | 0x2B => some (intBin x false)
  | 0x2C => some (intUn x true false)
  | 0x2D => some (intUn x true false)
  | 0x2E => let n := if x.k3 then 2 else 1
      some
      { d := .pred 6, a := .src n, b := .src n,
        extra := [(.nonzeroReserved, (relOf x.kLow.toNat).isNone), (.nonzeroReserved, x.f62)] }
  | 0x2F => let n := if x.k3 then 2 else 1
      some { d := .reg n n, a := .src n, b := .src n, c := .opn, extra := [f0, must0 x.kLow, must0 (x.c.extractLsb' 4 6)] }
  | 0x30 => some { d := .reg 1 1, a := .src 1, b := .src 1, c := .src 1, nb := .none }
  | 0x31 => some (intShift x true)
  | 0x32 => some (intShift x false)
  | 0x33 => some (intShift x false)
  | 0x34 => some { d := .reg 1 1, a := .src 1, b := .src 1, c := .src 1, extra := [f0, must0 (x.k.extractLsb' 1 3)] }
  | 0x35 => let n := if x.k3 then 2 else 1
      some { d := .reg n n, a := .src n, b := .src 1, extra := [must0 x.kLow, (.nonzeroReserved, x.f62)] }
  | 0x36 => let n := if x.k3 then 2 else 1
      some { d := .reg n n, a := .src n, b := .src n, c := .src 1, extra := [must0 x.kLow, f0] }
  | 0x37 => some (intUn x false true)
  | 0x38 => some (intUn x false true)
  | 0x39 => some (intUn x false false)
  | 0x3A => let n := if x.k3 then 2 else 1
      some { d := .reg n n, a := .src n, b := .src 1, extra := [(.nonzeroReserved, x.f62)] }
  | 0x3B => some { d := .reg 1 1, a := .src 1, b := .src 1, c := .src 1, extra := [(.nonzeroReserved, x.k3 || x.f63)] }
  -- moves (R150 to R154)
  | 0x40 => some { d := .reg 1 1, a := .src 1, extra := [k0, f0] }
  | 0x41 => some
      { d := .reg 2 2, a := if x.k == 0 then .src 2 else .src 1,
        extra := [f0, (.nonzeroReserved, decide (3 ≤ x.k.toNat))] }
  | 0x42 => some { d := .vreg 1 1, a := .vreg 1 1, b := .mask 0, extra := [k0, f0] }
  | 0x43 => some { d := .vreg 1 1, a := .vreg 1 1, b := .us, extra := [k0, f0] }
  | 0x44 => some { d := .vreg 1 1, a := .vreg 1 1, b := .src 1, extra := [f0, (.nonzeroReserved, decide (3 ≤ x.k.toNat))] }
  | 0x45 => some
      { d := .num 2, a := .src 1, b := if x.k == 0 then .src 1 else .zero, nb := .zero,
        extra := [f0, (.nonzeroReserved, decide (3 ≤ x.k.toNat))] }
  | 0x46 => some { d := .vreg 1 1, a := .num 2, b := .src 1, nb := .zero, extra := [k0, f0] }
  | 0x47 => some { d := .num 2, a := .src 1, b := .src 1, nb := .zero, extra := [k0, f0] }
  | 0x48 => let n := if x.k.getLsbD 0 then 2 else 1
      some
      { d := .reg n n, a := .num 8,
        extra := [f0, must0 (x.k.extractLsb' 1 3), (.badSelector, (specialOf (x.a.toNat % 256)).isNone)] }
  | 0x49 => let n := if x.k.getLsbD 0 then 2 else 1
      some
      { d := .num 8, a := .src n,
        extra := [f0, must0 (x.k.extractLsb' 1 3),
        (.badSelector, match specialOf (x.d.toNat % 256) with | some r => !Wf.setsrOk l r | none => true)] }
  -- floating (R160 to R171)
  | 0x50 => some (fltArith x 1 true false true)
  | 0x51 => some (fltArith x 1 true false true)
  | 0x52 => some (fltArith x 1 true true true)
  | 0x53 => some (fltArith x 1 true false false)
  | 0x54 => some (fltArith x 1 true false false)
  | 0x55 => some (fltSet x 1)
  | 0x56 => let n := if x.kHi == 1 then 2 else 1
      some { d := .reg 1 1, a := .src n, extra := [f0, (.badModifier, x.kRm != 0)] }
  | 0x57 => some (fltArith x 1 true false false)
  | 0x58 => some
      { d := .reg 1 1, a := .src 1,
        extra := [(.nonzeroReserved, x.f63), (.badModifier, x.kRm != 0 || decide (2 ≤ x.kHi.toNat))] }
  | 0x59 => some { d := .reg 1 1, a := .src 1, extra := [(.nonzeroReserved, x.f63), (.badModifier, x.k != 0)] }
  | 0x60 => some (fltSpecial x false true)
  | 0x61 => some (fltSpecial x false true)
  | 0x62 => some (fltSpecial x false true)
  | 0x63 => some (fltSpecial x true true)
  | 0x64 => some (fltSpecial x false true)
  | 0x65 => some (fltSpecial x false false)
  | 0x66 => some (fltSpecial x false false)
  | 0x67 => some (fltSpecial x false false)
  | 0x68 => some (fltSpecial x false false)
  | 0x69 => some (fltSpecial x true true)
  | 0x70 => some (fltArith x 2 true false true)
  | 0x71 => some (fltArith x 2 true false true)
  | 0x72 => some (fltArith x 2 true true true)
  | 0x73 => some (fltSet x 2)
  | 0x74 => some (fltHalf x false)
  | 0x75 => some (fltHalf x false)
  | 0x76 => some (fltHalf x true)
  -- conversion and tree unit (R172 to R180)
  | 0x80 =>
      let dst := cvtFmtOf (x.c.extractLsb' 4 4).toNat
      let sf := cvtFmtOf (x.c.extractLsb' 0 4).toNat
      let e := (x.c.extractLsb' 8 2).toNat
      let sr := x.k.getLsbD 2
      let ins := x.k3
      let wd := Wf.cvtBits dst
      let ws := Wf.cvtBits sf
      some
      { d := .reg (Wf.cvtRegs dst) (Wf.cvtRegs dst), a := .src (Wf.cvtRegs sf), b := if sr then .src 1 else .zero, c := .opn,
        extra := [(.badModifier, sr && (!Wf.cvtSrDst dst || x.kRm != 0)),
        (.badModifier, if ins then !decide (wd < 32) || !decide (e < 32 / wd)
        else if ws < 32 then !decide (e < 32 / ws) else e != 0),
        (.nonzeroReserved, x.f63 && Wf.cvtIsInt sf)] }
  | 0x81 =>
      let nb4 := x.f == 3
      let sr := x.k.getLsbD 2
      some
      { d := .vreg 1 1, a := .src 1, b := if nb4 then .src 1 else .zero,
        c := if sr && !x.k3 then .src 1 else .zero,
        extra := [(.nonzeroReserved, x.k3 && x.kLow != 0), (.badModifier, !x.k3 && sr && x.kRm != 0)] }
  | 0x82 => some
      { d := .reg 1 1, a := .src 1, b := .src 1, c := if x.f == 3 then .src 1 else .zero,
        extra := [(.nonzeroReserved, x.k3), (.badKind, decide (x.f.toNat < 2) && decide (4 ≤ x.kLow.toNat))] }
  | 0x83 => some
      { d := .vreg 1 1, a := .src 1, b := .mask 0, c := .opn, nb := .zero,
        extra := [f0, must0 (x.c.extractLsb' 4 6), (.nonzeroReserved, (redOpOf (x.c.extractLsb' 0 4).toNat).isNone)] }
  | 0x84 => some
      { d := .vreg 1 1, a := .src 1, b := .mask 0, c := .opn, nb := .zero,
        extra := [f0, must0 (x.c.extractLsb' 5 5), (.nonzeroReserved, (redOpOf (x.c.extractLsb' 0 4).toNat).isNone)] }
  -- memory (R236, R237)
  | 0x90 => some (memVa x false Wf.weakMod)
  | 0x91 => some (memVa x true Wf.weakMod)
  | 0x92 => some (memVa x false (fun m => Wf.rmtOk m && (m.ord == .rlx || m.ord == .acq)))
  | 0x93 => some (memVa x true (fun m => !m.rmt && (m.ord == .rlx || m.ord == .rel)))
  | 0x94 => some (memTensor x false)
  | 0x95 => some (memTensor x true)
  | 0x96 => some (memPlot x false)
  | 0x97 => some (memPlot x true)
  | 0x98 => some
      { a := .reg 2 2, b := .src 1, c := .opn, na := .none, nb := .none,
        extra := [k0, f0, (.nonzeroReserved, decide (2 ≤ x.mop))] ++ plainMod true 0 x.c }
  | 0x99 => some
      { b := if x.mop == 1 then .src 1 else .zero, c := .opn, na := .none, nb := .none,
        extra := [k0, f0, (.nonzeroReserved, decide (3 ≤ x.mop))] ++ plainMod false 4 x.c }
  | 0xA0 => some
      { d := .reg x.atomRegs x.atomRegs, a := .reg 2 2, b := atomOperandKind x, c := .opn, na := .none, nb := .none,
        extra := atomChecks x false ++ modChecks x.c (fun m => Wf.atomOrd m.ord && Wf.rmtOk m) }
  | 0xA1 => some
      { d := .reg x.atomRegs x.atomRegs, a := .src 1, b := atomOperandKind x, c := .opn, na := .none, nb := .none,
        extra := atomChecks x false ++ modChecks x.c (fun m => Wf.atomOrd m.ord && !m.rmt && Wf.plotMod m) }
  | 0xA2 => some
      { d := .reg x.atomRegs x.atomRegs, a := .reg 2 2, b := .src 1, c := .opn, na := .none, nb := .none,
        extra := k0 :: (atomChecks x true ++ modChecks x.c (fun m => !m.rmt && (m.ord == .rlx || m.ord == .rel))) }
  | 0xA3 => some
      { c := .opn, na := .none, nb := .none,
        extra := [k0, f0, (.nonzeroReserved, x.mop != 0)] ++ modChecks x.c (fun m => !m.rmt && m.hint == .dflt
        && (m.ord == .acq || m.ord == .rel || m.ord == .full || m.ord == .opnd)) }
  | 0xA4 => some
      { a := .src 1, b := .num 4, c := .opn, na := .none, nb := .none,
        extra := [k0, f0, (.nonzeroReserved, decide (2 ≤ x.mop))] ++ plainMod false 0 x.c }
  | 0xA5 => some (barObjDesc x .zero (.src 1))
  | 0xA6 => some (barObjDesc x (.reg 1 1) .zero)
  | 0xA7 => some (barObjDesc x (.vreg 1 1) (.src 1))
  | 0xA8 => some (barObjDesc x .zero (.src 1))
  | 0xA9 => some
      { d := .pred 6, a := .src 1, b := .reg 2 2, c := .opn, na := .none, nb := .none,
        extra := [k0, f0, (.nonzeroReserved, x.mop != 0)] ++ plainMod false 0 x.c }
  | 0xAA => some
      { d := .reg 2 2, a := .src 1, b := .pred 6, c := .opn, na := .none, nb := .none,
        extra := [f0, (.nonzeroReserved, decide (4 ≤ x.mop))] ++ plainMod false 0 x.c }
  -- engines (R293, R315, R321, R328)
  | 0xB0 => some { d := .num 3, a := .num 3, b := .sblock, na := .zero, nb := .zero, extra := [k0, f0] }
  | 0xB1 => some
      { d := .vreg 1 ((x.c.extractLsb' 0 4).toNat + 1), a := .num 2, b := .src 1, c := .opn, na := .zero, nb := .zero,
        extra := [f0, must0 (x.c.extractLsb' 5 5), (.badKind, decide (l.acc ≤ x.a.toNat % 4))] }
  | 0xB2 => some { d := .reg 1 1, a := .src 1, extra := [f0] }
  | 0xB3 => some { a := .src 1, b := .src 1, extra := [k0, f0] }
  | 0xB4 => some { a := .src 1, b := .src 1, extra := [k0, f0] }
  | 0xB5 => some { a := .src 1, b := .src 1, extra := [k0, f0] }
  | 0xB6 => some { a := .reg 2 2, b := .src 1, c := .src 1, extra := [k0, f0] }
  | 0xB7 => some { a := .src 1, b := .src 1, extra := [k0, f0] }
  -- scheduling and reorder (R359, R156)
  | 0xC0 => some
      { d := .num 3, a := .src 1, b := .reg 1 ((x.c.extractLsb' 0 6).toNat + 1), c := .opn, na := .zero, nb := .zero,
        extra := [k0, f0, must0 (x.c.extractLsb' 6 4), (.badKind, decide ((x.c.extractLsb' 0 6).toNat < 3))] }
  | 0xC1 => some { d := .reg 1 1, a := .reg 2 2, na := .zero, nb := .zero, extra := [k0, f0] }
  | 0xC2 => some { a := .reg 2 2, b := .src 1, na := .zero, nb := .zero, extra := [k0, f0] }
  | 0xC3 => some { d := .reg 2 2, a := .reg 2 2, b := .src 2, na := .zero, nb := .zero, extra := [k0, f0] }
  | 0xC4 => some { na := .zero, nb := .zero, extra := [k0, f0] }
  | 0xC5 => some (match x.k.toNat with
      | 0 => { na := .zero, nb := .zero, extra := [f0] }
      | 1 => { a := .reg 2 2, b := .src 2, na := .zero, nb := .zero, extra := [f0] }
      | _ => { a := .src 1, b := .src 1, na := .zero, nb := .zero, extra := [f0, (.nonzeroReserved, true)] })
  | 0xC6 =>
      let n := (x.c.extractLsb' 0 6).toNat
      some
      { a := .src 1, b := if n == 0 then .zero else .vreg 1 n, c := .opn, nb := .zero,
        extra := [k0, f0, must0 (x.c.extractLsb' 7 3), (.badKind, decide (32 < n))] }
  -- system and debug (R126, R130)
  | 0xD0 => some { d := .reg 1 1, b := .src 1, na := .zero, nb := .zero, extra := [k0, f0] }
  | 0xD1 =>
      some { d := .reg 2 2, a := .reg 2 2, b := if x.k == 5 then .src 2 else .src 1, c := .src 1, na := .zero, nb := .zero,
             extra := [f0, (.nonzeroReserved, decide (7 ≤ x.k.toNat))] }
  | _ => none

/-! ## Words and forms (R51, R59 to R62) -/

/-- The opcode has a compact form (R62). -/
def compactCapable (op : BitVec 8) : Bool :=
  match op.toNat with
  | 0x00 => true | 0x40 => true | 0x20 => true | 0x22 => true | 0x24 => true | 0x2A => true | 0x2B => true | 0x31 => true
  | 0x32 => true | 0x33 => true | 0x50 => true | 0x51 => true | 0x53 => true | 0x54 => true | 0x74 => true | 0x75 => true
  | _ => false

/-- The opcode is assigned (R75). -/
def assignedOp (op : BitVec 8) : Bool :=
  let lo := op.toNat % 16
  match op.toNat / 16 with
  | 0x0 => lo < 10 | 0x1 => lo < 9 | 0x2 => true | 0x3 => lo < 12 | 0x4 => lo < 10 | 0x5 => lo < 10 | 0x6 => lo < 10
  | 0x7 => lo < 7 | 0x8 => lo < 5 | 0x9 => lo < 10 | 0xA => lo < 11 | 0xB => lo < 8 | 0xC => lo < 7 | 0xD => lo < 2
  | _ => false

/-- The fields of a 64-bit form (R59). -/
def Fields.unpack (w : BitVec 64) (lit : Option Word) : Fields :=
  { f := w.extractLsb' 62 2, nb := w.extractLsb' 60 2, na := w.extractLsb' 58 2, k := w.extractLsb' 54 4,
    g := w.extractLsb' 50 4, c := w.extractLsb' 40 10, b := w.extractLsb' 30 10, a := w.extractLsb' 20 10,
    d := w.extractLsb' 10 10, op := w.extractLsb' 2 8, lit := lit }

/-- The 64-bit form's bits (R59), with the form bits of R51. -/
def Fields.pack (x : Fields) : BitVec 64 :=
  x.f ++ x.nb ++ x.na ++ x.k ++ x.g ++ x.c ++ x.b ++ x.a ++ x.d ++ x.op ++ (if x.lit.isSome then 2#2 else 1#2)

/-- The 64-bit equivalent of a compact form (R61): D is also the first source; MOV takes A as A. -/
def Fields.ofCompact (w : Word) : Fields :=
  let op := w.extractLsb' 2 8
  let d := (w.extractLsb' 10 9).setWidth 10
  let a := (w.extractLsb' 19 9).setWidth 10
  if op == 0x40 then
    { f := 0, nb := 0, na := 0, k := w.extractLsb' 28 4, g := 7, c := 0, b := 0, a := a, d := d, op := op, lit := none }
  else
    { f := 0, nb := 0, na := 0, k := w.extractLsb' 28 4, g := 7, c := 0, b := a, a := d, d := d, op := op, lit := none }

/-- Every check of R76 on the fields. -/
def Fields.check (l : Limits) (x : Fields) : Option Malformed :=
  match desc l x with
  | none => some .unassignedOp
  | some t => firstFail (t.checks l x)

/-! ## The instruction of checked fields -/

/-- Guard (R68). -/
def Fields.guard (x : Fields) : Guard := { neg := x.g.getLsbD 3, p := x.g.setWidth 3 }
def Fields.srcA (x : Fields) : Src := srcOf x x.a x.na
def Fields.srcB (x : Fields) : Src := srcOf x x.b x.nb
def Fields.srcC (x : Fields) : Src := srcOf x x.c 0
/-- Sources of classes that have no neighbour select in NA and NB (R69, R72). -/
def Fields.srcA0 (x : Fields) : Src := srcOf x x.a 0
def Fields.srcB0 (x : Fields) : Src := srcOf x x.b 0
def Fields.rm (x : Fields) : Rm := rmOf x.kRm
def Fields.crm (x : Fields) : Rm := rmOf (x.c.extractLsb' 0 2)
/-- The offset of a branch (R121): bits [49:30], or the literal of the far form. -/
def Fields.off (x : Fields) : Off :=
  match x.lit with
  | some w => .far w
  | none => .near (x.c ++ x.b)

def Fields.ibin (x : Fields) : IBin :=
  { g := x.guard, d := regOf x.d, a := x.srcA, b := x.srcB, w64 := x.k3, sgn := x.f63, sat := x.f62 }
def Fields.itri (x : Fields) : ITri :=
  { g := x.guard, d := regOf x.d, a := x.srcA, b := x.srcB, c := x.srcC, w64 := x.k3, sgn := x.f63, sat := x.f62 }
def Fields.iun (x : Fields) : IUn := { g := x.guard, d := regOf x.d, a := x.srcA, w64 := x.k3, sat := x.f62 }
def Fields.idivf (x : Fields) : IDivF :=
  { g := x.guard, d := regOf x.d, a := x.srcA, b := x.srcB, w64 := x.c.getLsbD 0, sgn := x.f63, f62 := x.f62, la := x.k }
def Fields.fbin (x : Fields) : FBin :=
  { g := x.guard, d := regOf x.d, a := x.srcA, b := x.srcB, rm := x.rm, fzi := x.f62, fzo := x.f63 }
def Fields.ftri (x : Fields) : FTri :=
  { g := x.guard, d := regOf x.d, a := x.srcA, b := x.srcB, c := x.srcC, rm := x.rm, fzi := x.f62, fzo := x.f63 }
def Fields.ftwo (x : Fields) : FTwo :=
  { g := x.guard, d := regOf x.d, a := x.srcA, b := x.srcB, fzi := x.f62, fzo := x.f63 }
def Fields.fspecial (x : Fields) : FSpecial :=
  { g := x.guard, d := regOf x.d, a := x.srcA, rm := x.crm, la := x.k, fzi := x.f62, fzo := x.f63 }
def Fields.fspecial2 (x : Fields) : FSpecial2 :=
  { g := x.guard, d := regOf x.d, a := x.srcA, b := x.srcB, rm := x.crm, la := x.k, fzi := x.f62, fzo := x.f63 }
def Fields.fsetf (x : Fields) : Option FSetF :=
  (fRelOf (x.c.extractLsb' 0 4).toNat).map fun r =>
    { g := x.guard, pd := x.d.setWidth 3, a := x.srcA, b := x.srcB, rel := r, fzi := x.f62 }
def Fields.hbin (x : Fields) : HBin :=
  { g := x.guard, d := regOf x.d, a := x.srcA, b := x.srcB, rm := x.rm, bf16 := x.kHi == 1, fzi := x.f62, fzo := x.f63 }
def Fields.ldst (x : Fields) : Option LdStF := do
  let z ← sizeOf? x.mop
  let m ← modOf x.c
  some { g := x.guard, d := regOf x.d, a := regOf x.a, b := x.srcB0, size := z, m := m, la := x.k }
def Fields.ldstt (x : Fields) : Option LdStTF := do
  let z ← sizeOf? x.mop
  let m ← modOf x.c
  some { g := x.guard, d := regOf x.d, a := regOf x.a, b := x.srcB0, size := z, m := m, la := x.k }
def Fields.ldstp (x : Fields) : Option LdStPF := do
  let z ← sizeOf? x.mop
  let m ← modOf x.c
  some { g := x.guard, d := regOf x.d, a := x.srcA0, b := x.srcB0, size := z, m := m, la := x.k }
/-- SCOPE and HINT of C (R73). -/
def Fields.scope (x : Fields) : Scope := (scopeOf (x.c.extractLsb' 0 3).toNat).getD .crew
def Fields.hint (x : Fields) : Hint := hintOf (x.c.extractLsb' 6 2)
def Fields.barObj (x : Fields) : BarObj := if x.f == 1 then .plot x.srcA0 else .va (regOf x.a)
def Fields.barS (x : Fields) : BarSF := { g := x.guard, o := x.barObj, b := x.srcB0, hint := x.hint, scope := x.scope }
def Fields.two (x : Fields) : TwoSrcF := { g := x.guard, a := x.srcA, b := x.srcB }
def Fields.dbg (x : Fields) : DbgF :=
  { g := x.guard, d := regOf x.d, a := regOf x.a, b := x.srcB0, c := x.srcC }

/-- The instruction the fields name, for fields that pass every check. -/
def Fields.build (x : Fields) : Option Instr :=
  let g := x.guard
  match x.op.toNat with
  | 0x00 => some (.nop g)
  | 0x01 => some (.bra g x.off)
  | 0x02 => some (.brx g (regOf x.a))
  | 0x03 => some (.call g (x.d.setWidth 9) x.off)
  | 0x04 => some (.ret g (regOf x.a))
  | 0x05 => some (.exit g)
  | 0x06 => some (.yield g)
  | 0x07 => some (.trap g x.srcA)
  | 0x08 => some (.brk g x.srcA)
  | 0x09 => some (.rett g)
  | 0x10 => some (.join g (x.d.setWidth 4))
  | 0x11 => some (.leave g (x.d.setWidth 4))
  | 0x12 => some (.waitm g (x.d.setWidth 4))
  | 0x13 => some (.mlop g (x.d.setWidth 4) (x.a.setWidth 4) (x.b.setWidth 4) x.k)
  | 0x14 => match x.k.toNat with
      | 0 => some (.mmov g (.mm (x.d.setWidth 4) (x.a.setWidth 4)))
      | 1 => some (.mmov g (.sm (x.d.setWidth 8) (x.a.setWidth 4)))
      | 2 => some (.mmov g (.ms (x.d.setWidth 4) (x.a.setWidth 8)))
      | _ => none
  | 0x15 => match x.k.toNat with
      | 0 => some (.vote g (.any (x.d.setWidth 3)) (x.a.setWidth 3) (x.b.setWidth 4))
      | 1 => some (.vote g (.all (x.d.setWidth 3)) (x.a.setWidth 3) (x.b.setWidth 4))
      | 2 => some (.vote g (.eq (x.d.setWidth 3)) (x.a.setWidth 3) (x.b.setWidth 4))
      | 3 => some (.vote g (.ballot (x.d.setWidth 9)) (x.a.setWidth 3) (x.b.setWidth 4))
      | _ => none
  | 0x16 => some (.elect g (x.d.setWidth 3) (x.a.setWidth 4))
  | 0x17 => some (.plop g (x.d.setWidth 3) (x.a.setWidth 3) (x.b.setWidth 3) x.k)
  | 0x18 => match x.k.toNat with
      | 0 => some (.pmov g (.pp (x.d.setWidth 3) (x.a.setWidth 3)))
      | 1 => some (.pmov g (.toReg (x.d.setWidth 9)))
      | 2 => some (.pmov g (.fromSrc x.srcA))
      | 3 => some (.pmov g (.nonzero (x.d.setWidth 3) x.srcA))
      | _ => none
  | 0x20 => some (.iadd x.ibin)
  | 0x21 => some (.iadd3 x.itri)
  | 0x22 => some (.isub x.ibin)
  | 0x23 => some (.iaddc
      { g := g, d := regOf x.d, a := x.srcA, b := x.srcB, cin := x.c.setWidth 3, cinNeg := x.c.getLsbD 3,
        cout := x.c.extractLsb' 4 3, sub := x.k.getLsbD 0 })
  | 0x24 => some (.imul x.ibin)
  | 0x25 => some (.imulh x.ibin)
  | 0x26 => some (.imad x.itri)
  | 0x27 => some (.imadw x.itri)
  | 0x28 => some (.idiv x.idivf)
  | 0x29 => some (.irem x.idivf)
  | 0x2A => some (.imin x.ibin)
  | 0x2B => some (.imax x.ibin)
  | 0x2C => some (.iabs x.iun)
  | 0x2D => some (.ineg x.iun)
  | 0x2E => (relOf x.kLow.toNat).map fun r =>
      .iset { g := g, pd := x.d.setWidth 3, a := x.srcA, b := x.srcB, rel := r, w64 := x.k3, sgn := x.f63 }
  | 0x2F => some (.sel { g := g, d := regOf x.d, a := x.srcA, b := x.srcB, p := x.c.setWidth 3, neg := x.c.getLsbD 3, w64 := x.k3 })
  | 0x30 => some (.lop3 { g := g, d := regOf x.d, a := x.srcA, b := x.srcB0, c := x.srcC, tt := x.f ++ x.nb ++ x.k })
  | 0x31 => some (.shl x.ibin)
  | 0x32 => some (.shr x.ibin)
  | 0x33 => some (.sha x.ibin)
  | 0x34 => some (.shf { g := g, d := regOf x.d, a := x.srcA, b := x.srcB, c := x.srcC, left := x.k.getLsbD 0 })
  | 0x35 => some (.bfe x.ibin)
  | 0x36 => some (.bfi { g := g, d := regOf x.d, a := x.srcA, b := x.srcB, c := x.srcC, w64 := x.k3 })
  | 0x37 => some (.popc x.iun)
  | 0x38 => some (.clz x.iun)
  | 0x39 => some (.brev x.iun)
  | 0x3A => some (.lea { g := g, d := regOf x.d, a := x.srcA, b := x.srcB, sh := x.kLow, w64 := x.k3, sgn := x.f63 })
  | 0x3B => some (.idp4
      { g := g, d := regOf x.d, a := x.srcA, b := x.srcB, c := x.srcC, sa := x.k.getLsbD 0,
        sb := x.k.getLsbD 1, i4 := x.k.getLsbD 2, sat := x.f62 })
  | 0x40 => some (.mov { g := g, d := regOf x.d, a := x.srcA })
  | 0x41 => match x.k.toNat with
      | 0 => some (.movl { g := g, d := regOf x.d, a := x.srcA, mode := .full })
      | 1 => some (.movl { g := g, d := regOf x.d, a := x.srcA, mode := .zx })
      | 2 => some (.movl { g := g, d := regOf x.d, a := x.srcA, mode := .hi })
      | _ => none
  | 0x42 => some (.bcast { g := g, d := x.d.setWidth 9, a := x.a.setWidth 9, an := neighOf x.na, m := x.b.setWidth 4 })
  | 0x43 => some (.rdlane { g := g, d := x.d.setWidth 9, a := x.a.setWidth 9, an := neighOf x.na, b := x.srcB })
  | 0x44 => match x.k.toNat with
      | 0 => some (.perm { g := g, d := x.d.setWidth 9, a := x.a.setWidth 9, an := neighOf x.na, b := x.srcB, mode := .idx })
      | 1 => some (.perm { g := g, d := x.d.setWidth 9, a := x.a.setWidth 9, an := neighOf x.na, b := x.srcB, mode := .xor })
      | 2 => some (.perm { g := g, d := x.d.setWidth 9, a := x.a.setWidth 9, an := neighOf x.na, b := x.srcB, mode := .rot })
      | _ => none
  | 0x45 => match x.k.toNat with
      | 0 => some (.ixset g (x.d.setWidth 2) (.bl x.srcA x.srcB))
      | 1 => some (.ixset g (x.d.setWidth 2) (.cur x.srcA))
      | 2 => some (.ixset g (x.d.setWidth 2) (.add x.srcA))
      | _ => none
  | 0x46 => some (.ixld { g := g, d := x.d.setWidth 9, ix := x.a.setWidth 2, b := x.srcB })
  | 0x47 => some (.ixst { g := g, ix := x.d.setWidth 2, b := x.srcB, a := x.srcA })
  | 0x48 => (specialOf (x.a.toNat % 256)).map fun r =>
      .getsr { g := g, d := regOf x.d, sel := r, w64 := x.k.getLsbD 0 }
  | 0x49 => (specialOf (x.d.toNat % 256)).map fun r =>
      .setsr { g := g, sel := r, a := x.srcA, w64 := x.k.getLsbD 0 }
  | 0x50 => some (.fadd x.fbin)
  | 0x51 => some (.fmul x.fbin)
  | 0x52 => some (.ffma x.ftri)
  | 0x53 => some (.fmin x.ftwo)
  | 0x54 => some (.fmax x.ftwo)
  | 0x55 => x.fsetf.map .fset
  | 0x56 => some (.fclass { g := g, d := regOf x.d, a := x.srcA, fmt := classFmtOf x.kHi })
  | 0x57 => some (.fscl x.ftwo)
  | 0x58 => some (.ffrx { g := g, d := regOf x.d, a := x.srcA, exp := x.kHi == 1, fzi := x.f62 })
  | 0x59 => some (.fceilx { g := g, d := regOf x.d, a := x.srcA, fzi := x.f62 })
  | 0x60 => some (.frcp x.fspecial)
  | 0x61 => some (.frsq x.fspecial)
  | 0x62 => some (.fsqrt x.fspecial)
  | 0x63 => some (.fdiv x.fspecial2)
  | 0x64 => some (.fex2 x.fspecial)
  | 0x65 => some (.flg2 x.fspecial)
  | 0x66 => some (.fsin x.fspecial)
  | 0x67 => some (.fcos x.fspecial)
  | 0x68 => some (.ftanh x.fspecial)
  | 0x69 => some (.fex2m x.fspecial2)
  | 0x70 => some (.dadd x.fbin)
  | 0x71 => some (.dmul x.fbin)
  | 0x72 => some (.dfma x.ftri)
  | 0x73 => x.fsetf.map .dset
  | 0x74 => some (.hadd2 x.hbin)
  | 0x75 => some (.hmul2 x.hbin)
  | 0x76 => some (.hfma2
      { g := g, d := regOf x.d, a := x.srcA, b := x.srcB, c := x.srcC, rm := x.rm, bf16 := x.kHi == 1,
        fzi := x.f62, fzo := x.f63 })
  | 0x80 => some (.cvt
      { g := g, d := regOf x.d, a := x.srcA, dst := cvtFmtOf (x.c.extractLsb' 4 4).toNat,
        src := cvtFmtOf (x.c.extractLsb' 0 4).toNat, rm := x.rm, q := if x.k.getLsbD 2 then some x.srcB else none,
        ins := x.k3, e := x.c.extractLsb' 8 2, f62 := x.f62, f63 := x.f63 })
  | 0x81 => some (.qnt
      { g := g, d := x.d.setWidth 9, a := x.srcA, b := if x.f == 3 then some x.srcB else none,
        fmt := blockFmtOf x.f, scale := x.k3, rm := x.rm, q := if x.k.getLsbD 2 then some x.srcC else none })
  | 0x82 => some (.dqnt
      { g := g, d := regOf x.d, a := x.srcA, b := x.srcB, c := if x.f == 3 then some x.srcC else none,
        fmt := blockFmtOf x.f, e := x.kLow })
  | 0x83 => (redOpOf (x.c.extractLsb' 0 4).toNat).map fun o =>
      .redl { g := g, d := x.d.setWidth 9, a := x.srcA, m := x.b.setWidth 4, op := o, la := x.k }
  | 0x84 => (redOpOf (x.c.extractLsb' 0 4).toNat).map fun o =>
      .scanl { g := g, d := x.d.setWidth 9, a := x.srcA, m := x.b.setWidth 4, op := o, incl := x.c.getLsbD 4, la := x.k }
  | 0x90 => x.ldst.map .ld
  | 0x91 => x.ldst.map .st
  | 0x92 => x.ldst.map .lds
  | 0x93 => x.ldst.map .sts
  | 0x94 => x.ldstt.map .ldt
  | 0x95 => x.ldstt.map .stt
  | 0x96 => x.ldstp.map .ldp
  | 0x97 => x.ldstp.map .stp
  | 0x98 => some (.pf { g := g, a := regOf x.a, b := x.srcB0, l1 := x.mop == 1, hint := x.hint })
  | 0x99 => match x.mop with
      | 0 => some (.cctlIinv g x.scope)
      | 1 => some (.cctlShinv g x.srcB0 x.scope)
      | 2 => some (.cctlL1inv g x.scope)
      | _ => none
  | 0xA0 => do
      let o ← aopOf x.mop
      let m ← modOf x.c
      some (.atom { g := g, d := regOf x.d, a := regOf x.a, b := x.srcB0, op := o, w := awidthOf x.f, m := m, la := x.k })
  | 0xA1 => do
      let o ← aopOf x.mop
      let m ← modOf x.c
      some (.atomp { g := g, d := regOf x.d, a := x.srcA0, b := x.srcB0, op := o, w := awidthOf x.f, m := m, la := x.k })
  | 0xA2 => do
      let o ← aopOf x.mop
      let m ← modOf x.c
      some (.red { g := g, d := regOf x.d, a := regOf x.a, b := x.srcB0, op := o, w := awidthOf x.f, m := m })
  | 0xA3 => (modOf x.c).map fun m => .fence g m.ord m.scope
  | 0xA4 => some (.bar { g := g, cnt := x.srcA0, num := x.b.setWidth 4, arv := x.mop == 1 })
  | 0xA5 => some (.bari x.barS)
  | 0xA6 => some (.bara { g := g, d := regOf x.d, o := x.barObj, hint := x.hint, scope := x.scope })
  | 0xA7 => some (.barw { g := g, d := x.d.setWidth 9, o := x.barObj, b := x.srcB0, hint := x.hint, scope := x.scope })
  | 0xA8 => some (.bart x.barS)
  | 0xA9 => some (.pqput { g := g, pd := x.d.setWidth 3, a := x.srcA0, b := regOf x.b })
  | 0xAA => some (.pqtake { g := g, d := regOf x.d, pb := x.b.setWidth 3, a := x.srcA0, win := BitVec.ofNat 2 x.mop, la := x.k })
  | 0xB0 => some (.push { g := g, q := x.a.setWidth 3, sb := x.b.extractLsb' 4 4, pd := x.d.setWidth 3 })
  | 0xB1 => some (.mard
      { g := g, d := x.d.setWidth 9, slot := x.a.setWidth 2, b := x.srcB0, n1 := x.c.setWidth 4,
        bf16 := x.c.getLsbD 4, la := x.k })
  | 0xB2 => some (.rpop { g := g, d := regOf x.d, a := x.srcA, la := x.k })
  | 0xB3 => some (.rrel x.two)
  | 0xB4 => some (.rpub x.two)
  | 0xB5 => some (.rtinc x.two)
  | 0xB6 => some (.rcsnap { g := g, a := regOf x.a, an := neighOf x.na, b := x.srcB, c := x.srcC })
  | 0xB7 => some (.expf x.two)
  | 0xC0 => some (.emit { g := g, pd := x.d.setWidth 3, a := x.srcA0, b := regOf x.b, n1 := x.c.setWidth 6 })
  | 0xC1 => some (.launch { g := g, d := regOf x.d, a := regOf x.a })
  | 0xC2 => some (.signal { g := g, a := regOf x.a, b := x.srcB0 })
  | 0xC3 => some (.waitev { g := g, d := regOf x.d, a := regOf x.a, b := x.srcB0 })
  | 0xC4 => some (.ordrel g)
  | 0xC5 => match x.k.toNat with
      | 0 => some (.parkYield g)
      | 1 => some (.parkEv { g := g, a := regOf x.a, b := x.srcB0 })
      | _ => none
  | 0xC6 => some (.reorder { g := g, key := x.srcA, vp := x.b.setWidth 9, n := x.c.setWidth 6, team := x.c.getLsbD 6 })
  | 0xD0 => some (.sysc { g := g, d := regOf x.d, b := x.srcB0 })
  | 0xD1 => match x.k.toNat with
      | 0 => some (.dbgHalt x.dbg)
      | 1 => some (.dbgResume x.dbg)
      | 2 => some (.dbgStep x.dbg)
      | 3 => some (.dbgRdreg x.dbg)
      | 4 => some (.dbgWrreg x.dbg)
      | 5 => some (.dbgSetwp x.dbg)
      | 6 => some (.dbgGetmask x.dbg)
      | _ => none
  | _ => none

/-- The compact form's instruction (R61, R62). -/
def buildCompact (w : Word) : Option Instr :=
  let op := w.extractLsb' 2 8
  let d := w.extractLsb' 10 9
  let a := w.extractLsb' 19 9
  let imm := w.extractLsb' 28 4
  let ci : CInt := { d := d, a := a, w64 := imm.getLsbD 3 }
  let cf : CFlt := { d := d, a := a, rm := rmOf (imm.setWidth 2) }
  let c2 : CTwo := { d := d, a := a }
  let ch : CHalf := { d := d, a := a, rm := rmOf (imm.setWidth 2), bf16 := imm.extractLsb' 2 2 == 1 }
  match op.toNat with
  | 0x00 => some .nopCompact
  | 0x20 => some (.iaddCompact ci)
  | 0x22 => some (.isubCompact ci)
  | 0x24 => some (.imulCompact ci)
  | 0x2A => some (.iminCompact ci)
  | 0x2B => some (.imaxCompact ci)
  | 0x31 => some (.shlCompact ci)
  | 0x32 => some (.shrCompact ci)
  | 0x33 => some (.shaCompact ci)
  | 0x40 => some (.movCompact c2)
  | 0x50 => some (.faddCompact cf)
  | 0x51 => some (.fmulCompact cf)
  | 0x53 => some (.fminCompact c2)
  | 0x54 => some (.fmaxCompact c2)
  | 0x74 => some (.hadd2Compact ch)
  | 0x75 => some (.hmul2Compact ch)
  | _ => none

/-! ## Decoding -/

/-- What stands at an instruction position (R51, R76): an instruction and its length in words, a malformed word, a block
header, or the start of a form whose words are not all there. -/
inductive Decoded where
  | instr (i : Instr) (len : Nat)
  | illegal (m : Malformed)
  | header
  | short
  deriving DecidableEq, Repr

/-- The length in words of the item that begins with this word (R51). -/
def formLen (w : Word) : Nat :=
  match (w.setWidth 2).toNat with
  | 0 => 1 | 1 => 2 | 2 => 3 | _ => 2

/-- The instruction of fields that may fail a check. -/
def decodeFields (l : Limits) (x : Fields) : Except Malformed Instr :=
  match x.check l with
  | some m => .error m
  | none => match x.build with
    | some i => .ok i
    | none => .error .nonzeroReserved

/-- A compact word (R61, R62): its opcode's checks, then those of its 64-bit equivalent. -/
def decodeCompact (l : Limits) (w : Word) : Except Malformed Instr :=
  let op := w.extractLsb' 2 8
  if !assignedOp op then .error .unassignedOp
  else if !compactCapable op then .error .notCompact
  else match (Fields.ofCompact w).check l with
    | some m => .error m
    | none => match buildCompact w with
      | some i => .ok i
      | none => .error .notCompact

/-- The words at an instruction position. -/
def decodeWords (l : Limits) (ws : List Word) : Decoded :=
  let wrap (n : Nat) (r : Except Malformed Instr) : Decoded :=
    match r with
    | .ok i => .instr i n
    | .error m => .illegal m
  match ws with
  | [] => .short
  | w0 :: rest =>
    match (w0.setWidth 2).toNat with
    | 0 => wrap 1 (decodeCompact l w0)
    | 1 => match rest with
      | w1 :: _ => wrap 2 (decodeFields l (Fields.unpack (w1 ++ w0) none))
      | [] => .short
    | 2 => match rest with
      | w1 :: w2 :: _ => wrap 3 (decodeFields l (Fields.unpack (w1 ++ w0) (some w2)))
      | _ => .short
    | _ => .header

/-- Little-endian words of a list of bytes (R51). -/
def wordsOfBytes : List Byte → List Word
  | b0 :: b1 :: b2 :: b3 :: t => (b3 ++ b2 ++ b1 ++ b0) :: wordsOfBytes t
  | _ => []

/-- Little-endian bytes of a word. -/
def bytesOfWord (w : Word) : List Byte :=
  [w.extractLsb' 0 8, w.extractLsb' 8 8, w.extractLsb' 16 8, w.extractLsb' 24 8]

/-- Little-endian bytes of words. -/
def bytesOfWords (ws : List Word) : List Byte := ws.flatMap bytesOfWord

/-- Decoding of bytes: total. -/
def decode (l : Limits) (bs : List Byte) : Decoded := decodeWords l (wordsOfBytes bs)

/-- The limits of the widest kernel, outside handler mode (R9, R83). -/
def Limits.widest : Limits := { vregs := 512, acc := 4, handler := false }

/-- The words of an instruction whose bits are w: the first word's two low bits give the form, and words that nbits does not
reach are zero. -/
def tableWords (w : Nat) : List Word :=
  [BitVec.ofNat 32 w, BitVec.ofNat 32 (w / 2 ^ 32), BitVec.ofNat 32 (w / 2 ^ 64)]

/-- The instruction of bits numbered as spec/opcode_table.json numbers them. -/
def decodeTableWord (nbits w : Nat) : Option Instr :=
  match decode Limits.widest (bytesOfWords (tableWords (w % 2 ^ nbits))) with
  | .instr i _ => some i
  | .illegal _ => none
  | .header => none
  | .short => none

/-! ## Encoding -/

def Reg.enc : Reg → BitVec 10
  | .v r => r.setWidth 10
  | .s r => 0x200 + r.setWidth 10

def Src.enc : Src → BitVec 10
  | .v r _ => r.setWidth 10
  | .s r => 0x200 + r.setWidth 10
  | .int k => BitVec.ofNat 10 (0x300 + k.val)
  | .con k => BitVec.ofNat 10 (0x370 + k.val)
  | .lit _ => 0x380

def Neigh.enc : Neigh → BitVec 2
  | .self => 0 | .left => 1 | .right => 2

/-- The neighbour select of a source (R71). -/
def Src.neigh : Src → BitVec 2
  | .v _ n => n.enc
  | .s _ => 0 | .int _ => 0 | .con _ => 0 | .lit _ => 0

def Rm.enc : Rm → BitVec 2
  | .rn => 0 | .rz => 1 | .ru => 2 | .rd => 3

def Guard.enc (g : Guard) : BitVec 4 := BitVec.ofBool g.neg ++ g.p

def b1 (b : Bool) : BitVec 1 := BitVec.ofBool b

def Rel.enc : Rel → BitVec 3
  | .eq => 0 | .ne => 1 | .lt => 2 | .le => 3 | .gt => 4 | .ge => 5

def FRel.enc : FRel → BitVec 4
  | .rel r u => b1 u ++ r.enc
  | .num => 6
  | .nan => 14

def Size.enc : Size → BitVec 4
  | .b32 => 0 | .b64 => 1 | .b128 => 2 | .b256 => 3 | .b8 => 4 | .s8 => 5 | .b16 => 6 | .s16 => 7 | .b512 => 8

def AOp.enc : AOp → BitVec 4
  | .add => 0 | .minu => 1 | .mins => 2 | .maxu => 3 | .maxs => 4 | .and => 5 | .or => 6 | .xor => 7 | .inc => 8 | .dec => 9
  | .exch => 10 | .cas => 11 | .fadd => 12 | .fmin => 13 | .fmax => 14

def AWidth.enc : AWidth → BitVec 2
  | .b32 => 0 | .b64 => 1 | .b128 => 2 | .b256 => 3

def RedOp.enc : RedOp → BitVec 4
  | .fadd => 0 | .fmin => 1 | .fmax => 2 | .iadd => 3 | .imins => 4 | .imaxs => 5 | .iminu => 6 | .imaxu => 7 | .and => 8
  | .or => 9 | .xor => 10

def CvtFmt.enc : CvtFmt → BitVec 4
  | .f32 => 0 | .f64 => 1 | .f16 => 2 | .bf16 => 3 | .e5m2 => 4 | .e4m3 => 5 | .e2m1 => 6 | .e8m0 => 7 | .s8 => 8 | .u8 => 9
  | .s16 => 10 | .u16 => 11 | .s32 => 12 | .u32 => 13 | .s64 => 14 | .u64 => 15

def BlockFmt.enc : BlockFmt → BitVec 2
  | .sb8e4 => 0 | .sb8e5 => 1 | .sb4 => 2 | .nb4 => 3

def ClassFmt.enc : ClassFmt → BitVec 2
  | .f32 => 0 | .f64 => 1 | .f16 => 2 | .bf16 => 3

def Special.enc : Special → BitVec 8
  | .tid => 0x00 | .teamid => 0x01 | .launchid => 0x02 | .laneid => 0x03 | .crewid => 0x04 | .coreid => 0x05
  | .clusterid => 0x06 | .bed => 0x07 | .rkey => 0x08 | .cycle => 0x09 | .fflags => 0x10 | .tcause => 0x18 | .tpc => 0x19
  | .tval => 0x1A | .tmask => 0x1B

def Ord.enc : Ord → BitVec 3
  | .none => 0 | .rlx => 1 | .acq => 2 | .rel => 3 | .ar => 4 | .full => 5 | .opnd => 6

def Scope.enc : Scope → BitVec 3
  | .crew => 0 | .team => 1 | .cluster => 2 | .device => 3 | .system => 4

def Hint.enc : Hint → BitVec 2
  | .dflt => 0 | .stream => 1 | .keep => 2 | .nol1 => 3

def MemMod.enc (m : MemMod) : BitVec 10 := 0#1 ++ b1 m.rmt ++ m.hint.enc ++ m.ord.enc ++ m.scope.enc

/-- Fields all zero but for the opcode and the guard. -/
def Fields.base (op : BitVec 8) (g : Guard) : Fields :=
  { f := 0, nb := 0, na := 0, k := 0, g := g.enc, c := 0, b := 0, a := 0, d := 0, op := op, lit := none }

def fEnc (f63 f62 : Bool) : BitVec 2 := b1 f63 ++ b1 f62

def encIBin (op : BitVec 8) (f : IBin) : Fields :=
  { Fields.base op f.g with
    f := fEnc f.sgn f.sat, nb := f.b.neigh, na := f.a.neigh, k := b1 f.w64 ++ 0#3, b := f.b.enc,
    a := f.a.enc, d := f.d.enc, lit := Wf.litOf [f.a, f.b] }
def encITri (op : BitVec 8) (f : ITri) : Fields :=
  { Fields.base op f.g with
    f := fEnc f.sgn f.sat, nb := f.b.neigh, na := f.a.neigh, k := b1 f.w64 ++ 0#3, c := f.c.enc,
    b := f.b.enc, a := f.a.enc, d := f.d.enc, lit := Wf.litOf [f.a, f.b, f.c] }
def encIUn (op : BitVec 8) (f : IUn) : Fields :=
  { Fields.base op f.g with
    f := fEnc false f.sat, na := f.a.neigh, k := b1 f.w64 ++ 0#3, a := f.a.enc, d := f.d.enc,
    lit := Wf.litOf [f.a] }
def encIDiv (op : BitVec 8) (f : IDivF) : Fields :=
  { Fields.base op f.g with
    f := fEnc f.sgn f.f62, nb := f.b.neigh, na := f.a.neigh, k := f.la, c := (b1 f.w64).setWidth 10,
    b := f.b.enc, a := f.a.enc, d := f.d.enc, lit := Wf.litOf [f.a, f.b] }
def encFBin (op : BitVec 8) (f : FBin) : Fields :=
  { Fields.base op f.g with
    f := fEnc f.fzo f.fzi, nb := f.b.neigh, na := f.a.neigh, k := 0#2 ++ f.rm.enc, b := f.b.enc,
    a := f.a.enc, d := f.d.enc, lit := Wf.litOf [f.a, f.b] }
def encFTri (op : BitVec 8) (f : FTri) : Fields :=
  { Fields.base op f.g with
    f := fEnc f.fzo f.fzi, nb := f.b.neigh, na := f.a.neigh, k := 0#2 ++ f.rm.enc, c := f.c.enc,
    b := f.b.enc, a := f.a.enc, d := f.d.enc, lit := Wf.litOf [f.a, f.b, f.c] }
def encFTwo (op : BitVec 8) (f : FTwo) : Fields :=
  { Fields.base op f.g with
    f := fEnc f.fzo f.fzi, nb := f.b.neigh, na := f.a.neigh, b := f.b.enc,
    a := f.a.enc, d := f.d.enc, lit := Wf.litOf [f.a, f.b] }
def encFSet (op : BitVec 8) (f : FSetF) : Fields :=
  { Fields.base op f.g with
    f := fEnc false f.fzi, nb := f.b.neigh, na := f.a.neigh, c := f.rel.enc.setWidth 10, b := f.b.enc,
    a := f.a.enc, d := f.pd.setWidth 10, lit := Wf.litOf [f.a, f.b] }
def encSpecial (op : BitVec 8) (f : FSpecial) : Fields :=
  { Fields.base op f.g with
    f := fEnc f.fzo f.fzi, na := f.a.neigh, k := f.la, c := f.rm.enc.setWidth 10, a := f.a.enc,
    d := f.d.enc, lit := Wf.litOf [f.a] }
def encSpecial2 (op : BitVec 8) (f : FSpecial2) : Fields :=
  { Fields.base op f.g with
    f := fEnc f.fzo f.fzi, nb := f.b.neigh, na := f.a.neigh, k := f.la, c := f.rm.enc.setWidth 10,
    b := f.b.enc, a := f.a.enc, d := f.d.enc, lit := Wf.litOf [f.a, f.b] }
def encHBin (op : BitVec 8) (f : HBin) : Fields :=
  { Fields.base op f.g with
    f := fEnc f.fzo f.fzi, nb := f.b.neigh, na := f.a.neigh, k := 0#1 ++ b1 f.bf16 ++ f.rm.enc,
    b := f.b.enc, a := f.a.enc, d := f.d.enc, lit := Wf.litOf [f.a, f.b] }
def encLdSt (op : BitVec 8) (f : LdStF) : Fields :=
  { Fields.base op f.g with
    nb := f.size.enc.extractLsb' 2 2, na := f.size.enc.extractLsb' 0 2, k := f.la, c := f.m.enc,
    b := f.b.enc, a := f.a.enc, d := f.d.enc, lit := Wf.litOf [f.b] }
def encLdStT (op : BitVec 8) (f : LdStTF) : Fields :=
  { Fields.base op f.g with
    nb := f.size.enc.extractLsb' 2 2, na := f.size.enc.extractLsb' 0 2, k := f.la, c := f.m.enc,
    b := f.b.enc, a := f.a.enc, d := f.d.enc, lit := Wf.litOf [f.b] }
def encLdStP (op : BitVec 8) (f : LdStPF) : Fields :=
  { Fields.base op f.g with
    nb := f.size.enc.extractLsb' 2 2, na := f.size.enc.extractLsb' 0 2, k := f.la, c := f.m.enc,
    b := f.b.enc, a := f.a.enc, d := f.d.enc, lit := Wf.litOf [f.a, f.b] }
def encObj : BarObj → BitVec 10
  | .va a => a.enc
  | .plot a => a.enc
def encSpace : BarObj → BitVec 2
  | .va _ => 0
  | .plot _ => 1
def encPlain (h : Hint) (s : Scope) : BitVec 10 := 0#2 ++ h.enc ++ 0#3 ++ s.enc
def encBarS (op : BitVec 8) (f : BarSF) : Fields :=
  { Fields.base op f.g with
    f := encSpace f.o, c := encPlain f.hint f.scope, b := f.b.enc, a := encObj f.o,
    lit := Wf.litOf (f.b :: Wf.objSrc f.o) }
def encTwo (op : BitVec 8) (f : TwoSrcF) : Fields :=
  { Fields.base op f.g with nb := f.b.neigh, na := f.a.neigh, b := f.b.enc, a := f.a.enc, lit := Wf.litOf [f.a, f.b] }
def encDbg (k : BitVec 4) (f : DbgF) : Fields :=
  { Fields.base 0xD1 f.g with k := k, c := f.c.enc, b := f.b.enc, a := f.a.enc, d := f.d.enc, lit := Wf.litOf [f.b, f.c] }
def encOff (op : BitVec 8) (g : Guard) (d : BitVec 10) : Off → Fields
  | .near o => { Fields.base op g with c := o.extractLsb' 10 10, b := o.extractLsb' 0 10, d := d }
  | .far o => { Fields.base op g with a := 0x380, d := d, lit := some o }
def encOpt : Option Src → BitVec 10
  | some x => x.enc
  | none => 0
def neighOpt : Option Src → BitVec 2
  | some x => x.neigh
  | none => 0

/-- The fields of a 64-bit or 96-bit form; none for a compact form and for the step of another agent. -/
def Instr.fields : Instr → Option Fields
  | .nop g => some (Fields.base 0x00 g)
  | .bra g o => some (encOff 0x01 g 0 o)
  | .brx g a => some { Fields.base 0x02 g with a := a.enc }
  | .call g d o => some (encOff 0x03 g (d.setWidth 10) o)
  | .ret g a => some { Fields.base 0x04 g with a := a.enc }
  | .exit g => some (Fields.base 0x05 g)
  | .yield g => some (Fields.base 0x06 g)
  | .trap g a => some { Fields.base 0x07 g with a := a.enc, lit := Wf.litOf [a] }
  | .brk g a => some { Fields.base 0x08 g with a := a.enc, lit := Wf.litOf [a] }
  | .rett g => some (Fields.base 0x09 g)
  | .join g m => some { Fields.base 0x10 g with d := m.setWidth 10 }
  | .leave g m => some { Fields.base 0x11 g with d := m.setWidth 10 }
  | .waitm g m => some { Fields.base 0x12 g with d := m.setWidth 10 }
  | .mlop g d a b tt => some { Fields.base 0x13 g with k := tt, b := b.setWidth 10, a := a.setWidth 10, d := d.setWidth 10 }
  | .mmov g (.mm d a) => some { Fields.base 0x14 g with a := a.setWidth 10, d := d.setWidth 10 }
  | .mmov g (.sm d a) => some { Fields.base 0x14 g with k := 1, a := a.setWidth 10, d := (Reg.s d).enc }
  | .mmov g (.ms d a) => some { Fields.base 0x14 g with k := 2, a := (Reg.s a).enc, d := d.setWidth 10 }
  | .vote g (.any pd) p m => some { Fields.base 0x15 g with b := m.setWidth 10, a := p.setWidth 10, d := pd.setWidth 10 }
  | .vote g (.all pd) p m => some { Fields.base 0x15 g with k := 1, b := m.setWidth 10, a := p.setWidth 10, d := pd.setWidth 10 }
  | .vote g (.eq pd) p m => some { Fields.base 0x15 g with k := 2, b := m.setWidth 10, a := p.setWidth 10, d := pd.setWidth 10 }
  | .vote g (.ballot d) p m => some { Fields.base 0x15 g with k := 3, b := m.setWidth 10, a := p.setWidth 10, d := d.setWidth 10 }
  | .elect g pd m => some { Fields.base 0x16 g with a := m.setWidth 10, d := pd.setWidth 10 }
  | .plop g pd pa pb tt =>
    some { Fields.base 0x17 g with k := tt, b := pb.setWidth 10, a := pa.setWidth 10, d := pd.setWidth 10 }
  | .pmov g (.pp pd pa) => some { Fields.base 0x18 g with a := pa.setWidth 10, d := pd.setWidth 10 }
  | .pmov g (.toReg d) => some { Fields.base 0x18 g with k := 1, d := d.setWidth 10 }
  | .pmov g (.fromSrc a) => some { Fields.base 0x18 g with k := 2, na := a.neigh, a := a.enc, lit := Wf.litOf [a] }
  | .pmov g (.nonzero pd a) =>
    some { Fields.base 0x18 g with k := 3, na := a.neigh, a := a.enc, d := pd.setWidth 10, lit := Wf.litOf [a] }
  | .iadd f => some (encIBin 0x20 f)
  | .iadd3 f => some (encITri 0x21 f)
  | .isub f => some (encIBin 0x22 f)
  | .iaddc f => some
      { Fields.base 0x23 f.g with
        nb := f.b.neigh, na := f.a.neigh, k := (b1 f.sub).setWidth 4,
        c := 0#3 ++ f.cout ++ b1 f.cinNeg ++ f.cin, b := f.b.enc, a := f.a.enc, d := f.d.enc, lit := Wf.litOf [f.a, f.b] }
  | .imul f => some (encIBin 0x24 f)
  | .imulh f => some (encIBin 0x25 f)
  | .imad f => some (encITri 0x26 f)
  | .imadw f => some (encITri 0x27 f)
  | .idiv f => some (encIDiv 0x28 f)
  | .irem f => some (encIDiv 0x29 f)
  | .imin f => some (encIBin 0x2A f)
  | .imax f => some (encIBin 0x2B f)
  | .iabs f => some (encIUn 0x2C f)
  | .ineg f => some (encIUn 0x2D f)
  | .iset f => some
      { Fields.base 0x2E f.g with
        f := fEnc f.sgn false, nb := f.b.neigh, na := f.a.neigh,
        k := b1 f.w64 ++ f.rel.enc, b := f.b.enc, a := f.a.enc, d := f.pd.setWidth 10, lit := Wf.litOf [f.a, f.b] }
  | .sel f => some
      { Fields.base 0x2F f.g with
        nb := f.b.neigh, na := f.a.neigh, k := b1 f.w64 ++ 0#3,
        c := 0#6 ++ b1 f.neg ++ f.p, b := f.b.enc, a := f.a.enc, d := f.d.enc, lit := Wf.litOf [f.a, f.b] }
  | .lop3 f => some
      { Fields.base 0x30 f.g with
        f := f.tt.extractLsb' 6 2, nb := f.tt.extractLsb' 4 2, na := f.a.neigh,
        k := f.tt.extractLsb' 0 4, c := f.c.enc, b := f.b.enc, a := f.a.enc, d := f.d.enc, lit := Wf.litOf [f.a, f.b, f.c] }
  | .shl f => some (encIBin 0x31 f)
  | .shr f => some (encIBin 0x32 f)
  | .sha f => some (encIBin 0x33 f)
  | .shf f => some
      { Fields.base 0x34 f.g with
        nb := f.b.neigh, na := f.a.neigh, k := (b1 f.left).setWidth 4,
        c := f.c.enc, b := f.b.enc, a := f.a.enc, d := f.d.enc, lit := Wf.litOf [f.a, f.b, f.c] }
  | .bfe f => some (encIBin 0x35 f)
  | .bfi f => some
      { Fields.base 0x36 f.g with
        nb := f.b.neigh, na := f.a.neigh, k := b1 f.w64 ++ 0#3,
        c := f.c.enc, b := f.b.enc, a := f.a.enc, d := f.d.enc, lit := Wf.litOf [f.a, f.b, f.c] }
  | .popc f => some (encIUn 0x37 f)
  | .clz f => some (encIUn 0x38 f)
  | .brev f => some (encIUn 0x39 f)
  | .lea f => some
      { Fields.base 0x3A f.g with
        f := fEnc f.sgn false, nb := f.b.neigh, na := f.a.neigh,
        k := b1 f.w64 ++ f.sh, b := f.b.enc, a := f.a.enc, d := f.d.enc, lit := Wf.litOf [f.a, f.b] }
  | .idp4 f => some
      { Fields.base 0x3B f.g with
        f := fEnc false f.sat, nb := f.b.neigh, na := f.a.neigh,
        k := 0#1 ++ b1 f.i4 ++ b1 f.sb ++ b1 f.sa, c := f.c.enc, b := f.b.enc, a := f.a.enc, d := f.d.enc,
        lit := Wf.litOf [f.a, f.b, f.c] }
  | .mov f => some { Fields.base 0x40 f.g with na := f.a.neigh, a := f.a.enc, d := f.d.enc, lit := Wf.litOf [f.a] }
  | .movl f => some
      { Fields.base 0x41 f.g with
        na := f.a.neigh,
        k := (match f.mode with | .full => 0 | .zx => 1 | .hi => 2), a := f.a.enc, d := f.d.enc, lit := Wf.litOf [f.a] }
  | .bcast f => some { Fields.base 0x42 f.g with na := f.an.enc, b := f.m.setWidth 10, a := f.a.setWidth 10, d := f.d.setWidth 10 }
  | .rdlane f => some
      { Fields.base 0x43 f.g with
        na := f.an.enc, b := f.b.enc, a := f.a.setWidth 10, d := f.d.setWidth 10,
        lit := Wf.litOf [f.b] }
  | .perm f => some
      { Fields.base 0x44 f.g with
        nb := f.b.neigh, na := f.an.enc,
        k := (match f.mode with | .idx => 0 | .xor => 1 | .rot => 2), b := f.b.enc, a := f.a.setWidth 10, d := f.d.setWidth 10,
        lit := Wf.litOf [f.b] }
  | .ixset g i (.bl a b) => some
      { Fields.base 0x45 g with
        na := a.neigh, b := b.enc, a := a.enc, d := i.setWidth 10,
        lit := Wf.litOf [a, b] }
  | .ixset g i (.cur a) => some
      { Fields.base 0x45 g with
        na := a.neigh, k := 1, a := a.enc, d := i.setWidth 10,
        lit := Wf.litOf [a] }
  | .ixset g i (.add a) => some
      { Fields.base 0x45 g with
        na := a.neigh, k := 2, a := a.enc, d := i.setWidth 10,
        lit := Wf.litOf [a] }
  | .ixld f => some { Fields.base 0x46 f.g with b := f.b.enc, a := f.ix.setWidth 10, d := f.d.setWidth 10, lit := Wf.litOf [f.b] }
  | .ixst f => some
      { Fields.base 0x47 f.g with
        na := f.a.neigh, b := f.b.enc, a := f.a.enc, d := f.ix.setWidth 10,
        lit := Wf.litOf [f.a, f.b] }
  | .getsr f => some { Fields.base 0x48 f.g with k := (b1 f.w64).setWidth 4, a := f.sel.enc.setWidth 10, d := f.d.enc }
  | .setsr f => some
      { Fields.base 0x49 f.g with
        na := f.a.neigh, k := (b1 f.w64).setWidth 4, a := f.a.enc,
        d := f.sel.enc.setWidth 10, lit := Wf.litOf [f.a] }
  | .fadd f => some (encFBin 0x50 f)
  | .fmul f => some (encFBin 0x51 f)
  | .ffma f => some (encFTri 0x52 f)
  | .fmin f => some (encFTwo 0x53 f)
  | .fmax f => some (encFTwo 0x54 f)
  | .fset f => some (encFSet 0x55 f)
  | .fclass f => some
      { Fields.base 0x56 f.g with
        na := f.a.neigh, k := f.fmt.enc ++ 0#2, a := f.a.enc, d := f.d.enc,
        lit := Wf.litOf [f.a] }
  | .fscl f => some (encFTwo 0x57 f)
  | .ffrx f => some
      { Fields.base 0x58 f.g with
        f := fEnc false f.fzi, na := f.a.neigh, k := 0#1 ++ b1 f.exp ++ 0#2, a := f.a.enc,
        d := f.d.enc, lit := Wf.litOf [f.a] }
  | .fceilx f => some
      { Fields.base 0x59 f.g with
        f := fEnc false f.fzi, na := f.a.neigh, a := f.a.enc, d := f.d.enc,
        lit := Wf.litOf [f.a] }
  | .frcp f => some (encSpecial 0x60 f)
  | .frsq f => some (encSpecial 0x61 f)
  | .fsqrt f => some (encSpecial 0x62 f)
  | .fdiv f => some (encSpecial2 0x63 f)
  | .fex2 f => some (encSpecial 0x64 f)
  | .flg2 f => some (encSpecial 0x65 f)
  | .fsin f => some (encSpecial 0x66 f)
  | .fcos f => some (encSpecial 0x67 f)
  | .ftanh f => some (encSpecial 0x68 f)
  | .fex2m f => some (encSpecial2 0x69 f)
  | .dadd f => some (encFBin 0x70 f)
  | .dmul f => some (encFBin 0x71 f)
  | .dfma f => some (encFTri 0x72 f)
  | .dset f => some (encFSet 0x73 f)
  | .hadd2 f => some (encHBin 0x74 f)
  | .hmul2 f => some (encHBin 0x75 f)
  | .hfma2 f => some
      { Fields.base 0x76 f.g with
        f := fEnc f.fzo f.fzi, nb := f.b.neigh, na := f.a.neigh,
        k := 0#1 ++ b1 f.bf16 ++ f.rm.enc, c := f.c.enc, b := f.b.enc, a := f.a.enc, d := f.d.enc,
        lit := Wf.litOf [f.a, f.b, f.c] }
  | .cvt f => some
      { Fields.base 0x80 f.g with
        f := fEnc f.f63 f.f62, nb := neighOpt f.q, na := f.a.neigh,
        k := b1 f.ins ++ b1 f.q.isSome ++ f.rm.enc, c := f.e ++ f.dst.enc ++ f.src.enc, b := encOpt f.q, a := f.a.enc,
        d := f.d.enc, lit := Wf.litOf (f.a :: f.q.toList) }
  | .qnt f => some
      { Fields.base 0x81 f.g with
        f := f.fmt.enc, nb := neighOpt f.b, na := f.a.neigh,
        k := b1 f.scale ++ b1 f.q.isSome ++ f.rm.enc, c := encOpt f.q, b := encOpt f.b, a := f.a.enc,
        d := f.d.setWidth 10, lit := Wf.litOf (f.a :: (f.b.toList ++ f.q.toList)) }
  | .dqnt f => some
      { Fields.base 0x82 f.g with
        f := f.fmt.enc, nb := f.b.neigh, na := f.a.neigh, k := 0#1 ++ f.e,
        c := encOpt f.c, b := f.b.enc, a := f.a.enc, d := f.d.enc, lit := Wf.litOf (f.a :: f.b :: f.c.toList) }
  | .redl f => some
      { Fields.base 0x83 f.g with
        na := f.a.neigh, k := f.la, c := f.op.enc.setWidth 10, b := f.m.setWidth 10,
        a := f.a.enc, d := f.d.setWidth 10, lit := Wf.litOf [f.a] }
  | .scanl f => some
      { Fields.base 0x84 f.g with
        na := f.a.neigh, k := f.la, c := 0#5 ++ b1 f.incl ++ f.op.enc,
        b := f.m.setWidth 10, a := f.a.enc, d := f.d.setWidth 10, lit := Wf.litOf [f.a] }
  | .ld f => some (encLdSt 0x90 f)
  | .st f => some (encLdSt 0x91 f)
  | .lds f => some (encLdSt 0x92 f)
  | .sts f => some (encLdSt 0x93 f)
  | .ldt f => some (encLdStT 0x94 f)
  | .stt f => some (encLdStT 0x95 f)
  | .ldp f => some (encLdStP 0x96 f)
  | .stp f => some (encLdStP 0x97 f)
  | .pf f => some
      { Fields.base 0x98 f.g with
        na := (b1 f.l1).setWidth 2, c := encPlain f.hint .crew, b := f.b.enc, a := f.a.enc,
        lit := Wf.litOf [f.b] }
  | .cctlIinv g s => some { Fields.base 0x99 g with c := encPlain .dflt s }
  | .cctlShinv g b s => some { Fields.base 0x99 g with na := 1, c := encPlain .dflt s, b := b.enc, lit := Wf.litOf [b] }
  | .cctlL1inv g s => some { Fields.base 0x99 g with na := 2, c := encPlain .dflt s }
  | .atom f => some
      { Fields.base 0xA0 f.g with
        f := f.w.enc, nb := f.op.enc.extractLsb' 2 2, na := f.op.enc.extractLsb' 0 2,
        k := f.la, c := f.m.enc, b := f.b.enc, a := f.a.enc, d := f.d.enc, lit := Wf.litOf [f.b] }
  | .atomp f => some
      { Fields.base 0xA1 f.g with
        f := f.w.enc, nb := f.op.enc.extractLsb' 2 2, na := f.op.enc.extractLsb' 0 2,
        k := f.la, c := f.m.enc, b := f.b.enc, a := f.a.enc, d := f.d.enc, lit := Wf.litOf [f.a, f.b] }
  | .red f => some
      { Fields.base 0xA2 f.g with
        f := f.w.enc, nb := f.op.enc.extractLsb' 2 2, na := f.op.enc.extractLsb' 0 2,
        c := f.m.enc, b := f.b.enc, a := f.a.enc, d := f.d.enc, lit := Wf.litOf [f.b] }
  | .fence g o s => some { Fields.base 0xA3 g with c := 0#4 ++ o.enc ++ s.enc }
  | .bar f => some
      { Fields.base 0xA4 f.g with
        na := (b1 f.arv).setWidth 2, b := f.num.setWidth 10, a := f.cnt.enc,
        lit := Wf.litOf [f.cnt] }
  | .bari f => some (encBarS 0xA5 f)
  | .bara f => some
      { Fields.base 0xA6 f.g with
        f := encSpace f.o, c := encPlain f.hint f.scope, a := encObj f.o, d := f.d.enc,
        lit := Wf.litOf (Wf.objSrc f.o) }
  | .barw f => some
      { Fields.base 0xA7 f.g with
        f := encSpace f.o, c := encPlain f.hint f.scope, b := f.b.enc, a := encObj f.o,
        d := f.d.setWidth 10, lit := Wf.litOf (f.b :: Wf.objSrc f.o) }
  | .bart f => some (encBarS 0xA8 f)
  | .pqput f => some { Fields.base 0xA9 f.g with b := f.b.enc, a := f.a.enc, d := f.pd.setWidth 10, lit := Wf.litOf [f.a] }
  | .pqtake f => some
      { Fields.base 0xAA f.g with
        na := f.win, k := f.la, b := f.pb.setWidth 10, a := f.a.enc, d := f.d.enc,
        lit := Wf.litOf [f.a] }
  | .push f => some { Fields.base 0xB0 f.g with b := 2#2 ++ f.sb ++ 0#4, a := f.q.setWidth 10, d := f.pd.setWidth 10 }
  | .mard f => some
      { Fields.base 0xB1 f.g with
        k := f.la, c := 0#5 ++ b1 f.bf16 ++ f.n1, b := f.b.enc, a := f.slot.setWidth 10,
        d := f.d.setWidth 10, lit := Wf.litOf [f.b] }
  | .rpop f => some { Fields.base 0xB2 f.g with na := f.a.neigh, k := f.la, a := f.a.enc, d := f.d.enc, lit := Wf.litOf [f.a] }
  | .rrel f => some (encTwo 0xB3 f)
  | .rpub f => some (encTwo 0xB4 f)
  | .rtinc f => some (encTwo 0xB5 f)
  | .rcsnap f => some
      { Fields.base 0xB6 f.g with
        nb := f.b.neigh, na := f.an.enc, c := f.c.enc, b := f.b.enc, a := f.a.enc,
        lit := Wf.litOf [f.b, f.c] }
  | .expf f => some (encTwo 0xB7 f)
  | .emit f => some
      { Fields.base 0xC0 f.g with
        c := f.n1.setWidth 10, b := f.b.enc, a := f.a.enc, d := f.pd.setWidth 10,
        lit := Wf.litOf [f.a] }
  | .launch f => some { Fields.base 0xC1 f.g with a := f.a.enc, d := f.d.enc }
  | .signal f => some { Fields.base 0xC2 f.g with b := f.b.enc, a := f.a.enc, lit := Wf.litOf [f.b] }
  | .waitev f => some { Fields.base 0xC3 f.g with b := f.b.enc, a := f.a.enc, d := f.d.enc, lit := Wf.litOf [f.b] }
  | .ordrel g => some (Fields.base 0xC4 g)
  | .parkYield g => some (Fields.base 0xC5 g)
  | .parkEv f => some { Fields.base 0xC5 f.g with k := 1, b := f.b.enc, a := f.a.enc, lit := Wf.litOf [f.b] }
  | .reorder f => some
      { Fields.base 0xC6 f.g with
        na := f.key.neigh, c := 0#3 ++ b1 f.team ++ f.n, b := f.vp.setWidth 10,
        a := f.key.enc, lit := Wf.litOf [f.key] }
  | .sysc f => some { Fields.base 0xD0 f.g with b := f.b.enc, d := f.d.enc, lit := Wf.litOf [f.b] }
  | .dbgHalt f => some (encDbg 0 f)
  | .dbgResume f => some (encDbg 1 f)
  | .dbgStep f => some (encDbg 2 f)
  | .dbgRdreg f => some (encDbg 3 f)
  | .dbgWrreg f => some (encDbg 4 f)
  | .dbgSetwp f => some (encDbg 5 f)
  | .dbgGetmask f => some (encDbg 6 f)
  | .nopCompact => none
  | .iaddCompact _ => none
  | .isubCompact _ => none
  | .imulCompact _ => none
  | .iminCompact _ => none
  | .imaxCompact _ => none
  | .shlCompact _ => none
  | .shrCompact _ => none
  | .shaCompact _ => none
  | .movCompact _ => none
  | .faddCompact _ => none
  | .fmulCompact _ => none
  | .fminCompact _ => none
  | .fmaxCompact _ => none
  | .hadd2Compact _ => none
  | .hmul2Compact _ => none
  | .riddleAgeFlush _ _ => none
  | .riddleDeferredFlush _ _ => none
  | .mmaDense _ _ => none
  | .mmaGrouped _ _ => none
  | .mmaExpand _ _ => none
  | .mmaAbsorb _ _ => none
  | .spanGroupTimeout _ => none
  | .mast _ => none
  | .mald _ => none
  | .maz _ => none
  | .cpy _ => none
  | .gath _ => none
  | .scat _ => none
  | .rake _ => none
  | .rsub _ => none
  | .lxw _ => none
  | .qcast _ => none
  | .cmrg _ => none
  | .mergeGroupTimeout _ => none
  | .patx _ => none
  | .engineTokenWrite _ => none
  | .feederFillStart _ => none
  | .feederFillComplete _ => none
  | .storerDrainStart _ => none
  | .storerDrainComplete _ => none
  | .kernelLaunch _ _ => none
  | .graphStart _ _ => none
  | .closeRecord _ _ => none
  | .trayFlush _ _ _ _ => none
  | .dispatch _ _ => none
  | .sliceExpiry _ => none
  | .parkThresholdExpiry _ => none
  | .teamWake _ => none
  | .teamRetire _ => none
  | .frameReceive _ _ _ => none
  | .heldRecordDelivery _ _ _ _ => none
  | .ptpMessage _ _ => none
  | .mmpFaultService _ _ _ => none
  | .map _ _ => none
  | .free _ => none
  | .share _ => none
  | .protect _ => none
  | .migrate _ _ => none
  | .lookup _ => none
  | .migrationCommit _ _ => none
  | .expertPrefetch _ _ _ => none
  | .peerRequest _ _ _ _ => none
  | .hyfinLinkFailure _ => none
  | .apertureAccess _ => none
  | .mailboxReport _ => none
  | .uncorrectableError _ => none
  | .linkReplayExhausted _ => none
  | .watchdogExpiry => none
  | .thermalTrip => none
  | .throttleStep => none
  | .bedIdle _ => none
  | .configure => none
  | .bedOn => none
  | .bedOff => none
  | .attest => none
  | .update _ => none
  | .updateComplete => none
  | .reset => none
  | .registerExpert => none
  | .steer => none
  | .mmpRequest => none
  | .registerWrite _ _ _ => none
  | .powerOn _ _ => none
  | .longLatencyResultWrite _ _ _ => none
  | .mmpFirmwareFault _ => none
  | .powerLoss => none

/-- The word of a compact form (R61). -/
def packCompact (op : BitVec 8) (d a : BitVec 9) (imm : BitVec 4) : Word := imm ++ a ++ d ++ op ++ 0#2

def encCInt (op : BitVec 8) (f : CInt) : Word := packCompact op f.d f.a (b1 f.w64 ++ 0#3)
def encCFlt (op : BitVec 8) (f : CFlt) : Word := packCompact op f.d f.a (0#2 ++ f.rm.enc)
def encCTwo (op : BitVec 8) (f : CTwo) : Word := packCompact op f.d f.a 0
def encCHalf (op : BitVec 8) (f : CHalf) : Word := packCompact op f.d f.a (0#1 ++ b1 f.bf16 ++ f.rm.enc)

/-- The word of a compact form; none for the other instructions. -/
def Instr.compactWord : Instr → Option Word
  | .nopCompact => some 0
  | .iaddCompact f => some (encCInt 0x20 f)
  | .isubCompact f => some (encCInt 0x22 f)
  | .imulCompact f => some (encCInt 0x24 f)
  | .iminCompact f => some (encCInt 0x2A f)
  | .imaxCompact f => some (encCInt 0x2B f)
  | .shlCompact f => some (encCInt 0x31 f)
  | .shrCompact f => some (encCInt 0x32 f)
  | .shaCompact f => some (encCInt 0x33 f)
  | .movCompact f => some (encCTwo 0x40 f)
  | .faddCompact f => some (encCFlt 0x50 f)
  | .fmulCompact f => some (encCFlt 0x51 f)
  | .fminCompact f => some (encCTwo 0x53 f)
  | .fmaxCompact f => some (encCTwo 0x54 f)
  | .hadd2Compact f => some (encCHalf 0x74 f)
  | .hmul2Compact f => some (encCHalf 0x75 f)
  | _ => none

/-- The words of a form (R51, R59, R60). -/
def Fields.words (x : Fields) : List Word :=
  let w := x.pack
  [w.extractLsb' 0 32, w.extractLsb' 32 32] ++ x.lit.toList

/-- The words of an instruction; none for the steps of other agents, which no word encodes. -/
def encode (i : Instr) : List Word :=
  match i.compactWord with
  | some w => [w]
  | none => match i.fields with
    | some x => x.words
    | none => []

end Sys2Proof
end

