-- ==== Sys2Proof/Machine/Issue.lean ====
section
/-! DEFINITION. Issue: which crew a partition selects and which groups it may form (spec/01_execution_rules.md R15 to R17,
spec/19_scheduling_rules.md R348), fetch and decode of the group's instruction (spec/03_encoding_rules.md R51 to R78), and the
scoreboard (R70, R299, R304). -/

namespace Sys2Proof.Machine

/-! ## Selection -/

/-- The crews of one partition (R15). -/
def State.partition (s : State) (cluster core p : Nat) : List Crew :=
  s.crews.filter fun c => c.cluster == cluster && c.core == core && c.slot % Config.partitions == p

/-- The older of two crews, the lower slot among equals (R348). -/
def olderCrew (a b : Crew) : Crew := if b.age < a.age || (b.age == a.age && b.slot < a.slot) then b else a

def oldestCrew : List Crew → Option Crew
  | [] => none
  | c :: t => some (t.foldl olderCrew c)

/-- Cut a list in runs of at most 32. -/
def runs32 : Nat → List Nat → List (List Nat)
  | 0, _ => []
  | f + 1, l => if l.isEmpty then [] else l.take 32 :: runs32 f (l.drop 32)

/-- Where a ready thread may be grouped with others: its place, and during a DBG.STEP its team (R15, R376). -/
def State.spot (s : State) (c : Crew) (t : Thread) : (Dword × Dword × Dword × Option EntryKind) × Option Nat :=
  (t.key, match s.team? (c.ref t) with
    | some tm => if tm.stepping.contains c.cid then some t.team else none
    | none => none)

/-- The groups a crew could issue: ready lanes at one place, in runs of 32 in lane order (R15, R17). -/
def State.groupsOf (s : State) (c : Crew) : List (List Nat) :=
  (c.groupBy (s.spot c) (s.readyLanes c)).flatMap fun g => runs32 3 g.2

/-- The threads of two groups stand at one place. -/
def State.sameSpot (s : State) (c : Crew) (g h : List Nat) : Bool :=
  ((g.head?).bind c.thread?).map (s.spot c) == ((h.head?).bind c.thread?).map (s.spot c)

/-- The two halves of a converged crew that one group cannot hold (R17). -/
def State.halves (s : State) (c : Crew) : Option (List Nat × List Nat) :=
  match s.groupsOf c with
  | [a, b] => if a ++ b == c.live && s.sameSpot c a b then some (a, b) else none
  | _ => none

/-- The second half of a converged crew of width 64 is the group that issues next in its partition (R17). -/
def State.restDue (s : State) (c : Crew) : Bool := !c.rest.isEmpty && (s.groupsOf c).contains c.rest

/-- The groups open to a crew: of a converged crew its first half, and then its second (R17). -/
def State.openGroups (s : State) (c : Crew) : List (List Nat) :=
  if s.restDue c then [c.rest]
  else match s.halves c with
    | some (a, _) => [a]
    | none => s.groupsOf c

/-- The crew a partition selects: one whose second half is due; one that has waited 64 of its cycles with a ready thread; else the
oldest with a ready thread, a crew that yielded only when no other has one (R17, R124, R348). -/
def State.selected (s : State) (cluster core p : Nat) : Option Crew :=
  let able := (s.partition cluster core p).filter fun c => !(s.readyLanes c).isEmpty
  let due := able.filter fun c => s.restDue c
  let starved := able.filter fun c => decide (64 ≤ c.starve)
  let awake := able.filter fun c => !c.yielded
  if !due.isEmpty then oldestCrew due
  else if !starved.isEmpty then oldestCrew starved
  else if !awake.isEmpty then oldestCrew awake
  else oldestCrew able

/-- The groups a crew was passed over for, at the most passed-over of some lanes. -/
def Crew.maxSkip (c : Crew) (ls : List Nat) : Nat := ls.foldl (fun m l => max m (((c.thread? l).map (·.skip)).getD 0)) 0

/-- The choice of a group leaves every other ready thread time to issue within 256 groups (R16); of a crew of width 64, 255, so that
the first half of a converged crew can always issue before the second (R17). -/
def Crew.fair (c : Crew) (others : List (List Nat)) : Bool :=
  others.all fun g => decide ((others.filter fun h => c.maxSkip g ≤ c.maxSkip h).length + c.maxSkip g ≤
    (if c.width = 64 then 255 else 256))

/-- The group passed over longest, the first among equals. -/
def Crew.longest (c : Crew) (gs : List (List Nat)) : List Nat :=
  gs.foldl (fun b g => if c.maxSkip b < c.maxSkip g then g else b) (gs.headD [])

/-- The group at a PC, when the choice is open to the partition: the first ready threads there in lane order, up to 32 (R15); where
R16 leaves these no turn, the ones passed over longest (assumption 49). -/
def State.chosen (s : State) (c : Crew) (pc : Dword) : Option (List Nat) :=
  let gs := s.openGroups c
  match gs.filter fun g => ((g.head?).bind c.thread?).any fun t => t.pc == pc || (t.entry.isNone && t.iaddr == pc) with
  | [] => none
  | here =>
    let g := c.longest here
    let first := (here.find? fun h => s.sameSpot c h g).getD g
    [first, g].find? fun h => c.fair (gs.filter (· != h))

/-- What issues next of a converged crew of width 64 whose group `ls` issues: its second half (R17). -/
def State.restAfter (s : State) (c : Crew) (ls : List Nat) : List Nat :=
  if s.restDue c then []
  else match s.halves c with
    | some (a, b) => if a == ls then b else []
    | none => []

/-- The bookkeeping of an issue: the group's threads were included, other ready threads passed over (R16); the other crews of
the partition with a ready thread waited (R348); a yield is spent (R124). -/
def State.noteIssue (s : State) (c : Crew) (ls : List Nat) : State :=
  let ready := s.readyLanes c
  let peers := (s.partition c.cluster c.core (c.slot % Config.partitions)).filter fun x => x.cid != c.cid
  let waiting := (peers.filter fun x => !(s.readyLanes x).isEmpty).map (·.cid)
  let rest := s.restAfter c ls
  let s := peers.foldl (fun s x => s.setCrew x.cid fun y =>
    { y with yielded := false, starve := if waiting.contains x.cid then y.starve + 1 else 0 }) s
  s.setCrew c.cid fun y =>
    let y := { y with yielded := false, starve := 0, rest := rest }
    { y with lanes := (List.range y.width).map fun l => (y.thread? l).map fun t =>
        { t with skip := if ls.contains l then 0 else if ready.contains l then t.skip + 1 else 0 } }

/-! ## What an issue acquires (R220, R227) -/

/-- Some thread waits for a phase of a team barrier, in a crew or saved with its team. -/
def State.awaits (s : State) (r : TeamRef) (num phase : Nat) : Bool :=
  (s.crews ++ ((s.team? r).map (·.saved)).getD []).any fun c => c.lanes.any fun t =>
    (t.map fun t => c.ref t == r && t.wait == .bar num phase).getD false

/-- Lanes that depart from the completion of a team barrier's phase: they know what its arrivals did. A phase that no thread waits for
any more is forgotten once it has completed. -/
def State.departBars (s : State) (c : Crew) (ls : List Nat) : State :=
  let bars := ls.filterMap fun l => (c.thread? l).bind fun t => match t.wait with
    | .bar num phase => some (l, t, num, phase)
    | _ => none
  if bars.isEmpty then s
  else
    let s := bars.foldl (fun s b => s.take (c.home b.2.1).agent (.bar (c.ref b.2.1) b.2.2.1 b.2.2.2)) s
    let s := s.setThreads c.cid (bars.map (·.1)) fun t => { t with wait := .none }
    s.forgetPoints fun n => match n with
      | .bar r num phase => decide (phase < (((s.team? r).bind fun t => t.bars[num]?).map (·.phase)).getD 0) && !s.awaits r num phase
      | _ => false

/-- Lanes whose instruction reads token registers that an engine has written take what happened before those writes. -/
def State.readTokens (s : State) (c : Crew) (ls : List Nat) (tc : Touch) : State :=
  let rs := (tc.rd.filter fun r => r.1 && c.tokRegs.contains r.2).map (·.2)
  ls.foldl (fun s l => match c.thread? l with
    | some t => rs.foldl (fun s r => s.take (c.home t).agent (.token c.cid r)) s
    | none => s) s

/-! ## The scoreboard -/

/-- Results in flight that a lane's next instruction may not pass: their window or their block is over (R70). -/
def Pend.past (p : Pend) (hdr : Dword) : Bool := p.left == 0 || p.hdr != hdr

/-- The choice between old and new for one register touched inside a window (R70): bit 0, the result is written now; bit 1,
for an s-register the instruction may write, the result is also written after it. -/
def windowChoice (fresh l r : Nat) (isS : Bool) : Nat :=
  Config.freeNat (freeIndex fresh 9 ((l * 512 + r) * 2 + (if isS then 1 else 0))) % 4

/-- The writes of a result touched inside its window: made now, and still to come. None is lost, since the instruction may yet be
guard-false or trap on the lane; where it does write, `lateStays` decides which of the two results stays. -/
def splitPend (fresh l : Nat) (isS : Bool) (tc : Touch) (ws : List (Nat × Word)) : List (Nat × Word) × List (Nat × Word) :=
  let written (r : Nat) : Bool := isS && tc.wr.contains (isS, r)
  let now (r : Nat) : Bool := (tc.rd.contains (isS, r) || written r) && bit (windowChoice fresh l r isS) 0
  (ws.filter fun w => now w.1, ws.filter fun w => !now w.1 || (written w.1 && bit (windowChoice fresh l w.1 isS) 1))

/-- The long-latency instructions that complete before a group's instruction issues: those whose window a thread of the group has
left, and those whose s-registers the instruction touches, in flight in other threads outside their windows. -/
def Crew.overIds (c : Crew) (k : Group) (tc : Touch) : List Nat :=
  c.live.flatMap fun l => ((c.thread? l).map fun t =>
    (t.pend.filter fun p => p.past k.hdr &&
      (k.lanes.contains l || p.s.any fun w => tc.rd.contains (true, w.1) || tc.wr.contains (true, w.1))).map (·.id)).getD []

/-- The results for s-registers of an instruction none of the group's lanes issued: one the group reads is written now or not, and one
it writes is written now, before it, since executions take effect in issue order (R20). -/
def splitOther (fresh l : Nat) (tc : Touch) (ws : List (Nat × Word)) : List (Nat × Word) × List (Nat × Word) :=
  let now (r : Nat) : Bool := tc.wr.contains (true, r) || (tc.rd.contains (true, r) && bit (windowChoice fresh l r true) 0)
  (ws.filter fun w => now w.1, ws.filter fun w => !now w.1)

/-- A lane's results in flight, inside their windows, as the next instruction of its crew issues; `own`: the long-latency
instructions in flight in the lanes of its group. -/
def Crew.settlePend (c : Crew) (fresh l : Nat) (inGroup : Bool) (own : List Nat) (tc : Touch) : Crew :=
  match c.thread? l with
  | none => c
  | some t =>
    t.pend.foldl (fun c p =>
      let (vn, vl) := if inGroup then splitPend fresh l false tc p.v else ([], p.v)
      let (sn, sl) := if own.contains p.id then splitPend fresh l true tc p.s else splitOther fresh l tc p.s
      let c := sn.foldl (fun c w => c.setS w.1 w.2) c
      let c := c.puts fresh l (vn.map fun w => .v w.1 w.2)
      c.setThread l fun t => { t with pend := t.pend.map fun q => if q == p then { q with v := vl, s := sl } else q }) c

/-- The results in flight of a crew as a group's instruction issues (R70, R108). -/
def Crew.settleAll (c : Crew) (fresh : Nat) (k : Group) (tc : Touch) : Crew :=
  let c := c.complete fresh (c.overIds k tc)
  let own := c.inFlight k.lanes
  c.live.foldl (fun c l => c.settlePend fresh l (k.lanes.contains l) own tc) c

/-- A pending REDL or SCANL result that the instruction touches outside the window holds the lane back (R70, R181). -/
def Thread.redlBlocks (t : Thread) (hdr : Dword) (tc : Touch) : Bool :=
  match t.redl with
  | none => false
  | some r => (r.left == 0 || r.hdr != hdr) && (tc.rd.contains (false, r.d) || tc.wr.contains (false, r.d))

/-! ## Fetch, decode and the group -/

/-- What preparing an issue gives: the step is done, or an instruction is to execute. -/
inductive Prepared where
  | done (s : State)
  | run (i : Instr) (s : State)

/-- A step that ended before its instruction executed; `stepped` says whether a debugger's step is over, and by a trap. -/
def State.finishIssue (s : State) (c : Crew) (k : Group) (stepped : Option Bool) : State :=
  let s := match stepped with
    | some trapped => s.stepDone c k trapped
    | none => s
  s.endGroup c

/-- Whether a waiting entry that turned `s` into `t` ends a debugger's step, and by a trap: not when the block has been entered
(R376). -/
def State.entryEnds (s t : State) (c : Crew) (k : Group) : Option Bool :=
  if s.trapShown t c k then some true
  else if ((t.crew? c.cid).map fun d => k.lanes.any fun l => d.laneIs l fun u => u.wait.isParked || u.wait == .trap).getD false then
    some false
  else none

/-- What the decode checks need of a group (R76, R154). -/
def State.limits (s : State) (c : Crew) (ls : List Nat) : Limits :=
  let k := s.kernel? c.bed c.launch
  { vregs := (k.map (·.vregs)).getD 512, acc := (k.map (·.acc)).getD 4, handler := ls.all fun l => c.laneIs l (·.handler) }

/-- The instruction reads or writes %fflags. -/
def readsFlags : Instr → Bool
  | .getsr f => f.sel == .fflags
  | .setsr f => f.sel == .fflags
  | _ => false

/-- A thread at a REORDER that meets a hazard: it traps before anything else is looked at (R36). -/
def hazardous (c : Crew) (t : Thread) : Instr → Bool
  | .reorder _ => t.handler || !c.tokens.isEmpty
  | _ => false

/-- REORDER, which waits for every result of the lane (R35). -/
def isReorder : Instr → Bool
  | .reorder _ => true
  | _ => false

/-- The lanes of a group that the scoreboard holds back, each with its wait (R70, R108, R157, R299). -/
def scoreboard (c : Crew) (k : Group) (i : Instr) (g : Guard) (tc : Touch) : List (Nat × Wait) :=
  let tok := (tc.rd ++ tc.wr).findSome? fun r => if r.1 && c.tokens.contains r.2 then some r.2 else none
  k.lanes.filterMap fun l => match c.thread? l with
    | none => none
    | some t =>
      if guardTrue g t && !hazardous c t i then
        match tok with
        | some r => some (l, .token r)
        | none => if t.redlBlocks k.hdr tc || ((readsFlags i || isReorder i) && t.redl.isSome) then some (l, .reg) else none
      else none

/-- The guard of an instruction word. -/
def guardOf (w1 : Word) : Guard := { neg := w1.getLsbD 21, p := w1.extractLsb' 18 3 }

/-- The token register whose error mark an instruction meets (R304). -/
def errorMark (c : Crew) (tc : Touch) : Option Nat :=
  tc.rd.findSome? fun r => if r.1 && c.errs.contains r.2 then some r.2 else none

/-- The words of the instruction of a group; `none` for the third word when the form has two. -/
inductive Fetched where
  | done (s : State)
  | words (ws : List Word)

/-- The results in flight as an instruction issues: a REORDER first completes those of the lanes that reorder, before its key is looked
at (R35, R157). -/
def Crew.settleFor (c : Crew) (fresh : Nat) (k : Group) (i : Instr) (g : Guard) : Crew :=
  let c := c.settleAll fresh k i.touch
  if isReorder i then c.complete fresh (c.inFlight ((actives c k g).filter fun l => !c.laneIs l fun t => hazardous c t i)) else c

/-- The decoded instruction meets the scoreboard, then the error mark of a token, then it executes. A step that the scoreboard holds
back whole is one that blocks (R376). -/
def State.readyToRun (s : State) (c : Crew) (k : Group) (i : Instr) (g : Guard) : Prepared :=
  let tc := i.touch
  let held := scoreboard c k i g tc
  let s := held.foldl (fun s x => s.setThread k.cid x.1 fun t => { t with wait := x.2 }) s
  let whole := k
  let k := { k with lanes := k.lanes.filter fun l => !(held.any fun x => x.1 == l) }
  if k.lanes.isEmpty then .done (s.finishIssue c whole (some false))
  else
    let s := s.setCrew k.cid fun c => c.settleFor s.fresh k i g
    match s.crew? k.cid with
    | none => .done s
    | some c =>
      let act := actives c k g
      let failing := i.isCommit && (match s.commitCheck c k ((((act.head?).bind c.thread?).map (·.answered)).getD []) with
        | .ok => false
        | _ => true)
      let hazard (l : Nat) : Bool := c.laneIs l fun t => hazardous c t i
      match (if (act.filter fun l => !hazard l).isEmpty || failing then none else errorMark c tc) with
      | some r =>
        let tr : Trap := { cause := 0x0D, tval := c.s.get r, tpc := k.pc, clearErr := some r }
        let handler : Trap := { cause := 0x0C, tval := 0x100, tpc := k.pc }
        .done (s.conclude c k (k.lanes.map fun l =>
          (l, if hazard l && act.contains l then .trap handler else if act.contains l then .trap tr else .ok [])))
      | none => .run i { s.readTokens c act tc with cur := some k }

/-- Fetch and decode at the group's address (R51, R54, R57, R76, R77). DESIGN CHOICE (assumption 63): a word whose form reaches beyond
the block raises Block Overrun before anything else of it is decoded. -/
def State.fetchGroup (s : State) (c : Crew) (ls : List Nat) (t : Thread) : Prepared :=
  let k0 : Group := { cid := c.cid, lanes := ls, pc := t.iaddr, hdr := t.hdr, hdrW := t.hdrW, len := 1 }
  let stop := blockEnd t.hdr t.hdrW
  let failTrap (s : State) (tr : Trap) : Prepared :=
    let t := s.trap c.cid ls tr
    .done (t.finishIssue c k0 (some (s.trapShown t c k0)))
  let park (s : State) (r : PageReq) : Prepared :=
    .done ((s.setThreads c.cid ls fun t => { t with pc := k0.pc, wait := .parked [r] }).finishIssue c k0 (some false))
  if k0.pc == stop then
    let u := s.enterBlock c.cid ls stop (.fall t.hdr) false
    .done (u.finishIssue c k0 (s.entryEnds u c k0))
  else match s.fetchWords c t.answered 1 k0.pc with
  | .deny sub => failTrap s { cause := 8, tval := BitVec.ofNat 32 sub, tpc := k0.pc }
  | .fault r => park s r
  | .ok ws =>
    let w0 := ws.headD 0
    if isHeader w0 then failTrap s { cause := 2, tval := 6, tpc := k0.pc }
    else
      let n := formLen w0
      if (stop - k0.pc).toNat < 4 * n then failTrap s { cause := 4, tval := lo32 t.hdr, tpc := k0.pc }
      else match s.fetchWords c t.answered n k0.pc with
      | .deny sub => failTrap s { cause := 8, tval := BitVec.ofNat 32 sub, tpc := k0.pc }
      | .fault r => park s r
      | .ok ws =>
        let s := s.keepWords c n k0.pc
        match decodeWords (s.limits c ls) ws with
        | .illegal m => failTrap s { cause := 1, tval := BitVec.ofNat 32 m.code, tpc := k0.pc }
        | .header => failTrap s { cause := 2, tval := 6, tpc := k0.pc }
        | .short => failTrap s { cause := 4, tval := lo32 t.hdr, tpc := k0.pc }
        | .instr i len =>
          let g := if len = 1 then always else guardOf ((ws[1]?).getD 0)
          s.readyToRun c { k0 with len := len } i g

/-- The partition issues for a crew the group at a PC, when both choices are open to it; otherwise nothing happens. -/
def State.prepare (s : State) (cid : Nat) (pc : Dword) : Prepared :=
  match s.crew? cid with
  | none => .done s
  | some c =>
    if (s.selected c.cluster c.core (c.slot % Config.partitions)).map (·.cid) != some cid then .done s
    else match s.chosen c pc with
    | none => .done s
    | some ls =>
      let s := (s.noteIssue c ls).departBars c ls
      match (ls.head?).bind c.thread? with
      | none => .done s
      | some t => match t.entry with
        | some kind =>
          let k : Group := { cid := cid, lanes := ls, pc := t.pc, hdr := t.hdr, hdrW := t.hdrW, len := 0 }
          let u := s.enterWaiting cid ls t kind
          .done (u.finishIssue c k (s.entryEnds u c k))
        | none => s.fetchGroup c ls t

end Sys2Proof.Machine
end

