-- ==== Sys2Proof/Machine/Time.lean ====
section
/-! DEFINITION. The passing of cycles and the writes that reach the module from outside (assumption 1): every count of cycles
the spec keeps (spec/01_execution_rules.md R37, R47; spec/16_engines_rules.md R269, R282; spec/19_scheduling_rules.md R337, R352,
R355; spec/22_faults_rules.md R374; spec/24_outside_rules.md R400). -/

namespace Sys2Proof.Machine

/-- The cycles a wait has lasted. -/
def Wait.age (n : Nat) : Wait → Wait
  | .barw o g c => .barw o g (c + n)
  | .waitev o th c => .waitev o th (c + n)
  | w => w

/-- A resident team that is not halted counts its cycles (R374). -/
def State.counts (s : State) (t : TeamRef) : Bool :=
  match s.team? t with
  | some tm => tm.place.isSome && !tm.halted
  | none => false

/-- The clusters of a bed whose clocks are stopped (R400). -/
def State.clusterStopped (s : State) (cluster : Nat) : Bool :=
  s.beds.any fun b => b.idle && b.block.clus.getLsbD cluster

/-- A port's clock set on by an amount in units of 2^-16 ns. -/
def Port.advance (p : Port) (d : Int) : Port :=
  let total : Int := ((p.sec * 1000000000 + p.ns) * 65536 + p.frac : Nat) + d
  let t := total.toNat
  { p with sec := t / 65536 / 1000000000 % 2 ^ 48, ns := t / 65536 % 1000000000, frac := t % 65536 }

/-- A port's clock runs on by an amount that is its own (R2), and by its trim of it: an offset is slewed away until none is left;
in holdover the trim stands (R407). -/
def Port.run (p : Port) (d : Nat) : Port :=
  let full : Int := ((d : Int) * p.trim).tdiv 1000000
  if p.holdover then p.advance (d + full)
  else
    let c : Int := if p.slew < 0 then max p.slew full else min p.slew full
    { p.advance (d + c) with slew := p.slew - c, trim := if p.slew = c then 0 else p.trim }

/-- `n` cycles pass, and every count of cycles rises. The cycles in which a partition selects are those in which it issues (R348). -/
def State.pass (s : State) (n : Nat) : State :=
  let crew (c : Crew) : Crew :=
    { c with
      lanes := c.lanes.map fun t => t.map fun t => if s.counts (c.ref t) then { t with wait := t.wait.age n } else t
      starve := if (s.readyLanes c).isEmpty then 0 else c.starve }
  { s with
    clock := s.clock + n
    stopped := (List.range s.stopped.length).map fun c => ((s.stopped[c]?).getD 0) + (if s.clusterStopped c then n else 0)
    crews := s.crews.map crew
    teams := s.teams.map fun t => if s.counts t.ref then { t with slice := t.slice + n } else t
    graphs := s.graphs.map fun g => { g with nodes := g.nodes.map fun d => { d with
      tray := d.tray.map fun r => { r with age := r.age + n } } }
    bins := s.bins.map fun b => if b.cluster.isSome then { b with waited := b.waited + n } else b
    cmds := s.cmds.map fun c => { c with cycles := c.cycles + n }
    ports := (List.range s.ports.length).map fun i =>
      ((s.ports[i]?).getD Port.reset).run (Config.freeNat (freeIndex s.fresh 29 i)) }

/-- At the end of a cycle the release conditions of every crew are evaluated (R26). -/
def State.tick (s : State) (n : Nat) : State := (s.crews.map (·.cid)).foldl (fun s cid => s.settleWaits cid) (s.pass n)

/-- Cycles a core has counted since it left reset: those of its cluster's running clock (R79 selector 0x09, R400). -/
def State.cycleOf (s : State) (cluster : Nat) : Nat := s.clock - (s.stopped[cluster]?).getD 0

/-- A record captured in an inlet, whose V is not cleared yet, keeps what the inlet held: bit 111 of its header (R330, R331). -/
def inletHeld (m : Memory) (i : Nat) : Bool := (m.get (512 * i + 13)).getLsbD 7

/-- Bytes written from an offset of the inlets, those of an inlet with a captured record discarded. -/
def writeInlets (m : Memory) (off : Nat) (data : List Byte) : Memory :=
  (List.range 16).foldl (fun (w : Memory) i =>
    let lo := max off (512 * i)
    if inletHeld m i then w else w.write lo ((data.drop (lo - off)).take (512 * (i + 1) - lo))) m

/-- The companion processor writes an inlet; the bed's clocks run again (R331, R400). -/
def State.writeInlet (s : State) (bed off : Nat) (data : List Byte) : State :=
  s.setBed bed fun b => { b with inlets := writeInlets b.inlets off data, idle := false }

/-- LONG_LATENCY_RESULT_WRITE: an instruction in flight in a lane completes, in all its lanes (R70, R108; assumption 60). -/
def execLongLatencyResultWrite (crew lane index : Nat) (s : State) : Host.Outcome State Fault Refusal :=
  match ((s.crew? crew).bind fun c => c.thread? lane).bind fun t => t.pend[index]? with
  | none => .next s
  | some p => .next (s.setCrew crew fun c => c.complete s.fresh [p.id])

end Sys2Proof.Machine
end

