-- ==== Sys2Proof/Machine/Moves.lean ====
section
/-! DEFINITION. Moves, cross-lane reads, index registers and special registers (spec/07_core_instructions.md R150 to R155,
spec/03_encoding_rules.md R79, spec/01_execution_rules.md R13). -/

namespace Sys2Proof.Machine

/-! ## Moves -/

/-- MOV, compact. -/
def execMovCompact (f : CTwo) (s : State) : Host.Outcome State Fault Refusal :=
  aluV always s fun x => [.v f.d.toNat (x.t.v.get f.a.toNat)]

/-- MOV (R151). -/
def execMov (f : MovF) (s : State) : Host.Outcome State Fault Refusal :=
  alu f.g f.d s fun x => [Reg.put f.d 0 (x.w32 f.a)]

/-- MOVL (R151). -/
def execMovl (f : MovlF) (s : State) : Host.Outcome State Fault Refusal :=
  alu f.g f.d s fun x => match f.mode with
    | .full => Reg.put64 f.d (x.w64 f.a)
    | .zx => Reg.put64 f.d ((x.w32 f.a).setWidth 64)
    | .hi => [Reg.put f.d 1 (x.w32 f.a)]

/-- The lane whose register a per-lane source A with a neighbour select reads for lane l: none beside an edge (R71). -/
def Ctx.beside (x : Ctx) (l : Nat) (n : Neigh) : Option Nat :=
  match n with
  | .self => some l
  | .left => if l = 0 then none else some (l - 1)
  | .right => if l + 1 < x.crew.width then some (l + 1) else none

/-- The value that lane l, which is named, has for a per-lane source A with a neighbour select: zero where no thread stands in it
(R50, R71, R119). -/
def Ctx.laneA (x : Ctx) (l : Nat) (n : Neigh) (r : Nat) : Word :=
  match x.crew.thread? l, x.beside l n with
  | some _, some j => x.other j r
  | _, _ => 0

/-- A lane writes D with A of the lane it names, if it names one. -/
def readLane (x : Ctx) (d a : BitVec 9) (n : Neigh) (l : Option Nat) : LaneOut :=
  match l with
  | none => .ok [.v d.toNat 0]
  | some l =>
    if ((x.beside l n).map fun j => x.ownPends j a.toNat).getD false then .stall .reg
    else .ok [.v d.toNat (x.laneA l n a.toNat)]

/-- BCAST (R151). -/
def execBcast (f : BcastF) (s : State) : Host.Outcome State Fault Refusal :=
  drive false false f.g s fun s x => (s, readLane x f.d f.a f.an (lanesOf x.crew.width (x.crew.mask f.m.toNat)).head?)

/-- RDLANE (R151). -/
def execRdlane (f : RdlaneF) (s : State) : Host.Outcome State Fault Refusal :=
  drive false false f.g s fun s x => (s, readLane x f.d f.a f.an (some ((x.w32 f.b).toNat % x.crew.width)))

/-- The lane PERM reads (R151). -/
def permLane (m : PermMode) (lane b w : Nat) : Nat :=
  match m with
  | .idx => b % w
  | .xor => lane ^^^ (b % w)
  | .rot => (lane + b) % w

/-- PERM (R151). -/
def execPerm (f : PermF) (s : State) : Host.Outcome State Fault Refusal :=
  drive false false f.g s fun s x =>
    (s, readLane x f.d f.a f.an (some (permLane f.mode x.lane (x.w32 f.b).toNat x.crew.width)))

/-! ## Index registers (R152, R153) -/

def Ctx.ix (x : Ctx) (i : BitVec 2) : IxReg := (x.t.ix[i.toNat]?).getD ⟨0, 0, 0⟩

/-- The registers of the kernel (R67). -/
def State.vregsOf (s : State) (c : Crew) : Nat := ((s.kernel? c.bed c.launch).map (·.vregs)).getD 512

/-- IXSET (R153). -/
def execIxset (g : Guard) (ix : BitVec 2) (f : IxsetForm) (s : State) : Host.Outcome State Fault Refusal :=
  drive false false g s fun s x => (s, match f with
    | .bl a b =>
      if (x.w32 a).toNat ≤ (x.w32 b).toNat ∧ (x.w32 b).toNat ≤ s.vregsOf x.crew then
        .ok [.ix ix.toNat ⟨x.w32 a, x.w32 b, 0⟩]
      else x.trap 5 (x.w32 b)
    | .cur a => .ok [.ix ix.toNat { x.ix ix with cur := x.w32 a }]
    | .add a => .ok [.ix ix.toNat { x.ix ix with cur := (x.ix ix).cur + x.w32 a }])

/-- The register number an index register and an offset name; none, with %tval, out of its range (R153). -/
def ixNumber (r : IxReg) (b : Word) : Nat ⊕ Word :=
  let i := (r.base.toNat : Int) + r.cur.toInt + b.toInt
  if i < r.base.toNat ∨ (r.limit.toNat : Int) ≤ i then .inr (BitVec.ofInt 32 i) else .inl i.toNat

/-- The lane waits for a pending REDL of register i beyond its window (R153, R181). -/
def Ctx.ixWaits (x : Ctx) (i : Nat) : Bool := x.t.redlBlocks x.grp.hdr ⟨[(false, i)], []⟩

/-- A result in flight for register i of this lane, inside its window. -/
def Ctx.inFlight (x : Ctx) (i : Nat) : Option Word := (((x.t.pend.flatMap (·.v)).filter (·.1 == i)).getLast?).map (·.2)

/-- IXLD (R153): inside a window the old or the new value (R70); a number past the kernel's registers, which only an undefined
index register gives (R43), reads an undefined word. -/
def execIxld (f : IxldF) (s : State) : Host.Outcome State Fault Refusal :=
  drive false false f.g s fun s x => (s, match ixNumber (x.ix f.ix) (x.w32 f.b) with
    | .inr tval => x.trap 5 tval
    | .inl i =>
      if x.ixWaits i then .stall .reg
      else if s.vregsOf x.crew ≤ i then .ok [.v f.d.toNat (x.free 10 i)]
      else .ok [.v f.d.toNat (match x.inFlight i with
        | some w => if x.choose 11 i 2 = 0 then x.t.v.get i else w
        | none => x.t.v.get i)])

/-- IXST (R153): inside a window that writes the register, one of the two results stays (R70). DESIGN CHOICE (assumption 72): an index
at or above .vregs, inside its own base and limit, writes nothing. -/
def execIxst (f : IxstF) (s : State) : Host.Outcome State Fault Refusal :=
  drive false false f.g s fun s x => (s, match ixNumber (x.ix f.ix) (x.w32 f.b) with
    | .inr tval => x.trap 5 tval
    | .inl i =>
      if x.ixWaits i then .stall .reg
      else if s.vregsOf x.crew ≤ i then .ok []
      else .ok [.v i (x.w32 f.a)])

/-! ## Special registers (R154, R155) -/

/-- The value of a special register as a lane sees it (R13, R79, R155). -/
def State.specialReg (s : State) (x : Ctx) : Special → Dword
  | .tid => BitVec.ofNat 64 x.t.tid
  | .teamid => BitVec.ofNat 64 x.t.team
  | .launchid => BitVec.ofNat 64 x.crew.launch
  | .laneid => BitVec.ofNat 64 x.lane
  | .crewid => BitVec.ofNat 64 x.crew.slot
  | .coreid => BitVec.ofNat 64 x.crew.core
  | .clusterid => BitVec.ofNat 64 x.crew.cluster
  | .bed => BitVec.ofNat 64 x.crew.bed
  | .rkey => x.t.rkey.setWidth 64
  | .cycle => BitVec.ofNat 64 (s.cycleOf x.crew.cluster)
  | .fflags => match s.crew? x.crew.cid with
    | some c => c.fflags.setWidth 64
    | none => 0
  | .tcause => if x.t.handler then x.crew.tcause.setWidth 64 else 0
  | .tpc => if x.t.handler then x.crew.tpc else 0
  | .tval => if x.t.handler then x.crew.tval.setWidth 64 else 0
  | .tmask => if x.t.handler then x.crew.tmask else 0

/-- A thread that executes has a REDL or SCANL that is not released: %fflags is not read or written before it is (R108). -/
def Ctx.treeWaits (x : Ctx) (g : Guard) (sel : Special) : Bool :=
  sel == .fflags && (actives x.crew x.grp g).any fun l => x.crew.laneIs l (·.redl.isSome)

/-- The floating instructions of the lanes that execute complete, whole, before %fflags is read or written (R108). -/
def State.settleFlags (s : State) (x : Ctx) (g : Guard) : Special → State
  | .fflags => s.setCrew x.crew.cid fun c =>
    c.complete s.fresh (c.inFlight (actives x.crew x.grp g))
  | _ => s

/-- GETSR (R155). -/
def execGetsr (f : GetsrF) (s : State) : Host.Outcome State Fault Refusal :=
  drive false f.d.isS f.g s fun s x =>
    if x.treeWaits f.g f.sel then (s, .stall .reg)
    else
      let s := s.settleFlags x f.g f.sel
      (s, .ok (Reg.putN f.d f.w64 (s.specialReg x f.sel).toNat))

/-- The writes of SETSR (R155): %fflags keeps its reserved bits zero (R107); without .64 a 64-bit register keeps its high half. -/
def setsrPuts (c : Crew) (sel : Special) (w64 : Bool) (a : Dword) : List Put :=
  match sel with
  | .fflags => [.setFlags (lo32 a &&& 0x3F)]
  | .tcause => [.tcause (lo32 a)]
  | .tval => [.tval (lo32 a)]
  | .tpc => [.tpc (if w64 then a else pair64 (lo32 a) (hi32 c.tpc))]
  | .tmask => [.tmask (if w64 then a else pair64 (lo32 a) (hi32 c.tmask))]
  | .tid => [] | .teamid => [] | .launchid => [] | .laneid => [] | .crewid => [] | .coreid => [] | .clusterid => []
  | .bed => [] | .rkey => [] | .cycle => []

/-- SETSR (R155): crew-level, from the lowest-numbered guard-true lane. -/
def execSetsr (f : SetsrF) (s : State) : Host.Outcome State Fault Refusal :=
  drive false true f.g s fun s x =>
    if x.treeWaits f.g f.sel then (s, .stall .reg)
    else (s.settleFlags x f.g f.sel, .ok (setsrPuts x.crew f.sel f.w64 (x.w64 f.a)))

end Sys2Proof.Machine
end

