-- ==== Sys2Proof/Machine/Memory.lean ====
section
/-! DEFINITION. Loads, stores, prefetch, cache control and fences (spec/14_memory_instructions.md R236 to R248, R252). Beyond L1,
memory is one coherent copy in which a write is performed as it is made (assumption 5). -/

namespace Sys2Proof.Machine

/-! ## Loads -/

/-- Where an access to virtual memory looks in L1: its pieces, and the sectors of the lines it would fill. -/
structure L1View where
  pieces : List L1Piece
  line : List L1Ref
  deriving DecidableEq, Repr

/-- The linear view of `n` bytes at an address (R189). -/
def linearView (a n : Nat) : L1View := { pieces := linearPieces a n, line := (linearPieces a n).flatMap fun p => linearLine p.ref.va }

/-- Where the bytes of pieces that hit stand. -/
def State.l1Places (s : State) (c : Crew) (a : Agent) (strong : Bool) (ps : List L1Piece) : List (Loc × Nat) :=
  ps.filterMap fun p => (s.l1Find c a strong p.ref).map fun x => (x.loc.add p.off, p.len)

/-- The bytes a lane's load of virtual memory gives, and where they stand: without translation where all of it hits in its core's L1;
else it is translated (`access`), waits for held writes, and fills its lines; .NOL1 passes L1 by. Its watchpoints come after every
other check (R195, R209, R241, R243, R380). -/
def State.loadBytes (s : State) (x : Ctx) (v : L1View) (hint : Hint) (strong : Bool) (access : LaneOut ⊕ List Part) (a n : Nat) :
    State × (LaneOut ⊕ (List Byte × List (Loc × Nat))) :=
  match (if hint == .nol1 then none else s.l1Hit x.crew x.agent strong v.pieces) with
  | some bs => (s, match s.watch x false true false a n with
    | some o => .inl o
    | none => .inr (bs, s.l1Places x.crew x.agent strong v.pieces))
  | none => match access with
    | .inl o => (s, .inl o)
    | .inr ps => match s.watch x false true false a n with
      | some o => (s, .inl o)
      | none => match s.migrWait ps with
        | some o => (s, .inl o)
        | none =>
          let places := ps.map fun p => (p.loc, p.len)
          if hint == .nol1 then (s, .inr (s.readParts ps, places))
          else
            let t := s.l1FillLine x.crew x.agent strong v.line
            (t, .inr (t.l1Read x.crew x.agent strong v.pieces (s.readParts ps), places))

/-- The writes of a load: a group of registers from its bytes, which wait for its window (R70, R241). -/
def loadOut (z : Size) (d : Reg) (la : BitVec 4) (bs : List Byte) : LaneOut := .late la.toNat (Reg.puts d (loadWords z bs))

/-- LD. -/
def execLd (f : LdStF) (s : State) : Host.Outcome State Fault Refusal :=
  drive false f.d.isS f.g s fun s x =>
    let a := x.vaddr f.a f.b
    let n := sizeBytes f.size
    match s.loadBytes x (linearView a.toNat n) f.m.hint false (s.access x .read a n) a.toNat n with
    | (s, .inl o) => (s, o)
    | (s, .inr (bs, _)) => (s, loadOut f.size f.d f.la bs)

/-- LDS: a strong read of every piece. -/
def execLds (f : LdStF) (s : State) : Host.Outcome State Fault Refusal :=
  drive false f.d.isS f.g s fun s x =>
    let a := x.vaddr f.a f.b
    let n := sizeBytes f.size
    match s.loadBytes x (linearView a.toNat n) f.m.hint true (s.access x .read a n) a.toNat n with
    | (s, .inl o) => (s, o)
    | (s, .inr (bs, places)) => (s.strongReads x f.m places, loadOut f.size f.d f.la bs)

/-! ## Stores -/

/-- A store to parts, made by `put`. One that reaches host memory is a commit: the Region check comes first (R350). The lines it
addressed follow (R195); .NOL1 removes them (R243). -/
def State.store (s : State) (x : Ctx) (ps : List Part) (pieces : List L1Piece) (hint : Hint) (a n : Nat) (bs : List Byte)
    (put : State → State) : State × LaneOut :=
  let host := hostParts ps
  let verdict := if host then s.commitCheck x.crew x.grp x.t.answered else .ok
  match verdict with
  | .region _ => (s, x.trap 6 3)
  | .deny sub => (s, x.deny sub)
  | .fault r => (s, .park [r])
  | .ok => match s.watch x false false true a n with
    | some o => (s, o)
    | none =>
      let t := put s
      (if hint == .nol1 then t.l1Forget x.crew pieces else t.l1Update s x.crew ps pieces bs, if host then .okCommit [] else .ok [])

/-- A strong write of bytes to parts, a strong write in each (R235). -/
def State.strongParts (s : State) (x : Ctx) (m : MemMod) : List Part → List Byte → State
  | [], _ => s
  | p :: t, bs =>
    (s.makePart p { op := .bytes (bs.take p.len), who := x.agent, strong := some (s.strongOf x p.loc m false) }).strongParts x m t
      (bs.drop p.len)

/-- ST and STS (R242). -/
def storeVa (f : LdStF) (s : State) (put : Ctx → List Part → List Byte → State → State) : Host.Outcome State Fault Refusal :=
  drive false f.d.isS f.g s fun s x =>
    let a := x.vaddr f.a f.b
    let n := sizeBytes f.size
    match s.access x .write a n with
    | .inl o => (s, o)
    | .inr ps =>
      let bs := x.storeBytes f.size f.d
      s.store x ps (linearPieces a.toNat n) f.m.hint a.toNat n bs (put x ps bs)

/-- ST. -/
def execSt (f : LdStF) (s : State) : Host.Outcome State Fault Refusal := storeVa f s fun x ps bs s => s.writeParts x.agent ps bs

/-- STS. -/
def execSts (f : LdStF) (s : State) : Host.Outcome State Fault Refusal := storeVa f s fun x ps bs s => s.strongParts x f.m ps bs

/-! ## Tensor coordinates (R244) -/

/-- A tensor access: the address of its first byte, how many of its bytes are in bounds, and where L1 holds them. -/
structure TensorAt where
  a : Dword
  m : Nat
  view : L1View
  deriving DecidableEq, Repr

/-- A tensor access, or what the lane does instead (R244, steps 4 and 5 of R240). DESIGN CHOICE (assumption 72): step 2, whose address
only the record gives, is made after these, and over the bytes in bounds alone. -/
def State.tensor (s : State) (x : Ctx) (id : Nat) (cs : List Word) (n : Nat) : LaneOut ⊕ TensorAt :=
  match s.shape x.crew.cluster x.crew.bed id x.home x.t.answered with
  | .unusable => .inl (x.tensorBounds id true)
  | .fault rs => .inl (.park rs)
  | .record r =>
    let xi (i : Nat) : Nat := ((cs[i]?).getD 0).toNat
    if Shape.ebits r = 4 ∧ xi 0 % 2 = 1 then .inl (x.trap 7 256)
    else
      let b := xi 0 * Shape.ebits r / 8
      let m := if Shape.rowIn r (xi 1) (xi 2) (xi 3) then min n (Shape.rowBytes r - b) else 0
      if Shape.faults r ∧ m < n then .inl (x.tensorBounds id false)
      else
        let pieces := Shape.pieces r id b (xi 1) (xi 2) (xi 3) m
        .inr { a := Shape.addr r b (xi 1) (xi 2) (xi 3), m := m,
               view := { pieces := pieces, line := (sectorRuns b m).flatMap fun q => Shape.line r id (32 * q.1) (xi 1) (xi 2) (xi 3) } }

/-- The parts of the bytes of a tensor access that are in bounds. -/
def State.tensorParts (s : State) (x : Ctx) (right : Right) (a : Dword) (m : Nat) : LaneOut ⊕ List Part :=
  if m = 0 then .inr [] else s.access x right a m

/-- LDT: bytes out of bounds read as zero (R193, R244). The cluster keeps the record it used (R194). -/
def execLdt (f : LdStTF) (s : State) : Host.Outcome State Fault Refusal :=
  drive false f.d.isS f.g s fun s x =>
    let id := (x.w32 f.b).toNat % 65536
    let n := sizeBytes f.size
    let t := s.keepShape x.crew.cluster x.crew.bed id
    match s.tensor x id (x.regs 4 f.a) n with
    | .inl o => (t, o)
    | .inr e => match t.loadBytes x e.view f.m.hint false (s.tensorParts x .read e.a e.m) e.a.toNat e.m with
      | (s, .inl o) => (s, o)
      | (s, .inr (bs, _)) => (s, loadOut f.size f.d f.la (bs ++ List.replicate (n - e.m) 0))

/-- STT: bytes out of bounds are discarded. -/
def execStt (f : LdStTF) (s : State) : Host.Outcome State Fault Refusal :=
  drive false f.d.isS f.g s fun s x =>
    let id := (x.w32 f.b).toNat % 65536
    let n := sizeBytes f.size
    let t := s.keepShape x.crew.cluster x.crew.bed id
    match s.tensor x id (x.regs 4 f.a) n with
    | .inl o => (t, o)
    | .inr e => match t.tensorParts x .write e.a e.m with
      | .inl o => (t, o)
      | .inr ps =>
        let bs := (x.storeBytes f.size f.d).take e.m
        t.store x ps e.view.pieces f.m.hint e.a.toNat e.m bs fun s => s.writeParts x.agent ps bs

/-! ## Plot memory -/

/-- LDP (R245). -/
def execLdp (f : LdStPF) (s : State) : Host.Outcome State Fault Refusal :=
  drive false f.d.isS f.g s fun s x =>
    let o := x.w32 f.a + x.w32 f.b
    let n := sizeBytes f.size
    (s, match s.plotAccess x o n with
      | .inl out => out
      | .inr loc => (s.watch x true true false o.toNat n).getD (loadOut f.size f.d f.la (s.read loc n)))

/-- STP (R245). -/
def execStp (f : LdStPF) (s : State) : Host.Outcome State Fault Refusal :=
  drive false f.d.isS f.g s fun s x =>
    let o := x.w32 f.a + x.w32 f.b
    let n := sizeBytes f.size
    match s.plotAccess x o n with
    | .inl out => (s, out)
    | .inr loc => match s.watch x true false true o.toNat n with
      | some out => (s, out)
      | none => ((s.perform x.agent loc (x.storeBytes f.size f.d)).markPlot x o n, .ok [])

/-! ## Prefetch (R246) -/

/-- PF: no access and no trap; with .L1, the line comes into the core's L1. -/
def execPf (f : PfF) (s : State) : Host.Outcome State Fault Refusal :=
  drive false false f.g s fun s x =>
    (if f.l1 && f.hint != .nol1 then s.l1FillLine x.crew x.agent false (linearLine (x.vaddr f.a f.b).toNat) else s, .ok [])

/-! ## Cache control (R247, R248) -/

/-- A crew belongs to the scope instance of a lane (R215, R247). -/
def Ctx.inScope (x : Ctx) (sc : Scope) (c : Crew) : Bool :=
  match sc with
  | .crew => c.cid == x.crew.cid
  | .team => c.bed == x.crew.bed && c.launch == x.crew.launch && c.lanes.any fun t => (t.map fun t => t.team == x.t.team).getD false
  | .cluster => c.cluster == x.crew.cluster
  | .device => true
  | .system => true

/-- A core belongs to the scope: it holds a crew of the instance; at SYSTEM every core does. -/
def State.coreInScope (s : State) (x : Ctx) (sc : Scope) (cluster core : Nat) : Bool :=
  sc == .system || s.crews.any fun c => c.cluster == cluster && c.core == core && x.inScope sc c

/-- The lane waits until every earlier access of its thread has been performed: a write that stands in the queue of a migrating
page has not (R209, R247). -/
def State.heldWait (s : State) (x : Ctx) : Option LaneOut :=
  (s.migrations.find? fun m => m.held.any fun h => h.write.who == x.agent).map fun m => .stall (.migr (m.va / 65536))

/-- A CCTL is remembered while something it discards is still held somewhere (R248). -/
def State.purge (s : State) (x : Ctx) (shape : Option Nat) (scope : Scope) : State :=
  let p : Purge := { shape := shape, bed := x.crew.bed, mark := { scope := scope, home := x.home }, stamp := s.fresh }
  let held (p : Purge) : Bool := match p.shape with
    | none => s.code.any fun k => decide (k.stamp ≤ p.stamp)
    | some id => s.shapes.any fun k => k.bed == p.bed && k.id == id && decide (k.stamp ≤ p.stamp)
  { s with purges := (s.purges ++ [p]).filter held }

/-- CCTL.IINV: the instruction paths of the scope's cores drop the code they hold. -/
def execCctlIinv (g : Guard) (scope : Scope) (s : State) : Host.Outcome State Fault Refusal :=
  drive false false g s fun s x => match s.heldWait x with
    | some o => (s, o)
    | none =>
      let s : State := { s with code := s.code.filter fun k => !s.coreInScope x scope k.cluster k.core }
      (s.purge x none scope, .ok [])

/-- CCTL.SHINV: the shape caches of the scope's clusters drop a record, and the L1s of its cores the tile lines of that identifier;
identifier 0 drops nothing. -/
def execCctlShinv (g : Guard) (b : Src) (scope : Scope) (s : State) : Host.Outcome State Fault Refusal :=
  drive false false g s fun s x => match s.heldWait x with
    | some o => (s, o)
    | none =>
      let id := (x.w32 b).toNat % 65536
      let inCluster (cl : Nat) : Bool := scope == .system || s.crews.any fun c => c.cluster == cl && x.inScope scope c
      if id = 0 then (s, .ok [])
      else
        let s : State := { s with
          shapes := s.shapes.filter fun k => !(k.bed == x.crew.bed && k.id == id && inCluster k.cluster)
          l1 := s.l1.filter fun k => !(k.bed == x.crew.bed && k.id == id && s.coreInScope x scope k.cluster k.core) }
        (s.purge x (some id) scope, .ok [])

/-- CCTL.L1INV: every line leaves the L1s of the scope's cores. -/
def execCctlL1inv (g : Guard) (scope : Scope) (s : State) : Host.Outcome State Fault Refusal :=
  drive false false g s fun s x => match s.heldWait x with
    | some o => (s, o)
    | none => ({ s with l1 := s.l1.filter fun k => !s.coreInScope x scope k.cluster k.core }, .ok [])

/-! ## Fences (R218, R219, R226, R252) -/

/-- FENCE: its acquire half takes what the thread's strong reads have met; its release half stands before the thread's strong writes
and PUSHes to come. -/
def execFence (g : Guard) (ord : Ord) (scope : Scope) (s : State) : Host.Outcome State Fault Refusal :=
  drive false false g s fun s x =>
    let m : Mark := { scope := scope, home := x.home }
    let s := if ord == .acq || ord == .full then s.fenceAcquire m else s
    let s := if ord == .full then s.fenceFull m else s
    (s, .ok (if ord == .acq then [] else [.fence { mark := m, opnd := ord == .opnd, stamp := s.fresh, seen := s.upTo x.agent }]))

end Sys2Proof.Machine
end

