-- ==== Sys2Proof/Machine/Engine.lean ====
section
/-! DEFINITION. What every engine command shares (spec/17_engine_instructions.md R296 to R304, spec/11_memory_rules.md R205): its
fields, its accesses, its status, its transfer update and its token. A command performs its effects in one step of its own, and
writes its token in a later one. -/

namespace Sys2Proof.Machine

/-! ## Fields and statuses (R296, R297, R302) -/

def stBadcmd : Nat := 1
def stFormat : Nat := 2
def stSlot : Nat := 3
def stAlign : Nat := 4
def stBounds : Nat := 5
def stMismatch : Nat := 6
def stTimeout : Nat := 7
def stResidency : Nat := 8
def stDuplicate : Nat := 9
def stBusy : Nat := 10
def stFault : Nat := 11

/-- `n` bits of a command from bit `lo` (R296). -/
def Cmd.f (c : Cmd) (lo n : Nat) : Nat := field (wordsNat c.words) lo n
def Cmd.bit (c : Cmd) (i : Nat) : Bool := Sys2Proof.Machine.bit (wordsNat c.words) i
def Cmd.type (c : Cmd) : Nat := c.f 488 5
def Cmd.tok (c : Cmd) : Nat := c.f 480 8
def Cmd.etrap (c : Cmd) : Bool := c.bit 493
def Cmd.bobj (c : Cmd) : Bool := c.bit 494
def Cmd.bsp (c : Cmd) : Bool := c.bit 495
def Cmd.bscope (c : Cmd) : Nat := c.f 496 3
def Cmd.baddr (c : Cmd) : Nat := c.f 416 64
def Cmd.ref (c : Cmd) : TeamRef := ⟨c.bed, c.launch, c.team⟩

/-- The engine as an agent of the command (R214, R215), and the scope of its transfer update. -/
def Cmd.agent (c : Cmd) : Agent := .cmd c.id
def Cmd.home (c : Cmd) : Home := { agent := c.agent, cid := none, team := some c.ref, cluster := some c.issue }
def Cmd.updateScope (c : Cmd) : Scope :=
  match c.bscope with
  | 0 => .crew | 1 => .team | 2 => .cluster | 3 => .device | _ => .system

/-- The queue of a TYPE; none when it is reserved (R297). -/
def typeQueue (t : Nat) : Option Nat :=
  match t with
  | 1 => some 0 | 2 => some 0 | 3 => some 0 | 4 => some 0 | 5 => some 1 | 6 => some 2 | 7 => some 2 | 8 => some 3
  | 9 => some 4 | 10 => some 5 | 11 => some 7 | 12 => some 6 | 13 => some 4
  | _ => none

/-- The TYPE belongs to the queue (R297). -/
def Cmd.typeOk (c : Cmd) : Bool := typeQueue c.type == some c.queue

/-- The fields common to every command are in range (R296 to R298). -/
def Cmd.headOk (c : Cmd) : Bool :=
  c.f 499 13 == 0 && c.typeOk && !(c.bobj && [1, 3, 4].contains c.type) && (c.bobj || c.baddr == 0) &&
    !(c.bsp && c.f 448 32 != 0) && decide (c.bscope ≤ 4)

def State.cmd? (s : State) (id : Nat) : Option Cmd := s.cmds.find? fun c => c.id == id

def State.setCmd (s : State) (id : Nat) (f : Cmd → Cmd) : State := { s with cmds := mapIf (fun c => c.id == id) f s.cmds }

/-! ## What an access of an engine gives (R205) -/

/-- A value; an end with a status; pages the engine waits for; a migrating page whose held writes it waits for (R209). -/
inductive Gets (α : Type) where
  | ok (a : α)
  | fail (status : Nat)
  | waits (pages : List PageReq)
  | hold

def Gets.bind {α β : Type} (g : Gets α) (f : α → Gets β) : Gets β :=
  match g with
  | .ok a => f a
  | .fail st => .fail st
  | .waits ps => .waits ps
  | .hold => .hold

def Gets.map {α β : Type} (g : Gets α) (f : α → β) : Gets β := g.bind fun a => .ok (f a)

/-- Several in order. -/
def Gets.each {α β : Type} (f : α → Gets β) : List α → Gets (List β)
  | [] => .ok []
  | x :: t => (f x).bind fun y => (Gets.each f t).bind fun ys => .ok (y :: ys)

/-- A range of memory as a command names it: plot or virtual, address, length. -/
structure Range where
  plot : Bool
  addr : Nat
  len : Nat
  deriving DecidableEq, Repr

/-- The plot space a command's offset names, through the issuing thread's team and cluster (R186, R187). -/
def State.cmdPlot (s : State) (c : Cmd) (o : Nat) : Nat × Loc :=
  let k := s.kernel? c.bed c.launch
  let off := o % 2 ^ 31
  if bit o 31 then ((k.map (·.cplot)).getD 0, .shared c.bed c.launch c.cluster off)
  else ((k.map (·.plot)).getD 0, .plot c.ref off)

/-- A plot range lies in its space. -/
def State.inPlot (s : State) (c : Cmd) (o n : Nat) : Bool := decide (o % 2 ^ 31 + n ≤ (s.cmdPlot c o).1)

/-- The parts of a range, with the rights its leaves need. -/
def State.parts (s : State) (c : Cmd) (right : Right) (r : Range) : Gets (List Part) :=
  if r.len = 0 then .ok []
  else if r.plot then
    let o := r.addr % 2 ^ 32
    if s.inPlot c o r.len then .ok [⟨(s.cmdPlot c o).2, r.len, 0, none⟩] else .fail stBounds
  else match s.translate c.bed c.answered right (BitVec.ofNat 64 r.addr) r.len with
    | .deny _ => .fail stFault
    | .fault rs => .waits rs
    | .ok ps => if s.unreachable ps then .fail stFault else .ok ps

/-- The bytes of a range; sectors with held writes are waited for. -/
def State.gets (s : State) (c : Cmd) (r : Range) : Gets (List Byte) :=
  (s.parts c .read r).bind fun ps => if ps.any fun p => (s.partWaits p).isSome then .hold else .ok (s.readParts ps)

/-- Little-endian words of a range. -/
def State.getsWords (s : State) (c : Cmd) (r : Range) : Gets (List Word) := (s.gets c r).map bytesWords

/-- An engine's write to plot memory is remembered until a FENCE.OPND covers it (R226). -/
def State.markEngine (s : State) (c : Cmd) (p : Part) : State :=
  let mark (team : Option Nat) (cluster off : Nat) : State :=
    s.addMark { bed := c.bed, launch := c.launch, team := team, cluster := cluster, off := off, len := p.len, home := c.home,
                stamp := s.fresh }
  match p.loc with
  | .plot t o => mark (some t.team) c.cluster o
  | .shared _ _ cl o => mark none cl o
  | .mod _ => s
  | .host _ => s
  | .peer _ _ => s

/-- Bytes written to parts. -/
def State.puts (s : State) (c : Cmd) (w : List Part × List Byte) : State :=
  w.1.foldl (fun s p => s.markEngine c p) (s.writeParts c.agent w.1 w.2)

/-- Bytes of a range that a partial effect leaves undefined (R303): those of its pages that the engine may write. -/
def State.scramble (s : State) (c : Cmd) (r : Range) : State :=
  let free (k n : Nat) : List Byte := (List.range n).map fun i => Config.freeByte (freeIndex s.fresh 14 c.id) (r.addr + k + i)
  if r.plot then match s.parts c .write r with
    | .ok ps => s.puts c (ps, free 0 r.len)
    | .fail _ => s
    | .waits _ => s
    | .hold => s
  else (chunksOf (r.addr % 2 ^ 64) r.len).foldl (fun s ch => match s.parts c .write ⟨false, ch.1, ch.2⟩ with
    | .ok ps => s.puts c (ps, free (ch.1 - r.addr % 2 ^ 64) ch.2)
    | .fail _ => s
    | .waits _ => s
    | .hold => s) s

/-! ## Ending a command (R298 to R303) -/

/-- What a command does as its engine takes it up: it has made its effects and ends OK with a count; it ends with a status and
no effect; or it ends in FAULT or BOUNDS with its destinations undefined. `m`: the bytes of its transfer update. -/
inductive Ran where
  | done (s : State) (count m : Nat)
  | none_ (status m : Nat)
  | partly (status m : Nat) (dests : List Range)
  | waits (pages : List PageReq)
  | hold

/-- An access that is not there ends the command, before any effect or part-way. -/
def Gets.ran {α : Type} (g : Gets α) (m : Nat) (dests : List Range) (f : α → Ran) : Ran :=
  match g with
  | .ok a => f a
  | .fail st => .partly st m dests
  | .waits ps => .waits ps
  | .hold => .hold

/-- The parts of every destination, then the writes (R202: every page is translated before any piece). -/
def State.ranWrites (s : State) (c : Cmd) (count m : Nat) (ws : List (Range × List Byte)) : Ran :=
  (Gets.each (fun w : Range × List Byte => (s.parts c .write w.1).map fun ps => (ps, w.2)) ws).ran m (ws.map (·.1))
    fun out => .done (out.foldl (fun s w => s.puts c w) s) count m

/-- The bytes of the transfer update that the fields of a command give (R297). -/
def Cmd.bytes (c : Cmd) : Nat :=
  match c.type with
  | 2 => (c.f 112 8 + 1) * (c.f 120 8 + 1) * (match c.f 131 2 with | 0 => 4 | 1 => 2 | 2 => 2 | _ => 4)
  | 5 => c.f 128 32 * (c.f 160 16 + 1)
  | 6 => (c.f 224 16 + 1) * (4 * (c.f 128 8 + 1))
  | 7 => (c.f 224 16 + 1) * (4 * (c.f 128 8 + 1))
  | 10 => 768 * (16 * c.f 68 4)
  | 11 => c.f 64 32 * ((List.range 32).filter fun i => c.bit (160 + i)).length
  | 12 => c.f 96 7 * roundUp (8 + 4 * (c.f 104 9 + 1)) 16
  | _ => 0

/-- A command ends: its status and count, and the transfer update that is due, whose access is a new one (R200). -/
def State.finish (s : State) (id status count m : Nat) : State :=
  s.setCmd id fun c => { c with status := some status, count := count, update := if c.bobj then some m else none, answered := [] }

/-- An unstated count of a transfer update: of lists that are left undefined, or of a list whose count cannot be read (assumption 4). -/
def State.someBytes (s : State) (c : Cmd) : Nat := Config.freeNat (freeIndex s.fresh 15 c.id)

/-- The tiles of a subscription: those its fields give, or 255 for each page of its list, whose count it reads (R320). -/
def State.subTiles (s : State) (c : Cmd) : Gets Nat :=
  if c.bit 53 then (s.gets c ⟨false, c.f 96 64, 8⟩).map fun bs => 255 * leNat bs
  else .ok (c.f 224 32 * c.f 256 32 * c.f 288 32)

/-- The bytes of the transfer update of a command that a common check ends (R297). -/
def State.headBytes (s : State) (c : Cmd) : Gets Nat :=
  if c.type = 9 then match s.subTiles c with
    | .ok t => .ok (256 * t)
    | .fail _ => .ok (s.someBytes c)
    | .waits ps => .waits ps
    | .hold => .hold
  else .ok c.bytes

/-- The barrier object a command names (R298): steps 6 to 9 of R240; a plot object takes no scope wider than CLUSTER. -/
def State.cmdObject (s : State) (c : Cmd) : Gets Part :=
  let a := c.baddr
  if c.bsp then
    if s.inPlot c a 16 && decide (a % 16 = 0 ∧ c.bscope ≤ 2) then .ok ⟨(s.cmdPlot c a).2, 16, 0, none⟩ else .fail stBadcmd
  else if a % 16 ≠ 0 then .fail stBadcmd
  else match s.parts c .atomic ⟨false, a, 16⟩ with
    | .ok (p :: _) => if kindGrain p.kind < 16 then .fail stBadcmd else .ok p
    | .ok [] => .fail stBadcmd
    | .fail _ => .fail stBadcmd
    | .waits ps => .waits ps
    | .hold => .hold

/-- The engine asks the MMP for pages and waits (R205). -/
def State.cmdWait (s : State) (id : Nat) (pages : List PageReq) : State := s.setCmd id fun c => { c with waits := pages }

/-- The common checks of a command, then what it does (R296 to R298, R302). -/
def State.cmdStart (s : State) (c : Cmd) (f : State → Cmd → Ran) : State :=
  let obj : Gets Bool := if c.bobj then (s.cmdObject c).map fun _ => true else .ok true
  match obj with
  | .waits ps => s.cmdWait c.id ps
  | .hold => s
  | .fail st => s.setCmd c.id fun c => { c with status := some st, update := none }
  | .ok _ =>
    if !c.headOk then s.finish c.id stBadcmd 0 c.bytes
    else match f s c with
      | .done s count m => s.finish c.id 0 count m
      | .none_ st m => s.finish c.id st 0 m
      | .partly st m ds => (ds.foldl (fun s r => s.scramble c r) s).finish c.id st 0 m
      | .waits ps => s.cmdWait c.id ps
      | .hold => s

/-- A command of a type that has not ended and waits for nothing. -/
def State.cmdOf (s : State) (id type : Nat) : Option Cmd :=
  match s.cmd? id with
  | some c => if c.type == type && c.typeOk && c.status.isNone && c.waits.isEmpty then some c else none
  | none => none

/-- The step of an engine that performs a whole command; nothing happens when no such command can be performed. -/
def engineStep (id type : Nat) (s : State) (f : State → Cmd → Ran) : Host.Outcome State Fault Refusal :=
  match s.cmdOf id type with
  | some c => .next (s.cmdStart c f)
  | none => .next s

/-! ## Tokens (R260, R298 to R304) -/

/-- The status word (R301). -/
def statusWord (c : Cmd) (status : Nat) : Word := BitVec.ofNat 32 (status + 256 * c.type + 65536 * min c.count 65535)

/-- The token reaches a crew: the register, its checkpoint copy, its error mark (R300, R304). -/
def Crew.writeToken (w : Crew) (c : Cmd) (status : Nat) : Crew :=
  let r := c.tok
  { w with
    s := w.s.set r (statusWord c status)
    ck := { w.ck with s := w.ck.s.set r (statusWord c status), toks := if w.ck.toks.contains r then w.ck.toks else r :: w.ck.toks }
    tokens := w.tokens.filter (· != r)
    tokRegs := if w.tokRegs.contains r then w.tokRegs else r :: w.tokRegs
    errs := if c.etrap && status != 0 then (if w.errs.contains r then w.errs else r :: w.errs) else w.errs.filter (· != r) }

/-- What an engine's write of a token lets its readers know (R227), and the retirement of its team (R229). -/
def State.giveToken (s : State) (c : Cmd) : State :=
  let k := s.upTo c.agent
  let mine (n : Point) : Bool := n == .token c.cid c.tok || n == .agent c.agent
  ((s.forgetPoints mine).learn (.token c.cid c.tok) k).learn (.commands c.ref) k

/-- The token is written and the command is gone: into the crew, or into the crew saved with a team of the launch; an emptied crew
discards it (R300). -/
def State.tokenWrite (s : State) (c : Cmd) (status : Nat) : State :=
  let saved (t : Team) : Team := { t with saved := mapIf (fun w => w.cid == c.cid) (fun w => w.writeToken c status) t.saved }
  let s := (s.giveToken c).setCrew c.cid fun w => w.writeToken c status
  { s with teams := mapIf (fun t => t.ref.bed == c.bed && t.ref.launch == c.launch) saved s.teams
           cmds := s.cmds.filter fun x => x.id != c.id }

/-- A transfer update as a write: an arrival, and a release at the command's scope (R220, R260). -/
def State.updateWrite (s : State) (c : Cmd) (l : Loc) (n : Word) : Write :=
  let m : Mark := { scope := scopeAt l c.updateScope, home := c.home }
  { op := .transfer n, who := c.agent,
    strong := some { mark := m, own := s.releases m true [], rmw := true, acq := false, rmt := false, arrival := true } }

/-- The transfer update of a command that has ended: made, or held for a migrating page; not made where the object is no longer
there, which ends the command with FAULT unless it has ended otherwise (R298). -/
def State.transferUpdate (s : State) (c : Cmd) : Gets State :=
  let ended (s : State) (fault : Bool) : State := s.setCmd c.id fun x =>
    { x with update := none, status := if fault && x.status == some 0 then some stFault else x.status }
  match c.update with
  | none => .ok s
  | some m =>
    let n : Word := BitVec.ofInt 32 (-(m : Int))
    match s.cmdObject c with
    | .waits ps => .waits ps
    | .hold => .hold
    | .fail _ => .ok (ended s true)
    | .ok p => .ok (ended ((s.makePart p (s.updateWrite c p.loc n)).markEngine c p) false)

/-- A command whose TYPE no engine of its queue knows ends with BADCMD, its object checked first (R297, R298). -/
def State.cmdReject (s : State) (c : Cmd) : State :=
  match (if c.bobj then (s.cmdObject c).bind fun _ => s.headBytes c else .ok 0 : Gets Nat) with
  | .waits ps => s.cmdWait c.id ps
  | .hold => s
  | .fail _ => s.setCmd c.id fun c => { c with status := some stBadcmd, update := none }
  | .ok m => s.finish c.id stBadcmd 0 m

end Sys2Proof.Machine
end

