-- ==== Sys2Proof/Machine/Transfer.lean ====
section
/-! DEFINITION. The copy, gather, scatter, multicast, pattern and Rake commands (spec/16_engines_rules.md R279, R281, R288 to R290,
spec/17_engine_instructions.md R316 to R319, R325, R327, spec/05_arithmetic_rules.md R114). -/

namespace Sys2Proof.Machine

/-! ## Shared checks -/

/-- The first status, in the order of R302, whose cause holds. -/
def firstStatus (l : List (Bool × Nat)) : Option Nat :=
  l.foldl (fun b x => if x.1 then (match b with
    | some n => some (min n x.2)
    | none => some x.2) else b) none

/-- Rows of a plot range lie in their space. -/
def State.plotRows (s : State) (c : Cmd) (base stride rows len : Nat) : Bool :=
  decide (rows = 0 ∨ base % 2 ^ 31 + (rows - 1) * stride + len ≤ (s.cmdPlot c base).1)

/-- Row r of a range. -/
def rowRange (plot : Bool) (base stride len r : Nat) : Range := ⟨plot, base + r * stride, len⟩

/-! ## CPY (R316) -/

/-- A byte stands in a part. -/
def Part.has (p : Part) (l : Loc) : Bool := p.loc.space == l.space && decide (p.loc.off ≤ l.off ∧ l.off < p.loc.off + p.len)

/-- The bytes a copy leaves in a destination part: where the byte is also a source byte, the old or the new one. -/
def State.copyBytes (s : State) (c : Cmd) (src : List Part) (p : Part) (new : List Byte) : List Byte :=
  (List.range p.len).map fun i =>
    let l := p.loc.add i
    let n := (new[i]?).getD 0
    if src.any (·.has l) && s.choose 16 (c.id * 2 ^ 32 + l.off) 2 == 0 then (s.read l 1).headD n else n

/-- The destination parts of a copy with their bytes. -/
def State.copyParts (s : State) (c : Cmd) (src : List Part) : List Part → List Byte → List (List Part × List Byte)
  | [], _ => []
  | p :: t, bs => ([p], s.copyBytes c src p (bs.take p.len)) :: s.copyParts c src t (bs.drop p.len)

def runCpy (s : State) (c : Cmd) : Ran :=
  let m := c.bytes
  let ssp := c.bit 256
  let dsp := c.bit 257
  let src := c.f 0 64
  let dst := c.f 64 64
  let len := c.f 128 32
  let rows := c.f 160 16 + 1
  let sstr := c.f 192 32
  let dstr := c.f 224 32
  match firstStatus [
      (c.f 176 16 != 0 || c.f 258 158 != 0 || len == 0 || (ssp && c.f 32 32 != 0) || (dsp && c.f 96 32 != 0), stBadcmd),
      ((ssp && !s.plotRows c src sstr rows len) || (dsp && !s.plotRows c dst dstr rows len), stBounds)] with
  | some st => .none_ st m
  | none =>
    let rs := (List.range rows).map (rowRange ssp src sstr len)
    let ds := (List.range rows).map (rowRange dsp dst dstr len)
    (Gets.each (s.gets c) rs).ran m ds fun data =>
    (Gets.each (s.parts c .read) rs).ran m ds fun from_ =>
    (Gets.each (s.parts c .write) ds).ran m ds fun to_ =>
      .done ((to_.zip data).foldl (fun s2 w => (s.copyParts c from_.flatten w.1 w.2).foldl (fun s x => s.puts c x) s2) s) 0 m

/-- CPY. -/
def execCpy (cmd : Nat) (s : State) : Host.Outcome State Fault Refusal := engineStep cmd 5 s runCpy

/-! ## GATH and SCAT (R290, R317) -/

/-- The fields of GATH and SCAT. -/
structure Table where
  base : Nat
  stride : Nat
  nr : Nat
  rb : Nat
  n : Nat
  isp : Bool
  idx : Nat
  lsp : Bool
  pack : Nat

def Cmd.table (c : Cmd) : Table :=
  { base := c.f 0 64, stride := c.f 64 32, nr := c.f 96 32, rb := 4 * (c.f 128 8 + 1), n := c.f 224 16 + 1, isp := c.bit 136,
    idx := c.f 160 64, lsp := c.bit 137, pack := c.f 256 64 }

/-- The checks of R317: `gath` asks the packed range's alignment; `len` is its length. -/
def State.tableStatus (s : State) (c : Cmd) (gath : Bool) (len : Nat) : Option Nat :=
  let t := c.table
  firstStatus [
    (c.f 320 96 != 0 || c.f 240 16 != 0 || c.f 140 20 != 0 || decide (256 < t.rb) || (gath && (c.bit 138 || c.bit 139)) ||
      (t.isp && c.f 192 32 != 0) || (t.lsp && c.f 288 32 != 0), stBadcmd),
    (t.base % 4 != 0 || t.stride % 4 != 0 || t.idx % 4 != 0 || (gath && t.pack % 256 != 0), stAlign),
    ((t.isp && !s.plotRows c t.idx 0 1 (4 * t.n)) || (t.lsp && !s.plotRows c t.pack 0 1 len), stBounds)]

def runGath (s : State) (c : Cmd) : Ran :=
  let t := c.table
  let m := c.bytes
  let len := roundUp (t.n * t.rb) 256
  let dest : Range := ⟨t.lsp, t.pack, len⟩
  match s.tableStatus c true len with
  | some st => .none_ st m
  | none =>
    (s.getsWords c ⟨t.isp, t.idx, 4 * t.n⟩).ran m [dest] fun idx =>
    (Gets.each (fun (i : Word) => if i.toNat < t.nr then s.gets c ⟨false, t.base + i.toNat * t.stride, t.rb⟩
      else .ok (List.replicate t.rb 0)) idx).ran m [dest] fun rows =>
      let bytes := rows.flatten
      s.ranWrites c (idx.filter fun i => decide (t.nr ≤ i.toNat)).length m
        [(dest, bytes ++ List.replicate (len - bytes.length) 0)]

/-- GATH. -/
def execGath (cmd : Nat) (s : State) : Host.Outcome State Fault Refusal := engineStep cmd 6 s runGath

/-- One element of SCAT with ADD (R290). -/
def scatAdd (int : Bool) (a b : Word) : Word := if int then a + b else BitVec.ofNat 32 (add32 a.toNat b.toNat)

/-- The additions of a SCAT to one part, as it stands then; to a migrating page they are held as reductions (R209). -/
def State.scatAdds (s : State) (c : Cmd) (p : Part) (row : List Byte) : State :=
  match p.mig with
  | none => s.puts c ([p], wordsBytes (((bytesWords (s.read p.loc p.len)).zip (bytesWords row)).map fun x =>
      scatAdd (c.bit 139) x.1 x.2))
  | some (bed, va) =>
    let ws := bytesWords row
    ((List.range ws.length).zip ws).foldl (fun s w =>
      s.hold bed (va + 4 * w.1)
        { op := .atomic (if c.bit 139 then .add else .fadd) .b32 w.2.toNat, who := c.agent, strong := none }) s

/-- One row of a SCAT applied to its parts. -/
def State.scatRow (s : State) (c : Cmd) (ps : List Part) (row : List Byte) : State :=
  if c.bit 138 then (ps.foldl (fun (x : State × List Byte) p => (x.1.scatAdds c p (x.2.take p.len), x.2.drop p.len)) (s, row)).1
  else s.puts c (ps, row)

/-- The index list of a SCAT as far as it can be read: an index that cannot be is a free value (R303). -/
def State.someIndices (s : State) (c : Cmd) : List Nat :=
  let t := c.table
  (List.range t.n).map fun j => match s.getsWords c ⟨t.isp, t.idx + 4 * j, 4⟩ with
    | .ok ws => (ws.headD 0).toNat
    | .fail _ => s.choose 45 (c.id * 65536 + j) (max 1 t.nr)
    | .waits _ => t.nr
    | .hold => t.nr

/-- The rows of its table that a SCAT writes, by their indices. -/
def Cmd.scatRows (c : Cmd) (idx : List Nat) : List Range :=
  (idx.filter fun i => decide (i < c.table.nr)).map fun i => ⟨false, c.table.base + i * c.table.stride, c.table.rb⟩

def runScat (s : State) (c : Cmd) : Ran :=
  let t := c.table
  let m := c.bytes
  match s.tableStatus c false (t.n * t.rb) with
  | some st => .none_ st m
  | none =>
    let list := s.getsWords c ⟨t.isp, t.idx, 4 * t.n⟩
    list.ran m (c.scatRows (s.someIndices c)) fun idx =>
    let good := (List.range t.n).filter fun j => decide (((idx[j]?).getD 0).toNat < t.nr)
    let dest (j : Nat) : Range := ⟨false, t.base + ((idx[j]?).getD 0).toNat * t.stride, t.rb⟩
    (s.gets c ⟨t.lsp, t.pack, t.n * t.rb⟩).ran m (c.scatRows (idx.map (·.toNat))) fun packed =>
    (Gets.each (fun j => (s.parts c .write (dest j)).map fun ps => (j, ps)) good).ran m (c.scatRows (idx.map (·.toNat))) fun out =>
      .done (out.foldl (fun s x => s.scatRow c x.2 ((packed.drop (x.1 * t.rb)).take t.rb)) s) (t.n - good.length) m

/-- SCAT. -/
def execScat (cmd : Nat) (s : State) : Host.Outcome State Fault Refusal := engineStep cmd 7 s runScat

/-! ## QCAST (R281, R325) -/

/-- The targets of a multicast. -/
def qcastTargets (c : Cmd) : List Nat := ((List.range 32).filter fun i => c.bit (160 + i)).map fun i => c.f 128 32 + i

/-- A team is resident in a cluster. -/
def State.residentIn (s : State) (t : TeamRef) (cluster : Nat) : Bool :=
  match s.team? t with
  | some tm => (tm.place.map fun p => p.cluster == cluster).getD false
  | none => false

def runQcast (s : State) (c : Cmd) : Ran :=
  let m := c.bytes
  let ssp := c.bit 192
  let n := c.f 64 32
  let doff := c.f 96 32
  let ts := qcastTargets c
  let la := s.launch? c.bed c.launch
  let plot := ((la.map (·.kernel)).map (·.plot)).getD 0
  match firstStatus [
      (c.f 193 223 != 0 || decide (n < 256 ∨ 65536 < n) || n % 256 != 0 || ts.isEmpty || bit doff 31 ||
        (ssp && c.f 32 32 != 0), stBadcmd),
      (doff % 256 != 0, stAlign),
      (decide (plot < doff + n) || (ssp && !s.plotRows c (c.f 0 64) 0 1 n), stBounds),
      (ts.any fun t => decide ((la.map (·.teams)).getD 0 ≤ t) || !s.residentIn ⟨c.bed, c.launch, t⟩ c.cluster, stResidency)] with
  | some st => .none_ st m
  | none =>
    (s.gets c ⟨ssp, c.f 0 64, n⟩).ran m [] fun bs =>
      .done (ts.foldl (fun s t => s.puts c ([⟨.plot ⟨c.bed, c.launch, t⟩ doff, n, 0, none⟩], bs)) s) 0 m

/-- The blocks of a multicast that ends part-way are undefined (R303). -/
def State.qcastFree (s : State) (c : Cmd) : State :=
  let n := c.f 64 32
  (qcastTargets c).foldl (fun s t => s.puts c ([⟨.plot ⟨c.bed, c.launch, t⟩ (c.f 96 32), n, 0, none⟩],
    (List.range n).map fun i => Config.freeByte (freeIndex s.fresh 14 c.id) (t * 2 ^ 32 + i))) s

/-- QCAST; one that has not ended is running (R283). -/
def execQcast (cmd : Nat) (s : State) : Host.Outcome State Fault Refusal :=
  match s.cmdOf cmd 11 with
  | none => .next s
  | some c =>
    let t := (s.cmdStart c runQcast).setCmd cmd fun x => { x with arrived := x.status.isNone }
    .next (if ((t.cmd? cmd).bind (·.status)) == some stFault then t.qcastFree c else t)

/-! ## PATX (R279, R327) -/

/-- A position is included (R279): `r` the pattern record, `gs` the global list, `l` the length. -/
def patIncludes (r : Nat) (gs : List Word) (l p : Nat) : Bool :=
  gs.any (fun g => g.toNat == p) || (field r 0 32 != 0 && decide (l ≤ p + field r 0 32)) ||
    (field r 32 32 != 0 && p % field r 32 32 == field r 64 32)

/-- The slot of a position (R275). -/
def cacheSlot (sink win p : Nat) : Nat := if p < sink then p else sink + (p - sink) % win

/-- Ascending distinct numbers. -/
def distinct (l : List Nat) : List Nat := l.foldl (fun acc x => if acc.contains x then acc else insertBy id x acc) []

def runPatx (s : State) (c : Cmd) : Ran :=
  let l := c.f 64 32
  let sink := c.f 96 24
  let win := c.f 128 24
  let kvb := c.f 160 64
  let slots := c.f 224 64
  let pages := c.f 288 64
  let cap := c.f 352 32
  let ds : List Range := [⟨false, slots, 4 + 4 * cap⟩, ⟨false, pages, 8 + 8 * cap⟩]
  match firstStatus [
      (c.f 120 8 != 0 || c.f 152 8 != 0 || c.f 384 32 != 0 || win == 0 || decide (2 ^ 24 < sink + win), stBadcmd),
      (slots % 4 != 0 || pages % 8 != 0, stAlign)] with
  | some st => .none_ st 0
  | none =>
    (s.gets c ⟨false, c.f 0 64, 64⟩).ran (s.someBytes c) ds fun rb =>
    let r := leNat rb
    if field r 192 320 ≠ 0 ∨ 65536 < field r 96 32 ∨ (field r 32 32 ≠ 0 ∧ field r 32 32 ≤ field r 64 32) then .none_ stBadcmd 0
    else
      (s.getsWords c ⟨false, field r 128 64, 4 * field r 96 32⟩).ran (s.someBytes c) ds fun gs =>
      let inc := (List.range l).filter (patIncludes r gs l)
      let dropped (p : Nat) : Bool := decide (sink ≤ p ∧ p + win < l)
      let sl := (inc.filter fun p => !dropped p).map (cacheSlot sink win)
      let pg := distinct (sl.map (· / 85))
      if cap < sl.length ∨ cap < pg.length then .partly stBounds (s.someBytes c) ds
      else
        let b1 := natBytes 4 sl.length ++ sl.flatMap (natBytes 4)
        let b2 := natBytes 8 pg.length ++ pg.flatMap fun p => natBytes 8 (kvb + 65536 * p)
        match s.ranWrites c (inc.filter dropped).length (b1.length + b2.length)
            [(⟨false, slots, b1.length⟩, b1), (⟨false, pages, b2.length⟩, b2)] with
        | .partly st _ d => .partly st (s.someBytes c) d
        | r => r

/-- PATX. -/
def execPatx (cmd : Nat) (s : State) : Host.Outcome State Fault Refusal := engineStep cmd 13 s runPatx

/-! ## RAKE (R114, R288, R289, R318, R319) -/

/-- The bytes of a row element. -/
def rakeSize (rfmt : Nat) : Nat := if rfmt = 0 then 4 else if rfmt = 1 then 2 else 1

/-- A row element decoded exactly. -/
def rakeVal (rfmt w : Nat) : Val :=
  match rfmt with
  | 0 => f32.decode w
  | 1 => bf16.decode w
  | 2 => e4m3.decode w
  | 3 => e5m2.decode w
  | 4 => .num (Exact.ofInt (toInt true 8 w))
  | _ => .num (Exact.ofInt w)

/-- An exact value as an FP32 pattern. -/
def val32 (v : Val) : Nat := (f32.finish .rn false v.raw).bits

/-- The partial of a class: round_rne(P + w x row) for each of its rows in list order. -/
def rakeClass (rows : List (Nat × Val × Val)) (k : Nat) : Nat :=
  (rows.filter fun r => r.1 % 16 == k).foldl
    (fun p r => (f32.finish .rn false (addRaw .rn (mulRaw r.2.1 r.2.2) (f32.decode p))).bits) 0x80000000

/-- One output element: the rows of the bag as (index, weight, value) (R114). -/
def rakeElem (op : Nat) (rows : List (Nat × Val × Val)) : Nat :=
  match rows with
  | [] => 0
  | r0 :: rest =>
    if op = 3 then
      let t := rest.foldl (fun t r => (f32.minmax true false t (val32 r.2.2)).bits) (val32 r0.2.2)
      val32 (f32.decode t)
    else
      let t := (List.range 16).foldl (fun t k => add32 t (rakeClass rows k)) 0x80000000
      if op = 2 then (f32.finish .rn false (divRaw (f32.decode t) (.num (Exact.ofInt rows.length)))).bits else t

/-- The output bytes of an element. -/
def rakeOut (bf : Bool) (w : Nat) : List Byte :=
  if bf then natBytes 2 (bf16.finish .rn false (f32.decode w).raw).bits else natBytes 4 w

/-- A bag: its vector, or none when it is bad (R289). -/
def State.rakeBag (s : State) (c : Cmd) (d : Nat) (offs : List Word) (b : Nat) : Gets (Option (List Byte)) :=
  let op := c.f 384 2
  let bf := c.bit 386
  let rlen := field d 96 12 + 1
  let rfmt := field d 112 4
  let es := rakeSize rfmt
  let off (i : Nat) : Nat := ((offs[i]?).getD 0).toNat
  let lo := off b
  let hi := off (b + 1)
  if hi < lo ∨ off (offs.length - 1) < hi then .ok none
  else
    (s.getsWords c ⟨false, c.f 64 64 + 4 * lo, 4 * (hi - lo)⟩).bind fun idx =>
    if idx.any fun i => decide (field d 64 32 ≤ i.toNat) then .ok none
    else
      (if op = 1 then s.getsWords c ⟨false, c.f 128 64 + 4 * lo, 4 * (hi - lo)⟩
        else .ok (List.replicate idx.length 0x3F800000)).bind fun ws =>
      (Gets.each (fun (i : Word) => s.gets c ⟨false, field d 0 64 + i.toNat * field d 128 32, rlen * es⟩) idx).bind fun rows =>
        .ok (some ((List.range rlen).flatMap fun k =>
          rakeOut bf (rakeElem op (((idx.zip ws).zip rows).map fun r =>
            (r.1.1.toNat, f32.decode r.1.2.toNat, rakeVal rfmt (leNat ((r.2.drop (k * es)).take es)))))))

def runRake (s : State) (c : Cmd) : Ran :=
  let op := c.f 384 2
  let bf := c.bit 386
  let eb := if bf then 2 else 4
  let nb := c.f 320 16 + 1
  let out := c.f 256 64
  let ostr := c.f 352 32
  match firstStatus [
      (c.f 387 29 != 0 || c.f 336 16 != 0 || (op != 1 && c.f 128 64 != 0), stBadcmd),
      (c.f 0 64 % 32 != 0 || c.f 64 64 % 4 != 0 || c.f 128 64 % 4 != 0 || c.f 192 64 % 4 != 0 || out % eb != 0 || ostr % eb != 0,
        stAlign)] with
  | some st => .none_ st 0
  | none =>
    let dest (rlen b : Nat) : Range := ⟨false, out + b * ostr, rlen * eb⟩
    (s.gets c ⟨false, c.f 0 64, 32⟩).ran 0 [] fun db =>
    let d := leNat db
    let rlen := field d 96 12 + 1
    let m := nb * rlen * eb
    let ds := (List.range nb).map (dest rlen)
    if field d 160 96 ≠ 0 ∨ field d 116 12 ≠ 0 ∨ field d 108 4 ≠ 0 ∨ 5 < field d 112 4 ∨ field d 128 32 % 32 ≠ 0 ∨
        field d 128 32 < rlen * rakeSize (field d 112 4) then .none_ stBadcmd m
    else
      (s.getsWords c ⟨false, c.f 192 64, 4 * (nb + 1)⟩).ran m ds fun offs =>
      (Gets.each (s.rakeBag c d offs) (List.range nb)).ran m ds fun bags =>
        let nan := (List.range rlen).flatMap fun _ => rakeOut bf f32.nan
        s.ranWrites c (bags.filter (·.isNone)).length m
          ((List.range nb).map fun b => (dest rlen b, (((bags[b]?).join).getD nan)))

/-- RAKE. -/
def execRake (cmd : Nat) (s : State) : Host.Outcome State Fault Refusal := engineStep cmd 8 s runRake

end Sys2Proof.Machine
end

