-- ==== Sys2Proof/Machine/Rings.lean ====
section
/-! DEFINITION. Rings: subscriptions, feeders and storers, RPOP, RREL, RPUB (spec/16_engines_rules.md R284 to R287,
spec/17_engine_instructions.md R320 to R323). -/

namespace Sys2Proof.Machine

/-! ## The header (R284) -/

/-- A field of a value replaced. -/
def putField (x lo n v : Nat) : Nat := x - field x lo n * 2 ^ lo + v % 2 ^ n * 2 ^ lo

/-- Stage states (R284). -/
def stEmpty : Nat := 0
def stFilling : Nat := 1
def stFull : Nat := 2
def stHeld : Nat := 3
def stPublished : Nat := 4
def stDraining : Nat := 5

def setStage (hdr i st : Nat) : Nat := putField hdr (3 * i) 3 st
def advanceHead (hdr : Nat) : Nat := putField hdr 112 4 ((ringHead hdr + 1) % ringStages hdr)
def advanceTail (hdr : Nat) : Nat := putField hdr 116 4 ((ringTail hdr + 1) % ringStages hdr)
def addTiles (hdr n : Nat) : Nat := putField hdr 128 32 (ringTiles hdr + n)
def setDone (hdr : Nat) : Nat := putField hdr 53 1 1
def setErr (hdr : Nat) : Nat := putField hdr 54 1 1

/-- The plot offset of a stage. -/
def stageAt (h hdr i : Nat) : Nat := h + 256 + 256 * ringSize hdr * i

/-- The header a subscription writes. -/
def newHeader (out : Bool) (nstg stsz : Nat) : Nat := 2 ^ 48 * nstg + (if out then 2 ^ 52 else 0) + 2 ^ 64 * stsz

def State.setRing (s : State) (t : TeamRef) (h hdr : Nat) : State := s.write (.plot t h) (natBytes 64 hdr)

/-! ## The walk (R286, R320) -/

/-- Pieces of a tile in bounds: offset in the tile and range; and whether the tile is whole. -/
abbrev TilePieces := List (Nat × Range) × Bool

/-- The coordinates of tile i: loop 0 innermost. -/
def walkCoord (w : Walk) (i k : Nat) : Int :=
  let n (j : Nat) : Nat := (w.counts[j]?).getD 1
  let d (j : Nat) : Int := (((w.steps[j]?).getD [])[k]?).getD 0
  ((w.start[k]?).getD 0 : Int) + (i % n 0 : Nat) * d 0 + (i / n 0 % n 1 : Nat) * d 1 + (i / n 0 / n 1 : Nat) * d 2

/-- The pieces of a tile line of a tensor (R192). -/
def tensorTile (r : Shape) (c : Nat → Int) : TilePieces :=
  let tile := field r 453 2
  let rows := 2 ^ tile
  let width := 256 / rows
  let row (k : Nat) : Option (Nat × Range) :=
    if c 0 < 0 ∨ c 1 < 0 ∨ c 2 < 0 ∨ c 3 < 0 then none
    else
      let b := (c 0).toNat * width
      let x1 := (c 1).toNat * rows + k
      let m := if Shape.rowIn r x1 (c 2).toNat (c 3).toNat then min width (Shape.rowBytes r - b) else 0
      if m = 0 then none else some (k * width, ⟨false, (Shape.addr r b x1 (c 2).toNat (c 3).toNat).toNat, m⟩)
  let ps := (List.range rows).filterMap row
  (ps, ps.foldl (fun n p => n + p.2.len) 0 == 256)

/-- The pieces of tile i of a walk; BOUNDS for a record or a list entry that cannot be used, or bytes out of bounds under fault
policy (R191, R286, R320). -/
def State.walkTile (s : State) (c : Cmd) (w : Walk) (i : Nat) : Gets TilePieces :=
  match w.list with
  | some l =>
    (s.gets c ⟨false, l.toNat + 8 + 8 * (i / 255), 8⟩).bind fun bs =>
      if leNat bs % 65536 ≠ 0 then .fail stBounds
      else .ok ([(0, ⟨false, leNat bs + 256 * (1 + i % 255), 256⟩)], true)
  | none => match s.shape c.cluster c.bed w.shape c.home c.answered with
    | .unusable => .fail stBounds
    | .fault rs => .waits rs
    | .record r =>
      let t := tensorTile r (walkCoord w i)
      if Shape.faults r && !t.2 then .fail stBounds else .ok t

/-- The 256 bytes of a tile as a feeder reads it: out-of-bounds bytes are zero. -/
def State.tileBytes (s : State) (c : Cmd) (t : TilePieces) : Gets (List Byte) :=
  (Gets.each (fun p : Nat × Range => (s.gets c p.2).map fun bs => (p.1, bs)) t.1).map fun ps =>
    leList (ps.foldl (fun (m : Memory) p => m.write p.1 p.2) [])
where
  /-- A tile laid out from its pieces. -/
  leList (m : Memory) : List Byte := m.read 0 256

/-- The tiles of the stage at the cursor. -/
def Walk.batch (w : Walk) : List Nat := (List.range (min w.stsz (w.tiles - w.cursor))).map (w.cursor + ·)

/-! ## RSUB (R320) -/

/-- The walk a subscription names; T is known once the list's count is. -/
def Cmd.subWalk (c : Cmd) (tiles : Nat) : Walk :=
  let steps (lo : Nat) : List Int := (List.range 4).map fun i => toInt true 8 (c.f (lo + 8 * i) 8)
  { hdr := c.f 0 32, out := c.bit 52, nstg := c.f 48 4, stsz := c.f 64 16,
    list := if c.bit 53 then some (BitVec.ofNat 64 (c.f 96 64)) else none, shape := c.f 32 16,
    start := (List.range 4).map fun i => c.f (96 + 32 * i) 32, steps := [steps 320, steps 352, steps 384],
    counts := [c.f 224 32, c.f 256 32, c.f 288 32], tiles := tiles, cursor := 0 }

/-- Another command's subscription stands at the header (R302, BUSY). -/
def State.ringBusy (s : State) (c : Cmd) (h : Nat) : Bool :=
  s.cmds.any fun x => x.id != c.id && x.ref == c.ref && (match x.walk with
    | some w => w.hdr == h
    | none => false)

/-- RSUB: its checks, then the header; its token waits for the walk. -/
def State.subscribe (s : State) (c : Cmd) : State :=
  let list := c.bit 53
  let h := c.f 0 32
  let nstg := c.f 48 4
  let stsz := c.f 64 16
  let plot := ((s.kernel? c.bed c.launch).map (·.plot)).getD 0
  let count := s.subTiles c
  let rec_ : ShapeSays := if list then .record 0 else s.shape c.cluster c.bed (c.f 32 16) c.home c.answered
  match count, rec_ with
  | .waits ps, _ => s.cmdWait c.id ps
  | .hold, _ => s
  | _, .fault rs => s.cmdWait c.id rs
  | count, rec_ =>
    let tiles := match count with
      | .ok n => n
      | .fail _ => 1
      | .waits _ => 1
      | .hold => 1
    let failed := match count with
      | .fail _ => true
      | .ok _ => false
      | .waits _ => false
      | .hold => false
    let s := if list then s else s.keepShape c.cluster c.bed (c.f 32 16)
    match firstStatus [
        (c.f 80 16 != 0 || c.f 54 10 != 0 || nstg == 0 || stsz == 0 || decide (16384 < stsz) || tiles == 0 ||
          decide (2 ^ 32 ≤ tiles) || (list && (c.f 32 16 != 0 || c.f 160 64 != 0 || c.f 224 192 != 0)), stBadcmd),
        (h % 256 != 0 || (list && c.f 96 64 % 8 != 0), stAlign),
        (bit h 31 || decide (plot < h + 256 + 256 * stsz * (nstg + 1)) || rec_ == .unusable, stBounds),
        (s.ringBusy c h, stBusy), (failed, stFault)] with
    | some st => s.finish c.id st 0 (if failed then s.someBytes c else 256 * tiles)
    | none =>
      let s := s.setRing c.ref h (newHeader (c.bit 52) nstg stsz)
      let stages (n : Point) : Bool := match n with
        | .stage t k _ => t == c.ref && k == h
        | _ => false
      (s.forgetPoints stages).setCmd c.id fun x => { x with walk := some (x.subWalk tiles), answered := [] }

/-- RSUB. -/
def execRsub (cmd : Nat) (s : State) : Host.Outcome State Fault Refusal :=
  match s.cmdOf cmd 9 with
  | none => .next s
  | some c =>
    if c.walk.isSome then .next s
    else match (if c.bobj then (s.cmdObject c).map fun _ => true else .ok true : Gets Bool) with
      | .waits ps => .next (s.cmdWait cmd ps)
      | .hold => .next s
      | .fail st => .next (s.setCmd cmd fun c => { c with status := some st, update := none })
      | .ok _ => .next (if c.headOk then s.subscribe c else match s.headBytes c with
        | .ok m => s.finish cmd stBadcmd 0 m
        | .waits ps => s.cmdWait cmd ps
        | .fail _ => s
        | .hold => s)

/-! ## Feeders and storers (R285, R286) -/

/-- A walk that goes on: its team is resident (R287) and its command waits for nothing. -/
def State.walking (s : State) (cmd : Nat) (out : Bool) : Option (Cmd × Walk × Nat) :=
  match s.cmdOf cmd 9 with
  | none => none
  | some c => match c.walk, (s.team? c.ref).bind (·.place) with
    | some w, some _ => if w.out == out then some (c, w, s.ringHeader c.ref w.hdr) else none
    | _, _ => none

/-- The clock of the stage of a ring at hand (R230). -/
def stagePoint (t : TeamRef) (h hdr : Nat) : Point := .stage t h (ringHead hdr)

/-- The stage at HEAD changes from one state to the next as an engine takes it up: a refill knows what the RREL of the stage does, a
drain what the RPUB does (R230). -/
def State.stageStart (s : State) (cmd : Nat) (out : Bool) (old new : Nat) : State :=
  match s.walking cmd out with
  | none => s
  | some (c, w, hdr) =>
    if w.cursor < w.tiles ∧ ringStage hdr (ringHead hdr) = old then
      (s.take c.agent (stagePoint c.ref w.hdr hdr)).setRing c.ref w.hdr (setStage hdr (ringHead hdr) new)
    else s

/-- The walk ends in error: ERR is set, the stage at hand is undefined (R286, R303). -/
def State.walkError (s : State) (c : Cmd) (w : Walk) (hdr st : Nat) (dests : List Range) : State :=
  let s := dests.foldl (fun s r => s.scramble c r) s
  (s.setRing c.ref w.hdr (setErr hdr)).finish c.id st 0 (256 * w.tiles)

/-- A stage is filled or drained: the stage's state, HEAD, TILES, the cursor; DONE and the status at the walk's end. -/
def State.stageDone (s : State) (c : Cmd) (w : Walk) (hdr new : Nat) : State :=
  let n := w.batch.length
  let last := decide (w.tiles ≤ w.cursor + n)
  let hdr := addTiles (advanceHead (setStage hdr (ringHead hdr) new)) n
  let s := s.setRing c.ref w.hdr (if last then setDone hdr else hdr)
  let s := s.setCmd c.id fun c => { c with walk := some { w with cursor := w.cursor + n }, answered := [] }
  if last then s.finish c.id 0 0 (256 * w.tiles) else s

/-- FEEDER_FILL_START. -/
def execFeederFillStart (cmd : Nat) (s : State) : Host.Outcome State Fault Refusal :=
  .next (s.stageStart cmd false stEmpty stFilling)

/-- FEEDER_FILL_COMPLETE: every tile of the stage is written; the rest of the last stage is zero. Whoever pops the stage knows the
fill (R230). -/
def execFeederFillComplete (cmd : Nat) (s : State) : Host.Outcome State Fault Refusal :=
  match s.walking cmd false with
  | none => .next s
  | some (c, w, hdr) =>
    if ringStage hdr (ringHead hdr) ≠ stFilling then .next s
    else
      let dest : Range := ⟨true, stageAt w.hdr hdr (ringHead hdr), 256 * w.stsz⟩
      match Gets.each (fun i => (s.walkTile c w i).bind fun t => s.tileBytes c t) w.batch with
      | .waits ps => .next (s.cmdWait cmd ps)
      | .hold => .next s
      | .fail st => .next (s.walkError c w hdr st [dest])
      | .ok tiles =>
        let bs := tiles.flatten
        match s.parts c .write dest with
        | .ok ps =>
          let s := s.puts c (ps, bs ++ List.replicate (256 * w.stsz - bs.length) 0)
          .next ((s.give c.agent (stagePoint c.ref w.hdr hdr)).stageDone c w hdr stFull)
        | .fail st => .next (s.walkError c w hdr st [])
        | .waits _ => .next s
        | .hold => .next s

/-- STORER_DRAIN_START. -/
def execStorerDrainStart (cmd : Nat) (s : State) : Host.Outcome State Fault Refusal :=
  .next (s.stageStart cmd true stPublished stDraining)

/-- Where the stage at hand of a drain goes, as far as the walk names it. -/
def State.drainDests (s : State) (c : Cmd) (w : Walk) : List Range :=
  w.batch.flatMap fun i => match s.walkTile c w i with
    | .ok t => t.1.map (·.2)
    | .fail _ => []
    | .waits _ => []
    | .hold => []

/-- The end of a drain: every tile of the stage up to T is written; bytes out of bounds are discarded. -/
def drainComplete (cmd : Nat) (s : State) : Host.Outcome State Fault Refusal :=
  match s.walking cmd true with
  | none => .next s
  | some (c, w, hdr) =>
    if ringStage hdr (ringHead hdr) ≠ stDraining then .next s
    else
      let src : Range := ⟨true, stageAt w.hdr hdr (ringHead hdr), 256 * w.batch.length⟩
      match s.gets c src, Gets.each (s.walkTile c w) w.batch with
      | .ok bs, .ok tiles =>
        let pieces := ((List.range tiles.length).zip tiles).flatMap fun t =>
          t.2.1.map fun p => (p.2, (bs.drop (256 * t.1 + p.1)).take p.2.len)
        match s.ranWrites c 0 0 pieces with
        | .done s _ _ => .next (s.stageDone c w hdr stEmpty)
        | .partly st _ ds => .next (s.walkError c w hdr st ds)
        | .waits ps => .next (s.cmdWait cmd ps)
        | .none_ _ _ => .next s
        | .hold => .next s
      | .fail st, _ => .next (s.walkError c w hdr st (s.drainDests c w))
      | _, .fail st => .next (s.walkError c w hdr st (s.drainDests c w))
      | _, .waits ps => .next (s.cmdWait cmd ps)
      | _, _ => .next s

/-! ## RPOP, RREL, RPUB (R321 to R323) -/

/-- The header a lane names, or its trap (R321). -/
def State.laneRing (s : State) (x : Ctx) (a : Word) : LaneOut ⊕ Nat :=
  let plot := ((s.kernel? x.crew.bed x.crew.launch).map (·.plot)).getD 0
  let hdr := s.ringHeader x.ref a.toNat
  if a.toNat % 256 ≠ 0 then .inl (x.misaligned 8)
  else if plot < a.toNat + 256 then .inl (x.plotBounds a)
  else if field hdr 48 4 = 0 then .inl (x.trap 0x0D a)
  else .inr hdr

/-- RPOP: of an input ring, it knows the fill of the stage it pops (R230). -/
def execRpop (f : RpopF) (s : State) : Host.Outcome State Fault Refusal :=
  drive true f.d.isS f.g s fun s x =>
    let a := x.w32 f.a
    match s.laneRing x a with
    | .inl o => (s, o)
    | .inr hdr =>
      let h := a.toNat
      let give (w : Word) : LaneOut := .ok [Reg.put f.d 0 w]
      if ringErr hdr then (s, give 0xFFFFFFFE)
      else if s.ringCovered x.ref h hdr then (s, give 0xFFFFFFFF)
      else if ringFree hdr then
        let i := ringTail hdr
        let s := if ringOut hdr then s else s.take x.agent (.stage x.ref h i)
        (s.setRing x.ref h (advanceTail (setStage hdr i stHeld)), give (BitVec.ofNat 32 (stageAt h hdr i)))
      else if ringDone hdr then (s, give 0xFFFFFFFF)
      else (s, .stall (.ring h))

/-- The stage at an offset of a ring. -/
def stageOf (h hdr b : Nat) : Option Nat :=
  let sz := 256 * ringSize hdr
  if sz = 0 ∨ b < h + 256 ∨ (b - h - 256) % sz ≠ 0 ∨ ringStages hdr ≤ (b - h - 256) / sz then none else some ((b - h - 256) / sz)

/-- The stage is HELD in a ring of a direction. -/
def State.heldStage (s : State) (t : TeamRef) (h b : Nat) (out : Bool) : Option Nat :=
  let hdr := s.ringHeader t h
  match stageOf h hdr b with
  | some i => if ringOut hdr == out && ringStage hdr i == stHeld then some i else none
  | none => none

/-- RREL and RPUB: `s0` is the state as the group executes; lanes after the first that names a stage have no effect (R323). -/
def ringPut (f : TwoSrcF) (out : Bool) (new : Nat) (s0 : State) : Host.Outcome State Fault Refusal :=
  drive true false f.g s0 fun s x =>
    let a := x.w32 f.a
    let b := x.w32 f.b
    match s.laneRing x a with
    | .inl o => (s, o)
    | .inr hdr =>
      let again := (actives x.crew x.grp f.g).any fun l => decide (l < x.lane) && (match (x.crew.thread? l) with
        | some t => let y : Ctx := { x with lane := l, t := t }
          y.ref == x.ref && y.w32 f.a == a && y.w32 f.b == b
        | none => false)
      if again && (s0.heldStage x.ref a.toNat b.toNat out).isSome then
        (((stageOf a.toNat hdr b.toNat).map fun i => s.give x.agent (.stage x.ref a.toNat i)).getD s, .ok [])
      else match s.heldStage x.ref a.toNat b.toNat out with
      | some i => ((s.give x.agent (.stage x.ref a.toNat i)).setRing x.ref a.toNat (setStage hdr i new), .ok [])
      | none => (s, x.trap 0x0D b)

/-- RREL. -/
def execRrel (f : TwoSrcF) (s : State) : Host.Outcome State Fault Refusal := ringPut f false stEmpty s

/-- RPUB. -/
def execRpub (f : TwoSrcF) (s : State) : Host.Outcome State Fault Refusal := ringPut f true stPublished s

end Sys2Proof.Machine
end

