-- ==== Sys2Proof/Machine/Push.lean ====
section
/-! DEFINITION. PUSH, MARD, routing counters and expert hints (spec/17_engine_instructions.md R293 to R295, R315, R328,
spec/01_execution_rules.md R45, spec/16_engines_rules.md R267, R291, R292). -/

namespace Sys2Proof.Machine

/-! ## The two tests of R45 -/

/-- The Mixed Team trap of a matrix command or MARD: 1, m0 is not one team's; 2, the crew's core holds no claim of the team. -/
def State.mixedTeam (s : State) (x : Ctx) : Option LaneOut :=
  let pure := (lanesOf x.crew.width x.crew.m0).all fun l => x.crew.laneIs l fun t => t.team == x.t.team
  let claimed := match (s.team? x.ref).bind (·.place) with
    | some p => p.cluster == x.crew.cluster && p.cores.contains x.crew.core
    | none => false
  if !pure then some (x.trap 0x0B 1) else if !claimed then some (x.trap 0x0B 2) else none

/-! ## PUSH (R294) -/

/-- A command as it is accepted. -/
def State.newCmd (s : State) (x : Ctx) (q : Nat) (ws : List Word) : Cmd :=
  { id := s.nextCmd, bed := x.crew.bed, launch := x.crew.launch, team := x.t.team, tid := x.t.tid, cid := x.crew.cid,
    cluster := x.crew.cluster, core := x.crew.core, queue := q, words := ws, stamp := s.fresh, m0 := x.crew.m0,
    fences := x.t.fences, rows := none, rp := 0, entry := 0, status := none, count := 0, update := none, cycles := 0,
    arrived := false, group := [], desc := [], partial_ := [], walk := none, waits := [], answered := [], resume := false,
    issue := x.crew.cluster, left := [], away := none }

/-- A token register becomes pending (R299). -/
def Crew.pendToken (c : Crew) (r : Nat) : Crew :=
  { c with tokens := if c.tokens.contains r then c.tokens else r :: c.tokens
           tokRegs := if c.tokRegs.contains r then c.tokRegs else r :: c.tokRegs }

/-- Whether a predicate takes part: index 7 names none. -/
def fullPut (pd : BitVec 3) (b : Bool) : List Put := if pd == 7 then [] else [.p pd.toNat b]

/-- PUSH: what the thread knows and did happens before the command's accesses (R226). -/
def execPush (f : PushF) (s : State) : Host.Outcome State Fault Refusal :=
  drive true true f.g s fun s x =>
    let q := f.q.toNat
    let ws := (List.range 16).map fun i => x.crew.s.get (16 * f.sb.toNat + i)
    let tok := ((ws[15]?).getD 0).toNat % 256
    match (if q = 0 then s.mixedTeam x else none) with
    | some o => (s, o)
    | none =>
      if x.crew.tokens.contains tok then (s, .stall (.token tok))
      else if s.queueFull x.crew q then (s, if f.pd == 7 then .stall (.queue q) else .ok (fullPut f.pd true))
      else
        let c := s.newCmd x q ws
        let s := (s.learn (.agent c.agent) (s.upTo x.agent)).setCrew x.crew.cid fun w => w.pendToken tok
        ({ s with cmds := s.cmds ++ [c], nextCmd := s.nextCmd + 1 }, .ok (fullPut f.pd false))

/-! ## Accumulator slots (R267) -/

/-- The slot a matrix command names: MMA holds it in other bits than the moves. -/
def Cmd.slotName (c : Cmd) : Nat := if c.type = 1 then c.f 266 2 else c.f 128 2

/-- The place of a core among a team's cores, those it stood on last where it has left. -/
def State.coreIndex (s : State) (t : TeamRef) (core : Nat) : Nat :=
  match s.team? t with
  | some x => ((x.place.map (·.cores)).getD x.lastCores).findIdx (· == core)
  | none => 0

/-- The words of a slot; undefined where nothing has been written since the claim. -/
def State.slot (s : State) (t : TeamRef) (core name : Nat) : Bank :=
  match (s.team? t).bind fun tm => tm.acc.find? fun a => a.core == core && a.name == name with
  | some a => a.bank
  | none => ⟨.free (freeIndex (4 * core + name) 18 t.team), []⟩

def State.setSlot (s : State) (t : TeamRef) (core name : Nat) (b : Bank) : State :=
  s.setTeam t fun tm =>
    { tm with acc := if tm.acc.any (fun a => a.core == core && a.name == name)
        then mapIf (fun a => a.core == core && a.name == name) (fun a => { a with bank := b }) tm.acc
        else tm.acc ++ [{ core := core, name := name, bank := b }] }

/-- The word of element (r, c): zero outside the slot (R315). -/
def slotWord (b : Bank) (r c : Nat) : Word := if r < 96 ∧ c < 192 then b.get (192 * r + c) else 0

/-- Some command writes the slot and has not written its token (R227). -/
def State.slotPending (s : State) (t : TeamRef) (core name : Nat) : Bool :=
  s.cmds.any fun c => c.queue == 0 && c.typeOk && c.type != 2 && c.ref == t && c.core == core && c.slotName == name

/-! ## MARD (R315) -/

/-- Two FP32 words as packed BF16. -/
def packBf16 (lo hi : Word) : Word :=
  let r (w : Word) : Nat := (bf16.finish .rn false (f32.decode w.toNat).raw).bits
  BitVec.ofNat 32 (r hi * 65536 + r lo)

/-- MARD. -/
def execMard (f : MardF) (s : State) : Host.Outcome State Fault Refusal :=
  drive false false f.g s fun s x =>
    (s, match s.mixedTeam x with
      | some o => o
      | none =>
        let sel := (x.w32 f.b).toNat
        let r := sel % 256 + x.lane
        let c := sel / 256 % 256
        let name := f.slot.toNat
        let b := s.slot x.ref (s.coreIndex x.ref x.crew.core) name
        let undef := s.slotPending x.ref x.crew.core name
        .late f.la.toNat ((List.range (f.n1.toNat + 1)).map fun j => .v (f.d.toNat + j)
          (if undef then x.free 19 j
           else if f.bf16 then packBf16 (slotWord b r (c + 2 * j)) (slotWord b r (c + 2 * j + 1))
           else slotWord b r (c + j))))

/-! ## Routing counters and expert hints (R328) -/

/-- RTINC. -/
def execRtinc (f : TwoSrcF) (s : State) : Host.Outcome State Fault Refusal :=
  drive true false f.g s fun s x =>
    let i := (x.w32 f.a).toNat
    if 4096 ≤ i then (s, x.deny 6)
    else (s.setBed x.crew.bed fun b =>
      { b with counters := b.counters.set i (BitVec.ofNat 32 (min ((b.counters.get i).toNat + (x.w32 f.b).toNat) (2 ^ 32 - 1))) },
      .ok [])

/-- The destination address of RCSNAP, through A's neighbour select. -/
def Ctx.pairN (x : Ctx) (n : Neigh) : Reg → Dword
  | .v r => pair64 (x.neigh n r.toNat) (x.neigh n (r.toNat + 1))
  | .s r => x.reg64 (.s r)

/-- RCSNAP: reads and clears its range at one point of the order of R291. -/
def execRcsnap (f : RcsnapF) (s : State) : Host.Outcome State Fault Refusal :=
  drive true false f.g s fun s x =>
    let a := x.pairN f.an f.a
    let first := (x.w32 f.b).toNat
    let n := (x.w32 f.c).toNat
    if n = 0 ∨ 4096 < first + n then (s, x.deny 6)
    else if !canonical a then (s, x.deny 1)
    else if a.toNat % 4 ≠ 0 then (s, x.misaligned 2)
    else match s.access x .write a (4 * n) with
      | .inl o => (s, o)
      | .inr ps => match s.watch x false false true a.toNat (4 * n) with
        | some o => (s, o)
        | none =>
          let k := (s.bed x.crew.bed).counters
          let bs := wordsBytes ((List.range n).map fun i => k.get (first + i))
          let t := (s.writeParts x.agent ps bs).l1Update s x.crew ps (linearPieces a.toNat (4 * n)) bs
          (t.setBed x.crew.bed fun b =>
            { b with counters := b.counters.setList first (List.replicate n 0) }, .ok [])

/-- EXPF: the hint stands until another or a withdrawal; a number nobody registered is ignored. -/
def execExpf (f : TwoSrcF) (s : State) : Host.Outcome State Fault Refusal :=
  drive false false f.g s fun s x =>
    (s.setBed x.crew.bed fun b => { b with
      experts := mapIf (fun e => e.num == (x.w32 f.a).toNat) (fun e => { e with standing := (x.w32 f.b).toNat % 256 }) b.experts },
      .ok [])

end Sys2Proof.Machine
end

