-- ==== Sys2Proof/Machine/Matrix.lean ====
section
/-! DEFINITION. The matrix engine: its arithmetic (spec/05_arithmetic_rules.md R100, R109, R110), the fields and operands of MMA
commands (spec/17_engine_instructions.md R305 to R310), tiles and parts (spec/16_engines_rules.md R267 to R271), and the moves
MAST, MALD and MAZ (R313, R314). -/

namespace Sys2Proof.Machine

/-! ## Formats (R270, R306) -/

/-- Element bits; 0 for a code that is no format. -/
def matBits (f : Nat) : Nat :=
  if f ≤ 1 then 16 else if f ≤ 7 then 8 else if f ≤ 10 then 4 else 0

/-- The rate class: 16, 8, 4, 1 for INT8; 0 for no format of R270. -/
def matClass (f : Nat) : Nat :=
  if f ≤ 1 then 16 else if f ≤ 5 then 8 else if f ≤ 7 then 1 else if f ≤ 10 then 4 else 0

/-- Elements of a scale block; 0 for a format without one (R100). -/
def matBlock (f : Nat) : Nat :=
  if f = 4 ∨ f = 5 ∨ f = 9 then 32 else if f = 10 then 8 else 0

/-- The value of an element; integers are exact values. -/
def matElem (f w : Nat) : Val :=
  match f with
  | 0 => bf16.decode w
  | 1 => f16.decode w
  | 2 => e4m3.decode w
  | 3 => e5m2.decode w
  | 4 => e4m3.decode w
  | 5 => e5m2.decode w
  | 6 => .num (Exact.ofInt (toInt true 8 w))
  | 7 => .num (Exact.ofInt w)
  | _ => e2m1.decode w

/-- An exact product (R100). -/
def mulVal (a b : Val) : Val := (mulRaw a b).val

/-- The elements of a row from its bytes. -/
def rowElems (f k : Nat) (bs : List Byte) : List Val :=
  let x := leNat bs
  let n := matBits f
  (List.range k).map fun i => matElem f (field x (n * i) n)

/-- A row with its block scales, and the tensor scale of NB4 (R100). -/
def scaleRow (f : Nat) (scales : List Byte) (g : Val) (row : List Val) : List Val :=
  let scale (b : Byte) : Val := if f = 10 then mulVal (ue5m3.decode b.toNat) g else decodeE8m0 b.toNat
  (List.range row.length).zip row |>.map fun x => mulVal x.2 (scale ((scales[x.1 / matBlock f]?).getD 0))

/-! ## The accumulation (R109) -/

/-- The exact sum of a group's products. -/
def groupSum : List (Val × Val) → Raw
  | [] => .num (Exact.zero false)
  | p :: t => addRaw .rn (groupSum t) (mulVal p.1 p.2)

/-- An exactly zero sum is +0. -/
def plusZero : Raw → Raw
  | .nan fl => .nan fl
  | .inf n fl => .inf n fl
  | .num x => .num (if x.isZero then Exact.zero false else x)

/-- One group: its sum is rounded, then added to the accumulator. -/
def groupStep (flush : Bool) (acc : Nat) (ps : List (Val × Val)) : Nat :=
  let t := (f32.finish .rn flush (plusZero (groupSum ps))).bits
  (f32.add .rn false flush acc t).bits

/-- The groups of a row of products, at most `fuel` of them. -/
def groupLoop (g : Nat) (flush : Bool) : Nat → Nat → List (Val × Val) → Nat
  | 0, acc, _ => acc
  | n + 1, acc, ps => if ps.isEmpty then acc else groupLoop g flush n (groupStep flush acc (ps.take g)) (ps.drop g)

/-- The loop of R109 over two rows. -/
def macLoop (g : Nat) (flush : Bool) (acc : Nat) (a b : List Val) : Nat :=
  groupLoop g flush (a.length / g + 1) acc (a.zip b)

/-- An integer element. -/
def valInt : Val → Int
  | .num x => if x.neg then -(x.m : Int) else x.m
  | .nan _ => 0
  | .inf _ => 0

/-- The accumulation of INT8 commands. -/
def macInt (acc : Word) (a b : List Val) : Word :=
  acc + BitVec.ofInt 32 ((a.zip b).foldl (fun s p => s + valInt p.1 * valInt p.2) 0)

/-- One element of a result: the groups of 32, or of 64 for FP4. -/
def macElem (cls : Nat) (flush : Bool) (acc : Word) (a b : List Val) : Word :=
  if cls = 1 then macInt acc a b
  else BitVec.ofNat 32 (macLoop (if cls = 4 then 64 else 32) flush acc.toNat a b)

/-! ## The fields of an MMA command (R305) -/

namespace Mma
def aaddr (c : Cmd) : Nat := c.f 0 64
def baddr (c : Cmd) : Nat := c.f 64 64
def astr (c : Cmd) : Nat := c.f 128 32
def bstr (c : Cmd) : Nat := c.f 160 32
def m (c : Cmd) : Nat := c.f 192 8 + 1
def n (c : Cmd) : Nat := c.f 200 9 + 1
def k (c : Cmd) : Nat := c.f 224 16 + 1
def tag (c : Cmd) : Nat := c.f 240 16
def afmt (c : Cmd) : Nat := c.f 256 4
def bfmt (c : Cmd) : Nat := c.f 260 4
def mode (c : Cmd) : Nat := c.f 264 2
def span (c : Cmd) : Nat := c.f 268 2
def part (c : Cmd) : Nat := c.f 270 2
def asrc (c : Cmd) : Nat := c.f 272 2
def bplot (c : Cmd) : Bool := c.bit 274
def flush (c : Cmd) : Bool := c.bit 275
def value (c : Cmd) : Bool := c.bit 276
def chk (c : Cmd) : Bool := c.bit 277
def addC (c : Cmd) : Bool := c.bit 278
def cbf16 (c : Cmd) : Bool := c.bit 279
def ascl (c : Cmd) : Nat := c.f 288 64
def bscl (c : Cmd) : Nat := c.f 352 64
def cstr (c : Cmd) : Nat := c.f 320 32
def entries (c : Cmd) : Nat := c.f 288 12 + 1
/-- dh of a latent mode. -/
def dh (c : Cmd) : Nat := 16 * c.f 352 4
def lcol (c : Cmd) : Nat := c.f 364 9
def slot0 (c : Cmd) : Nat := c.f 160 24
/-- EXPAND or ABSORB. -/
def latent (c : Cmd) : Bool := decide (2 ≤ mode c)
/-- Elements of a stored A row: q of the key role has dh + 96 (R278). -/
def aLen (c : Cmd) : Nat := if latent c && !value c then dh c + 96 else k c
/-- The words of K elements that a lane holds (R308). -/
def aWords (c : Cmd) : Nat := (k c * matBits (afmt c) + 31) / 32
end Mma

/-- Rows and columns of the tile, and parts, of a span (R268). -/
def spanTile : Nat → Nat × Nat × Nat
  | 0 => (96, 192, 1)
  | 1 => (192, 192, 2)
  | 2 => (96, 384, 2)
  | _ => (192, 384, 4)

/-- The first row and column of a part's piece (R268). -/
def partOrigin (span p : Nat) : Nat × Nat :=
  match span with
  | 0 => (0, 0)
  | 1 => (96 * p, 0)
  | 2 => (0, 192 * p)
  | _ => (96 * (p % 2), 192 * (p / 2))

/-- The part's rows and columns within the M x N result. -/
def Mma.rowsOf (c : Cmd) : Nat := min 96 (Mma.m c - (partOrigin (Mma.span c) (Mma.part c)).1)
def Mma.colsOf (c : Cmd) : Nat := min 192 (Mma.n c - (partOrigin (Mma.span c) (Mma.part c)).2)

/-- Bytes of `n` elements. -/
def rowLen (fmt n : Nat) : Nat := (n * matBits fmt + 7) / 8

/-! ## The checks of one command (R302, R306 to R312) -/

/-- BADCMD: reserved bits and ranges. -/
def Mma.badcmd (s : State) (c : Cmd) : Bool :=
  let k := s.kernel? c.bed c.launch
  let tile := spanTile (span c)
  let a := aaddr c
  let nw := aWords c
  let w := (k.map (·.width)).getD 0
  let key := !value c
  c.f 280 8 != 0 || c.f 209 15 != 0 || asrc c == 3 || decide (tile.2.2 ≤ part c) || decide (tile.1 < m c) ||
    decide (tile.2.1 < n c) ||
    (asrc c == 2 && (a / 1024 != 0 || decide (512 ≤ a) || astr c != 0 || decide (w < m c) || decide (64 < nw) ||
      decide ((k.map (·.vregs)).getD 0 < a + nw))) ||
    (asrc c == 1 && a / 2 ^ 32 != 0) ||
    (mode c == 0 && ((bplot c && baddr c / 2 ^ 32 != 0) || ((matBlock (afmt c) != 0) != (ascl c != 0)) ||
      ((matBlock (bfmt c) != 0) != (bscl c != 0)))) ||
    (mode c == 1 && (c.f 192 8 != 0 || baddr c != 0 || bscl c != 0 || c.f 300 20 != 0 || asrc c != 0 || bplot c)) ||
    (latent c && (bscl c != c.f 352 4 + 2 ^ 12 * c.f 364 9 || dh c == 0 || decide (128 < dh c) || decide (384 ≤ lcol c) ||
      c.f 184 8 != 0 || bplot c || (mode c == 3 && value c && ascl c != 0))) ||
    (mode c == 2 && key && k' c != dh c + 96) || (mode c == 3 && key && k' c != 480) ||
    (mode c == 2 && !key && decide (dh c < n c)) || (mode c == 3 && !key && decide (384 < lcol c + n c))
where
  k' (c : Cmd) : Nat := Mma.k c

/-- FORMAT: R270, R306, R310, R312. -/
def Mma.badFormat (c : Cmd) : Bool :=
  if latent c then afmt c != 0 || bfmt c != 14
  else matClass (afmt c) == 0 || matClass (afmt c) != matClass (bfmt c) ||
    (mode c == 1 && (matBlock (afmt c) != 0 || matBlock (bfmt c) != 0))

/-- ALIGN: every address, offset and stride that the mode reads, to 32 bytes. -/
def Mma.badAlign (c : Cmd) : Bool :=
  (asrc c != 2 && (aaddr c % 32 != 0 || astr c % 32 != 0)) || baddr c % 32 != 0 ||
    (!latent c && bstr c % 32 != 0) || (mode c == 0 && (ascl c % 32 != 0 || bscl c % 32 != 0)) ||
    (mode c == 1 && cstr c % 32 != 0)

/-- BOUNDS: plot operands outside the team's plot (R307). -/
def Mma.badBounds (s : State) (c : Cmd) : Bool :=
  let plot := ((s.kernel? c.bed c.launch).map (·.plot)).getD 0
  let out (base stride rows len : Nat) : Bool := decide (0 < rows ∧ plot < base + (rows - 1) * stride + len)
  (asrc c == 1 && out (aaddr c) (astr c) (rowsOf c) (rowLen (afmt c) (aLen c))) ||
    (mode c == 0 && bplot c && out (baddr c) (bstr c) (n c) (rowLen (bfmt c) (k c)))

/-- The claim of the team has the slot (R267). -/
def State.badSlot (s : State) (c : Cmd) : Bool := decide (((s.kernel? c.bed c.launch).map (·.acc)).getD 0 ≤ c.slotName)

def State.mmaStatus (s : State) (c : Cmd) : Option Nat :=
  firstStatus [(Mma.badcmd s c, stBadcmd), (Mma.badFormat c, stFormat), (s.badSlot c, stSlot), (Mma.badAlign c, stAlign),
    (Mma.badBounds s c, stBounds)]

/-! ## What a command sees (R226) -/

/-- A write at a step, by whoever stood there, is covered by a FENCE.OPND that precedes the PUSH (R226): it happens before the fence,
whose scope includes its writer; the issuing thread's own do by program order. -/
def Cmd.covers (c : Cmd) (w : Home) (stamp : Nat) : Bool :=
  c.fences.any fun f => f.opnd && decide (stamp ≤ f.stamp) &&
    (w.agent == .thread c.ref c.tid || (f.mark.includes w && Clock.has f.seen w.agent stamp))

/-- A byte of plot memory was last written by a store the command does not see. -/
def State.hidden (s : State) (c : Cmd) (off : Nat) : Bool :=
  match (s.plotMarks.filter fun m => m.bed == c.bed && m.launch == c.launch && m.team == some c.team &&
    decide (m.off ≤ off ∧ off < m.off + m.len)).getLast? with
  | some m => !c.covers m.home m.stamp
  | none => false

/-- Bytes of a plot operand; those the command does not see are undefined. -/
def State.plotOperand (s : State) (c : Cmd) (off n : Nat) : Gets (List Byte) :=
  (s.gets c ⟨true, off, n⟩).map fun bs => (List.range n).zip bs |>.map fun x =>
    if s.hidden c (off + x.1) then Config.freeByte (freeIndex s.fresh 17 c.id) (off + x.1) else x.2

/-- Bytes of an operand in memory or plot. -/
def State.operand (s : State) (c : Cmd) (plot : Bool) (a n : Nat) : Gets (List Byte) :=
  if plot then s.plotOperand c (a % 2 ^ 32) n else s.gets c ⟨false, a % 2 ^ 64, n⟩

/-- Where the thread in a lane stood as it wrote a register at a step: in the cluster its crew stood in then (R215). -/
def Crew.writerAt (w : Crew) (t : Thread) (stamp : Nat) : Home :=
  { w.home t with cluster := some (((w.moves.find? fun m => decide (m.1 ≤ stamp)).map (·.2)).getD w.cluster) }

/-- The A registers of a command as it starts: a lane outside m0 at the PUSH, or then without a thread, gives zeros; a register
written after the thread's FENCE.OPND, or of a thread that has left, is undefined (R226, R271, R308). -/
def State.captureRows (s : State) (c : Cmd) : List (List Word) :=
  if Mma.asrc c ≠ 2 then []
  else
    let a := Mma.aaddr c
    let nw := Mma.aWords c
    let free (l i : Nat) : Word := Config.freeWord (freeIndex s.fresh 20 ((c.id * 64 + l) * 512 + a + i))
    (List.range (Mma.rowsOf c)).map fun l => (List.range nw).map fun i =>
      if !c.m0.getLsbD l then 0
      else match (s.crew? c.cid).bind fun w => (w.thread? l).map fun t => (w, t) with
        | some (w, t) =>
          let st := t.v.stamp (a + i)
          if st = 0 || c.covers (w.writerAt t st) st then t.v.get (a + i) else free l i
        | none => free l i

/-- The registers of a lane of a command's crew since its PUSH: as its threads left it, and those of the thread in it now, in the crew
or in the crew saved with a team. -/
def State.laneRegs (s : State) (c : Cmd) (l : Nat) : List VBank :=
  (c.left.filter fun x => x.1 == l).map (·.2) ++
    ((s.crews ++ s.teams.flatMap (·.saved)).filter fun w => w.cid == c.cid).filterMap fun w => (w.thread? l).map (·.v)

/-- The rows whose A registers have been written since the PUSH: their elements are undefined (R227). -/
def State.rowsLost (s : State) (c : Cmd) : List Nat :=
  if Mma.asrc c ≠ 2 then []
  else (List.range (Mma.rowsOf c)).filter fun l => c.m0.getLsbD l && (s.laneRegs c l).any fun v =>
    (List.range (Mma.aWords c)).any fun i => decide (c.stamp < v.stamp (Mma.aaddr c + i))

/-- Row i of an operand with the scales that a DENSE command names (R307). -/
def State.scaled (s : State) (c : Cmd) (f n scl i : Nat) (row : List Val) : Gets (List Val) :=
  if matBlock f = 0 || Mma.mode c != 0 then .ok row
  else
    let nb := (n + matBlock f - 1) / matBlock f
    let g : Gets Val := if f = 10 then (s.gets c ⟨false, scl, 4⟩).map fun b => f32.decode (leNat b)
      else .ok (.num (Exact.ofInt 1))
    g.bind fun g =>
      (s.gets c ⟨false, (scl + (if f = 10 then 32 else 0) + i * nb) % 2 ^ 64, nb⟩).map fun sc => scaleRow f sc g row

/-- Row i of the part's A as it is stored. -/
def State.aRow (s : State) (c : Cmd) (i : Nat) : Gets (List Val) :=
  let f := Mma.afmt c
  let n := Mma.aLen c
  let raw : Gets (List Byte) := if Mma.asrc c = 2 then .ok (wordsBytes (((c.rows.getD [])[i]?).getD []))
    else s.operand c (Mma.asrc c == 1) (Mma.aaddr c + i * Mma.astr c) (rowLen f n)
  raw.bind fun bs => s.scaled c f n (Mma.ascl c) i (rowElems f n bs)

/-- Stored row j of a DENSE command's B: column j of the operand. -/
def State.bRow (s : State) (c : Cmd) (j : Nat) : Gets (List Val) :=
  let f := Mma.bfmt c
  let n := Mma.k c
  (s.operand c (Mma.bplot c) (Mma.baddr c + j * Mma.bstr c) (rowLen f n)).bind fun bs =>
    s.scaled c f n (Mma.bscl c) j (rowElems f n bs)

/-! ## Slots of commands -/

/-- The slot a command acts on. -/
def State.cmdSlot (s : State) (c : Cmd) : Bank := s.slot c.ref (s.coreIndex c.ref c.core) c.slotName

def State.setCmdSlot (s : State) (c : Cmd) (b : Bank) : State := s.setSlot c.ref (s.coreIndex c.ref c.core) c.slotName b

/-- Slot words of a block of rows and columns become undefined (R303). -/
def freeSlot (fresh id : Nat) (b : Bank) (r0 r1 c0 c1 : Nat) : Bank :=
  (List.range (r1 - r0)).foldl (fun b i => (List.range (c1 - c0)).foldl (fun b j =>
    let k := 192 * (r0 + i) + c0 + j
    b.set k (Config.freeWord (freeIndex fresh 21 (id * 32768 + k)))) b) b

/-! ## The order of a core's queue (R228, R269, R272) -/

/-- A span command that no group holds yet. -/
def Cmd.spanWaits (c : Cmd) : Bool := c.type == 1 && Mma.span c != 0 && c.rows.isNone && c.status.isNone && c.headOk

/-- Commands before this one in its core's queue that have not ended. -/
def State.before (s : State) (c : Cmd) : List Cmd :=
  s.cmds.filter fun x => x.queue == 0 && x.typeOk && x.cluster == c.cluster && x.core == c.core && x.away == c.away &&
    decide (x.id < c.id) && x.status.isNone

/-- An MMA with A from registers: until its token is written, a write of one of them makes elements of its result undefined (R227). -/
def Cmd.mayLose (c : Cmd) : Bool := c.type == 1 && Mma.asrc c == 2

/-- Its turn at its slot has come: the commands that its crew pushed earlier to the slot have ended, and those that may still lose
elements of the slot have written their tokens, so that every effect on the slot is made in the order of the pushes (R227, R228). -/
def State.slotTurn (s : State) (c : Cmd) : Bool :=
  !(s.cmds.any fun x => x.queue == 0 && x.typeOk && x.cid == c.cid && x.ref == c.ref && x.core == c.core && x.slotName == c.slotName &&
    decide (x.id < c.id) && (x.status.isNone || x.mayLose))

/-- The command's team is resident, or its launch has failed, so that the command is let end (R388). -/
def State.cmdResident (s : State) (c : Cmd) : Bool :=
  ((s.team? c.ref).bind (·.place)).isSome || ((s.launch? c.bed c.launch).map (·.failed)).getD false

/-- A move of the slot may be performed. -/
def State.moveTurn (s : State) (c : Cmd) : Bool :=
  s.cmdResident c && s.slotTurn c && !((s.before c).any fun x => x.spanWaits)

/-! ## MAST, MALD, MAZ (R313, R314) -/

namespace Move
def addr (c : Cmd) : Nat := c.f 0 64
def str (c : Cmd) : Nat := c.f 64 32
def frow (c : Cmd) : Nat := c.f 96 8
def fcol (c : Cmd) : Nat := c.f 104 8
def rows (c : Cmd) : Nat := c.f 112 8 + 1
def cols (c : Cmd) : Nat := c.f 120 8 + 1
def plot (c : Cmd) : Bool := c.bit 130
def fmt (c : Cmd) : Nat := c.f 131 2
/-- Element bytes. -/
def size (c : Cmd) : Nat := if fmt c = 1 ∨ fmt c = 2 then 2 else 4
end Move

/-- The checks of MAST and MALD. -/
def State.moveStatus (s : State) (c : Cmd) : Option Nat :=
  let plot := ((s.kernel? c.bed c.launch).map (·.plot)).getD 0
  firstStatus [
    (c.f 133 283 != 0 || decide (96 < Move.frow c + Move.rows c) || decide (192 < Move.fcol c + Move.cols c) ||
      (Move.plot c && Move.addr c / 2 ^ 32 != 0), stBadcmd),
    (s.badSlot c, stSlot),
    (Move.addr c % 16 != 0 || Move.str c % 16 != 0, stAlign),
    (Move.plot c && decide (plot < Move.addr c + (Move.rows c - 1) * Move.str c + Move.cols c * Move.size c), stBounds)]

/-- A slot element in the memory format. -/
def storeElem (fmt : Nat) (w : Word) : List Byte :=
  let v := (f32.decode w.toNat).raw
  match fmt with
  | 0 => natBytes 4 (f32.finish .rn false v).bits
  | 1 => natBytes 2 (bf16.finish .rn false v).bits
  | 2 => natBytes 2 (f16.finish .rn false v).bits
  | _ => natBytes 4 w.toNat

/-- A memory element in the slot. -/
def loadElem (fmt x : Nat) : Word :=
  let w (v : Val) : Word := BitVec.ofNat 32 (f32.finish .rn false v.raw).bits
  match fmt with
  | 0 => w (f32.decode x)
  | 1 => w (bf16.decode x)
  | 2 => w (f16.decode x)
  | _ => BitVec.ofNat 32 x

/-- The memory of row i of the region. -/
def Move.range (c : Cmd) (i : Nat) : Range := ⟨Move.plot c, (Move.addr c + i * Move.str c) % 2 ^ 64, Move.cols c * Move.size c⟩

def runMast (s : State) (c : Cmd) : Ran :=
  match s.moveStatus c with
  | some st => .none_ st c.bytes
  | none =>
    let b := s.cmdSlot c
    let row (i : Nat) : List Byte := (List.range (Move.cols c)).flatMap fun j =>
      storeElem (Move.fmt c) (slotWord b (Move.frow c + i) (Move.fcol c + j))
    s.ranWrites c 0 c.bytes ((List.range (Move.rows c)).map fun i => (Move.range c i, row i))

/-- The words of a region of the slot replaced, row by row. -/
def putRegion (b : Bank) (c : Cmd) (rows : List (List Word)) : Bank :=
  ((List.range rows.length).zip rows).foldl (fun b r => b.setList (192 * (Move.frow c + r.1) + Move.fcol c) r.2) b

/-- MALD, whose destination is the slot: part-way its region is undefined. -/
def State.runMald (s : State) (c : Cmd) : State :=
  match s.moveStatus c with
  | some st => s.finish c.id st 0 0
  | none =>
    let e := Move.size c
    let row (i : Nat) : Gets (List Word) :=
      (if Move.plot c then s.plotOperand c (Move.range c i).addr (Move.range c i).len else s.gets c (Move.range c i)).map fun bs =>
        (List.range (Move.cols c)).map fun j => loadElem (Move.fmt c) (leNat ((bs.drop (e * j)).take e))
    match Gets.each row (List.range (Move.rows c)) with
    | .ok rows => (s.setCmdSlot c (putRegion (s.cmdSlot c) c rows)).finish c.id 0 0 0
    | .fail st => (s.setCmdSlot c (freeSlot s.fresh c.id (s.cmdSlot c) (Move.frow c) (Move.frow c + Move.rows c) (Move.fcol c)
        (Move.fcol c + Move.cols c))).finish c.id st 0 0
    | .waits ps => s.cmdWait c.id ps
    | .hold => s

/-- MAZ: every element of the slot is the zero word. -/
def State.runMaz (s : State) (c : Cmd) : State :=
  match firstStatus [(c.f 0 128 != 0 || c.f 130 286 != 0, stBadcmd), (s.badSlot c, stSlot)] with
  | some st => s.finish c.id st 0 0
  | none => (s.setCmdSlot c Bank.zero).finish c.id 0 0 0

/-- A move of a slot whose turn has come. -/
def State.moveOf (s : State) (id type : Nat) : Option Cmd :=
  match s.cmdOf id type with
  | some c => if s.moveTurn c then some c else none
  | none => none

/-- MAST. -/
def execMast (cmd : Nat) (s : State) : Host.Outcome State Fault Refusal :=
  match s.moveOf cmd 2 with
  | some c => .next (s.cmdStart c runMast)
  | none => .next s

/-- MALD. -/
def execMald (cmd : Nat) (s : State) : Host.Outcome State Fault Refusal :=
  match s.moveOf cmd 3 with
  | some c => .next (if c.headOk then s.runMald c else s.setCmd cmd fun c => { c with status := some stBadcmd })
  | none => .next s

/-- MAZ. -/
def execMaz (cmd : Nat) (s : State) : Host.Outcome State Fault Refusal :=
  match s.moveOf cmd 4 with
  | some c => .next (if c.headOk then s.runMaz c else s.setCmd cmd fun c => { c with status := some stBadcmd })
  | none => .next s

end Sys2Proof.Machine
end

