-- ==== Sys2Proof/Machine/Latent.lean ====
section
/-! DEFINITION. Latent records, the LXS and its weight slots, and the operands of the EXPAND and ABSORB modes
(spec/16_engines_rules.md R274 to R278, spec/17_engine_instructions.md R311, R312, R324, spec/05_arithmetic_rules.md R115). -/

namespace Sys2Proof.Machine

/-! ## Records (R274 to R276) -/

/-- One step of the CRC-16 over a byte. -/
def crcByte (c : Nat) (b : Byte) : Nat :=
  (List.range 8).foldl (fun c _ => (if 32768 ≤ c then (2 * c) ^^^ 0x1021 else 2 * c) % 65536) (c ^^^ (b.toNat * 256))

/-- The CRC-16 of R274. -/
def crc16 (bs : List Byte) : Nat := bs.foldl crcByte 0xFFFF

/-- A cache descriptor as the command read it (R311). -/
structure Cache where
  kvb : Nat
  sink : Nat
  win : Nat
  len : Nat

def cacheOf (ws : List Word) : Cache :=
  let d := wordsNat ws
  { kvb := field d 0 64, sink := field d 64 24, win := field d 96 24, len := field d 128 32 }

/-- The address of a slot's record (R275). -/
def Cache.addr (k : Cache) (slot : Nat) : Nat := (k.kvb + 65536 * (slot / 85) + 256 + 768 * (slot % 85)) % 2 ^ 64

/-- The position and generation a slot's record must have; none when the slot is masked (R276). -/
def Cache.expect (k : Cache) (slot : Nat) : Option (Nat × Nat) :=
  if slot < k.sink then (if slot < k.len then some (slot, 0) else none)
  else
    let u := slot - k.sink
    if k.len ≤ k.sink + u then none
    else
      let g := (k.len - 1 - k.sink - u) / k.win
      some (k.sink + u + k.win * g, g)

/-- A record, decoded: its latent elements with their scales and its rotary part; none when it is masked. `failed`: it is
masked and its CHECK is wrong (R312). -/
structure Latent where
  vals : Option (List Val × List Val)
  failed : Bool

/-- The latent elements and the rotary elements (R274). -/
def recordVals (bs : List Byte) : List Val × List Val :=
  let x := leNat bs
  ((List.range 384).map fun i => mulVal (e4m3.decode (field x (8 * i) 8)) (decodeE8m0 (field x (4608 + 8 * (i / 128)) 8)),
   (List.range 96).map fun j => bf16.decode (field x (3072 + 16 * j) 16))

/-- A record is used or masked (R276). -/
def Cache.record (k : Cache) (chk : Bool) (slot : Nat) (bs : List Byte) : Latent :=
  let x := leNat bs
  let crcBad := chk && crc16 (bs.take 592) != field x 4752 16
  let good := match k.expect slot with
    | none => false
    | some (p, g) => bit x 4728 && field x 4640 32 == p && field x 4672 32 == g && field x 4704 24 == slot &&
        (bit x 4729 == decide (slot < k.sink))
  { vals := if good && !crcBad then some (recordVals bs) else none, failed := crcBad }

/-! ## The weight buffer (R277) -/

/-- The weight slot that holds a command's matrix in its cluster. -/
def State.weights? (s : State) (c : Cmd) (addr dh : Nat) : Option LxsSlot :=
  s.lxs.find? fun w => w.cluster == c.cluster && w.bed == c.bed && w.launch == c.launch && w.addr.toNat == addr && w.dh == dh

/-- The command forms an operand from weights: every role but ABSORB value. -/
def Mma.weighs (c : Cmd) : Bool := latent c && !(mode c == 3 && value c)

/-- A started latent command of the cluster uses the slot. -/
def State.slotUsed (s : State) (w : LxsSlot) : Bool :=
  s.cmds.any fun c => c.queue == 0 && c.type == 1 && c.status.isNone && c.rows.isSome && Mma.weighs c &&
    c.cluster == w.cluster && c.bed == w.bed && c.launch == w.launch && Mma.ascl c == w.addr.toNat && Mma.dh c == w.dh

/-- The BF16 words of bytes. -/
def halfWords (bs : List Byte) : List (BitVec 16) :=
  match bs with
  | a :: b :: t => (b ++ a) :: halfWords t
  | _ => []

/-- A matrix is put in a slot; another slot with the same tag is no longer needed. -/
def State.putWeights (s : State) (w : LxsSlot) : State :=
  { s with lxs := (s.lxs.filter fun x => !(x.cluster == w.cluster && (x.slot == w.slot ||
      (x.bed == w.bed && x.launch == w.launch && x.addr == w.addr && x.dh == w.dh)))) ++ [w] }

/-- The slots of a cluster that a reload may replace. -/
def State.freeWeightSlots (s : State) (cluster : Nat) : List Nat :=
  (List.range 16).filter fun i => !(s.lxs.any fun w => w.cluster == cluster && w.slot == i && s.slotUsed w)

/-- The weights a command uses are in a slot: reloaded from the named address where no tag matches. -/
def State.loadWeights (s : State) (c : Cmd) : Gets State :=
  if !Mma.weighs c then .ok s
  else match s.weights? c (Mma.ascl c) (Mma.dh c) with
  | some _ => .ok s
  | none =>
    let able := s.freeWeightSlots c.cluster
    match able[s.choose 22 c.id (max 1 able.length)]? with
    | none => .hold
    | some i => (s.gets c ⟨false, Mma.ascl c, 768 * Mma.dh c⟩).map fun bs =>
        s.putWeights { cluster := c.cluster, slot := i, bed := c.bed, launch := c.launch,
                       addr := BitVec.ofNat 64 (Mma.ascl c), dh := Mma.dh c, data := halfWords bs }

/-- Element (k, j) of a weight matrix: latent row k, column j. -/
def LxsSlot.row (w : LxsSlot) (k : Nat) : List Val := ((w.data.drop (w.dh * k)).take w.dh).map fun x => bf16.decode x.toNat

def LxsSlot.rows (w : LxsSlot) : List (List Val) := (List.range 384).map w.row

/-- A value rounded to BF16 after the loop of R109 (R115). -/
def expandElem (a b : List Val) : Val :=
  bf16.decode (bf16.finish .rn false (f32.decode (macLoop 32 false 0 a b)).raw).bits

/-- Column j of rows. -/
def columnOf (rows : List (List Val)) (j : Nat) : List Val := rows.map fun r => (r[j]?).getD (.num (Exact.zero false))

/-! ## Operands (R278) -/

/-- The B operand of a command: each tile column, none where its key is masked; which elements of K contribute nothing; and the
slots whose CHECK failed. -/
structure BSide where
  cols : List (Option (List Val))
  drop : List Nat
  failed : List Nat

/-- The slots a latent command reads: one for each column, or one for each element of K. -/
def Mma.latentSlots (c : Cmd) : List Nat := (List.range (if value c then k c else n c)).map (slot0 c + ·)

/-- B of a latent command, from its records and its weights. -/
def latentSide (c : Cmd) (w : List (List Val)) (recs : List Latent) : BSide :=
  let expand := Mma.mode c == 2
  let cols := (List.range (Mma.dh c)).map (columnOf w)
  let failed := (List.range recs.length).filter fun i => ((recs[i]?).map (·.failed)).getD false
  if Mma.value c then
    let parts := recs.map fun r => r.vals.map fun v =>
      if expand then (List.range (Mma.n c)).map fun j => expandElem v.1 ((cols[j]?).getD [])
      else (v.1.drop (Mma.lcol c)).take (Mma.n c)
    { cols := (List.range (Mma.n c)).map fun j => some (parts.map fun p =>
        (p.bind fun v => v[j]?).getD (.num (Exact.zero false))),
      drop := (List.range recs.length).filter fun i => ((recs[i]?).bind (·.vals)).isNone, failed := failed }
  else
    { cols := recs.map fun r => r.vals.map fun v =>
        (if expand then cols.map (expandElem v.1) else v.1) ++ v.2,
      drop := [], failed := failed }

/-- A of an ABSORB key command: q through W_UK, then the rotary part (R278); other rows as they are; elements that contribute
nothing are zero. -/
def latentA (c : Cmd) (w : List (List Val)) (drop : List Nat) (q : List Val) : List Val :=
  if Mma.mode c == 3 && !Mma.value c then w.map (expandElem (q.take (Mma.dh c))) ++ q.drop (Mma.dh c)
  else if drop.isEmpty then q
  else (List.range q.length).zip q |>.map fun x => if drop.contains x.1 then .num (Exact.zero false) else x.2

/-- The checks that need the descriptor (R311, R312). -/
def Cache.status (k : Cache) (c : Cmd) : Option Nat :=
  let last := Mma.slot0 c + (if Mma.value c then Mma.k c else Mma.n c)
  firstStatus [(k.kvb % 65536 != 0 || k.win == 0 || decide (2 ^ 24 < k.sink + k.win), stBadcmd),
    (decide (k.sink + k.win < last), stBounds)]

/-! ## LXW (R324) -/

/-- LXW: a slot in use is waited for, and so is a matrix of the same tag that a command uses. -/
def runLxw (s : State) (c : Cmd) : Ran :=
  let dh := 16 * c.f 68 4
  let src := c.f 0 64
  let m := c.bytes
  let slot := c.f 64 4
  let w (data : List (BitVec 16)) : LxsSlot :=
    { cluster := c.cluster, slot := slot, bed := c.bed, launch := c.launch, addr := BitVec.ofNat 64 src, dh := dh, data := data }
  match firstStatus [(c.f 72 344 != 0 || dh == 0 || decide (128 < dh), stBadcmd), (src % 256 != 0, stAlign)] with
  | some st => .none_ st m
  | none =>
    if s.lxs.any fun x => x.cluster == c.cluster && s.slotUsed x &&
        (x.slot == slot || (x.bed == c.bed && x.launch == c.launch && x.addr.toNat == src && x.dh == dh)) then .hold
    else (s.gets c ⟨false, src, 768 * dh⟩).ran m [] fun bs => .done (s.putWeights (w (halfWords bs))) 0 m

/-- The slot of an LXW that ends part-way holds undefined words (R303). -/
def State.lxwFree (s : State) (c : Cmd) : State :=
  let dh := 16 * c.f 68 4
  let free : List (BitVec 16) := (List.range (384 * dh)).map fun i =>
    (Config.freeWord (freeIndex s.fresh 23 (c.id * 65536 + i))).setWidth 16
  s.putWeights { cluster := c.cluster, slot := c.f 64 4, bed := c.bed, launch := c.launch, addr := BitVec.ofNat 64 (c.f 0 64),
                 dh := dh, data := free }

/-- LXW. -/
def execLxw (cmd : Nat) (s : State) : Host.Outcome State Fault Refusal :=
  match s.cmdOf cmd 10 with
  | none => .next s
  | some c =>
    let t := s.cmdStart c runLxw
    .next (if ((t.cmd? cmd).bind (·.status)) == some stFault then t.lxwFree c else t)

end Sys2Proof.Machine
end

