-- ==== Sys2Proof/Machine/Mma.lean ====
section
/-! DEFINITION. MMA commands at work: span groups, their start, their rows, their end (spec/16_engines_rules.md R268 to R273,
spec/17_engine_instructions.md R309 to R312, spec/01_execution_rules.md R45). -/

namespace Sys2Proof.Machine

/-! ## Span groups (R269) -/

/-- The first core of the span unit of a core. -/
def unitBase (span core : Nat) : Nat := if span = 3 then core / 4 * 4 else if span = 0 then core else core / 2 * 2

/-- Two commands carry one tag in the span unit of the first. -/
def sameSpan (c x : Cmd) : Bool :=
  x.bed == c.bed && x.launch == c.launch && x.away == c.away && x.cluster == c.cluster && Mma.tag x == Mma.tag c &&
    unitBase (Mma.span c) x.core == unitBase (Mma.span c) c.core

/-- A command that may join the group of `c`: waiting, without a fault of its own, held back by no other group's command. -/
def State.joins (s : State) (c x : Cmd) : Bool :=
  x.queue == 0 && x.typeOk && x.spanWaits && sameSpan c x && (s.mmaStatus x).isNone &&
    !((s.before x).any fun y => y.spanWaits && !sameSpan c y)

/-- The earliest command of each part, in order of part; those there are. -/
def State.spanGroup (s : State) (c : Cmd) : List Cmd :=
  (List.range (spanTile (Mma.span c)).2.2).filterMap fun p => s.cmds.find? fun x => s.joins c x && Mma.part x == p

/-- The fields that must match across a group. -/
def spanKey (c : Cmd) : List Nat :=
  [c.f 192 48, c.f 256 10, c.f 268 2, c.f 160 32, c.f 274 1, c.f 64 64, if Mma.latent c then c.f 352 64 else Mma.bscl c,
   if Mma.latent c then Mma.ascl c else 0, if Mma.latent c then c.f 276 1 else 0]

/-- The members of a group differ, or two come from one core. -/
def mismatched (g : List Cmd) : Bool :=
  match g with
  | [] => false
  | c :: t => t.any (fun x => spanKey x != spanKey c) ||
      (g.any fun x => (g.filter fun y => y.core == x.core).length != 1)

/-- Every command of a list ends with a status and changes no slot. -/
def State.endAll (s : State) (g : List Cmd) (st : Nat) : State := g.foldl (fun s c => s.finish c.id st 0 0) s

/-! ## The start of a command -/

/-- The group table or the cache descriptor, read as the command starts (R273, R311). -/
def State.readDesc (s : State) (c : Cmd) : Gets (List Word) :=
  if Mma.mode c = 0 then .ok []
  else if Mma.mode c = 1 then s.getsWords c ⟨false, Mma.aaddr c, 32 * Mma.entries c⟩
  else s.getsWords c ⟨false, Mma.baddr c, 32⟩

/-- An entry of the group table (R310). -/
structure Entry4 where
  rows : Nat
  a : Nat
  b : Nat
  c : Nat
  bad : Bool

def tableEntry (desc : List Word) (i : Nat) : Entry4 :=
  let x := wordsNat ((desc.drop (8 * i)).take 8)
  { rows := field x 0 16, a := field x 64 64, b := field x 128 64, c := field x 192 64, bad := field x 16 48 != 0 }

/-- The status that the descriptor gives. -/
def descStatus (c : Cmd) (desc : List Word) : Option Nat :=
  if Mma.mode c = 0 then none
  else if Mma.mode c = 1 then
    let es := (List.range (Mma.entries c)).map (tableEntry desc)
    firstStatus [(es.any (·.bad), stBadcmd),
      (es.any fun e => e.rows != 0 && (e.a % 32 != 0 || e.b % 32 != 0 || e.c % 32 != 0), stAlign)]
  else (cacheOf desc).status c

/-- The members of a group start: the first reads the descriptor; registers are captured (R271). -/
def State.startAll (s : State) (g : List Cmd) : State :=
  match g with
  | [] => s
  | lead :: _ => match s.readDesc lead with
    | .waits ps => s.cmdWait lead.id ps
    | .hold => s
    | .fail st => s.endAll g st
    | .ok desc => match descStatus lead desc with
      | some st => s.endAll g st
      | none => g.foldl (fun s c => s.setCmd c.id fun x =>
          { x with rows := some (s.captureRows c), group := g.map (·.id), desc := desc, rp := 0, entry := 0, cycles := 0, answered := [] }) s

/-! ## Rows (R109, R271) -/

/-- The members of a started command's group that have not ended, part 0 first. -/
def State.members (s : State) (c : Cmd) : List Cmd := (c.group.filterMap s.cmd?).filter (·.status.isNone)

/-- The B operand of a DENSE or latent command, checked as the command itself asks (R276), and the weights' rows. -/
def State.sideB (s : State) (c : Cmd) : Gets (BSide × List (List Val)) :=
  if Mma.latent c then
    let w := ((s.weights? c (Mma.ascl c) (Mma.dh c)).map (·.rows)).getD []
    let k := cacheOf c.desc
    (Gets.each (fun slot => (s.gets c ⟨false, k.addr slot, 768⟩).map (k.record (Mma.chk c) slot)) (Mma.latentSlots c)).map
      fun recs => (latentSide c w recs, w)
  else (Gets.each (s.bRow c) (List.range (Mma.n c))).map fun rows => ({ cols := rows.map some, drop := [], failed := [] }, [])

/-- The words of row i of a part's piece: R109, and minus infinity in a masked key's column (R276). -/
def elemRow (c : Cmd) (b : Bank) (i : Nat) (a : List Val) (cols : List (Option (List Val))) : List Word :=
  let cls := if Mma.latent c then 16 else matClass (Mma.afmt c)
  ((List.range cols.length).zip cols).map fun x => match x.2 with
    | none => 0xFF800000
    | some col => macElem cls (Mma.flush c) (b.get (192 * i + x.1)) a col

/-- Rows [lo, hi) of a member, as words of its slot. -/
def State.memberRows (s : State) (c : Cmd) (side : BSide) (w : List (List Val)) (lo hi : Nat) : Gets (List (Nat × List Word)) :=
  let cols := (side.cols.drop (partOrigin (Mma.span c) (Mma.part c)).2).take (Mma.colsOf c)
  let b := s.cmdSlot c
  Gets.each (fun i => (s.aRow c i).map fun a => (i, elemRow c b i (latentA c w side.drop a) cols))
    ((List.range (min hi (Mma.rowsOf c))).drop lo)

/-- Rows written to a member's slot. -/
def State.writeRows (s : State) (c : Cmd) (rows : List (Nat × List Word)) : State :=
  s.setCmdSlot c (rows.foldl (fun b r => b.setList (192 * r.1) r.2) (s.cmdSlot c))

/-- The records that failed their CHECK among those a member reads: its own columns, or every record of the value role (R312). -/
def failedCount (c : Cmd) (side : BSide) : Nat :=
  let col0 := (partOrigin (Mma.span c) (Mma.part c)).2
  if Mma.value c then side.failed.length
  else (side.failed.filter fun i => decide (col0 ≤ i ∧ i < col0 + Mma.colsOf c)).length

/-- A group ends part-way: rows from RP on are undefined in every member (R303). -/
def State.abort (s : State) (g : List Cmd) (st : Nat) : State :=
  g.foldl (fun s c => (s.setCmdSlot c (freeSlot s.fresh c.id (s.cmdSlot c) c.rp (Mma.rowsOf c) 0 (Mma.colsOf c))).finish
    c.id st 0 0) s

/-- What a group's step reads: each member's new rows and the records whose CHECK failed, or the member that waits. -/
def State.groupRows (s : State) (lo hi : Nat) : List Cmd → Gets (List (List (Nat × List Word) × Nat)) × Nat
  | [] => (.ok [], 0)
  | c :: t => match (s.sideB c).bind fun b => (s.memberRows c b.1 b.2 lo hi).map fun r => (r, failedCount c b.1) with
    | .ok r => match State.groupRows s lo hi t with
      | (.ok rs, k) => (.ok (r :: rs), k)
      | (g, k) => (g, k)
    | .fail st => (.fail st, c.id)
    | .waits ps => (.waits ps, c.id)
    | .hold => (.hold, c.id)

/-- Up to `n` further rows of a DENSE or latent group (R271): the count is the largest seen, and the last row ends it. -/
def State.runRows (s : State) (g : List Cmd) (n : Nat) : State :=
  match g with
  | [] => s
  | lead :: _ => match s.loadWeights lead with
    | .waits ps => s.cmdWait lead.id ps
    | .hold => s
    | .fail st => s.abort g st
    | .ok s =>
      let all := g.foldl (fun m c => max m (Mma.rowsOf c)) 0
      let hi := min all (lead.rp + n)
      match s.groupRows lead.rp hi g with
      | (.waits ps, id) => s.cmdWait id ps
      | (.hold, _) => s
      | (.fail st, _) => s.abort g st
      | (.ok rows, _) => (g.zip rows).foldl (fun s x =>
          let k := max x.1.count x.2.2
          let s := (s.writeRows x.1 x.2.1).setCmd x.1.id fun c => { c with rp := hi, count := k, answered := [] }
          if hi = all then s.finish x.1.id 0 k 0 else s) s

/-! ## GROUPED (R273, R310) -/

/-- The bytes of a C row. -/
def cBytes (c : Cmd) : Nat := Mma.n c * (if Mma.cbf16 c then 2 else 4)

/-- An address lies in the C region of an earlier entry: which of the two writes stays is unspecified. -/
def earlierC (c : Cmd) (i a : Nat) : Bool :=
  (List.range i).any fun g =>
    let e := tableEntry c.desc g
    let d := a - e.c
    decide (e.c ≤ a) && (if Mma.cstr c = 0 then e.rows != 0 && decide (d < cBytes c)
      else (List.range (cBytes c / Mma.cstr c + 1)).any fun b =>
        decide (b ≤ d / Mma.cstr c ∧ d / Mma.cstr c - b < e.rows ∧ d - (d / Mma.cstr c - b) * Mma.cstr c < cBytes c))

/-- The bytes a C row holds, where they can be read. -/
def State.readBack (s : State) (c : Cmd) (d : Range) : List Byte :=
  match s.gets c d with
  | .ok bs => bs
  | .fail _ => []
  | .waits _ => []
  | .hold => []

/-- One element of a GROUPED result: `w` is the old C element, 0 without ADDC. -/
def groupedElem (c : Cmd) (w : Nat) (a b : List Val) : List Byte :=
  let fmt := if Mma.cbf16 c then bf16 else f32
  let acc : Word := BitVec.ofNat 32 (f32.finish .rn false (fmt.decode w).raw).bits
  let out := macElem (matClass (Mma.afmt c)) (Mma.flush c) acc a b
  if Mma.cbf16 c then natBytes 2 (bf16.finish .rn false (f32.decode out.toNat).raw).bits else natBytes 4 out.toNat

/-- One row of entry i: where its C row stands and the bytes it receives. The C formats are floating, and what an INT8 command
leaves in them is not stated: those bytes are free. -/
def State.groupedRow (s : State) (c : Cmd) (i r : Nat) : Gets (Range × List Byte) :=
  let e := tableEntry c.desc i
  let k := Mma.k c
  let at_ := (e.c + r * Mma.cstr c) % 2 ^ 64
  let dest : Range := ⟨false, at_, cBytes c⟩
  let sz := if Mma.cbf16 c then 2 else 4
  let int := matClass (Mma.afmt c) == 1
  (s.gets c ⟨false, (e.a + r * Mma.astr c) % 2 ^ 64, rowLen (Mma.afmt c) k⟩).bind fun ab =>
  (Gets.each (fun j => s.gets c ⟨false, (e.b + j * Mma.bstr c) % 2 ^ 64, rowLen (Mma.bfmt c) k⟩) (List.range (Mma.n c))).bind
    fun bb =>
  (if Mma.addC c then s.gets c dest else .ok []).map fun cb =>
    let a := rowElems (Mma.afmt c) k ab
    let new := ((List.range (Mma.n c)).zip bb).flatMap fun x =>
      groupedElem c (leNat ((cb.drop (sz * x.1)).take sz)) a (rowElems (Mma.bfmt c) k x.2)
    let old := s.readBack c dest
    (dest, ((List.range new.length).zip new).map fun x =>
      if int then Config.freeByte (freeIndex s.fresh 25 c.id) (at_ + x.1)
      else if earlierC c i (at_ + x.1) && s.choose 24 (at_ + x.1) 2 == 0 then (old[x.1]?).getD x.2 else x.2)

/-- The C rows from an entry's row on. -/
def groupedRest (c : Cmd) : List Range :=
  (List.range (Mma.entries c)).flatMap fun i =>
    let e := tableEntry c.desc i
    ((List.range e.rows).filter fun r => decide (c.entry < i ∨ (c.entry = i ∧ c.rp ≤ r))).map fun r =>
      ⟨false, (e.c + r * Mma.cstr c) % 2 ^ 64, cBytes c⟩

/-- The whole group's progress. -/
def State.setProgress (s : State) (g : List Cmd) (entry rp : Nat) : State :=
  g.foldl (fun s c => s.setCmd c.id fun x => { x with entry := entry, rp := rp, answered := [] }) s

/-- Up to `n` rows of a GROUPED group; entries are taken in order. -/
def State.runGrouped (s : State) (g : List Cmd) (lead : Nat) : Nat → Nat → State
  | 0, _ => s
  | fuel + 1, n => match s.cmd? lead with
    | none => s
    | some c =>
      if Mma.entries c ≤ c.entry then s.endAll g 0
      else if (tableEntry c.desc c.entry).rows ≤ c.rp then (s.setProgress g (c.entry + 1) 0).runGrouped g lead fuel n
      else if n = 0 then s
      else
        let row := (s.groupedRow c c.entry c.rp).bind fun d => (s.parts c .write d.1).map fun ps => (ps, d.2)
        match row with
        | .ok d => ((s.puts c d).setProgress g c.entry (c.rp + 1)).runGrouped g lead fuel (n - 1)
        | .waits ps => s.cmdWait lead ps
        | .hold => s
        | .fail st => ((groupedRest c).foldl (fun s r => s.scramble c r) s).endAll g st

/-- The slots of a GROUPED group hold undefined words. -/
def State.scratchSlots (s : State) (g : List Cmd) : State :=
  g.foldl (fun s c => s.setCmdSlot c ⟨.free (freeIndex s.fresh 26 c.id), []⟩) s

/-! ## The events -/

/-- A started group goes on, when every member may; the engine has then resumed it (R272). -/
def State.mmaRun (s : State) (c : Cmd) (n : Nat) : State :=
  let s := (s.members c).foldl (fun s x => s.setCmd x.id fun y => { y with resume := false }) s
  let g := s.members c
  if g.any fun x => !x.waits.isEmpty || !s.cmdResident x then s
  else if Mma.mode c = 1 then
    match g with
    | [] => s
    | lead :: _ => (s.scratchSlots g).runGrouped g lead.id (n + Mma.entries lead + 1) n
  else s.runRows g n

/-- A command that has not started: alone, or when its span group is whole. -/
def State.mmaBegin (s : State) (c : Cmd) : State :=
  match s.mmaStatus c with
  | some st => if (s.before c).any fun y => y.spanWaits && !sameSpan c y then s else s.finish c.id st 0 0
  | none =>
    if Mma.span c = 0 then (if s.moveTurn c then s.startAll [c] else s)
    else if !s.joins c c then s
    else
      let s := if c.arrived || (s.before c).any (fun y => y.spanWaits) then s
        else s.setCmd c.id fun x => { x with arrived := true, cycles := 0 }
      let g := s.spanGroup c
      if g.length < (spanTile (Mma.span c)).2.2 then s
      else if mismatched g then s.endAll g stMismatch
      else if g.all fun x => s.slotTurn x && s.cmdResident x && x.waits.isEmpty then s.startAll g else s

/-- A matrix command of a mode takes its step: it starts if it has not, and computes up to `n` rows. -/
def mmaStep (id n mode : Nat) (s : State) : Host.Outcome State Fault Refusal :=
  match s.cmdOf id 1 with
  | none => .next s
  | some c =>
    if Mma.mode c ≠ mode ∨ !s.cmdResident c then .next s
    else if !c.headOk then .next (s.setCmd id fun c => { c with status := some stBadcmd })
    else
      let s := if c.rows.isSome then s else s.mmaBegin c
      match s.cmdOf id 1 with
      | some c => .next (if c.rows.isSome then s.mmaRun c n else s)
      | none => .next s

/-- MMA, DENSE. -/
def execMmaDense (cmd rows : Nat) (s : State) : Host.Outcome State Fault Refusal := mmaStep cmd rows 0 s

/-- MMA, GROUPED. -/
def execMmaGrouped (cmd rows : Nat) (s : State) : Host.Outcome State Fault Refusal := mmaStep cmd rows 1 s

/-- MMA, EXPAND. -/
def execMmaExpand (cmd rows : Nat) (s : State) : Host.Outcome State Fault Refusal := mmaStep cmd rows 2 s

/-- MMA, ABSORB. -/
def execMmaAbsorb (cmd rows : Nat) (s : State) : Host.Outcome State Fault Refusal := mmaStep cmd rows 3 s

/-- A span group still incomplete 2^24 cycles after its first command reached the head of its queue (R269). -/
def execSpanGroupTimeout (cmd : Nat) (s : State) : Host.Outcome State Fault Refusal :=
  match s.cmdOf cmd 1 with
  | none => .next s
  | some c =>
    let g := s.spanGroup c
    if s.joins c c && decide (g.length < (spanTile (Mma.span c)).2.2) &&
        g.any fun x => x.arrived && decide (2 ^ 24 ≤ x.cycles) then
      .next (s.endAll (g.filter (·.arrived)) stTimeout)
    else .next s

end Sys2Proof.Machine
end

