-- ==== Sys2Proof/Machine/Merge.lean ====
section
/-! DEFINITION. The cluster reduction unit: CMRG and its merge groups (spec/16_engines_rules.md R282, spec/17_engine_instructions.md
R326, spec/05_arithmetic_rules.md R113). -/

namespace Sys2Proof.Machine

namespace Mrg
def poff (c : Cmd) : Nat := c.f 0 32
def ooff (c : Cmd) : Nat := c.f 32 32
def tag (c : Cmd) : Nat := c.f 64 16
def n (c : Cmd) : Nat := c.f 80 6
def rows (c : Cmd) : Nat := c.f 96 7
def d (c : Cmd) : Nat := c.f 104 9 + 1
def norm (c : Cmd) : Bool := c.bit 113
def bf (c : Cmd) : Bool := c.bit 114
/-- Bytes from row to row of a partial. -/
def pitch (c : Cmd) : Nat := roundUp (8 + 4 * d c) 16
/-- Bytes of an output row, and from row to row. -/
def outLen (c : Cmd) : Nat := if norm c then (if bf c then 2 else 4) * d c else 8 + 4 * d c
def outPitch (c : Cmd) : Nat := roundUp (outLen c) 16
/-- What must be equal across a group. -/
def key (c : Cmd) : List Nat := [n c, rows c, d c, (if norm c then 1 else 0), if bf c then 1 else 0]
end Mrg

/-- The checks before a command joins a group (R302, R326). -/
def State.mergeStatus (s : State) (c : Cmd) : Option Nat :=
  let plot := ((s.kernel? c.bed c.launch).map (·.plot)).getD 0
  firstStatus [
    (c.f 86 10 != 0 || c.bit 103 || c.f 115 301 != 0 || decide (Mrg.n c < 2 ∨ 32 < Mrg.n c) ||
      decide (Mrg.rows c = 0 ∨ 64 < Mrg.rows c) || (!Mrg.norm c && Mrg.bf c), stBadcmd),
    (Mrg.poff c % 16 != 0 || Mrg.ooff c % 16 != 0, stAlign),
    (decide (plot < Mrg.poff c + Mrg.rows c * Mrg.pitch c) ||
      decide (plot < Mrg.ooff c + (Mrg.rows c - 1) * Mrg.outPitch c + Mrg.outLen c), stBounds)]

/-- The commands of a group that have arrived and are not merged, in the cluster of a command. -/
def State.mergeGroup (s : State) (c : Cmd) : List Cmd :=
  s.cmds.filter fun x => x.queue == 6 && x.type == 12 && x.arrived && x.status.isNone && x.cluster == c.cluster && x.away == c.away &&
    x.bed == c.bed && x.launch == c.launch && Mrg.tag x == Mrg.tag c

/-- The groups a cluster's unit holds: their launches and tags. -/
def State.mergeGroups (s : State) (cluster : Nat) : List (Nat × Nat × Nat) :=
  (s.cmds.filter fun x => x.queue == 6 && x.type == 12 && x.arrived && x.status.isNone && x.cluster == cluster && x.away.isNone).foldl
    (fun acc x => let k := (x.bed, x.launch, Mrg.tag x)
      if acc.contains k then acc else acc ++ [k]) []

/-! ## The merge (R113) -/

/-- A row of a partial: M, l, o. -/
abbrev MergeRow := List Word

/-- A rescaled word; a shift below -2^31 gives a zero of its sign, whatever it holds (R113). -/
def rescale (w : Word) (n : Int) : Nat :=
  if n < -(2 ^ 31 : Int) then f32.signBit (bit w.toNat 31) else (fscl false false w.toNat n).bits

/-- merge(P, Q). -/
def mergeRows (p q : MergeRow) : MergeRow :=
  let pm := (p.headD 0).toInt
  let qm := (q.headD 0).toInt
  let m := max pm qm
  BitVec.ofInt 32 m :: ((p.drop 1).zip (q.drop 1)).map fun x => BitVec.ofNat 32 (add32 (rescale x.1 (pm - m)) (rescale x.2 (qm - m)))

/-- The partials of one row, in team order. -/
def mergeAll : List MergeRow → MergeRow
  | [] => []
  | p :: t => t.foldl mergeRows p

/-- One output row: as it is, or o / l. -/
def mergeOut (c : Cmd) (r : MergeRow) : List Byte :=
  if !Mrg.norm c then wordsBytes r
  else
    let l := f32.decode ((r[1]?).getD 0).toNat
    let zero := match l with
      | .num x => x.isZero
      | .inf _ => false
      | .nan _ => false
    (r.drop 2).flatMap fun o =>
      let w := if zero then 0 else (f32.finish .rn false (divRaw (f32.decode o.toNat) l)).bits
      if Mrg.bf c then natBytes 2 (bf16.finish .rn false (f32.decode w).raw).bits else natBytes 4 w

/-- A whole group: merged in ascending team order, written to the lowest team's plot; every command ends OK, its token after the
transfer updates of all. -/
def State.mergeDone (s : State) (g : List Cmd) : State :=
  match sortBy (·.team) g with
  | [] => s
  | lead :: rest =>
    let all := lead :: rest
    let row (i : Nat) : List Byte := mergeOut lead (mergeAll (all.map fun c => (c.partial_[i]?).getD []))
    let ws := (List.range (Mrg.rows lead)).map fun i =>
      ((⟨true, Mrg.ooff lead + i * Mrg.outPitch lead, Mrg.outLen lead⟩ : Range), row i)
    let s := match s.ranWrites lead 0 0 ws with
      | .done s _ _ => s
      | .none_ _ _ => s
      | .partly _ _ _ => s
      | .waits _ => s
      | .hold => s
    all.foldl (fun s c => (s.setCmd c.id fun x => { x with group := all.map (·.id) }).finish c.id 0 0 c.bytes) s

/-- A command arrives at its group: MISMATCH, DUPLICATE, a full unit, or one more member; the last one completes it. -/
def State.mergeJoin (s : State) (c : Cmd) : State :=
  let g := s.mergeGroup c
  match firstStatus [(g.any fun x => Mrg.key x != Mrg.key c, stMismatch), (g.any fun x => x.team == c.team, stDuplicate)] with
  | some st => s.finish c.id st 0 c.bytes
  | none =>
    if g.isEmpty && decide (8 ≤ (s.mergeGroups c.cluster).length) then s
    else match s.getsWords c ⟨true, Mrg.poff c, Mrg.rows c * Mrg.pitch c⟩ with
      | .ok ws =>
        let rows := (List.range (Mrg.rows c)).map fun i => (ws.drop (Mrg.pitch c / 4 * i)).take (2 + Mrg.d c)
        let s := s.setCmd c.id fun x => { x with arrived := true, cycles := 0, partial_ := rows }
        let g := s.mergeGroup c
        if Mrg.n c ≤ g.length then s.mergeDone g else s
      | .fail st => s.finish c.id st 0 c.bytes
      | .waits _ => s
      | .hold => s

/-- CMRG: the command arrives at the cluster reduction unit. -/
def execCmrg (cmd : Nat) (s : State) : Host.Outcome State Fault Refusal :=
  match s.cmdOf cmd 12 with
  | none => .next s
  | some c =>
    if c.arrived || !s.cmdResident c then .next s
    else match (if c.bobj then (s.cmdObject c).map fun _ => true else .ok true : Gets Bool) with
      | .waits ps => .next (s.cmdWait cmd ps)
      | .hold => .next s
      | .fail st => .next (s.setCmd cmd fun c => { c with status := some st, update := none })
      | .ok _ =>
        if !c.headOk then .next (s.finish cmd stBadcmd 0 c.bytes)
        else match s.mergeStatus c with
          | some st => .next (s.finish cmd st 0 c.bytes)
          | none => .next (s.mergeJoin c)

/-- A merge group still incomplete 2^24 cycles after its first arrival (R282). -/
def execMergeGroupTimeout (cmd : Nat) (s : State) : Host.Outcome State Fault Refusal :=
  match s.cmdOf cmd 12 with
  | none => .next s
  | some c =>
    let g := s.mergeGroup c
    if c.arrived && g.any fun x => decide (2 ^ 24 ≤ x.cycles) then
      .next (g.foldl (fun s x => s.finish x.id stTimeout 0 x.bytes) s)
    else .next s

end Sys2Proof.Machine
end

