-- ==== Sys2Proof/Machine/Tokens.lean ====
section
/-! DEFINITION. The end of a command: transfer updates and tokens, and what an error leaves of it (spec/17_engine_instructions.md
R298 to R304, spec/16_engines_rules.md R282, spec/13_consistency_rules.md R227, spec/22_faults_rules.md R387). -/

namespace Sys2Proof.Machine

/-! ## Updates and tokens -/

/-- The commands whose transfer updates come before this one's token: its own, and those of its whole merge group (R282). -/
def State.updatesBefore (s : State) (c : Cmd) : List Cmd := if c.type = 12 && !c.group.isEmpty then c.group.filterMap s.cmd? else [c]

/-- The transfer updates of several commands, until one waits for a page: the state, and whether all are made. -/
def State.makeUpdates (s : State) : List Cmd → State × Bool
  | [] => (s, true)
  | c :: t => match s.transferUpdate c with
    | .ok s => s.makeUpdates t
    | .waits ps => (s.cmdWait c.id ps, false)
    | .hold => (s, false)
    | .fail _ => (s, false)

/-- Result rows whose A registers were written before the token hold undefined words, of those that the command wrote (R227). -/
def State.loseRows (s : State) (c : Cmd) : State :=
  if c.mayLose then
    ((s.rowsLost c).filter fun l => decide (l < c.rp)).foldl (fun s l =>
      s.setCmdSlot c (freeSlot s.fresh c.id (s.cmdSlot c) l (l + 1) 0 (Mma.colsOf c))) s
  else s

/-- ENGINE_TOKEN_WRITE: the transfer update, then the token (R260, R298). A command whose TYPE its engine does not know ends here
with BADCMD. -/
def execEngineTokenWrite (cmd : Nat) (s : State) : Host.Outcome State Fault Refusal :=
  match s.cmd? cmd with
  | none => .next s
  | some c =>
    if !c.waits.isEmpty then .next s
    else match c.status with
    | none => .next (if c.typeOk then s else s.cmdReject c)
    | some _ =>
      let r := s.makeUpdates (s.updatesBefore c)
      match r.2, (r.1.cmd? cmd).bind (·.status) with
      | true, some st => .next ((r.1.loseRows c).tokenWrite c st)
      | _, _ => .next r.1

/-! ## An uncorrectable error in a command (R303, R387) -/

/-- Where a command that has not ended writes in memory and plot, as far as its fields and its lists name it; a merge, in the plot of
the lowest team of its group (R282). -/
def State.destsOf (s : State) (c : Cmd) : List Range :=
  match c.type with
  | 1 => if Mma.mode c = 1 && c.rows.isSome then groupedRest c else []
  | 2 => (List.range (Move.rows c)).map (Move.range c)
  | 5 => (List.range (c.f 160 16 + 1)).map (rowRange (c.bit 257) (c.f 64 64) (c.f 224 32) (c.f 128 32))
  | 6 => [⟨c.table.lsp, c.table.pack, roundUp (c.table.n * c.table.rb) 256⟩]
  | 7 => c.scatRows (s.someIndices c)
  | 8 => match s.gets c ⟨false, c.f 0 64, 32⟩ with
    | .ok db => (List.range (c.f 320 16 + 1)).map fun b =>
        ⟨false, c.f 256 64 + b * c.f 352 32, (field (leNat db) 96 12 + 1) * (if c.bit 386 then 2 else 4)⟩
    | .fail _ => []
    | .waits _ => []
    | .hold => []
  | 9 => match c.walk with
    | some w =>
      let hdr := s.ringHeader c.ref w.hdr
      if w.out then s.drainDests c w else [⟨true, stageAt w.hdr hdr (ringHead hdr), 256 * w.stsz⟩]
    | none => []
  | 12 => if (s.mergeGroup c).any fun x => decide (x.team < c.team) then []
    else (List.range (Mrg.rows c)).map fun i => ⟨true, Mrg.ooff c + i * Mrg.outPitch c, Mrg.outLen c⟩
  | 13 => [⟨false, c.f 224 64, 4 + 4 * c.f 352 32⟩, ⟨false, c.f 288 64, 8 + 8 * c.f 352 32⟩]
  | _ => []

/-- The rest of what a command would have written: slot words, weights, the plots of a multicast's targets. -/
def State.undefine (s : State) (c : Cmd) : State :=
  let slot (r0 r1 c0 c1 : Nat) : State := s.setCmdSlot c (freeSlot s.fresh c.id (s.cmdSlot c) r0 r1 c0 c1)
  match c.type with
  | 1 => if Mma.mode c = 1 || c.rows.isNone then s else slot c.rp (Mma.rowsOf c) 0 (Mma.colsOf c)
  | 3 => slot (Move.frow c) (min 96 (Move.frow c + Move.rows c)) (Move.fcol c) (min 192 (Move.fcol c + Move.cols c))
  | 4 => s.setCmdSlot c ⟨.free (freeIndex s.fresh 26 c.id), []⟩
  | 10 => s.lxwFree c
  | 11 => s.qcastFree c
  | _ => s

/-- The bytes of the transfer update of a command that ends with DATA: of a walk its tiles; of a RAKE none, or those its descriptor
gives, as it has read it or not (R297, R319), which of the two a free choice; of lists, unstated (assumption 4). -/
def State.dataBytes (s : State) (c : Cmd) : Nat :=
  match c.type with
  | 9 => match c.walk with
    | some w => 256 * w.tiles
    | none => match s.headBytes c with
      | .ok m => m
      | .fail _ => s.someBytes c
      | .waits _ => s.someBytes c
      | .hold => s.someBytes c
  | 8 => match s.gets c ⟨false, c.f 0 64, 32⟩ with
    | .ok db => if s.choose 46 c.id 2 == 0 then 0
      else (c.f 320 16 + 1) * (field (leNat db) 96 12 + 1) * (if c.bit 386 then 2 else 4)
    | .fail _ => 0
    | .waits _ => 0
    | .hold => 0
  | 13 => s.someBytes c
  | _ => c.bytes

/-- A command ends with DATA: its destinations are undefined, a walk's ring has ERR set (R286, R302, R303). -/
def State.dataError (s : State) (c : Cmd) : State :=
  let s := ((s.destsOf c).foldl (fun s r => s.scramble c r) s).undefine c
  let s := match c.walk with
    | some w => s.setRing c.ref w.hdr (setErr (s.ringHeader c.ref w.hdr))
    | none => s
  s.finish c.id 12 0 (s.dataBytes c)

end Sys2Proof.Machine
end

