-- ==== Sys2Proof/Machine/Cox.lean ====
section
/-! DEFINITION. The Cox: its accesses to memory, launch records and descriptors, graphs and trays, completions and failures
(spec/19_scheduling_rules.md R330 to R345, R357, spec/03_encoding_rules.md R88, spec/01_execution_rules.md R9,
spec/22_faults_rules.md R388, R389). -/

namespace Sys2Proof.Machine

/-! ## Accesses through the bed's page table (R332, R333, R357) -/

/-- An action of the Cox is done, or must wait: for pages of a bed, or for the commit of a migrating page (R209). -/
inductive Cox (α : Type) where
  | ok (a : α)
  | waits (bed : Nat) (pages : List PageReq)
  | held (page : Nat)

def Cox.bind {α β : Type} (x : Cox α) (f : α → Cox β) : Cox β :=
  match x with
  | .ok a => f a
  | .waits b ps => .waits b ps
  | .held p => .held p

def Cox.map {α β : Type} (x : Cox α) (f : α → β) : Cox β := x.bind fun a => .ok (f a)

/-- Several in order. -/
def Cox.each {α β : Type} (f : α → Cox β) : List α → Cox (List β)
  | [] => .ok []
  | x :: t => (f x).bind fun y => (Cox.each f t).bind fun ys => .ok (y :: ys)

/-- The parts of an access of the Cox; none where the MMP cannot back a page or a right is missing. -/
def State.coxParts (s : State) (bed : Nat) (right : Right) (a : Dword) (n : Nat) : Cox (Option (List Part)) :=
  let answered : List PageAns := s.coxWaits.filterMap fun w =>
    if w.bed == bed then w.answer.map fun b => ⟨w.page, b, w.fw, w.right⟩ else none
  match s.translate bed answered right a n with
  | .ok ps => .ok (some ps)
  | .deny _ => .ok none
  | .fault rs => .waits bed rs

/-- A read: none where it cannot be made; a sector with a held write is read after the commit (R209). -/
def State.coxRead (s : State) (bed : Nat) (a : Dword) (n : Nat) : Cox (Option (List Byte)) :=
  (s.coxParts bed .read a n).bind fun o => match o with
    | none => .ok none
    | some ps => match ps.findSome? s.partWaits with
      | some pg => .held pg
      | none => .ok (some (s.readParts ps))

/-- The Cox has asked the MMP for pages. -/
def State.coxAsk (s : State) (bed : Nat) (pages : List PageReq) : State :=
  { s with coxWaits := s.coxWaits ++ ((pages.filter fun p =>
      !(s.coxWaits.any fun w => w.bed == bed && w.page == p.page && w.right == p.right && w.answer.isNone)).map fun p =>
        { bed := bed, page := p.page, right := p.right, fw := p.fw, answer := none }) }

/-- The Cox has finished an action of a bed: it no longer needs the answers. -/
def State.coxForget (s : State) (bed : Nat) : State :=
  { s with coxWaits := s.coxWaits.filter fun w => !(w.bed == bed && w.answer.isSome) }

/-! ## What a completion does outside the Cox (R333, R357, R388) -/

/-- The Cox's strong write, a release at SYSTEM scope of what happens before the completion it tells of (R220, R333, R357). -/
def State.coxStrong (s : State) (seen : Clock) (rmw : Bool) : Strong := s.releaseBy .cox .system seen rmw

/-- One act: a write, or one more on the COUNT of an event object, each skipped where R333 or R357 says so; a message, whose receipt
the companion acquires by (R220). -/
def State.coxAct (s : State) (bed : Nat) (seen : Clock) : CoxAct → Cox State
  | .write a bs => (s.coxParts bed .write a bs.length).map fun o => match o with
    | some ps => s.releaseParts (s.coxStrong seen false) ps bs
    | none => s
  | .add a => (s.coxParts bed .atomic a 8).map fun o => match o with
    | some (p :: _) =>
      if a.toNat % 8 ≠ 0 || decide (2 ≤ p.kind) then s
      else s.makePart p { op := .atomic .add .b64 1, who := .cox, strong := some (s.coxStrong seen true) }
    | some [] => s
    | none => s
  | .message kind id aux tag => .ok ((s.message bed kind id aux tag).learn (.agent .companion) (Clock.join (s.upTo .cox) seen))

/-- Acts in order, of a completion; those from one whose page must be served first on wait for it. `seen`: what happens before the
completion. -/
def State.post (s : State) (bed : Nat) (seen : Clock) : List CoxAct → State
  | [] => s
  | a :: t => match s.coxAct bed seen a with
    | .ok s => s.post bed seen t
    | .waits b ps => { s.coxAsk b ps with posts := s.posts ++ [{ bed := bed, acts := a :: t, seen := seen }] }
    | .held _ => { s with posts := s.posts ++ [{ bed := bed, acts := a :: t, seen := seen }] }

/-- The acts that waited go on. -/
def State.retryPosts (s : State) (bed : Nat) : State :=
  let mine := s.posts.filter fun p => p.bed == bed
  let others : State := { s with posts := s.posts.filter fun p => p.bed != bed }
  if mine.isEmpty then s else (mine.foldl (fun (s : State) p => s.post bed p.seen p.acts) others).coxForget bed

/-- One more on an event object, none for address 0. -/
def eventAct (a : Dword) : List CoxAct := if a = 0 then [] else [.add a]

/-- The status doubleword of a record (R333), none for address 0. -/
def statAct (stat : Dword) (state id : Nat) : List CoxAct :=
  if stat = 0 then [] else [.write stat (natBytes 8 (id % 2 ^ 32 + 2 ^ 32 * state))]

/-- A message where its record asks for one. -/
def msgAct (irq : Bool) (kind id aux : Nat) (tag : Word) : List CoxAct := if irq then [.message kind id aux tag] else []

/-! ## Kernel and node descriptors (R9, R88, R335, R336) -/

/-- A kernel descriptor, if it meets R88 and R9. -/
def parseKernel (bs : List Byte) : Option Kernel :=
  let x := leNat bs
  let crew := field x 128 2
  let w := 16 * 2 ^ crew
  let n := field x 130 5 + 1
  let pair := bit x 135
  let vregs := 16 * (field x 136 5 + 1)
  let acc := field x 141 3
  let plot := roundUp (field x 160 32) 256
  let cplot := roundUp (field x 192 32) 256
  let perCore := if pair then (n + 1) / 2 else n
  if field x 224 288 ≠ 0 ∨ field x 144 16 ≠ 0 ∨ crew = 3 ∨ 4 < acc ∨ field x 0 64 % 8 ≠ 0 ∨
      (if pair then 2048 else 1024) < n * w ∨ (pair = true ∧ n < 2) ∨ Config.plotBytes < plot + cplot ∨
      Config.regWords < perCore * w * vregs then none
  else some { entry := BitVec.ofNat 64 (field x 0 64), handler := BitVec.ofNat 64 (field x 64 64), width := w, crews := n,
              pair := pair, vregs := vregs, acc := acc, plot := plot, cplot := cplot }

/-- What reading a descriptor gives: it breaks a rule, or cannot be read. -/
inductive Desc (α : Type) where
  | good (a : α)
  | bad
  | unread

/-- The kernel descriptor at an address. -/
def State.readKernel (s : State) (bed : Nat) (a : Dword) : Cox (Desc Kernel) :=
  (s.coxRead bed a 64).map fun o => match o with
    | none => .unread
    | some bs => match parseKernel bs with
      | some k => .good k
      | none => .bad

/-- A node descriptor with its kernel (R336). -/
def parseNode (x : Nat) (k : Kernel) : Option Node :=
  let rsz := field x 192 16
  let coal := field x 208 13
  let tcap := if field x 320 16 = 0 then 4096 else field x 320 16
  let ord := bit x 264
  let keyoff := field x 272 8
  let rpoff := field x 288 32
  if field x 336 176 ≠ 0 ∨ field x 280 8 ≠ 0 ∨ field x 266 6 ≠ 0 ∨ field x 221 3 ≠ 0 ∨ rsz < 16 ∨ 256 < rsz ∨ rsz % 4 ≠ 0 ∨
      coal = 0 ∨ 4096 < coal ∨ tcap < coal ∨ (ord = true ∧ (keyoff % 4 ≠ 0 ∨ rsz < keyoff + 4)) ∨ rpoff % 16 ≠ 0 ∨
      bit rpoff 31 = true ∨ k.plot < rpoff + coal * rsz then none
  else some { kernel := k, rsz := rsz, coal := coal, flush := field x 224 32, prio := field x 256 8, ord := ord, keyoff := keyoff,
              ublk := BitVec.ofNat 64 (field x 64 64), nevent := BitVec.ofNat 64 (field x 128 64), nirq := bit x 265,
              tcap := tcap, rpoff := rpoff, tray := [], fired := 0, streams := [] }

/-- A kernel that breaks nothing a node descriptor itself states (R336): with it, the descriptor is judged alone. -/
def anyKernel : Kernel :=
  { entry := 0, handler := 0, width := 16, crews := 1, pair := false, vregs := 16, acc := 0, plot := 2 ^ 64, cplot := 0 }

/-- The node descriptor at an address, and its priority, which is tested apart (R332): what it states itself is tested though its
kernel descriptor cannot be read. -/
def State.readNode (s : State) (bed : Nat) (a : Dword) : Cox (Desc Node × Option Nat) :=
  (s.coxRead bed a 64).bind fun o => match o with
    | none => .ok (.unread, none)
    | some bs =>
      let x := leNat bs
      let kd := BitVec.ofNat 64 (field x 0 64)
      let prio := some (field x 256 8)
      if kd.toNat % 64 ≠ 0 then .ok (.bad, prio)
      else (s.readKernel bed kd).map fun d => match d with
        | .unread => (if (parseNode x anyKernel).isNone then .bad else .unread, prio)
        | .bad => (.bad, prio)
        | .good k => match parseNode x k with
          | some n => (.good n, prio)
          | none => (.bad, prio)

/-! ## Launch records (R330, R332) -/

namespace Record
def kdesc (h : Nat) : Dword := BitVec.ofNat 64 (field h 0 64)
def teams (h : Nat) : Nat := field h 64 32
def prio (h : Nat) : Nat := field h 96 8
def dbg (h : Nat) : Bool := bit h 104
def graph (h : Nat) : Bool := bit h 105
def irq (h : Nat) : Bool := bit h 106
def tev (h : Nat) : Bool := bit h 107
def close (h : Nat) : Bool := bit h 108
def valid (h : Nat) : Bool := bit h 111
def rfl_ (h : Nat) : Nat := field h 128 32
def parkt (h : Nat) : Nat := field h 160 32
def slice (h : Nat) : Nat := field h 192 32
def inst (h : Nat) : Nat := field h 224 12
def event (h : Nat) : Dword := BitVec.ofNat 64 (field h 256 64)
def stat (h : Nat) : Dword := BitVec.ofNat 64 (field h 320 64)
def tag (h : Nat) : Word := BitVec.ofNat 32 (field h 384 32)
def entry (h : Nat) : Nat := field h 64 12
def nodes (h : Nat) : Nat := field h 76 12 + 1
end Record

def State.graph? (s : State) (bed inst : Nat) : Option Graph := s.graphs.find? fun g => g.bed == bed && g.inst == inst

def State.setGraph (s : State) (bed inst : Nat) (f : Graph → Graph) : State :=
  { s with graphs := mapIf (fun g => g.bed == bed && g.inst == inst) f s.graphs }

def State.setNode (s : State) (bed inst node : Nat) (f : Node → Node) : State :=
  s.setGraph bed inst fun g => { g with nodes := modifyAt g.nodes node f }

/-- Launches and graph instances of a bed that have not completed. -/
def State.loadOf (s : State) (bed : Nat) : Nat :=
  (s.launches.filter (·.bed == bed)).length + (s.graphs.filter (·.bed == bed)).length

/-- A priority level of the bed. -/
def Bed.prioOk (b : Bed) (p : Nat) : Bool :=
  let x := b.block.prio.toNat
  decide (field x 0 8 ≤ p ∧ p ≤ field x 8 8)

/-- Cause 5: the header alone (R332). -/
def State.recordBad (s : State) (bed : Nat) (h : Nat) : Bool :=
  let g := s.graph? bed (Record.inst h)
  !Record.valid h || field h 416 96 != 0 || field h 236 20 != 0 || field h 112 16 != 0 || field h 109 2 != 0 ||
    (Record.kdesc h).toNat % 64 != 0 ||
    (if Record.graph h then
      Record.prio h != 0 || field h 88 8 != 0 || decide (4095 < Record.nodes h) || decide (4094 < Record.inst h) ||
        (Record.entry h != 0xFFF && decide (Record.nodes h ≤ Record.entry h)) ||
        (if Record.close h then !((g.map (·.hold)).getD false) else g.isSome)
    else Record.close h || Record.inst h != 0)

/-- The next %launchid: not in use, below 0xFFFF_FF00 (R333). -/
def State.launchId (s : State) (bed : Nat) : Nat := go 65537 (s.bed bed).nextLaunch
where
  go : Nat → Nat → Nat
  | 0, n => n
  | f + 1, n =>
    let n := n % 0xFFFFFF00
    if (s.launch? bed n).isSome then go f (n + 1) else n

/-- The words of a launch-uniform block. -/
def blockWords (bs : List Byte) : List Word := bytesWords (bs.take 256)

/-- The first cause in table order of those that hold (R332). -/
def firstCause (l : List (Bool × Nat)) : Option Nat := (l.find? (·.1)).map (·.2)

/-- A KIND 0 record accepted: a launch, in the pool (R344), whose teams' start its sender releases to (R220). -/
def State.addLaunch (s : State) (bed : Nat) (h : Nat) (body : List Byte) (k : Kernel) (seen : Clock) : State × Nat :=
  let id := s.launchId bed
  let la : Launch :=
    { bed := bed, id := id, kernel := k, teams := Record.teams h + 1, prio := Record.prio h, rfl := Record.rfl_ h,
      parkt := Record.parkt h, slice := Record.slice h, dbg := Record.dbg h, stat := Record.stat h, event := Record.event h,
      tag := Record.tag h, irq := Record.irq h, tev := Record.tev h, ublk := blockWords body, ublkAddr := none, firing := none,
      begun := [], retired := 0, mixed := [], held := false, entryTime := s.clock, failed := false }
  let s := s.setBed bed fun b => { b with nextLaunch := (id + 1) % 0xFFFFFF00, idle := false }
  ({ s.learn (.launch bed id) seen with
            launches := s.launches ++ [la]
            pool := s.pool ++ [{ bed := bed, launch := id, team := none, time := s.clock, passes := 0 }] }, id)

/-- A KIND 1 record accepted: a graph instance, with the entry record in its tray or a standing hold (R334). -/
def State.addGraph (s : State) (bed : Nat) (h : Nat) (body : List Byte) (nodes : List Node) (seen : Clock) : State :=
  let entry := Record.entry h
  let nodes := modifyAt nodes entry fun n => { n with tray := [{ bytes := body.take n.rsz, age := 0, seen := seen }] }
  let g : Graph :=
    { bed := bed, inst := Record.inst h, nodes := nodes, count := 1, hold := entry == 0xFFF, dbg := Record.dbg h,
      rfl := Record.rfl_ h, parkt := Record.parkt h, slice := Record.slice h, stat := Record.stat h, event := Record.event h,
      tag := Record.tag h, irq := Record.irq h }
  { s with graphs := s.graphs ++ [g] }

/-! ## Completion of instances (R339, R357) -/

/-- An instance's count has changed: at zero it completes, its number is free and its trays are empty. -/
def State.graphDone (s : State) (bed inst : Nat) : State :=
  match s.graph? bed inst with
  | none => s
  | some g =>
    if g.count ≠ 0 then s
    else
      let gone (n : Point) : Bool := match n with
        | .node b i _ => b == bed && i == inst
        | .graph b i => b == bed && i == inst
        | .stream b i _ _ => b == bed && i == inst
        | _ => false
      let t := s.post bed (s.knows (.graph bed inst)) (eventAct g.event ++ statAct g.stat 3 inst ++ msgAct g.irq 3 inst 0 g.tag)
      { t.forgetPoints gone with graphs := s.graphs.filter fun x => !(x.bed == bed && x.inst == inst) }

/-- A change of the outstanding count. -/
def State.countBy (s : State) (bed inst : Nat) (d : Int) : State :=
  (s.setGraph bed inst fun g => { g with count := (g.count + d).toNat }).graphDone bed inst

/-- A node's count, records and unretired teams, has become zero (R357). -/
def State.nodeDone (s : State) (bed inst node : Nat) : State :=
  match s.graph? bed inst with
  | none => s
  | some g => match g.nodes[node]? with
    | none => s
    | some n =>
      if !n.tray.isEmpty || n.fired != 0 then s
      else s.post bed (s.knows (.node bed inst node)) (eventAct n.nevent ++ msgAct n.nirq 2 inst node g.tag)

/-! ## Trays (R337 to R339, R342) -/

/-- The stream key of a record. -/
def Node.keyOf (n : Node) (r : Rec) : Option Word :=
  if n.ord then some (BitVec.ofNat 32 (leNat ((r.bytes.drop n.keyoff).take 4))) else none

/-- The records of a stream, oldest first; all of an unordered node. -/
def Node.stream (n : Node) (key : Option Word) : List Rec := n.tray.filter fun r => n.keyOf r == key

/-- The tray without the first `k` records of a stream. -/
def dropStream (n : Node) (key : Option Word) : Nat → List Rec → List Rec
  | _, [] => []
  | k, r :: t => if n.keyOf r == key then (match k with
      | 0 => r :: dropStream n key 0 t
      | k + 1 => dropStream n key k t)
    else r :: dropStream n key k t

/-- A stream may fire: it holds COAL records, or its oldest has waited FLUSH cycles. -/
def Node.fires (n : Node) (key : Option Word) : Bool :=
  let rs := n.stream key
  decide (n.coal ≤ rs.length) || (n.flush != 0 && (match rs with
    | r :: _ => decide (n.flush ≤ r.age)
    | [] => false))

/-- The launch-uniform block of a firing: words 0 to 59 of the template, then the firing's own words (R338). -/
def firingBlock (template : List Word) (f : Firing) : List Word :=
  ((List.range 60).map fun i => (template[i]?).getD 0) ++
    [BitVec.ofNat 32 f.recs.length, f.key.getD 0, BitVec.ofNat 32 f.inst, BitVec.ofNat 32 f.node]

/-- A launch joins the end of its stream. -/
def joinStream (key : Option Word) (id : Nat) (l : List (Word × List Nat)) : List (Word × List Nat) :=
  match key with
  | none => l
  | some k =>
    if l.any (fun x => x.1 == k) then mapIf (fun x : Word × List Nat => x.1 == k) (fun x => (k, x.2 ++ [id])) l else l ++ [(k, [id])]

/-- A tray has room for a record. -/
def State.trayRoom (s : State) (bed inst node : Nat) : Bool :=
  match (s.graph? bed inst).bind fun g => g.nodes[node]? with
  | none => false
  | some n => decide (n.tray.length < n.tcap)

/-- A record joins a tray; the bed's clocks run again (R400). -/
def State.trayPut (s : State) (bed inst node : Nat) (bytes : List Byte) (seen : Clock) : State :=
  (s.setBed bed fun b => { b with idle := false }).setNode bed inst node fun n =>
    { n with tray := n.tray ++ [{ bytes := bytes, age := 0, seen := seen }] }

/-- A record reaches a tray, or finds it full (R339, R360). -/
def State.arrive (s : State) (bed inst node : Nat) (bytes : List Byte) (seen : Clock) : State × Bool :=
  if s.trayRoom bed inst node then
    ((s.trayPut bed inst node bytes seen).setGraph bed inst fun g => { g with count := g.count + 1 }, true)
  else (s, false)

/-! ## Streams (R342, R343) -/

/-- A launch releases its stream, the first time it may: its successor enters the pool. `seen`: what happens before the release, and
so before the successor's start (R231). -/
def State.releaseStream (s : State) (bed id : Nat) (seen : Clock) : State :=
  match (s.launch? bed id).bind (·.firing) with
  | none => s
  | some f => match f.key with
    | none => s
    | some k =>
      let queue := ((((s.graph? bed f.inst).bind fun g => g.nodes[f.node]?).bind fun n =>
        n.streams.find? fun x => x.1 == k).map (·.2)).getD []
      if !queue.contains id then s
      else
        let rest := queue.filter (· != id)
        let s := s.setNode bed f.inst f.node fun n =>
          { n with streams := (n.streams.filter fun x => x.1 != k) ++ (if rest.isEmpty then [] else [(k, rest)]) }
        let s := s.learn (.stream bed f.inst f.node k) seen
        match rest with
        | [] => s
        | next :: _ =>
          let held := ((s.launch? bed next).map (·.held)).getD false
          if !held then s
          else
            let time := ((s.launch? bed next).map (·.entryTime)).getD s.clock
            let s := (s.setLaunch bed next fun l => { l with held := false }).learn (.launch bed next)
              (s.knows (.stream bed f.inst f.node k))
            { s with pool := s.pool ++ [{ bed := bed, launch := next, team := none, time := time, passes := 0 }] }

/-! ## The end of a launch (R357, R388) -/

/-- A firing's launch has ended: its node and its instance count it (R339). `seen`: what its team did and knew; nothing, of one that
has failed (R388). -/
def State.firingEnded (s : State) (bed id : Nat) (seen : Clock) : State :=
  match (s.launch? bed id).bind (·.firing) with
  | none => s
  | some f =>
    let s := (s.learn (.node bed f.inst f.node) seen).learn (.graph bed f.inst) seen
    let s := (s.releaseStream bed id seen).setNode bed f.inst f.node fun n => { n with fired := n.fired - 1 }
    (s.nodeDone bed f.inst f.node).countBy bed f.inst (-1)

/-- The clocks of teams that are gone, their threads, barriers, stages and commands, and what they have heard are of no more use. -/
def State.sweepTeams (s : State) (mine : TeamRef → Bool) : State :=
  let gone (n : Point) : Bool := match n with
    | .agent (.thread t _) => mine t
    | .team t => mine t
    | .bar t _ _ => mine t
    | .stage t _ _ => mine t
    | .commands t => mine t
    | _ => false
  { s.forgetPoints gone with heard := s.heard.filter fun h => match h.mark.home.team with
    | some t => !mine t
    | none => true }

/-- The same of a launch, its teams and its crews' tokens. -/
def State.sweep (s : State) (bed id : Nat) : State :=
  let gone (n : Point) : Bool := match n with
    | .launch b l => b == bed && l == id
    | .retired b l => b == bed && l == id
    | .token cid _ => (s.crews ++ s.teams.flatMap (·.saved)).all fun c => c.cid != cid || (c.bed == bed && c.launch == id)
    | _ => false
  (s.sweepTeams fun t => t.bed == bed && t.launch == id).forgetPoints gone

/-- What a launch held is gone: its teams, crews, bins, pool entries, shared plot, plot marks. -/
def State.dropLaunch (s : State) (bed id : Nat) : State :=
  { s.sweep bed id with
    launches := s.launches.filter fun l => !(l.bed == bed && l.id == id)
    teams := s.teams.filter fun t => !(t.ref.bed == bed && t.ref.launch == id)
    crews := s.crews.filter fun c => !(c.bed == bed && c.launch == id)
    bins := s.bins.filter fun b => !(b.bed == bed && b.launch == id)
    pool := s.pool.filter fun e => !(e.bed == bed && e.launch == id)
    shared := s.shared.filter fun p => !(p.bed == bed && p.launch == id)
    plotMarks := s.plotMarks.filter fun m => !(m.bed == bed && m.launch == id)
    cmds := s.cmds.filter fun c => !(c.bed == bed && c.launch == id) }

/-- A launch whose teams have all retired completes. -/
def State.launchDone (s : State) (bed id : Nat) : State :=
  match s.launch? bed id with
  | none => s
  | some la =>
    let seen := s.knows (.retired bed id)
    ((s.post bed seen (eventAct la.event ++ statAct la.stat 3 id ++ msgAct la.irq 1 id 0 la.tag)).firingEnded bed id seen).dropLaunch
      bed id

/-- The failed launches whose commands have all ended free what they held and report (R388, steps 3 and 4). -/
def State.settleFailed (s : State) : State :=
  (s.launches.filter fun l => l.failed && !(s.cmds.any fun c => c.bed == l.bed && c.launch == l.id)).foldl (fun s l =>
    ((s.post l.bed (s.knows (.retired l.bed l.id)) (statAct l.stat 4 l.id ++ eventAct l.event ++ msgAct l.irq 4 l.id 0 l.tag)).firingEnded
      l.bed l.id []).dropLaunch l.bed l.id) s

/-- A command that its launch's failure stops: a matrix command, at a row boundary, and a walk, unless it has ended already. -/
def Cmd.stops (c : Cmd) : Bool := c.status.isNone && c.typeOk && (c.queue == 0 || c.type == 9)

/-- It ends there, and its transfer update is due as of every command that ends (R298, R388); its token will be discarded. -/
def State.stopCmd (s : State) (c : Cmd) : State :=
  let m := match c.walk with
    | some w => 256 * w.tiles
    | none => match s.headBytes c with
      | .ok m => m
      | .fail _ => s.someBytes c
      | .waits _ => s.someBytes c
      | .hold => s.someBytes c
  (s.finish c.id 0 0 m).setCmd c.id fun x => { x with waits := [] }

/-- The pages a fault-parked lane waits for. -/
def Wait.pages : Wait → List Nat
  | .parked ps => ps.map (·.page)
  | _ => []

/-- The pages that fault-parked lanes of some crews wait for: the MMP completes the service of lanes that are discarded (R204). -/
def State.requestsOf (s : State) (which : Crew → Bool) : List (Nat × Nat) :=
  (s.crews.filter which).flatMap fun c => c.live.flatMap fun l => match c.thread? l with
    | some t => t.wait.pages.map fun p => (c.bed, p)
    | none => []

/-- A launch fails (R388): its threads stop, its pool entries and bins go, matrix commands and walks stop; what else it has in flight
runs on to its end, and once every command has ended the launch does. -/
def State.failLaunch (s : State) (bed id : Nat) : State :=
  match s.launch? bed id with
  | none => s
  | some la =>
    if la.failed then s
    else
      let mine (b l : Nat) : Bool := b == bed && l == id
      let s := (s.cmds.filter fun c => mine c.bed c.launch && c.stops).foldl (fun s c => s.stopCmd c) s
      let s : State := { s with
        crews := s.crews.filter fun c => !mine c.bed c.launch
        teams := mapIf (fun t => mine t.ref.bed t.ref.launch)
          (fun t => { t with saved := [], parked := false, conds := [], leaving := none, stepping := [], stepped := [] }) s.teams
        bins := s.bins.filter fun b => !mine b.bed b.launch
        pool := s.pool.filter fun e => !mine e.bed e.launch
        orphans := s.orphans ++ s.requestsOf fun c => mine c.bed c.launch }
      (s.setLaunch bed id fun l => { l with failed := true, ublkAddr := none }).settleFailed

/-! ## Firings (R337, R338) -/

/-- The template of a firing is read, through the bed's page table, at the firing or, where its page must be served first, as soon
as it is; a launch whose template cannot be read fails (R338). -/
def State.readTemplate (s : State) (bed id : Nat) : State :=
  match s.launch? bed id with
  | none => s
  | some la => match la.ublkAddr, la.firing with
    | some a, some f => (match s.coxRead bed a 256 with
      | .waits b ps => s.coxAsk b ps
      | .held _ => s
      | .ok none => (s.coxForget bed).failLaunch bed id
      | .ok (some bs) => (s.coxForget bed).setLaunch bed id fun l =>
          { l with ublk := firingBlock (blockWords bs) f, ublkAddr := none })
    | _, _ => s

/-- The templates of a bed's firings that are not read yet. -/
def State.readTemplates (s : State) (bed : Nat) : State :=
  (s.launches.filter fun l => l.bed == bed && l.ublkAddr.isSome).foldl (fun s l => s.readTemplate bed l.id) s

/-- A firing: a launch of one team, held while its stream's predecessor has not released it (R338, R342). Before its team's start
happens what its records' senders knew, and the release that let it begin (R220). -/
def State.fire (s : State) (bed inst node : Nat) (key : Option Word) : State :=
  match s.graph? bed inst with
  | none => s
  | some g => match g.nodes[node]? with
    | none => s
    | some n =>
      let rs := (n.stream key).take n.coal
      if rs.isEmpty then s
      else
        let id := s.launchId bed
        let f : Firing := { inst := inst, node := node, key := key, recs := rs.map (·.bytes) }
        let queue : List Nat := match key with
          | some k => ((n.streams.find? fun x : Word × List Nat => x.1 == k).map (·.2)).getD []
          | none => []
        let la : Launch :=
          { bed := bed, id := id, kernel := n.kernel, teams := 1, prio := n.prio, rfl := g.rfl, parkt := g.parkt, slice := g.slice,
            dbg := g.dbg, stat := 0, event := 0, tag := g.tag, irq := false, tev := false, ublk := firingBlock [] f,
            ublkAddr := if n.ublk = 0 then none else some n.ublk, firing := some f, begun := [], retired := 0, mixed := [],
            held := !queue.isEmpty, entryTime := s.clock, failed := false }
        let s := s.setNode bed inst node fun n =>
          { n with tray := dropStream n key rs.length n.tray, fired := n.fired + 1, streams := joinStream key id n.streams }
        let s := s.setGraph bed inst fun g => { g with count := g.count + 1 - rs.length }
        let s := s.setBed bed fun b => { b with nextLaunch := (id + 1) % 0xFFFFFF00 }
        let e : PoolEntry := { bed := bed, launch := id, team := none, time := s.clock, passes := 0 }
        let s := s.learn (.launch bed id) (rs.foldl (fun k r => Clock.join k r.seen) (match key with
          | some k => if la.held then [] else s.knows (.stream bed inst node k)
          | none => []))
        let s : State := { s with launches := s.launches ++ [la], pool := if la.held then s.pool else s.pool ++ [e] }
        s.readTemplate bed id

/-- The streams of a tray that hold COAL records fire, again and again. -/
def State.fireFull (s : State) (bed inst node : Nat) : State :=
  match (s.graph? bed inst).bind fun g => g.nodes[node]? with
  | none => s
  | some n => n.tray.foldl (fun s r => match (s.graph? bed inst).bind fun g => g.nodes[node]? with
    | some m => if m.coal ≤ (m.stream (m.keyOf r)).length then s.fire bed inst node (m.keyOf r) else s
    | none => s) s

/-- The trays of every instance that hold COAL records fire (R337). -/
def State.fireTrays (s : State) : State :=
  (s.graphs.flatMap fun g => (List.range g.nodes.length).map fun i => (g.bed, g.inst, i)).foldl
    (fun s t => if (s.bed t.1).fenced then s else s.fireFull t.1 t.2.1 t.2.2) s

/-! ## Acceptance -/

/-- What became of a record: accepted with an identifier, or refused with a code (R332, R361). -/
inductive Verdict where
  | accepted (id : Nat)
  | refused (code : Nat)
  deriving DecidableEq, Repr

/-- A refusal's status: none for a bed that is off; for a fenced one only where its page is mapped (R332). -/
def State.refuse (s : State) (bed : Nat) (h code : Nat) : Cox (State × Verdict) :=
  let acts := statAct (Record.stat h) 2 code
  .ok (if code = 8 then s
    else if code = 7 then (match (s.coxParts bed .write (Record.stat h) 8) with
      | .ok _ => s.post bed [] acts
      | .waits _ _ => s
      | .held _ => s)
    else s.post bed [] acts, .refused code)

/-- An acceptance's status. -/
def State.admitted (s : State) (bed : Nat) (h id : Nat) : Cox (State × Verdict) :=
  .ok (s.post bed [] (statAct (Record.stat h) 1 id), .accepted id)

/-- A record is accepted or refused once; `priv` says whether its sender may set DBG, `seen` what happens before its sending. -/
def State.submit (s : State) (bed : Nat) (bs : List Byte) (priv : Bool) (seen : Clock) : Cox (State × Verdict) :=
  let h := leNat (bs.take 64)
  let body := bs.drop 64
  let b := s.bed bed
  let full := decide (65536 ≤ s.loadOf bed)
  let noPriv := Record.dbg h && !priv
  let bad := s.recordBad bed h
  let readable := (Record.kdesc h).toNat % 64 == 0
  if !b.on then s.refuse bed h 8
  else if b.fenced then s.refuse bed h 7
  else if Record.close h then
    match firstCause [(!Record.graph h && !b.prioOk (Record.prio h), 2), (full, 3), (noPriv, 4), (bad, 5)] with
    | some code => s.refuse bed h code
    | none => ((s.setGraph bed (Record.inst h) fun g => { g with hold := false }).countBy bed (Record.inst h) (-1)).admitted bed h
        (Record.inst h)
  else if Record.graph h then
    let addr (i : Nat) : Dword := Record.kdesc h + BitVec.ofNat 64 (64 * i)
    (if readable then Cox.each (fun i => s.readNode bed (addr i)) (List.range (Record.nodes h)) else .ok []).bind fun ds =>
      let isBad := ds.any fun d => match d.1 with
        | .bad => true
        | .good _ => false
        | .unread => false
      let unread := ds.any fun d => match d.1 with
        | .unread => true
        | .good _ => false
        | .bad => false
      let prio := ds.any fun d => match d.2 with
        | some p => !b.prioOk p
        | none => false
      match firstCause [(isBad, 1), (prio, 2), (full, 3), (noPriv, 4), (bad, 5), (unread, 6)] with
      | some code => s.refuse bed h code
      | none =>
        let nodes := ds.filterMap fun d => match d.1 with
          | .good n => some n
          | .bad => none
          | .unread => none
        ((s.addGraph bed h body nodes seen).fireFull bed (Record.inst h) (Record.entry h)).admitted bed h (Record.inst h)
  else
    (if readable then s.readKernel bed (Record.kdesc h) else .ok .unread).bind fun d =>
      let isBad := match d with
        | .bad => true
        | .good _ => false
        | .unread => false
      let unread := match d with
        | .unread => readable
        | .good _ => false
        | .bad => false
      match firstCause [(isBad, 1), (!b.prioOk (Record.prio h), 2), (full, 3), (noPriv, 4), (bad, 5), (unread, 6)], d with
      | some code, _ => s.refuse bed h code
      | none, .good k =>
        let (s, id) := s.addLaunch bed h body k seen
        s.admitted bed h id
      | none, .bad => s.refuse bed h 1
      | none, .unread => s.refuse bed h 6

/-! ## A fenced bed (R389) -/

/-- A tray discards its records, which are then no longer in flight. -/
def State.discardTray (s : State) (bed inst node : Nat) : State :=
  let k := ((((s.graph? bed inst).bind fun g => g.nodes[node]?).map (·.tray)).getD []).length
  if k = 0 then s
  else ((s.setNode bed inst node fun n => { n with tray := [] }).nodeDone bed inst node).countBy bed inst (-(k : Int))

/-- A bed is fenced (R389): its launches fail, its trays discard their records, a message tells the companion. -/
def State.fenceBed (s : State) (bed : Nat) : State :=
  let s := s.setBed bed fun b => { b with fenced := true }
  let ids := (s.launches.filter fun l => l.bed == bed).map (·.id)
  let trays := (s.graphs.filter fun g => g.bed == bed).flatMap fun g => (List.range g.nodes.length).map fun i => (g.inst, i)
  let s := ids.foldl (fun s id => s.failLaunch bed id) s
  (trays.foldl (fun s t => s.discardTray bed t.1 t.2) s).message bed 6 0 0 0

end Sys2Proof.Machine
end

