-- ==== Sys2Proof/Machine/Place.lean ====
section
/-! DEFINITION. Placement, dispatch, pre-emption and parking (spec/19_scheduling_rules.md R344 to R356, R364,
spec/01_execution_rules.md R10 to R12, R28 to R30, R47, R48, spec/16_engines_rules.md R272, R283, R287,
spec/22_faults_rules.md R373, R374, R381). -/

namespace Sys2Proof.Machine

/-! ## What a cluster has left (R28, R347) -/

/-- The slots in use in a cluster: core, slot, width, register words. A claimed slot counts whether or not a crew stands in it;
a slot whose claimant has retired counts while it holds a crew (R30). -/
def State.usedSlots (s : State) (cluster : Nat) : List (Nat × Nat × Nat × Nat) :=
  let claimed := s.teams.flatMap fun t => match t.place, s.kernel? t.ref.bed t.ref.launch with
    | some p, some k => if p.cluster == cluster then p.claims.map fun c => (c.1, c.2, k.width, k.width * k.vregs) else []
    | _, _ => []
  let stray := (s.crews.filter fun c => c.cluster == cluster && !(claimed.any fun x => x.1 == c.core && x.2.1 == c.slot)).map
    fun c => (c.core, c.slot, c.width, c.width * ((s.kernel? c.bed c.launch).map (·.vregs)).getD 0)
  claimed ++ stray

/-- The free crew slots of a core, ascending. -/
def freeSlotsOf (used : List (Nat × Nat × Nat × Nat)) (core : Nat) : List Nat :=
  (List.range Config.crewSlots).filter fun i => !(used.any fun x => x.1 == core && x.2.1 == i)

/-- The free thread slots of a core. -/
def freeThreadsOf (used : List (Nat × Nat × Nat × Nat)) (core : Nat) : Nat :=
  Config.threadSlots - ((used.filter fun x => x.1 == core).map (·.2.2.1)).sum

def freeWordsOf (used : List (Nat × Nat × Nat × Nat)) (core : Nat) : Nat :=
  Config.regWords - ((used.filter fun x => x.1 == core).map (·.2.2.2)).sum

/-- The resident teams of a cluster. -/
def State.residents (s : State) (cluster : Nat) : List Team :=
  s.teams.filter fun t => (t.place.map fun p => p.cluster == cluster).getD false

/-- The accumulator slots claimed on a core. -/
def State.accUsed (s : State) (cluster core : Nat) : Nat :=
  ((s.residents cluster).map fun t =>
    if (t.place.map fun p => p.cores.contains core).getD false then
      ((s.kernel? t.ref.bed t.ref.launch).map (·.acc)).getD 0 else 0).sum

/-- The pair-barrier contexts in use on a pair. -/
def State.pairUsed (s : State) (cluster k : Nat) : Nat :=
  ((s.residents cluster).filter fun t =>
    ((s.kernel? t.ref.bed t.ref.launch).map (·.pair)).getD false && (t.place.map fun p => p.cores.contains (2 * k)).getD false).length

/-- The free plot bytes of a cluster. -/
def State.freePlot (s : State) (cluster : Nat) : Nat :=
  Config.plotBytes -
    (((s.residents cluster).map fun t => ((s.kernel? t.ref.bed t.ref.launch).map (·.plot)).getD 0).sum +
      ((s.shared.filter fun p => p.cluster == cluster).map fun p => ((s.kernel? p.bed p.launch).map (·.cplot)).getD 0).sum)

/-- A core takes `n` crews of a kernel. -/
def State.coreTakes (s : State) (used : List (Nat × Nat × Nat × Nat)) (cluster core n : Nat) (k : Kernel) : Bool :=
  decide (n ≤ (freeSlotsOf used core).length ∧ n * k.width ≤ freeThreadsOf used core ∧
    n * k.width * k.vregs ≤ freeWordsOf used core ∧ k.acc + s.accUsed cluster core ≤ Config.accSlots)

/-- The best of some candidates: the greatest score, the first among equals. -/
def bestBy (score : Nat → Nat) (l : List Nat) : Option Nat :=
  l.foldl (fun b x => match b with
    | none => some x
    | some y => if score y < score x then some x else b) none

/-- The index among a team's cores of the one that a saved crew stood on. -/
def Team.savedIndex (tm : Team) (c : Crew) : Nat := if tm.lastCores.contains c.core then tm.lastCores.findIdx (· == c.core) else 0

/-- The saved crews of a team that stood on the i-th of its cores. -/
def Team.savedOf (tm : Team) (i : Nat) : List Crew := tm.saved.filter fun c => tm.savedIndex c == i

/-- Where a team of a kernel would stand in a cluster, on the cores that are allowed, each with room for the crews saved from the
core of the same index (R10, R28, R347). -/
def State.fitCores (s : State) (tm : Team) (cluster : Nat) (k : Kernel) (allowed : Nat → Bool) : Option Place :=
  let used := s.usedSlots cluster
  if k.pair then
    let h := (k.crews + 1) / 2
    let ok (i : Nat) : Bool := allowed (2 * i) && s.coreTakes used cluster (2 * i) (max h (tm.savedOf 0).length) k &&
      s.coreTakes used cluster (2 * i + 1) (max (k.crews - h) (tm.savedOf 1).length) k && decide (s.pairUsed cluster i < Config.pairContexts)
    (bestBy (fun i => min (freeThreadsOf used (2 * i)) (freeThreadsOf used (2 * i + 1)))
      ((List.range (Config.coresPerCluster / 2)).filter ok)).map fun i =>
        { cluster := cluster, cores := [2 * i, 2 * i + 1],
          claims := ((freeSlotsOf used (2 * i)).take h).map (fun sl => (2 * i, sl)) ++
            ((freeSlotsOf used (2 * i + 1)).take (k.crews - h)).map fun sl => (2 * i + 1, sl) }
  else
    (bestBy (freeThreadsOf used)
      ((List.range Config.coresPerCluster).filter fun c => allowed c && s.coreTakes used cluster c (max k.crews (tm.savedOf 0).length) k)).map fun c =>
        { cluster := cluster, cores := [c], claims := ((freeSlotsOf used c).take k.crews).map fun sl => (c, sl) }

/-- The cluster has the plot, and the watch units of the team are free there (R347, R381). -/
def State.clusterTakes (s : State) (t : TeamRef) (la : Launch) (cluster : Nat) : Bool :=
  let need := la.kernel.plot + (if la.kernel.cplot = 0 || (s.sharedPlot? t.bed t.launch cluster).isSome then 0 else la.kernel.cplot)
  let units := ((s.team? t).map fun x => x.watches.map (·.unit)).getD []
  decide (need ≤ s.freePlot cluster) &&
    units.all fun u => !((s.residents cluster).any fun x => x.ref != t && x.watches.any fun w => w.unit == u)

/-! ## Crews at a placement -/

/-- A thread of a crew placed for the first time (R12, R349). -/
def firstThread (k : Kernel) (team tid : Nat) : Thread :=
  let ix : List IxReg := List.replicate 4 ⟨0, 0, 0⟩
  { team := team, tid := tid, pc := k.entry, hdr := 0, hdrW := 0, entry := some .enter, v := VBank.zero, p := 0, ix := ix,
    rkey := 0, handler := false, wait := .none, pend := [], redl := none,
    ck := { pc := k.entry, lv := k.vregs, v := VBank.zero, p := 0, ix := ix, handler := false, redl := none },
    skip := 0, exempt := [], answered := [], ret := none, fences := [] }

/-- A crew placed for the first time (R12). -/
def firstCrew (la : Launch) (team cid i cluster core slot age : Nat) : Crew :=
  let w := la.kernel.width
  let sb : Bank := Bank.zero.setList 0 (la.ublk.take 64)
  let masks := List.replicate 11 (0 : LaneMask)
  { cid := cid, bed := la.bed, launch := la.id, owner := team, cluster := cluster, core := core, slot := slot, age := age,
    lanes := (List.range w).map fun l => some (firstThread la.kernel team (i * w + l)),
    s := sb, masks := masks, fflags := 0, tcause := 0, tpc := 0, tval := 0, tmask := 0, tokens := [], errs := [], tokRegs := [],
    ck := { ls := 256, s := sb, toks := [], masks := masks, tcause := 0, tpc := 0, tval := 0, tmask := 0 },
    yielded := false, starve := 0, rest := [], moves := [(0, cluster)] }

/-- A team nothing has been said of. -/
def freshTeam (t : TeamRef) : Team :=
  { ref := t, place := none, started := false, exited := 0, plot := [], bars := List.replicate 16 ⟨0, 0, 0⟩, acc := [],
    halted := false, stepping := [], stepped := [], haltAtPlace := false, attached := false, watches := [], slice := 0, placeTime := 0,
    entryTime := 0, released := false, parked := false, saved := [], conds := [], leaving := none, unit := 0, lastCores := [] }

/-- The team's record stands. -/
def State.ensureTeam (s : State) (t : TeamRef) : State :=
  if (s.team? t).isSome then s else { s with teams := s.teams ++ [freshTeam t] }

/-- The accumulator slots of a claim: undefined words (R267). -/
def claimAcc (fresh : Nat) (t : TeamRef) (k : Kernel) (cores : Nat) : List AccSlot :=
  (List.range cores).flatMap fun c => (List.range k.acc).map fun n =>
    { core := c, name := n, bank := ⟨.free (freeIndex fresh 28 ((t.team * 8 + c) * 4 + n)), []⟩ }

/-- The records of a firing, in the plot of its team before any thread of it issues, and before its start (R338). -/
def State.deliver (s : State) (t : TeamRef) (la : Launch) (cluster : Nat) : State :=
  match la.firing with
  | none => s
  | some f => match (s.graph? t.bed f.inst).bind fun g => g.nodes[f.node]? with
    | none => s
    | some n =>
      let put (s : State) (r : Nat × List Byte) : State :=
        let off := n.rpoff + r.1 * n.rsz
        let m : PlotMark := { bed := t.bed, launch := t.launch, team := some t.team, cluster := cluster, off := off, len := n.rsz,
                              home := Agent.cox.home, stamp := s.fresh }
        let s := s.write (.plot t off) r.2
        { s with plotMarks := s.plotMarks ++ [m] }
      (((List.range f.recs.length).zip f.recs).foldl put s).learn (.team t) [(.cox, s.fresh)]

/-- Where the saved crews of a team that stood at the k-th of its cores go: to its claims on that core, and, for a crew whose slot
another team had claimed, to further free slots; none when the core cannot hold them all (R28). -/
def State.savedOn (s : State) (k : Kernel) (p : Place) (crews : List Crew) (core : Nat) : Option (List (Crew × Nat × Nat)) :=
  let used := s.usedSlots p.cluster
  let claims := (p.claims.filter fun c => c.1 == core).map (·.2)
  let slots := claims ++ (freeSlotsOf used core).filter fun i => !claims.contains i
  let n := max crews.length claims.length
  if n ≤ slots.length ∧ n * k.width ≤ freeThreadsOf used core ∧ n * k.width * k.vregs ≤ freeWordsOf used core then
    some ((crews.zip slots).map fun x => (x.1, core, x.2))
  else none

/-- Where every saved crew of a team goes at a place: to the core of the same index among the team's cores (R10). -/
def State.savedAt (s : State) (tm : Team) (k : Kernel) (p : Place) : Option (List (Crew × Nat × Nat)) :=
  ((List.range p.cores.length).mapM fun i => s.savedOn k p (tm.savedOf i) ((p.cores[i]?).getD 0)).map (·.flatten)

/-- Binned threads of the teams of a unit re-enter bins in their saved order, jointly, after those already there (R47). -/
def State.rebin (s : State) (u : List TeamRef) (cluster : Nat) : State :=
  let mine := sortBy (·.seq) (s.bins.filter fun b => u.contains ⟨b.bed, b.launch, b.team⟩ && b.cluster.isNone)
  mine.foldl (fun s b =>
    { s with bins := mapIf (fun x => x.seq == b.seq) (fun x => { x with cluster := some cluster, seq := s.binSeq }) s.bins,
             binSeq := s.binSeq + 1 }) s

/-- A command whose state moves with its team: a matrix command, a walk, a merge, a multicast that has begun (R272, R283, R287). -/
def Cmd.travels (c : Cmd) : Bool := c.queue == 0 || c.type == 9 || c.type == 12 || (c.type == 11 && c.arrived)

/-- The commands that moved with a team stand in the queues of its cores, of the same index as those it stood on, and of its cluster
(R272, R283, R287). -/
def State.recall (s : State) (tm : Team) (p : Place) : State :=
  let move (c : Cmd) : Cmd := { c with
    cluster := p.cluster, core := if c.queue == 0 then (p.cores[tm.lastCores.findIdx (· == c.core)]?).getD 0 else c.core
    away := none, resume := c.queue == 0 && c.rows.isSome && c.status.isNone }
  { s with cmds := mapIf (fun c => c.ref == tm.ref && c.away.isSome) move s.cmds }

/-- A team stands at a place (R10, R12, R28, R353): crews new, or `saved` with where they go; a recorded halt takes effect
(R373); the bed's clocks run (R400). A first placement is the team's start (R220). -/
def State.install (s : State) (t : TeamRef) (la : Launch) (p : Place) (saved : List (Crew × Nat × Nat)) : State :=
  let k := la.kernel
  let s := s.ensureTeam t
  let s := if k.cplot = 0 || (s.sharedPlot? t.bed t.launch p.cluster).isSome then s
    else { s with shared := s.shared ++ [{ bed := t.bed, launch := t.launch, cluster := p.cluster, mem := [] }] }
  match s.team? t with
  | none => s
  | some tm =>
    let crews := if tm.started then
        saved.map fun x => { x.1 with cluster := p.cluster, core := x.2.1, slot := x.2.2, age := s.clock,
                                      moves := (s.fresh, p.cluster) :: x.1.moves }
      else ((List.range p.claims.length).zip p.claims).map fun x =>
          firstCrew la t.team (s.nextCid + x.1) x.1 p.cluster x.2.1 x.2.2 s.clock
    let s : State := { s with
      crews := s.crews ++ crews, nextCid := if tm.started then s.nextCid else s.nextCid + p.claims.length }
    let s := s.setBed t.bed fun b => { b with idle := false }
    let s := s.setTeam t fun x =>
      { x with place := some p, started := true, acc := if x.started then x.acc else claimAcc s.fresh t k p.cores.length,
               slice := 0, placeTime := s.clock, parked := false, saved := [], conds := [], leaving := none, unit := 0, lastCores := p.cores,
               entryTime := if x.started then x.entryTime else la.entryTime,
               halted := x.halted || x.haltAtPlace, attached := x.attached || x.haltAtPlace, haltAtPlace := false }
    let s := if tm.started then s.recall tm p else (s.learn (.team t) (s.knows (.launch t.bed t.launch))).deliver t la p.cluster
    let s := s.setLaunch t.bed t.launch fun l => { l with begun := if l.begun.contains t.team then l.begun else t.team :: l.begun }
    if tm.haltAtPlace then s.report t.bed { launch := t.launch, team := t.team, tid := 0, crew := 0, cluster := 0, core := 0, kind := 4,
                                            cause := 0, tval := 0, tmask := 0, tpc := 0 } else s

/-! ## Units (R48, R272, R283) -/

/-- The launch has reordered across teams in a cluster (R48). -/
def State.noteMixed (s : State) (bed launch cluster : Nat) : State :=
  s.setLaunch bed launch fun l => { l with mixed := if l.mixed.contains cluster then l.mixed else cluster :: l.mixed }

/-- A crew of a launch in a cluster holds threads of more than one team. -/
def State.impure (s : State) (bed launch cluster : Nat) : Bool :=
  s.crews.any fun c => c.bed == bed && c.launch == launch && c.cluster == cluster && decide (1 < (c.byTeam c.live).length)

/-- The issuer and the targets of a multicast that has begun (R283). -/
def Cmd.castTeams (c : Cmd) : List TeamRef :=
  if c.type == 11 && c.typeOk && c.status.isNone && c.arrived then
    c.ref :: (qcastTargets c).map fun t => ⟨c.bed, c.launch, t⟩
  else []

/-- The members of a span group that a command has joined: of a running group, or of one that is not complete. -/
def State.spanMates (s : State) (c : Cmd) : List Cmd :=
  if c.rows.isSome then s.members c else s.cmds.filter fun x => s.joins c x && x.arrived

/-- A command holds a part of a span group that is incomplete or runs. -/
def Cmd.inSpan (c : Cmd) : Bool := c.queue == 0 && c.type == 1 && Mma.span c != 0 && c.status.isNone && (c.rows.isSome || c.arrived)

/-- The teams that must leave and return with one team, one step of the closure: a launch that has reordered across teams in the
cluster while a crew mixes teams; members of a span group; members of a merge group; the teams of a multicast. -/
def State.tiedTo (s : State) (t : TeamRef) : List TeamRef :=
  match (s.team? t).bind (·.place) with
  | none => []
  | some p =>
    let here := ((s.residents p.cluster).map (·.ref)).filter fun r => r.bed == t.bed && r.launch == t.launch
    let mixed := ((s.launch? t.bed t.launch).map fun l => l.mixed.contains p.cluster).getD false &&
      s.impure t.bed t.launch p.cluster
    let mine := s.cmds.filter fun c => c.ref == t
    let spans := mine.flatMap fun c => if c.inSpan then (s.spanMates c).map (·.ref) else []
    let merges := mine.flatMap fun c => if c.type == 12 && c.arrived && c.status.isNone then (s.mergeGroup c).map (·.ref) else []
    let casts := s.cmds.flatMap fun c => if c.castTeams.contains t then c.castTeams else []
    (if mixed then here else []) ++ spans ++ merges ++ casts

def State.closeUnit (s : State) : Nat → List TeamRef → List TeamRef
  | 0, l => l
  | n + 1, l =>
    let more := ((l.flatMap s.tiedTo).foldl (fun acc r => if acc.contains r then acc else acc ++ [r]) l)
    if more.length = l.length then l else State.closeUnit s n more

/-- The unit of a resident team. -/
def State.unitOf (s : State) (t : TeamRef) : List TeamRef := s.closeUnit s.teams.length [t]

/-- The unit of a team that has left. -/
def State.awayUnit (s : State) (t : TeamRef) : List TeamRef :=
  match s.team? t with
  | some x => if x.unit = 0 then [t]
      else (s.teams.filter fun y => y.unit == x.unit && y.place.isNone && y.ref.bed == t.bed && y.ref.launch == t.launch).map (·.ref)
  | none => [t]

/-- The span groups that teams hold parts of. -/
def State.spanTies (s : State) (u : List TeamRef) : List (List Cmd) :=
  (s.cmds.filter fun c => u.contains c.ref && c.inSpan).map s.spanMates

/-- Those parts of each group that have been placed again stand in one span unit, on cores as distinct as they stood on (R272). -/
def State.tiesHold (s : State) (ties : List (List Cmd)) : Bool :=
  ties.all fun g =>
    let now := g.filterMap fun c => ((s.cmd? c.id).filter fun x => x.away.isNone).map fun x => (c.core, x)
    now.all fun x => now.all fun y => unitBase (Mma.span x.2) x.2.core == unitBase (Mma.span y.2) y.2.core &&
      (x.1 == y.1 || x.2.core != y.2.core)

/-! ## Placing a unit -/

/-- The places of a team to try: the one that R347 chooses; of a team that holds a part of a span group, any other core after it. -/
def State.placesOf (s : State) (tm : Team) (cluster : Nat) (k : Kernel) (tied : Bool) : List Place :=
  (s.fitCores tm cluster k fun _ => true).toList ++
    if tied then (List.range Config.coresPerCluster).filterMap fun i => s.fitCores tm cluster k (· == i) else []

/-- Every team of a list stands in a cluster, with the span groups it holds parts of each in one span unit, or none does. -/
def State.placeIn (s : State) (cluster : Nat) (ties : List (List Cmd)) : List TeamRef → Option State
  | [] => some s
  | t :: rest => match s.launch? t.bed t.launch with
    | none => none
    | some la =>
      if !s.clusterTakes t la cluster then none
      else
        let tm := (s.team? t).getD (freshTeam t)
        (s.placesOf tm cluster la.kernel (ties.any fun g => g.any fun c => c.ref == t)).findSome? fun p =>
          (s.savedAt tm la.kernel p).bind fun saved =>
            let r := s.install t la p saved
            if r.tiesHold ties then r.placeIn cluster ties rest else none

/-- The unit in a cluster, each of its span groups in one span unit (R272); then its binned threads re-enter bins. Crews that still
mix teams bind it in the new cluster too (R48). -/
def State.placeUnitIn (s : State) (u : List TeamRef) (cluster : Nat) : Option State :=
  (s.placeIn cluster (s.spanTies u) u).map fun r => match u with
    | t :: _ =>
      let r := if r.impure t.bed t.launch cluster then r.noteMixed t.bed t.launch cluster else r
      (r.rebin u cluster).riddle t.bed t.launch cluster
    | [] => r

/-- The clusters of a bed. -/
def State.clustersOf (s : State) (bed : Nat) : List Nat :=
  (List.range Config.clusters).filter fun c => (s.bed bed).block.clus.getLsbD c

/-- The unit in the qualifying cluster with the most free plot, the lowest among equals (R347). -/
def State.placeUnit (s : State) (bed : Nat) (u : List TeamRef) : Option State :=
  ((bestBy s.freePlot ((s.clustersOf bed).filter fun c => (s.placeUnitIn u c).isSome)).bind fun c => s.placeUnitIn u c)

/-! ## Leaving (R353) -/

/-- The rings of a team: the headers of its standing walks. -/
def State.ringsOf (s : State) (t : TeamRef) : List Nat :=
  s.cmds.filterMap fun c => if c.ref == t && c.status.isNone then c.walk.map (·.hdr) else none

/-- Some stage of the team's rings is DRAINING. -/
def State.draining (s : State) (t : TeamRef) : Bool :=
  (s.ringsOf t).any fun h => let hdr := s.ringHeader t h
    (List.range (ringStages hdr)).any fun i => ringStage hdr i == stDraining

/-- FILLING stages return to EMPTY (R287). -/
def State.unfill (s : State) (t : TeamRef) : State :=
  (s.ringsOf t).foldl (fun s h =>
    let hdr := s.ringHeader t h
    s.setRing t h ((List.range (ringStages hdr)).foldl (fun x i => if ringStage x i = stFilling then setStage x i stEmpty else x)
      hdr)) s

/-- The wait conditions of a team's threads (R355). -/
def State.waitConds (s : State) (t : TeamRef) : List Cond :=
  s.crews.flatMap fun c => c.live.filterMap fun l => match c.thread? l with
    | none => none
    | some th => if c.ref th != t then none else match th.wait with
      | .barw o gen _ => some (.object o gen)
      | .waitev o n _ => some (.event o n)
      | _ => none

/-- One team leaves, with the unit and in the departure given: its crews are kept as a restart leaves them, everything else as R353
states. What it has done happens before what it does once it is placed again (R220). -/
def State.leaveOne (s : State) (u : List TeamRef) (dep : Nat) (t : TeamRef) : State :=
  match s.team? t with
  | none => s
  | some tm => match tm.place with
    | none => s
    | some p =>
      let home (c : Crew) : Option TeamRef :=
        let owner : TeamRef := ⟨c.bed, c.launch, c.owner⟩
        if u.contains owner then some owner else ((c.live.head?).bind c.thread?).map c.ref
      let mine := s.crews.filter fun c => c.cluster == p.cluster && c.bed == t.bed && c.launch == t.launch && home c == some t &&
        (c.live.all fun l => c.laneIs l fun th => u.contains (c.ref th))
      let conds := match tm.leaving with
        | some (.park cs) => cs ++ s.waitConds t
        | _ => []
      let parks := match tm.leaving with
        | some (.park _) => true
        | _ => false
      let time := match tm.leaving with
        | some (.preempt n) => n
        | _ => tm.entryTime
      let s := s.unfill t
      let entry : PoolEntry := { bed := t.bed, launch := t.launch, team := some t.team, time := time, passes := 0 }
      let s := mine.foldl (fun s c => s.leaveRegs c.cid c.live) (s.learn (.team t) (s.teamClock t))
      let s : State := { s with
        orphans := s.orphans ++ s.requestsOf fun c => mine.any fun x => x.cid == c.cid
        crews := s.crews.filter fun c => !(mine.any fun x => x.cid == c.cid)
        bins := mapIf (fun b => b.bed == t.bed && b.launch == t.launch && b.team == t.team) (fun b => { b with cluster := none })
          s.bins
        cmds := mapIf (fun c => c.ref == t && c.travels) (fun c => { c with away := some dep }) s.cmds
        pool := if parks then s.pool
          else s.pool ++ [entry] }
      s.setTeam t fun x =>
        { x with place := none, saved := mine.map fun c : Crew => c.restart s.fresh, parked := parks, conds := conds, leaving := none,
                 unit := if 1 < u.length then dep else 0, slice := 0, entryTime := time }

/-- The time a team's launch was accepted or fired: a pre-emption for priority or for a slice keeps it (R344, R354). -/
def State.firstTime (s : State) (t : TeamRef) : Nat := ((s.launch? t.bed t.launch).map (·.entryTime)).getD 0

/-- A thread of the team awaits the value of an atomic that is held, or has not taken it yet (R209). -/
def State.fetching (s : State) (t : TeamRef) : Bool :=
  (s.migrations.any fun m => m.held.any fun h => h.reply && (Agent.team t).covers h.write.who) ||
    s.crews.any fun c => c.live.any fun l => c.laneIs l fun th => c.ref th == t && th.ret.isSome

/-- The number of a departure: one for each unit that leaves in a step. -/
def departure (fresh : Nat) (t : TeamRef) : Nat := (fresh + 1) * 2 ^ 64 + t.launch * 2 ^ 32 + t.team

/-- A team that is to leave does so with its unit, when no member is halted, no stage drains and no atomic is under way (R209, R287,
R374). -/
def State.tryLeave (s : State) (t : TeamRef) : State :=
  match s.team? t with
  | none => s
  | some tm => match tm.leaving, tm.place with
    | some how, some p =>
      let u := s.unitOf t
      if u.any fun r => ((s.team? r).map (·.halted)).getD false then s
      else
        let other : Team → Leaving := fun x => match how with
          | .preempt _ => .preempt (s.firstTime x.ref)
          | .park _ => .park []
        let s := u.foldl (fun s r => s.setTeam r fun x => { x with leaving := some (x.leaving.getD (other x)) }) s
        if u.any fun r => s.draining r || s.fetching r then s
        else
          let s := u.foldl (fun s r => s.leaveOne u (departure s.fresh t) r) s
          s.riddle t.bed t.launch p.cluster
    | _, _ => s

/-- Every team that is to leave and can. -/
def State.settleLeaving (s : State) : State :=
  (s.teams.filter fun t => t.leaving.isSome).foldl (fun s t => s.tryLeave t.ref) s

/-- A resident team is to leave. -/
def State.leave (s : State) (t : TeamRef) (how : Leaving) : State :=
  (s.setTeam t fun x => if x.place.isSome then { x with leaving := some (x.leaving.getD how) } else x).tryLeave t

/-- A resident team gone with its unit, whatever of its rings still drains: what a cluster could hold then (R352). -/
def State.vacate (s : State) (t : TeamRef) : State :=
  if ((s.team? t).bind (·.place)).isNone then s
  else let u := s.unitOf t
    u.foldl (fun s r => s.leaveOne u (departure s.fresh t) r) s

/-! ## The pool (R344 to R346) -/

/-- The priority of an entry's launch. -/
def State.prioOf (s : State) (e : PoolEntry) : Nat := ((s.launch? e.bed e.launch).map (·.prio)).getD 0

def Bed.mostUrgent (b : Bed) : Nat := field b.block.prio.toNat 0 8
def Bed.aging (b : Bed) : Nat := 2 ^ field b.block.prio.toNat 16 4

/-- The effective level of an entry (R345). -/
def State.levelOf (s : State) (e : PoolEntry) : Nat :=
  max (s.bed e.bed).mostUrgent (s.prioOf e - e.passes / (s.bed e.bed).aging)

/-- An entry at level Q passed over 2^a times there: no other team is placed before it (R346). -/
def State.overdue (s : State) (e : PoolEntry) : Bool :=
  decide ((s.prioOf e - (s.bed e.bed).mostUrgent + 1) * (s.bed e.bed).aging ≤ e.passes)

/-- The entries a dispatch considers, in order. -/
def State.poolOrder (s : State) (bed : Nat) : List PoolEntry :=
  let es := sortBy s.levelOf (sortBy (·.time) (s.pool.filter fun e => e.bed == bed))
  match es.find? s.overdue with
  | some e => [e]
  | none => es

/-- The team of a launch that a dispatch takes: which is unspecified (R11). -/
def nextTeam (la : Launch) (pick : Nat) : Option Nat :=
  (List.range (la.begun.length + 1)).findSome? fun i =>
    let t := (pick + i) % la.teams
    if la.begun.contains t then none else some t

/-- The unit an entry would place; none while its firing's template has not been read. -/
def State.entryUnit (s : State) (e : PoolEntry) (pick : Nat) : Option (List TeamRef) :=
  match s.launch? e.bed e.launch with
  | none => none
  | some la =>
    if la.ublkAddr.isSome then none
    else match e.team with
      | some t => some (s.awayUnit ⟨e.bed, e.launch, t⟩)
      | none => (nextTeam la pick).map fun t => [⟨e.bed, e.launch, t⟩]

/-- The pool after an entry's unit has been placed: its entries go, a launch with more teams stays; the others are passed over. -/
def State.poolAfter (s : State) (e : PoolEntry) (u : List TeamRef) : State :=
  let done (x : PoolEntry) : Bool := match x.team with
    | some t => u.contains ⟨x.bed, x.launch, t⟩
    | none => x == e && ((s.launch? x.bed x.launch).map fun l => decide (l.teams ≤ l.begun.length)).getD true
  { s with pool := (s.pool.filter fun x => !done x).map fun x =>
      if x.bed != e.bed then x else if x == e then { x with passes := 0 } else { x with passes := x.passes + 1 } }

/-! ## Pre-emption for priority (R352) -/

/-- Teams of a cluster that may be pre-empted for level P: less urgent first, the latest placed first among equals. One whose last
thread has exited retires (R352). -/
def State.victims (s : State) (bed cluster level : Nat) : List Team :=
  let prio (t : Team) : Nat := ((s.launch? t.ref.bed t.ref.launch).map (·.prio)).getD 0
  let can := (s.residents cluster).filter fun t => t.ref.bed == bed && decide (level < prio t) && t.leaving.isNone && s.liveThreads t.ref != 0 &&
    !((s.unitOf t.ref).any fun r => ((s.team? r).map (·.halted)).getD false)
  (sortBy prio (sortBy (·.placeTime) can)).reverse

/-- The victims taken until the unit would fit in the cluster without them: each is pre-empted with its unit, whose teams are
victims too (R352). -/
def State.evict (s : State) (u : List TeamRef) (cluster : Nat) : List Team → List TeamRef → Option (List TeamRef)
  | vs, gone =>
    if (s.placeUnitIn u cluster).isSome then some gone
    else match vs with
      | [] => none
      | v :: rest =>
        if ((s.team? v.ref).bind (·.place)).isNone then s.evict u cluster rest gone
        else (s.vacate v.ref).evict u cluster rest (gone ++ s.unitOf v.ref)

/-- The cluster without the teams of the bed that are leaving it already. -/
def State.cleared (s : State) (bed cluster : Nat) : State :=
  ((s.residents cluster).filter fun t => t.ref.bed == bed && t.leaving.isSome).foldl (fun s t => s.vacate t.ref) s

/-- The most urgent priority among victims. -/
def State.urgency (s : State) (vs : List TeamRef) : Nat :=
  leastNat (vs.map fun t => ((s.launch? t.bed t.launch).map (·.prio)).getD 0)

/-- The cluster and the victims for an entry: the most urgent victim least urgent, then the fewest, then the lowest cluster. None
while a cluster could hold it once the teams already leaving have left. -/
def State.chooseVictims (s : State) (e : PoolEntry) (u : List TeamRef) : Option (Nat × List TeamRef) :=
  let cands := (s.clustersOf e.bed).filterMap fun c =>
    ((s.cleared e.bed c).evict u c (s.victims e.bed c (s.levelOf e)) []).map fun v => (c, v)
  if cands.any fun x => x.2.isEmpty then none
  else cands.foldl (fun b x => match b with
    | none => some x
    | some y =>
      if s.urgency y.2 < s.urgency x.2 || (s.urgency y.2 == s.urgency x.2 && decide (x.2.length < y.2.length)) then some x else b)
    none

/-- One entry is tried: placed as it is, or after a pre-emption for its level. A victim whose stages still drain leaves first. -/
def State.tryEntry (s : State) (e : PoolEntry) (pick : Nat) : Option State :=
  match s.entryUnit e pick with
  | none => none
  | some u => match s.placeUnit e.bed u with
    | some t => some (t.poolAfter e u)
    | none => match s.chooseVictims e u with
      | none => none
      | some (c, vs) =>
        let t := vs.foldl (fun s v => s.leave v (.preempt (s.firstTime v))) s
        match t.placeUnitIn u c with
        | some t => some (t.poolAfter e u)
        | none => some t

/-! ## Events of the Cox -/

/-- DISPATCH: the first entry in order that can be placed. -/
def execDispatch (bed pick : Nat) (s : State) : Host.Outcome State Fault Refusal :=
  if !(s.bed bed).on || (s.bed bed).fenced then .next s
  else .next (((s.poolOrder bed).findSome? fun e => s.tryEntry e pick).getD s)

/-- SLICE_EXPIRY: the team is pre-empted when the pool holds an entry as urgent, else its count restarts (R352). -/
def execSliceExpiry (t : TeamRef) (s : State) : Host.Outcome State Fault Refusal :=
  match s.team? t, s.launch? t.bed t.launch with
  | some tm, some la =>
    if tm.place.isNone || tm.halted || tm.leaving.isSome || la.slice = 0 || decide (tm.slice < la.slice * 1024) ||
        s.liveThreads t = 0 || (s.unitOf t).any (fun r => ((s.team? r).map (·.halted)).getD false) then .next s
    else if s.pool.any fun e => e.bed == t.bed && decide (s.levelOf e ≤ la.prio) then
      .next (s.leave t (.preempt la.entryTime))
    else .next (s.setTeam t fun x => { x with slice := 0 })
  | _, _ => .next s

/-- Every live thread of a resident team is blocked, and one has waited PARKT cycles at WAITEV or BARW (R355). -/
def State.parkDue (s : State) (t : TeamRef) (parkt : Nat) : Bool :=
  let threads := s.crews.flatMap fun c => c.live.filterMap fun l => (c.thread? l).bind fun th =>
    if c.ref th == t then some (c, th) else none
  threads.all (fun x => !s.ready x.1 x.2) && threads.any fun x => match x.2.wait with
    | .barw _ _ n => decide (parkt ≤ n)
    | .waitev _ _ n => decide (parkt ≤ n)
    | _ => false

/-- PARK_THRESHOLD_EXPIRY. -/
def execParkThresholdExpiry (t : TeamRef) (s : State) : Host.Outcome State Fault Refusal :=
  match s.team? t, s.launch? t.bed t.launch with
  | some tm, some la =>
    if tm.place.isNone || tm.halted || tm.leaving.isSome || la.parkt = 0 || !s.parkDue t la.parkt ||
        (s.unitOf t).any (fun r => ((s.team? r).map (·.halted)).getD false) then .next s
    else .next (s.leave t (.park []))
  | _, _ => .next s

/-- A recorded condition holds (R356), or its instruction must look for itself. -/
def State.condHolds (s : State) : Cond → Bool
  | .event o n => s.looksDone o 8 fun x => decide (n ≤ x)
  | .object o gen => s.looksDone o 4 fun x => x != gen.toNat

/-- TEAM_WAKE: a parked team enters the pool at the time of its waking. -/
def execTeamWake (t : TeamRef) (s : State) : Host.Outcome State Fault Refusal :=
  match s.team? t with
  | none => .next s
  | some tm =>
    if !tm.parked || !(tm.conds.any s.condHolds) then .next s
    else
      let e : PoolEntry := { bed := t.bed, launch := t.launch, team := some t.team, time := s.clock, passes := 0 }
      .next (({ s with pool := s.pool ++ [e] }.setTeam t fun x => { x with parked := false, entryTime := s.clock }).setBed t.bed
        fun b => { b with idle := false })

/-- The retirement of a team: a release of all it has done, its completion at the team level, then its launch's (R30, R229, R357). A
team that had been pre-empted leaves the pool (R344). -/
def State.retire (s : State) (t : TeamRef) (la : Launch) : State :=
  let acts := if la.tev && la.firing.isNone then eventAct la.event ++ msgAct la.irq 0 t.launch t.team la.tag else []
  let seen := Clock.join (s.teamClock t) (s.knows (.commands t))
  let s := (((s.learn (.retired t.bed t.launch) seen).releaseStream t.bed t.launch seen).post t.bed seen acts).sweepTeams (· == t)
  let s : State := { s with
    teams := s.teams.filter fun x => x.ref != t
    pool := s.pool.filter fun e => !(e.bed == t.bed && e.launch == t.launch && e.team == some t.team)
    plotMarks := s.plotMarks.filter fun m => !(m.bed == t.bed && m.launch == t.launch && m.team == some t.team) }
  let s := s.setLaunch t.bed t.launch fun l => { l with retired := l.retired + 1 }
  if la.teams ≤ la.retired + 1 then s.launchDone t.bed t.launch else s

/-- TEAM_RETIRE: every thread has exited and every command of the team has written its token. -/
def execTeamRetire (t : TeamRef) (s : State) : Host.Outcome State Fault Refusal :=
  match s.team? t, s.launch? t.bed t.launch with
  | some tm, some la =>
    if !tm.started || la.failed || s.liveThreads t != 0 || s.cmds.any (fun c => c.ref == t) then .next s
    else .next (s.retire t la)
  | _, _ => .next s

/-- A record of an inlet: its first 64 bytes as a value, when V is set. -/
def State.inletRecord (s : State) (bed inlet : Nat) : Option Nat :=
  if 16 ≤ inlet then none
  else
    let h := leNat ((s.bed bed).inlets.read (512 * inlet) 64)
    if Record.valid h then some h else none

/-- The Cox takes up the record of an inlet, captured as its header came with V set, accepts or refuses it, and clears V (R331,
R332). -/
def captureInlet (bed inlet : Nat) (which : Nat → Bool) (s : State) : Host.Outcome State Fault Refusal :=
  match s.inletRecord bed inlet with
  | none => .next s
  | some h =>
    if !which h then .next s
    else
      let bs := (s.bed bed).inlets.read (512 * inlet) 320
      .next (match s.submit bed bs true (s.upTo .companion) with
        | .waits b ps => s.coxAsk b ps
        | .held _ => s
        | .ok r => (r.1.coxForget bed).setBed bed fun b =>
            { b with inlets := b.inlets.write (512 * inlet + 13) [b.inlets.get (512 * inlet + 13) &&& 0x7F] })

/-- KERNEL_LAUNCH. -/
def execKernelLaunch (bed inlet : Nat) (s : State) : Host.Outcome State Fault Refusal :=
  captureInlet bed inlet (fun h => !Record.graph h) s

/-- GRAPH_START. -/
def execGraphStart (bed inlet : Nat) (s : State) : Host.Outcome State Fault Refusal :=
  captureInlet bed inlet (fun h => Record.graph h && !Record.close h) s

/-- CLOSE_RECORD. -/
def execCloseRecord (bed inlet : Nat) (s : State) : Host.Outcome State Fault Refusal :=
  captureInlet bed inlet (fun h => Record.graph h && Record.close h) s

/-- TRAY_FLUSH: a stream fires whose oldest record has waited FLUSH cycles, or that holds COAL records (R337). -/
def execTrayFlush (bed inst node : Nat) (key : Word) (s : State) : Host.Outcome State Fault Refusal :=
  match (s.graph? bed inst).bind fun g => g.nodes[node]? with
  | none => .next s
  | some n =>
    let k := if n.ord then some key else none
    if n.fires k && !(s.bed bed).fenced then
      .next ((s.fire bed inst node k).countBy bed inst 0)
    else .next s

/-- STORER_DRAIN_COMPLETE: and a team that waited for it leaves (R287). -/
def execStorerDrainComplete (cmd : Nat) (s : State) : Host.Outcome State Fault Refusal :=
  match drainComplete cmd s with
  | .next s => .next s.settleLeaving
  | .fault f => .fault f
  | .refused r => .refused r

end Sys2Proof.Machine
end

