-- ==== Sys2Proof/Machine/Sched.lean ====
section
/-! DEFINITION. EMIT, LAUNCH, SIGNAL, WAITEV, ORDREL, PARK and REORDER (spec/19_scheduling_rules.md R342, R343, R359 to R364,
spec/07_core_instructions.md R156 to R158, spec/01_execution_rules.md R35, R36). -/

namespace Sys2Proof.Machine

/-! ## EMIT (R360) -/

/-- What a lane's next state is changed by after its group has executed. -/
def afterGroup (f : State → State) : Host.Outcome State Fault Refusal → Host.Outcome State Fault Refusal
  | .next s => .next (f s)
  | .fault e => .fault e
  | .refused r => .refused r

/-- The fields of a target handle. -/
def handleRemote (a : Word) : Bool := a.getLsbD 31
def handleMod (a : Word) : Nat := (a.extractLsb' 24 6).toNat
def handleInst (a : Word) : Nat := (a.extractLsb' 12 12).toNat
def handleNode (a : Word) : Nat := (a.extractLsb' 0 12).toNat

/-- The instance a local handle names: 0xFFF is the emitter's own, which a team that no graph started does not have. -/
def State.emitInst (s : State) (x : Ctx) (a : Word) : Option Nat :=
  if handleInst a = 0xFFF then ((s.launch? x.crew.bed x.crew.launch).bind (·.firing)).map (·.inst) else some (handleInst a)

/-- An EMIT to a tray of this module: a release to the team that the tray fires (R220). -/
def State.emitLocal (s : State) (x : Ctx) (f : EmitF) (a : Word) : State × LaneOut :=
  match s.emitInst x a with
  | none => (s, x.trap 8 a)
  | some inst => match (s.graph? x.crew.bed inst).bind fun g => g.nodes[handleNode a]? with
    | none => (s, x.trap 8 a)
    | some n =>
      let ws := x.regs (f.n1.toNat + 1) f.b
      if 4 * (f.n1.toNat + 1) ≠ n.rsz then (s, x.trap 8 a)
      else
        let (s, taken) := s.arrive x.crew.bed inst (handleNode a) (wordsBytes ws) (s.upTo x.agent)
        (s, .ok (fullPut f.pd (!taken)))

/-- An EMIT to a peer module: what the peer answers is not the module's to know (assumption 31). A handle that names the
emitter's own instance names none in a team that no graph started. -/
def State.emitRemote (s : State) (x : Ctx) (f : EmitF) (a : Word) : State × LaneOut :=
  if !s.peerUp (handleMod a) then (s, x.trap 8 a)
  else match s.emitInst x a with
  | none => (s, x.trap 8 a)
  | some inst =>
    let ws := x.regs (f.n1.toNat + 1) f.b
    match x.choose 27 0 3 with
    | 0 => (s, x.trap 8 a)
    | 1 => (s, .ok (fullPut f.pd true))
    | _ =>
      let r : PeerRecord := { peer := handleMod a, inst := inst, node := handleNode a, words := ws }
      ({ s with sent := s.sent ++ [r] }, .ok (fullPut f.pd false))

/-- EMIT: the records of the group arrive in lane order, then the trays that are full to COAL fire. -/
def execEmit (f : EmitF) (s : State) : Host.Outcome State Fault Refusal :=
  afterGroup State.fireTrays (drive true false f.g s fun s x =>
    let a := x.w32 f.a
    if a.getLsbD 30 then (s, x.trap 8 a)
    else if handleRemote a then s.emitRemote x f a
    else if handleMod a ≠ 0 then (s, x.trap 8 a)
    else s.emitLocal x f a)

/-! ## LAUNCH (R361) -/

/-- What D receives. -/
def Verdict.word : Verdict → Word
  | .accepted id => BitVec.ofNat 32 id
  | .refused code => BitVec.ofNat 32 (0xFFFFFF00 + code)

/-- LAUNCH: weak loads of the record, then the Cox decides in the step that executes it, or the lane waits while the Cox asks for a
page or a page migrates. A release to the launch's teams (R220). -/
def execLaunch (f : LaunchF) (s : State) : Host.Outcome State Fault Refusal :=
  drive true f.d.isS f.g s fun s x =>
    let a := x.reg64 f.a
    if a.toNat % 64 ≠ 0 then (s, x.misaligned 6)
    else match s.loadBytes x (linearView a.toNat 320) .dflt false (s.access x .read a 320) a.toNat 320 with
      | (s, .inl o) => (s, o)
      | (s, .inr (bs, _)) =>
        let bed := x.crew.bed
        let priv := ((s.launch? bed x.crew.launch).map (·.dbg)).getD false
        match s.submit bed bs priv (s.upTo x.agent) with
        | .waits b pages => (s.coxAsk b pages, .stall (.cox ((pages.head?.map (·.page)).getD 0)))
        | .held pg => (s, .stall (.migr pg))
        | .ok (s, v) => (s.coxForget bed, .ok [Reg.put f.d 0 v.word])

/-! ## SIGNAL, WAITEV and PARK.EV (R362, R364) -/

/-- The object of an event instruction, or what the lane does instead: the checks of R362 in their order. -/
def State.eventObject (s : State) (x : Ctx) (right : Right) (a : Dword) : LaneOut ⊕ List Part :=
  if a.toNat % 8 ≠ 0 then .inl (x.misaligned 3)
  else if !canonical a then .inl (x.deny 1)
  else match s.walk x.crew.bed (vaIndex a) with
    | some l => if 2 ≤ l.kind then .inl (x.deny 5) else s.access x right a 8
    | none => s.access x right a 8

/-- SIGNAL: a read-modify-write, whose write is a release at DEVICE scope; held while its page migrates (R209). -/
def execSignal (f : SignalF) (s : State) : Host.Outcome State Fault Refusal :=
  drive true false f.g s fun s x =>
    let a := x.reg64 f.a
    match s.eventObject x .atomic a with
    | .inl o => (s, o)
    | .inr ps => match s.watch x false true true a.toNat 8, ps with
      | some o, _ => (s, o)
      | none, p :: _ =>
        let w : Write := { op := .atomic .add .b64 (x.w32 f.b).toNat, who := x.agent,
                           strong := some (s.strongOf x p.loc (modOf .rel .device) true) }
        ((s.makePart p w).lineAfter s x p .dflt a.toNat 8, .ok [])
      | none, [] => (s, .ok [])

/-- The object of a WAITEV or a PARK.EV, which only reads it. -/
def State.waitObject (s : State) (x : Ctx) (a : Dword) : LaneOut ⊕ Loc :=
  match s.eventObject x .read a with
  | .inl o => .inl o
  | .inr ps => match s.migrWait ps, ps with
    | some o, _ => .inl o
    | none, p :: _ => .inr p.loc
    | none, [] => .inl (.ok [])

/-- WAITEV: stalls until COUNT reaches B, then writes that COUNT; the read that ends the wait acquires. -/
def execWaitev (f : WaitevF) (s : State) : Host.Outcome State Fault Refusal :=
  drive false f.d.isS f.g s fun s x =>
    let a := x.reg64 f.a
    match s.waitObject x a with
    | .inl o => (s, o)
    | .inr loc => match s.watch x false true false a.toNat 8 with
      | some o => (s, o)
      | none =>
        let count := leNat (s.read loc 8)
        let n := (x.w64 f.b).toNat
        if n ≤ count then (s.strongReads x (modOf .acq .device) [(loc, 8)], .ok (Reg.put64 f.d (BitVec.ofNat 64 count)))
        else (s, .stall (.waitev (.va x.crew.bed (vaIndex a)) n 0))

/-- A team is to leave, how the first PARK said; further conditions of one PARK.EV join it. -/
def Team.toLeave (t : Team) (how : Leaving) : Team :=
  { t with leaving := match t.leaving, how with
      | none, h => some h
      | some (.park cs), .park ds => some (.park (cs ++ ds))
      | some h, _ => some h }

/-- ORDREL (R343): its first retirement releases the stream, with all that happens before it (R231). -/
def execOrdrel (g : Guard) (s : State) : Host.Outcome State Fault Refusal :=
  drive true false g s fun s x => (s.releaseStream x.crew.bed x.crew.launch (s.upTo x.agent), .ok [])

/-- PARK.YIELD: the team leaves, with the time of the yield in the pool. -/
def execParkYield (g : Guard) (s : State) : Host.Outcome State Fault Refusal :=
  afterGroup State.settleLeaving (drive true false g s fun s x =>
    (s.setTeam x.ref fun t => t.toLeave (.preempt s.clock), .ok []))

/-- PARK.EV: the team parks unless the condition holds. -/
def execParkEv (f : ParkEvF) (s : State) : Host.Outcome State Fault Refusal :=
  afterGroup State.settleLeaving (drive true false f.g s fun s x =>
    match s.waitObject x (x.reg64 f.a) with
    | .inl o => (s, o)
    | .inr loc =>
      let n := (x.w64 f.b).toNat
      if n ≤ leNat (s.read loc 8) then (s, .ok [])
      else (s.setTeam x.ref fun t => t.toLeave (.park [.event (.va x.crew.bed (vaIndex (x.reg64 f.a))) n]), .ok []))

/-! ## REORDER (R35, R36, R157) -/

/-- The hazards, handler mode first. -/
def Ctx.reorderHazard (x : Ctx) : Option LaneOut :=
  if x.t.handler then some (x.trap 0x0C 0x100)
  else if x.crew.tokens.isEmpty then none
  else some (x.trap 0x0C (BitVec.ofNat 32 (leastNat x.crew.tokens)))

/-- The lane with its own results in flight written: those of every instruction it issued, a uniform one's among them
(assumption 58). -/
def Ctx.flushed (x : Ctx) : Ctx :=
  let c := x.crew.completeAll x.fresh x.lane
  { x with crew := c, t := (c.thread? x.lane).getD x.t }

/-- The thread in its bin. -/
def Ctx.binned (x : Ctx) (f : ReorderF) (seq : Nat) : Binned :=
  { bed := x.crew.bed, launch := x.crew.launch, cluster := some x.crew.cluster, bin := if f.team then some x.t.team else none,
    key := (x.w32 f.key).setWidth 16, team := x.t.team, tid := x.t.tid, pc := blockEnd x.grp.hdr x.grp.hdrW, vp := f.vp.toNat,
    payload := x.regs f.n.toNat (.v f.vp), seq := seq, waited := 0, due := false,
    exempt := x.t.exempt, fences := x.t.fences }

/-- REORDER. DESIGN CHOICE (assumption 58): a lane that waits in step 2 executes it again once its REDL or SCANL is released, its hazards
with it, and so arrives in its bin behind the lanes of its first issue group that did not wait. -/
def execReorder (f : ReorderF) (s : State) : Host.Outcome State Fault Refusal :=
  drive true false f.g s fun s x =>
    match x.reorderHazard with
    | some o => (s, o)
    | none =>
      if x.t.redl.isSome then (s, .stall .reg)
      else
        let s := s.setCrew x.crew.cid fun c => c.completeAll s.fresh x.lane
        let b := x.flushed.binned f s.binSeq
        let s := if f.team then s else s.noteMixed x.crew.bed x.crew.launch x.crew.cluster
        ({ s with bins := s.bins ++ [b], binSeq := s.binSeq + 1 }, .leave)

end Sys2Proof.Machine
end

