-- ==== Sys2Proof/Machine/Debug.lean ====
section
/-! DEFINITION. SYSC.CAP and DBG (spec/07_core_instructions.md R126, R129 to R132, spec/11_memory_rules.md R212,
spec/22_faults_rules.md R373 to R377, R381). -/

namespace Sys2Proof.Machine

/-! ## SYSC.CAP -/

/-- The clusters of a bed. -/
def State.clusterCount (s : State) (bed : Nat) : Nat := (s.clustersOf bed).length

/-- A capability register: CAP_ATOM (R212), CAP_CORE (R129), else zero. -/
def State.capability (s : State) (bed : Nat) (i : Word) : Word :=
  match i.toNat with
  | 0 => 0x03553556
  | 1 => BitVec.ofNat 32 (s.clusterCount bed * 2 ^ 16 + 1 * 2 ^ 8 + Config.coresPerCluster * 2 ^ 4 + Config.partitions)
  | _ => 0

/-- SYSC.CAP. -/
def execSysc (f : SyscF) (s : State) : Host.Outcome State Fault Refusal :=
  alu f.g f.d s fun x => [Reg.put f.d 0 (s.capability x.crew.bed (x.w32 f.b))]

/-! ## The target of a DBG (R130) -/

/-- The team pair A names. -/
def Ctx.target (x : Ctx) (a : Reg) : TeamRef := ⟨x.crew.bed, (lo32 (x.reg64 a)).toNat, (hi32 (x.reg64 a)).toNat⟩

/-- A team exists from the acceptance of its launch until it retires. -/
def State.exists_ (s : State) (t : TeamRef) : Bool :=
  match s.launch? t.bed t.launch with
  | none => false
  | some la => decide (t.team < la.teams) && (!la.begun.contains t.team || (s.team? t).isSome)

/-- The team is halted. -/
def State.halted (s : State) (t : TeamRef) : Bool := ((s.team? t).map (·.halted)).getD false

/-- A value and a status. -/
structure Answer where
  value : Word
  status : Nat
  deriving DecidableEq, Repr

/-- What a request of one lane does: an answer, or it waits, for a step of the target to end (R376) or for the last register
writes of a team it has halted (R373). -/
inductive Asked where
  | answer (s : State) (a : Answer)
  | steps (mine : Bool) (s : State)
  | halts (s : State)

/-- One request of DBG on each guard-true lane, in ascending lane order. A request to a team that a debugger steps waits until
it has halted again; a lane whose own step or halt has ended is done. DESIGN CHOICE (assumption 67): where two statuses hold, 2 comes
before 3 (in SETWP, 3 before 2), and the executing thread's own team is a target as any other. -/
def dbg (f : DbgF) (needsHalt : Bool) (s : State) (act : State → Ctx → TeamRef → Asked) : Host.Outcome State Fault Refusal :=
  drive false f.d.isS f.g s fun s x =>
    let t := x.target f.a
    let say (s : State) (a : Answer) : State × LaneOut := (s, .ok (Reg.put64 f.d (pair64 a.value (BitVec.ofNat 32 a.status))))
    if !(((s.launch? x.crew.bed x.crew.launch).map (·.dbg)).getD false) then (s, x.deny 8)
    else if x.t.wait == .step t true || x.t.wait == .halt t then say s ⟨0, 0⟩
    else if !s.exists_ t then say s ⟨0, 1⟩
    else if !((((s.team? t).map (·.stepping)).getD []).isEmpty) then (s, .stall (.step t false))
    else if needsHalt && !s.halted t then say s ⟨0, 2⟩
    else match act s x t with
      | .answer s a => say s a
      | .steps mine s => (s, .stall (.step t mine))
      | .halts s => (s, .stall (.halt t))

/-! ## HALT, RESUME, STEP (R373 to R376) -/

/-- The lanes of a crew that hold threads of a team. -/
def Crew.lanesOfTeam (c : Crew) (t : TeamRef) : List Nat := c.live.filter fun l => c.laneIs l fun th => c.ref th == t

/-- Every long-latency instruction of the team's threads completes. -/
def State.flushTeam (s : State) (t : TeamRef) : State :=
  { s with crews := s.crews.map fun c => c.complete s.fresh (c.inFlight (c.lanesOfTeam t)) }

/-- DBG.HALT: a resident team is halted at once, and the status waits for its REDL and SCANL results. -/
def execDbgHalt (f : DbgF) (s : State) : Host.Outcome State Fault Refusal :=
  dbg f false s fun s _ t =>
    let s := s.ensureTeam t
    match s.team? t with
    | none => .answer s ⟨0, 1⟩
    | some tm =>
      if tm.halted || tm.haltAtPlace then .answer s ⟨0, 2⟩
      else if tm.place.isSome then
        let s := (s.flushTeam t).haltTeam t
        if s.treeWaits t then .halts s else .answer s ⟨0, 0⟩
      else .answer (s.setTeam t fun x => { x with haltAtPlace := true }) ⟨0, 0⟩

/-- DBG.RESUME: a team that was to leave may do so. -/
def execDbgResume (f : DbgF) (s : State) : Host.Outcome State Fault Refusal :=
  afterGroup State.settleLeaving (dbg f true s fun s _ t => .answer (s.setTeam t fun x => { x with halted := false }) ⟨0, 0⟩)

/-- The crews that hold a ready thread of a team. -/
def State.stepCrews (s : State) (t : TeamRef) : List Nat :=
  (s.crews.filter fun c => (c.lanesOfTeam t).any fun l => c.laneIs l (s.waitOver c)).map (·.cid)

/-- DBG.STEP: the crews step in their own time, and the lane waits for them. -/
def execDbgStep (f : DbgF) (s : State) : Host.Outcome State Fault Refusal :=
  dbg f true s fun s _ t =>
    let cs := s.stepCrews t
    if cs.isEmpty then .answer s ⟨0, 0⟩ else .steps true (s.setTeam t fun x => { x with stepping := cs })

/-! ## Selectors (R131, R377) -/

/-- What a selector names. -/
inductive Named where
  | v (r : Nat)
  | s (r : Nat)
  | p (i : Nat)
  | ix (i f : Nat)
  | special (sel : Special) (high : Bool)
  | pc (high : Bool)
  deriving DecidableEq, Repr

/-- The special register of a selector (R79). -/
def specialOf (n : Nat) : Option Special :=
  match n with
  | 0x00 => some .tid | 0x01 => some .teamid | 0x02 => some .launchid | 0x03 => some .laneid | 0x04 => some .crewid
  | 0x05 => some .coreid | 0x06 => some .clusterid | 0x07 => some .bed | 0x08 => some .rkey | 0x09 => some .cycle
  | 0x10 => some .fflags | 0x18 => some .tcause | 0x19 => some .tpc | 0x1A => some .tval | 0x1B => some .tmask
  | _ => none

/-- The register a selector names, for a kernel with `vregs` registers; none when it is out of range. -/
def selected? (b : Word) (vregs : Nat) : Option Named :=
  let x := b.toNat
  let code := field x 0 10
  if field x 10 9 ≠ 0 then none
  else match field x 30 2 with
    | 0 => if code < 512 then (if code < vregs then some (.v code) else none)
      else if code < 768 then some (.s (code - 512)) else none
    | 1 => if code < 7 then some (.p code)
      else if 16 ≤ code ∧ code < 32 ∧ code % 4 ≠ 3 then some (.ix ((code - 16) / 4) (code % 4)) else none
    | 2 => if 512 ≤ code then none else (specialOf (code % 256)).map fun sel => .special sel (decide (256 ≤ code))
    | _ => if code < 2 then some (.pc (code == 1)) else none

/-- Where a thread of a team stands. -/
inductive Stands where
  | lane (c : Crew) (l : Nat) (t : Thread)
  | bin (b : Binned)
  | gone

/-- The thread %tid of a team. -/
def State.standing (s : State) (t : TeamRef) (tid : Nat) : Stands :=
  match s.crews.findSome? fun c => (c.lanesOfTeam t).findSome? fun l => (c.thread? l).bind fun th =>
      if th.tid == tid then some (c, l, th) else none with
  | some (c, l, th) => .lane c l th
  | none => match s.bins.find? fun b => b.bed == t.bed && b.launch == t.launch && b.team == t.team && b.tid == tid with
    | some b => .bin b
    | none => .gone

/-- The thread count of a team. -/
def State.threadsOf (s : State) (t : TeamRef) : Nat := ((s.kernel? t.bed t.launch).map fun k => k.crews * k.width).getD 0

/-- The half of a doubleword. -/
def halfOf (high : Bool) (d : Dword) : Word := if high then hi32 d else lo32 d

/-- A register of a thread in a lane; none names a pending token. -/
def State.readNamed (s : State) (c : Crew) (l : Nat) (t : Thread) : Named → Option Word
  | .v r => some (t.v.get r)
  | .s r => if c.tokens.contains r then none else some (c.s.get r)
  | .p i => some (if t.p.getLsbD i then 1 else 0)
  | .ix i f => let x := (t.ix[i]?).getD ⟨0, 0, 0⟩
    some (if f = 0 then x.base else if f = 1 then x.limit else x.cur)
  | .special sel high =>
    let g : Group := { cid := c.cid, lanes := [l], pc := t.pc, hdr := t.hdr, hdrW := t.hdrW, len := 0 }
    some (halfOf high (s.specialReg { crew := c, grp := g, lane := l, t := t, fresh := s.fresh } sel))
  | .pc high => some (halfOf high t.pc)

/-- What a thread in a bin shows. -/
def Binned.readNamed (b : Binned) : Named → Option Word
  | .v r => if b.vp ≤ r then b.payload[r - b.vp]? else none
  | .pc high => some (halfOf high b.pc)
  | .special .rkey high => some (if high then 0 else b.key.setWidth 32)
  | .special _ _ => none
  | .s _ => none
  | .p _ => none
  | .ix _ _ => none

/-- The request with its selector's thread and register. -/
def State.named (s : State) (t : TeamRef) (b : Word) : Option (Nat × Named) :=
  let tid := field b.toNat 19 11
  if s.threadsOf t ≤ tid then none
  else (selected? b (((s.kernel? t.bed t.launch).map (·.vregs)).getD 512)).map fun n => (tid, n)

/-- DBG.RDREG. DESIGN CHOICE (assumption 72): a selector that R131 gives status 3 gets it though its thread has exited or stands in a
bin, for which R377 gives every selector status 2; so WRREG's and GETMASK's. -/
def execDbgRdreg (f : DbgF) (s : State) : Host.Outcome State Fault Refusal :=
  dbg f true s fun s x t => match s.named t (x.w32 f.b) with
    | none => .answer s ⟨0, 3⟩
    | some (tid, n) =>
      let r := match s.standing t tid with
        | .lane c l th => s.readNamed c l th n
        | .bin b => b.readNamed n
        | .gone => none
      .answer s (match r with
        | some w => ⟨w, 0⟩
        | none => ⟨0, 2⟩)

/-- The block a thread stands at and has not entered, and whether that is a region entry whatever its RH (R370, R395). -/
def Thread.unentered (t : Thread) (handler : Dword) : Option (Dword × Bool) :=
  match t.entry with
  | none => none
  | some .fall => some (t.pc, false)
  | some .enter => some (t.pc, t.handler && t.pc == handler)
  | some (.branch _ _) => some (t.pc, false)
  | some (.rett _) => some (t.pc, true)
  | some (.wrreg b) => b

/-- A thread's PC written: its stop PC, entered as R377 says when it next issues. -/
def Thread.setPc (t : Thread) (handler : Dword) (high : Bool) (w : Word) : Thread :=
  { t with pc := if high then pair64 (lo32 t.pc) w else pair64 w (hi32 t.pc), entry := some (.wrreg (t.unentered handler)),
           wait := if t.wait.isParked then t.wait else .none, answered := [], ret := none }

/-- A transfer whose target's page is absent has been made once a debugger sets the thread's PC (assumption 16). -/
def Crew.madeDue (c : Crew) (stamp l : Nat) : Crew :=
  match (c.thread? l).bind (·.entry) with
  | some (.branch _ due) => c.puts stamp l (due.map fun w => .v w.1 w.2)
  | some (.rett _) => c.setThread l fun t => { t with handler := false }
  | _ => c

/-- A field of an index register written. -/
def IxReg.put (x : IxReg) (f : Nat) (w : Word) : IxReg :=
  if f = 0 then { x with base := w } else if f = 1 then { x with limit := w } else { x with cur := w }

/-- A register of a thread in a lane written, in a launch with a handler; none names a pending token. -/
def Crew.writeNamed (c : Crew) (stamp l : Nat) (handler : Dword) (w : Word) : Named → Option Crew
  | .v r => some (c.put stamp l (.v r w))
  | .s r => if c.tokens.contains r then none else some (c.put stamp l (.s r w))
  | .p i => some (c.put stamp l (.p i (w.getLsbD 0)))
  | .ix i f => some (c.setThread l fun t => { t with ix := modifyAt t.ix i fun x => x.put f w })
  | .special _ _ => some (c.put stamp l (.setFlags (w &&& 0x3F)))
  | .pc high => some ((c.madeDue stamp l).setThread l fun t => t.setPc handler high w)

/-- What DBG.WRREG accepts: KIND 0, KIND 1, %fflags and the PC. -/
def Named.writable : Named → Bool
  | .special sel high => sel == .fflags && !high
  | .v _ => true
  | .s _ => true
  | .p _ => true
  | .ix _ _ => true
  | .pc _ => true

/-- The PC, whose write takes the thread from an atomic that is held. -/
def Named.isPc : Named → Bool
  | .pc _ => true
  | .special _ _ => false
  | .v _ => false
  | .s _ => false
  | .p _ => false
  | .ix _ _ => false

/-- A thread no longer waits for what its held atomics return. -/
def State.dropReplies (s : State) (a : Agent) : State :=
  { s with migrations := s.migrations.map fun m => { m with held := m.held.map fun h => { h with reply := h.reply && h.write.who != a } } }

/-- DBG.WRREG. -/
def execDbgWrreg (f : DbgF) (s : State) : Host.Outcome State Fault Refusal :=
  dbg f true s fun s x t => match s.named t (x.w32 f.b) with
    | none => .answer s ⟨0, 3⟩
    | some (tid, n) =>
      if !n.writable then .answer s ⟨0, 3⟩
      else match s.standing t tid with
        | .lane c l _ => match c.writeNamed s.fresh l (((s.kernel? c.bed c.launch).map (·.handler)).getD 0) (x.w32 f.c) n with
          | some c =>
            let s := s.setCrew c.cid fun _ => c
            .answer (if n.isPc then s.dropReplies (.thread t tid) else s) ⟨0, 0⟩
          | none => .answer s ⟨0, 2⟩
        | .bin _ => .answer s ⟨0, 2⟩
        | .gone => .answer s ⟨0, 2⟩

/-- DBG.GETMASK. -/
def execDbgGetmask (f : DbgF) (s : State) : Host.Outcome State Fault Refusal :=
  dbg f true s fun s x t =>
    let b := (x.w32 f.b).toNat
    let k := field b 0 4
    if field b 30 2 ≠ 0 ∨ field b 10 9 ≠ 0 ∨ field b 5 5 ≠ 0 ∨ (11 < k ∧ k < 15) ∨ s.threadsOf t ≤ field b 19 11 then
      .answer s ⟨0, 3⟩
    else .answer s (match s.standing t (field b 19 11) with
      | .lane c _ _ => ⟨halfOf (bit b 4) (if k = 15 then maskOf (c.lanesOfTeam t) else c.mask k), 0⟩
      | .bin _ => ⟨0, 2⟩
      | .gone => ⟨0, 2⟩)

/-! ## SETWP (R132, R381) -/

/-- Unit u is armed for another team of the cluster. -/
def State.unitTaken (s : State) (t : TeamRef) (cluster u : Nat) : Bool :=
  (s.residents cluster).any fun x => x.ref != t && x.watches.any fun w => w.unit == u

/-- DBG.SETWP. -/
def execDbgSetwp (f : DbgF) (s : State) : Host.Outcome State Fault Refusal :=
  dbg f false s fun s x t =>
    let k := (x.w32 f.c).toNat
    let u := field k 0 2
    let plot := bit k 2
    let kind := field k 3 2
    let len := field k 5 5
    let base : Dword := if plot then (lo32 (x.w64 f.b)).setWidth 64 else x.w64 f.b
    if field k 10 22 ≠ 0 ∨ 12 < len ∨ base.toNat % 2 ^ len ≠ 0 then .answer s ⟨0, 3⟩
    else
      let s := s.ensureTeam t
      match s.team? t with
      | none => .answer s ⟨0, 1⟩
      | some tm =>
        if (tm.place.map fun p => s.unitTaken t p.cluster u).getD false then .answer s ⟨0, 2⟩
        else
          let w : Watch := { unit := u, plot := plot, rd := bit kind 0, wr := bit kind 1, len := len, base := base }
          .answer (s.setTeam t fun y =>
            { y with watches := (y.watches.filter fun v => v.unit != u) ++ (if kind = 0 then [] else [w]) }) ⟨0, 0⟩

end Sys2Proof.Machine
end

