-- ==== Sys2Proof/Machine/Mmp.lean ====
section
/-! DEFINITION. The MMPs: frames and tables of a bed, fault service, the requests of the service window and of the companion,
migration, expert prefetch (spec/11_memory_rules.md R198 to R210, spec/16_engines_rules.md R292, spec/24_outside_rules.md R397). -/

namespace Sys2Proof.Machine

/-! ## Frames of a bed's shares (R198, R206, R208) -/

/-- The frames of a share, first and end; the HBM share ends below the windows and the dump region (R206, R412). -/
def Bed.share (b : Bed) (kind : Nat) : Nat × Nat :=
  if kind = 0 then (b.block.hbmBase.toNat / 65536, min ((b.block.hbmBase.toNat + b.block.hbmSize.toNat) / 65536) (windowBase 0 / 65536))
  else (b.block.capBase.toNat / 65536, (b.block.capBase.toNat + b.block.capSize.toNat) / 65536)

/-- The frames that hold tables. -/
def Bed.tableFrames (b : Bed) : List Nat :=
  b.tables.foldl (fun acc t => if acc.contains (t / 65536) then acc else acc ++ [t / 65536]) []

/-- The frames of the module a bed cannot take. -/
def State.taken (s : State) (bed : Nat) : List Nat := (s.bed bed).frames.map (·.frame) ++ (s.bed bed).tableFrames ++ s.retired

/-- The free frames of a share (R206). -/
def State.freeFrames (s : State) (bed kind : Nat) : Nat :=
  let sh := (s.bed bed).share kind
  (sh.2 - sh.1) - ((s.taken bed).filter fun f => decide (sh.1 ≤ f ∧ f < sh.2)).length

/-- A run of `blk` frames, aligned to its length, none of them used; which one is unspecified. -/
def findBlock (used : List Nat) (lo hi blk pick : Nat) : Option Nat :=
  let first := (lo + blk - 1) / blk
  let n := hi / blk - first
  if n = 0 then none
  else (List.range (used.length + 1)).findSome? fun i =>
    let f := (first + (pick + i) % n) * blk
    if used.any fun u => decide (f ≤ u ∧ u < f + blk) then none else some f

/-- The frames of a kind with their counts: those of the module, and those the companion has supplied. Frames of a peer have no count
here. -/
def Bed.framesOf (b : Bed) (kind : Nat) : List Frame := if kind = 3 then [] else if kind = 2 then b.hostFrames else b.frames

def State.setFrames (s : State) (bed kind : Nat) (f : List Frame → List Frame) : State :=
  s.setBed bed fun b => if kind = 2 then { b with hostFrames := f b.hostFrames } else { b with frames := f b.frames }

/-- The frames of a page come into use, with count 1. -/
def newFrames (f n : Nat) (l : List Frame) : List Frame := l ++ (List.range n).map fun i => { frame := f + i, refs := 1 }

/-- The counts of a page's frames rise by one. -/
def raiseFrames (f n : Nat) (l : List Frame) : List Frame :=
  mapIf (fun x => decide (f ≤ x.frame ∧ x.frame < f + n)) (fun x => { x with refs := x.refs + 1 }) l

/-- The counts of a page's frames fall by one; a frame with none left is free. -/
def lowerFrames (f n : Nat) (l : List Frame) : List Frame :=
  (mapIf (fun x => decide (f ≤ x.frame ∧ x.frame < f + n)) (fun x => { x with refs := x.refs - 1 }) l).filter fun x => x.refs != 0

/-- Where a frame of a kind begins. -/
def frameLoc (kind pa : Nat) : Loc := if kind = 2 then .host pa else .mod pa

/-- Frames of a kind come into use, zeroed. -/
def State.clearFrames (s : State) (kind f n : Nat) : State :=
  (if kind = 2 then { s with host := s.host.clear (f * 65536) (n * 65536) }
    else { s with mem := s.mem.clear (f * 65536) (n * 65536) }).forgetStrong (frameLoc kind (f * 65536)) (n * 65536)

/-- Zeroed frames of a kind for one page: from a share, or from the companion, which may supply none (R208). -/
def State.takeFrames (s : State) (bed kind n pick : Nat) : Option (State × Nat) :=
  if kind = 2 then
    if pick % 2 = 1 then none
    else (findBlock ((s.bed bed).hostFrames.map (·.frame)) 0 (2 ^ 36) n (pick / 2)).map fun f =>
      ((s.clearFrames 2 f n).setFrames bed 2 (newFrames f n), f)
  else
    let sh := (s.bed bed).share kind
    (findBlock (s.taken bed) sh.1 sh.2 n pick).map fun f =>
      ((s.clearFrames kind f n).setFrames bed kind (newFrames f n), f)

/-! ## Tables (R198) -/

/-- An empty table: in a frame that already holds tables, else in a new one. -/
def State.newTable (s : State) (bed pick : Nat) : Option (State × Nat) :=
  let b := s.bed bed
  let old := b.tableFrames.findSome? fun f => (List.range 8).findSome? fun i =>
    if b.tables.contains (f * 65536 + i * 8192) then none else some (f * 65536 + i * 8192)
  let sh := b.share 0
  let place := match old with
    | some t => some t
    | none => (findBlock (s.taken bed) sh.1 sh.2 1 pick).map (· * 65536)
  place.map fun t => ({ s with mem := s.mem.clear t 8192 }.setBed bed fun b => { b with tables := b.tables ++ [t] }, t)

/-- Where a walk toward a level arrives: at the entry of that level, at an entry that names no table, or at a leaf above. -/
inductive Path where
  | entry (pa : Nat)
  | missing (pa : Nat)
  | leaf
  deriving DecidableEq, Repr

/-- Walk toward the entry of a level. -/
def descend (m : Memory) (va target : Nat) : Nat → Nat → Nat → Path
  | 0, _, table => .missing table
  | f + 1, level, table =>
    let a := entryAt table va level
    if level == target then .entry a
    else
      let e := leNat (m.read a 8)
      match entryClass e level with
      | .table => descend m va target f (level + 1) (nextTable e)
      | .leaf => .leaf
      | .none => .missing a

/-- An entry written by the MMP. -/
def State.setEntry (s : State) (pa e : Nat) : State := { s with mem := s.mem.write pa (natBytes 8 e) }

/-- The entry of a level, with the tables it needs: none when a frame for one is missing, or a leaf stands above. -/
def State.ensureEntry (s : State) (bed va target pick : Nat) : Nat → Option (State × Nat)
  | 0 => none
  | f + 1 => match descend s.mem va target 4 0 (s.bed bed).root with
    | .entry a => some (s, a)
    | .leaf => none
    | .missing a => (s.newTable bed (pick + f)).bind fun r => (r.1.setEntry a (r.2 + 1)).ensureEntry bed va target pick f

/-- The table below an entry no longer holds anything: it returns to its frame (R198). -/
def State.dropTable (s : State) (bed va level : Nat) : State :=
  match descend s.mem va (level - 1) 4 0 (s.bed bed).root with
  | .entry a =>
    let t := nextTable (leNat (s.mem.read a 8))
    if entryClass (leNat (s.mem.read a 8)) (level - 1) == .table && !(s.mem.any fun c => decide (t ≤ c.1 ∧ c.1 < t + 8192)) then
      (s.setEntry a 0).setBed bed fun b => { b with tables := b.tables.filter (· != t) }
    else s
  | .missing _ => s
  | .leaf => s

/-- The tables on the way to an entry that has become invalid. -/
def State.prune (s : State) (bed va level : Nat) : State :=
  (List.range level).foldl (fun s i => s.dropTable bed va (level - i)) s

/-- The level of a leaf of a page size (R198, R207). -/
def pszLevel (psz : Nat) : Nat := 3 - psz

/-- A leaf entry (R199): rights as R, W, X, AC from the lowest bit. -/
def leafEntry (level kind cache rights frame peer : Nat) : Nat :=
  1 + (if level < 3 then 2 else 0) + rights % 16 * 8 + cache % 4 * 128 + kind % 8 * 512 + frame * 65536 + peer % 64 * 2 ^ 52

/-- The rights of a leaf. -/
def Leaf.rights (l : Leaf) : Nat := field l.entry 3 4

/-! ## The service window (R206) -/

/-- The virtual address of the window, and its length in pages. -/
def windowVa : Nat := 0x007FFFF000000000
def windowBytes : Nat := 0x50000

/-- A word of a window written by the MMP. -/
def State.mmpWrite (s : State) (pa : Nat) (bs : List Byte) : State :=
  (({ s with mem := s.mem.write pa bs } : State).staleL1 .mmp (.mod pa) bs.length).weakWrite (.mod pa) bs.length

/-- HEAD and the counts of free frames as the window shows them. -/
def State.syncWindow (s : State) (bed : Nat) : State :=
  let words := [(s.bed bed).head, s.freeFrames bed 0, s.freeFrames bed 1]
  s.mmpWrite (windowBase bed + 0x40008) (words.flatMap (natBytes 8))

/-- The MMPs switch over: they serve nothing meanwhile (R410). -/
def State.mmpSwitching (s : State) : Bool :=
  match s.update with
  | some (t, _) => t == 0
  | none => false

/-! ## Requests (R207) -/

namespace Req
def op (h : Nat) : Nat := field h 0 8
def rights (h : Nat) : Nat := field h 8 4
def cache (h : Nat) : Nat := field h 12 2
def kind (h : Nat) : Nat := field h 14 3
def psz (h : Nat) : Nat := field h 17 2
def posted (h : Nat) : Bool := bit h 63
def va (h : Nat) : Dword := BitVec.ofNat 64 (field h 64 64)
def src (h : Nat) : Dword := BitVec.ofNat 64 (field h 128 64)
def count (h : Nat) : Nat := field h 192 64
def status (h : Nat) : Dword := BitVec.ofNat 64 (field h 256 64)
def level (h : Nat) : Nat := pszLevel (psz h)
def shift (h : Nat) : Nat := pageShift (level h)
/-- The pages of a range, as indices of virtual addresses. -/
def pages (h : Nat) (a : Dword) : List Nat := (List.range (count h)).map fun i => vaIndex a + i * 2 ^ shift h
/-- A range of whole pages, canonical throughout. -/
def rangeOk (h : Nat) (a : Dword) : Bool :=
  let n := count h * 2 ^ shift h
  decide (a.toNat % 2 ^ shift h = 0 ∧ 0 < count h ∧ a.toNat + n ≤ 2 ^ 64) && canonical a && canonical (a + BitVec.ofNat 64 (n - 1)) &&
    a.getLsbD 63 == (a + BitVec.ofNat 64 (n - 1)).getLsbD 63
/-- A range meets the service window. -/
def inWindow (h : Nat) (a : Dword) : Bool :=
  decide (a.toNat < windowVa + windowBytes ∧ windowVa < a.toNat + count h * 2 ^ shift h)
end Req

def srcBed : ReqSource → Nat
  | .window b => b
  | .companion b => b

def srcWindow : ReqSource → Bool
  | .window _ => true
  | .companion _ => false

/-- Where the next slot of a window stands. -/
def State.slotAt (s : State) (bed : Nat) : Nat := windowBase bed + 64 * ((s.bed bed).head % 4096)

/-- The next request of a source, when one is posted. -/
def State.request? (s : State) (src : ReqSource) : Option Nat :=
  match src with
  | .window b =>
    let h := leNat (s.mem.read (s.slotAt b) 64)
    if Req.posted h then some h else none
  | .companion b => (s.bed b).passed.head?.map fun a => leNat (s.host.read a.toNat 64)

/-- The status doubleword, through the bed's page table, by a release at DEVICE scope; a companion's may be an address of host memory
(R397). DESIGN CHOICE (assumption 72): the status of a request of the window whose STATUS address does not translate to a page that
may be written is not written, and the MMP goes on. -/
def State.writeStatus (s : State) (src : ReqSource) (a : Dword) (st : Nat) : State :=
  match s.translate (srcBed src) [] .write a 8 with
  | .ok ps => s.releaseParts (s.releaseBy .mmp .device [] false) ps (natBytes 8 st)
  | .deny _ => if srcWindow src then s else s.perform .mmp (.host a.toNat) (natBytes 8 st)
  | .fault _ => if srcWindow src then s else s.perform .mmp (.host a.toNat) (natBytes 8 st)

/-- The MMP has read the control word of a request of the window: it acquires from its release (R207). -/
def State.mmpTakes (s : State) : ReqSource → State
  | .window b => s.strongRead (s.releasesAt (.mod (s.slotAt b)) 8) { scope := .device, home := Agent.mmp.home } true false
  | .companion _ => s

/-- A request is consumed: the status, then V cleared, then HEAD (R207). -/
def State.endRequest (s : State) (src : ReqSource) (st : Nat) : State :=
  match s.request? src with
  | none => s
  | some h =>
    let s := (s.mmpTakes src).writeStatus src (Req.status h) st
    let s := match src with
      | .window b => (s.mmpWrite (s.slotAt b) (natBytes 8 (field h 0 63))).setBed b fun b => { b with head := b.head + 1 }
      | .companion b => s.setBed b fun b => { b with passed := b.passed.drop 1 }
    s.syncWindow (srcBed src)

/-- What a request does: it is done with a status, or its pages are on their way (R209). -/
inductive Acted where
  | done (s : State) (status : Nat)
  | moving (s : State)

/-- A request fails some check common to all: a reserved operation or page size, a range that is none, a page of the window. Its
reserved bits are ignored (R6). -/
def reqBad (src : ReqSource) (h : Nat) : Bool :=
  Req.psz h == 3 || !Req.rangeOk h (Req.va h) || Req.op h == 0 ||
    decide (6 < Req.op h) || (srcWindow src && Req.inWindow h (Req.va h))

/-- One request is consumed, all or nothing: by the event of its operation; one with a reserved operation by any. Requests of a
bed wait for a migration that one of them has begun. -/
def mmpDo (src : ReqSource) (op : Nat) (s : State) (f : State → Nat → Nat → Acted) : Host.Outcome State Fault Refusal :=
  match s.request? src with
  | none => .next s
  | some h =>
    let own := Req.op h == op || Req.op h == 0 || decide (6 < Req.op h)
    if !own || !(s.bed (srcBed src)).on || s.mmpSwitching || (s.migrations.any fun m => m.bed == (srcBed src) && m.reply.isSome) then .next s
    else if reqBad src h then .next (s.endRequest src 3)
    else match f s (srcBed src) h with
      | .done t st => .next ((if st = 0 then t else s).endRequest src st)
      | .moving t => .next (t.syncWindow (srcBed src))

/-- The leaf of a page of a request's own size. -/
def State.pageLeaf (s : State) (bed va shift : Nat) : Option Leaf :=
  (s.walk bed va).bind fun l => if l.shift = shift ∧ l.va = va then some l else none

/-- Several pages in order, all or nothing. DESIGN CHOICE (assumption 72): where pages fail for different reasons, the first that fails
gives the status. -/
def eachPage (f : State → Nat → State ⊕ Nat) : State → List Nat → State ⊕ Nat
  | s, [] => .inl s
  | s, p :: t => match f s p with
    | .inl s => eachPage f s t
    | .inr st => .inr st

def actedOf (s : State) : State ⊕ Nat → Acted
  | .inl t => .done t 0
  | .inr st => .done s st

/-- The entry at which a new leaf stands: the page and the entry must be invalid (status 3), its tables may need a frame (1). -/
def State.newLeafAt (s : State) (bed va level pick : Nat) : (State × Nat) ⊕ Nat :=
  if (s.walk bed va).isSome then .inr 3
  else match descend s.mem va level 4 0 (s.bed bed).root with
    | .leaf => .inr 3
    | .entry a => if entryClass (leNat (s.mem.read a 8)) level == .none then .inl (s, a) else .inr 3
    | .missing _ => match s.ensureEntry bed va level pick 4 with
      | some r => .inl r
      | none => .inr 1

/-- MAP: zeroed frames of KIND. -/
def execMap (src : ReqSource) (pick : Nat) (s : State) : Host.Outcome State Fault Refusal :=
  mmpDo src 1 s fun s bed h =>
    if 2 < Req.kind h ∨ Req.cache h = 3 then .done s 3
    else actedOf s (eachPage (fun s va => match s.newLeafAt bed va (Req.level h) pick with
      | .inr st => .inr st
      | .inl (s, a) => match s.takeFrames bed (Req.kind h) (2 ^ (Req.shift h - 16)) pick with
        | none => .inr 1
        | some (s, f) => .inl (s.setEntry a (leafEntry (Req.level h) (Req.kind h) (Req.cache h) (Req.rights h) f 0)))
      s (Req.pages h (Req.va h)))

/-- One page made invalid, with a shoot-down (R201). -/
def State.freePage (s : State) (bed : Nat) (l : Leaf) : State :=
  (((s.shootDown bed l.va l.shift).setEntry l.at_ 0).setFrames bed l.kind (if l.kind = 3 then id else lowerFrames l.frame (2 ^ (l.shift - 16)))).prune bed l.va
    (match l.shift with | 16 => 3 | 26 => 2 | _ => 1)

/-- FREE. -/
def execFree (src : ReqSource) (s : State) : Host.Outcome State Fault Refusal :=
  mmpDo src 2 s fun s bed h =>
    actedOf s (eachPage (fun s va => match s.pageLeaf bed va (Req.shift h) with
      | none => .inr 4
      | some l => if l.mig then .inr 5 else .inl (s.freePage bed l)) s (Req.pages h (Req.va h)))

/-- SHARE: the target pages take the frames of the source pages as they stand before the request. DESIGN CHOICE (assumption 72): a
target page that is valid, or whose entry names a table, gives status 3, as MAP's does. -/
def execShare (src : ReqSource) (s : State) : Host.Outcome State Fault Refusal :=
  mmpDo src 3 s fun s0 bed h =>
    let s := s0
    if Req.cache h = 3 || !Req.rangeOk h (Req.src h) || (srcWindow src && Req.inWindow h (Req.src h)) then .done s 3
    else
      let base := vaIndex (Req.va h)
      actedOf s (eachPage (fun s va =>
        match s0.pageLeaf bed (vaIndex (Req.src h) + (va - base)) (Req.shift h) with
        | none => .inr 4
        | some l =>
          if l.mig then .inr 5
          else if Req.rights h &&& l.rights ≠ Req.rights h then .inr 3
          else
            let n := 2 ^ (l.shift - 16)
            if ((s.bed bed).framesOf l.kind).any fun x => decide (l.frame ≤ x.frame ∧ x.frame < l.frame + n ∧ 0xFFFF ≤ x.refs) then .inr 2
            else match s.newLeafAt bed va (Req.level h) (s.choose 30 va (2 ^ 40)) with
              | .inr st => .inr st
              | .inl (s, a) =>
                .inl ((s.setFrames bed l.kind (if l.kind = 3 then id else raiseFrames l.frame n)).setEntry a
                  (leafEntry (Req.level h) l.kind (Req.cache h) (Req.rights h) l.frame l.peer)))
        s (Req.pages h (Req.va h)))

/-- PROTECT, with a shoot-down (R201). -/
def execProtect (src : ReqSource) (s : State) : Host.Outcome State Fault Refusal :=
  mmpDo src 4 s fun s bed h =>
    if Req.cache h = 3 then .done s 3
    else actedOf s (eachPage (fun s va => match s.pageLeaf bed va (Req.shift h) with
      | none => .inr 4
      | some l => if l.mig then .inr 5
        else .inl ((s.shootDown bed l.va l.shift).setEntry l.at_ (l.entry - l.rights * 8 - l.cache * 128 + Req.rights h * 8 + Req.cache h * 128)))
      s (Req.pages h (Req.va h)))

/-- A page begins to migrate: MIG is set, with a shoot-down, and the new frames are taken (R209). -/
def State.beginMove (s : State) (bed : Nat) (l : Leaf) (kind pick : Nat) (reply : Option ReqSource) : Option State :=
  (s.takeFrames bed kind (2 ^ (l.shift - 16)) pick).map fun r =>
    let m : Migration := { bed := bed, va := l.va, psz := l.shift, kind := kind, newPa := r.2 * 65536, held := [], reply := reply }
    let s := (r.1.shootDown bed l.va l.shift).setEntry l.at_ (l.entry + 4096)
    { s with migrations := s.migrations ++ [m] }

/-- MIGRATE: done when its last page has been committed. -/
def execMigrate (src : ReqSource) (pick : Nat) (s : State) : Host.Outcome State Fault Refusal :=
  mmpDo src 5 s fun s bed h =>
    if 2 < Req.kind h then .done s 3
    else match eachPage (fun s va => match s.pageLeaf bed va (Req.shift h) with
        | none => .inr 4
        | some l => if l.mig || s.moving bed va then .inr 5
          else match s.beginMove bed l (Req.kind h) pick (some src) with
            | some s => .inl s
            | none => .inr 1) s (Req.pages h (Req.va h)) with
      | .inl t => .moving t
      | .inr st => .done s st

/-- LOOKUP: the leaf entries, or zeros, at SRC. DESIGN CHOICE (assumption 72): the output may lie in the service window, which only VA and
SHARE's source are tested for. -/
def execLookup (src : ReqSource) (s : State) : Host.Outcome State Fault Refusal :=
  mmpDo src 6 s fun s bed h =>
    let out := Req.src h
    if out.toNat % 8 ≠ 0 then .done s 3
    else match s.translate bed [] .write out (8 * Req.count h) with
      | .ok ps =>
        let es := (Req.pages h (Req.va h)).flatMap fun va => natBytes 8 (((s.walk bed va).map (·.entry)).getD 0)
        .done (s.writeParts .mmp ps es) 0
      | .deny _ => .done s 3
      | .fault _ => .done s 3

/-! ## Commits (R209) -/

/-- The contents of a page copied to a frame, with the strong writes that stand in it (R209). -/
def State.copyPage (s : State) (old new : Loc) (n : Nat) : State := (s.write new (s.read old n)).copyStrong old new n

/-- The commit of a migration: the page is copied, its entry points at the new frame, with PEER clear and a shoot-down, and the writes
held for it are applied in the order in which they arrived; then the Cox goes on with what waited for it (R209). -/
def State.commitMove (s : State) (m : Migration) : State :=
  let others := s.migrations.filter fun x => !x.covers m.bed m.va
  match s.walk m.bed m.va with
  | none => { s with migrations := others }
  | some l =>
    let old := l.loc l.va
    let new := frameLoc m.kind m.newPa
    let n := 2 ^ (m.psz - 16)
    let s := (s.copyPage old new (2 ^ m.psz)).shootDown m.bed m.va m.psz
    let entry := l.entry - field l.entry 16 36 * 65536 - 4096 - l.kind * 512 - l.peer * 2 ^ 52 + m.newPa + m.kind * 512
    let s := ({ s.setEntry l.at_ entry with migrations := others } : State).applyHeld new m.held
    let s := if l.kind = 3 then s else s.setFrames m.bed l.kind (lowerFrames l.frame n)
    let s := match m.reply with
      | some src => if s.migrations.any fun x => x.reply == some src then s else s.endRequest src 0
      | none => s
    ((s.syncWindow m.bed).retryPosts m.bed).readTemplates m.bed

/-- Every migration is committed, one after another, each as it then stands. -/
def State.commitAll : Nat → State → State
  | 0, s => s
  | n + 1, s => match s.migrations with
    | m :: _ => State.commitAll n (s.commitMove m)
    | [] => s

/-- MIGRATION_COMMIT: of the migration that covers a page. -/
def execMigrationCommit (bed page : Nat) (s : State) : Host.Outcome State Fault Refusal :=
  match s.migration? bed (page * 65536) with
  | some m => if s.mmpSwitching then .next s else .next (s.commitMove m)
  | none => .next s

/-- EXPERT_PREFETCH: a registered page moves to the other tier, if a frame is free there (R292). -/
def execExpertPrefetch (bed expert : Nat) (pick : Nat) (s : State) : Host.Outcome State Fault Refusal :=
  match (s.bed bed).experts.find? fun e => e.num == expert with
  | none => .next s
  | some e =>
    let va := vaIndex e.va + 65536 * (pick % max 1 e.pages)
    match s.walk bed va with
    | none => .next s
    | some l =>
      if s.mmpSwitching || l.mig || s.moving bed va || decide (1 < l.kind) then .next s
      else match s.beginMove bed l (1 - l.kind) (pick / max 1 e.pages) none with
        | some t => .next (t.syncWindow bed)
        | none => .next s

/-! ## Fault service (R200, R203 to R205) -/

/-- A lane, a command or the Cox waits for a page, or a lane that has been discarded since did. -/
def State.pageWanted (s : State) (bed page : Nat) : Bool :=
  (s.crews.any fun c => c.bed == bed && c.live.any fun l => c.laneIs l fun t => match t.wait with
    | .parked ps => ps.any fun p => p.page == page
    | _ => false) ||
  (s.cmds.any fun c => c.bed == bed && c.waits.any fun p => p.page == page) ||
  (s.coxWaits.any fun w => w.bed == bed && w.page == page && w.answer.isNone) || s.orphans.contains (bed, page)

/-- The answers to the requests for a page among some: `backed` says it for a request for a page and for one for a right. -/
def answersTo (page : Nat) (backed : Bool → Bool) (ps : List PageReq) : List PageAns :=
  (ps.filter fun p => p.page == page).map fun p => ⟨page, backed p.fw, p.fw, p.right⟩

/-- A lane's requests for a page are answered: it is ready once all are, or once one is refused. -/
def Thread.served (t : Thread) (page : Nat) (backed : Bool → Bool) : Thread :=
  match t.wait with
  | .parked ps =>
    let as := answersTo page backed ps
    if as.isEmpty then t
    else
      let rest := if as.all (·.backed) then ps.filter fun p => p.page != page else []
      { t with wait := if rest.isEmpty then .none else .parked rest, answered := as ++ t.answered }
  | _ => t

/-- Everything that waits for a page is answered, and the Cox goes on with what waited for it. -/
def State.served (s : State) (bed page : Nat) (backed : Bool → Bool) : State :=
  let cmd (c : Cmd) : Cmd := if c.bed == bed then
      { c with waits := c.waits.filter fun p => p.page != page, answered := answersTo page backed c.waits ++ c.answered }
    else c
  let crew (c : Crew) : Crew := if c.bed == bed then
      { c with lanes := c.lanes.map fun t => t.map fun t => t.served page backed }
    else c
  let mine (w : CoxWait) : Bool := w.bed == bed && w.page == page && w.answer.isNone
  let cox := (s.coxWaits.filter fun w => !(mine w && !w.fw && backed false)).map fun w =>
    if mine w then { w with answer := some (backed w.fw) } else w
  let s : State := { s with
    crews := s.crews.map crew, cmds := s.cmds.map cmd, coxWaits := cox, orphans := s.orphans.filter (· != (bed, page)) }
  let s := ((s.crews.filter fun c => c.bed == bed).map (·.cid)).foldl (fun s cid => s.settleCrew cid) s
  (s.retryPosts bed).readTemplates bed

/-- An entry the firmware may install at a level: well formed, not migrating, PEER and NEXT zero where R199 says so, its frames in
the bed's share and no table's. -/
def State.entryOk (s : State) (bed level e : Nat) : Bool :=
  let kind := field e 9 3
  let f := field e 16 36
  let n := 2 ^ (pageShift level - 16)
  entryClass e level == .leaf && !bit e 12 && field e 13 3 == 0 && (kind == 3 || field e 52 6 == 0) &&
    (if kind ≤ 1 then
      let sh := (s.bed bed).share kind
      decide (sh.1 ≤ f ∧ f + n ≤ sh.2) && !(((s.bed bed).tableFrames ++ s.retired).any fun u => decide (f ≤ u ∧ u < f + n))
    else true)

/-- A leaf installed at an entry: its frames come into use, zeroed, or copied from the page it replaces; frames already in use
are shared (R200, R208). A leaf it replaces is shot down (R201). -/
def State.installLeaf (s : State) (bed level pa e : Nat) (old : Option Leaf) : State :=
  let kind := field e 9 3
  let f := field e 16 36
  let n := 2 ^ (pageShift level - 16)
  let same := (old.map fun l => l.kind == kind && l.frame == f).getD false
  let inUse := ((s.bed bed).framesOf kind).any fun x => x.frame == f
  let s := if same || kind == 3 then s
    else if inUse then s.setFrames bed kind (raiseFrames f n)
    else
      let s := (s.setFrames bed kind (newFrames f n)).clearFrames kind f n
      match old with
      | some l => s.copyPage (l.loc l.va) (frameLoc kind (f * 65536)) (n * 65536)
      | none => s
  let s := match old with
    | some l => (if same || l.kind == 3 then s else s.setFrames bed l.kind (lowerFrames l.frame n)).shootDown bed l.va l.shift
    | none => s
  s.setEntry pa e

/-- MMP_FAULT_SERVICE: a page that is valid counts as served; a violation on a leaf with FW is answered by a changed entry or
declined. -/
def execMmpFaultService (bed page : Nat) (answer : FaultAnswer) (s : State) : Host.Outcome State Fault Refusal :=
  if !s.pageWanted bed page || s.mmpSwitching then .next s
  else
    let va := page * 65536
    match s.walk bed va, answer with
    | some l, .backed e =>
      let level := match l.shift with | 16 => 3 | 26 => 2 | _ => 1
      if !l.fw then .next (s.served bed page fun _ => true)
      else if l.mig || s.moving bed va || !s.entryOk bed level e.toNat then .next s
      else .next (((s.installLeaf bed level l.at_ e.toNat (some l)).syncWindow bed).served bed page fun _ => true)
    | some l, .declined => .next (s.served bed page fun fw => !(fw && l.fw))
    | none, .declined => .next (s.served bed page fun _ => false)
    | none, .backed e =>
      if !s.entryOk bed 3 e.toNat then .next s
      else match s.ensureEntry bed va 3 (s.choose 30 page (2 ^ 40)) 4 with
        | some (s, a) => .next (((s.installLeaf bed 3 a e.toNat none).syncWindow bed).served bed page fun _ => true)
        | none => .next s

end Sys2Proof.Machine
end

