-- ==== Sys2Proof/Machine/Ports.lean ====
section
/-! DEFINITION. The Ethernet ports: steering, ingress records, held records, PTP clocks (spec/19_scheduling_rules.md R339 to R341,
spec/24_outside_rules.md R404 to R407). -/

namespace Sys2Proof.Machine

/-! ## Counters (R385, R407) -/

/-- One more on an error or drop counter. -/
def State.countError (s : State) (i : Nat) : State := { s with errcnt := modifyAt s.errcnt i fun n => (n + 1) % 2 ^ 64 }

/-- A Hyfin Link's counter, a port's counter of FCS and unsteered drops, its overflow counter: after the 14 rows of R385. -/
def linkCounter (i : Nat) : Nat := 14 + i
def dropCounter (port : Nat) : Nat := 32 + port
def overflowCounter (port : Nat) : Nat := 36 + port

/-! ## Steering rules (R404) -/

namespace Rule
def valid (r : Nat) : Bool := bit r 0
def etype (r : Nat) : Nat := field r 96 16
def moff (r : Nat) : Nat := field r 112 16
def mmask (r : Nat) : Nat := field r 128 32
def mval (r : Nat) : Nat := field r 160 32
def bed (r : Nat) : Nat := field r 228 4
def inst (r : Nat) : Nat := field r 232 12
def node (r : Nat) : Nat := field r 244 12
def seqt (r : Nat) : Dword := BitVec.ofNat 64 (field r 256 64)
def koff (r : Nat) : Nat := field r 336 16
def kmask (r : Nat) : Nat := field r 352 32
def bsz (r : Nat) : Nat := field r 408 8
def nbuf (r : Nat) : Nat := field r 416 32
def fbase (r : Nat) : Dword := BitVec.ofNat 64 (field r 448 64)
/-- The masked bits of the key mask. -/
def keyBits (r : Nat) : List Nat := (List.range 32).filter fun i => bit (kmask r) i
/-- A rule's own fields are in range. -/
def wellFormed (r : Nat) : Bool :=
  field r 1 95 == 0 && field r 192 36 == 0 && field r 320 16 == 0 && field r 384 24 == 0 && nbuf r != 0 &&
    decide (1 ≤ bsz r ∧ bsz r ≤ 64 ∧ (keyBits r).length ≤ 16 ∧ koff r % 4 = 0 ∧ koff r < 256 ∧ moff r % 4 = 0 ∧ moff r < 256)
end Rule

/-- The word of a frame at an offset; bytes beyond the frame are zero. -/
def frameWord (frame : List Byte) (off : Nat) : Nat := leNat ((List.range 4).map fun i => (frame[off + i]?).getD 0)

/-- The EtherType, in network order. -/
def frameType (frame : List Byte) : Nat := ((frame[12]?).getD 0).toNat * 256 + ((frame[13]?).getD 0).toNat

/-- A frame matches a rule. -/
def ruleMatches (r : Nat) (frame : List Byte) : Bool :=
  Rule.valid r && (Rule.etype r == 0 || Rule.etype r == frameType frame) &&
    frameWord frame (Rule.moff r) &&& Rule.mmask r == Rule.mval r

/-- The masked bits of the key, packed. -/
def packKey (r key : Nat) : Nat :=
  let bs := Rule.keyBits r
  ((List.range bs.length).zip bs).foldl (fun n x => if bit key x.2 then n + 2 ^ x.1 else n) 0

def State.port (s : State) (i : Nat) : Port := (s.ports[i]?).getD Port.reset

def State.setPort (s : State) (i : Nat) (f : Port → Port) : State := { s with ports := modifyAt s.ports i f }

/-- The first rule that a frame matches. -/
def State.steer? (s : State) (port : Nat) (frame : List Byte) : Option Nat :=
  (List.range 64).find? fun i => ruleMatches ((((s.port port).rules[i]?).map (·.toNat)).getD 0) frame

/-! ## Ingress (R340, R341, R405, R406) -/

/-- Parts a port may read and write; it never waits for the MMP. -/
def State.portParts (s : State) (bed : Nat) (a : Dword) (n : Nat) : Option (List Part) :=
  if n = 0 then some []
  else match s.translate bed [] .read a n, s.translate bed [] .write a n with
    | .ok _, .ok ps => if s.unreachable ps then none else some ps
    | _, _ => none

/-- Bytes as they stand once the writes held for their page are applied (R209): a port does not wait for the commit. -/
def State.readThrough (s : State) (ps : List Part) : List Byte :=
  ps.flatMap fun p => match p.mig with
    | none => s.read p.loc p.len
    | some (bed, va) => match s.migration? bed va, s.walk bed va with
      | some m, some l => (s.applyHeld (l.loc l.va) m.held).read p.loc p.len
      | some _, none => s.read p.loc p.len
      | none, _ => s.read p.loc p.len

/-- The record of a frame (R340). -/
def ingressRecord (p : Port) (port rule : Nat) (fbuf : Dword) (seq key len : Nat) (trunc : Bool) : List Byte :=
  natBytes 64 (p.sec + 2 ^ 48 * p.ns + 2 ^ 80 * p.frac + 2 ^ 96 * (port % 4) + 2 ^ 112 * (len % 65536) + 2 ^ 128 * key +
    2 ^ 160 * seq + 2 ^ 192 * fbuf.toNat + 2 ^ 256 * rule + (if trunc then 2 ^ 264 else 0))

/-- A port holds a record of a tray already. -/
def Port.holdsFor (p : Port) (bed inst node : Nat) : Bool := p.held.any fun h => h.bed == bed && h.inst == inst && h.node == node

/-- Step 3 of R341: the record reaches its tray, or the port holds it behind those it already holds; what the port has written happens
before the start of the team that it fires (R220). -/
def State.portDeliver (s : State) (port bed inst node : Nat) (bytes : List Byte) : State :=
  if s.trayRoom bed inst node && !(s.port port).holdsFor bed inst node then (s.trayPut bed inst node bytes (s.upTo (.port port))).fireTrays
  else s.setPort port fun p => { p with held := p.held ++ [{ bed := bed, inst := inst, node := node, bytes := bytes, seen := s.upTo (.port port) }] }

/-- The parts of the first bytes of an access. -/
def takeParts : Nat → List Part → List Part
  | _, [] => []
  | n, p :: t => if n = 0 then [] else { p with len := min n p.len } :: takeParts (n - p.len) t

/-- A frame that a rule steers: the sequence word and the whole buffer are translated before anything is written (R405, R341). -/
def State.ingress (s : State) (port rule : Nat) (frame : List Byte) : State :=
  let p := s.port port
  let r := ((p.rules[rule]?).map (·.toNat)).getD 0
  let bed := Rule.bed r
  let key := frameWord frame (Rule.koff r) &&& Rule.kmask r
  let n := (p.steered[rule]?).getD 0
  let size := 256 * Rule.bsz r
  let fbuf := Rule.fbase r + BitVec.ofNat 64 (size * (n % max 1 (Rule.nbuf r)))
  let bytes := frame.take size
  match s.portParts bed (Rule.seqt r + BitVec.ofNat 64 (4 * packKey r key)) 4, s.portParts bed fbuf size with
  | some seqs, some bufs =>
    let seq := leNat (s.readThrough seqs)
    let s := (s.writeParts (.port port) seqs (natBytes 4 (seq + 1))).writeParts (.port port) (takeParts bytes.length bufs) bytes
    let s := s.setPort port fun p => { p with steered := modifyAt p.steered rule (· + 1) }
    let s := s.setGraph bed (Rule.inst r) fun g => { g with count := g.count + 1 }
    s.portDeliver port bed (Rule.inst r) (Rule.node r)
      (ingressRecord p port rule fbuf seq key frame.length (decide (size < frame.length)))
  | _, _ => s.countError (dropCounter port)

/-- FRAME_RECEIVE: `frame` without its FCS. No room in the port's buffer, a bad FCS, no rule, a bed that is off or fenced: the
frame is dropped and counted. -/
def execFrameReceive (port : Nat) (frame : List Byte) (fcsGood : Bool) (s : State) : Host.Outcome State Fault Refusal :=
  if s.modState < 2 || s.modState == 3 || s.ports.length ≤ port then .next s
  else if Config.portBuffer < 64 * (s.port port).held.length + frame.length then .next (s.countError (overflowCounter port))
  else if !fcsGood then .next ((s.countError 12).countError (dropCounter port))
  else match s.steer? port frame with
    | none => .next (s.countError (dropCounter port))
    | some rule =>
      let bed := s.bed (Rule.bed ((((s.port port).rules[rule]?).map (·.toNat)).getD 0))
      if !bed.on || bed.fenced then .next (s.countError (dropCounter port)) else .next (s.ingress port rule frame)

/-- The first record a port holds for a tray, and the others. -/
def takeHeld (bed inst node : Nat) : List HeldRec → Option (HeldRec × List HeldRec)
  | [] => none
  | h :: t =>
    if h.bed == bed && h.inst == inst && h.node == node then some (h, t)
    else (takeHeld bed inst node t).map fun r => (r.1, h :: r.2)

/-- HELD_RECORD_DELIVERY: the oldest record held for a tray goes in once it has room; a fenced bed's tray discards it (R389). -/
def execHeldRecordDelivery (port bed inst node : Nat) (s : State) : Host.Outcome State Fault Refusal :=
  match takeHeld bed inst node (s.port port).held with
  | none => .next s
  | some (h, rest) =>
    let t := s.setPort port fun p => { p with held := rest }
    if (s.graph? bed inst).isNone then .next t
    else if (s.bed bed).fenced then .next (t.countBy bed inst (-1))
    else if s.trayRoom bed inst node then .next ((t.trayPut bed inst node h.bytes h.seen).fireTrays)
    else .next s

/-! ## PTP (R407) -/

/-- PTP_MESSAGE: the clock is off by `offset` ns; below 1 ms it slews, at a rate of at most 500 ppm that the spec leaves open, else it
steps; in holdover its trim stands. -/
def execPtpMessage (port : Nat) (offset : Int) (s : State) : Host.Outcome State Fault Refusal :=
  .next (s.setPort port fun p =>
    if p.holdover then p
    else if offset.natAbs < 1000000 then
      let rate : Int := 1 + s.choose 42 port 500
      { p with slew := offset * 65536, trim := if offset < 0 then -rate else if offset = 0 then 0 else rate }
    else { p.advance (offset * 65536) with slew := 0, trim := 0 })

end Sys2Proof.Machine
end

