-- ==== Sys2Proof/Machine/Errors.lean ====
section
/-! DEFINITION. Links, the companion's aperture, the debug mailbox, errors and their containment, the dump, power and idling
(spec/22_faults_rules.md R383 to R393, spec/24_outside_rules.md R400, R402, R403, R411, R412). -/

namespace Sys2Proof.Machine

/-! ## The dump (R390 to R393) -/

/-- The PC of a lane in its slot's record (R393): the stop PC of a halted thread, the faulting instruction of a fault-parked one,
else the next PC to issue, which for a thread stalled at a WAITM follows that WAITM (R25). -/
def State.recordPc (s : State) (c : Crew) (t : Thread) : Dword :=
  match t.wait with
  | .waitm _ n => if ((s.team? (c.ref t)).map (·.halted)).getD false then t.pc else t.iaddr + BitVec.ofNat 64 (4 * n)
  | _ => t.pc

/-- The crew-slot record of R393, as little-endian bytes from offset 0. -/
def State.slotRecord (s : State) (c : Crew) : List Byte :=
  let lane (f : Thread → Nat) (empty : Nat) : List Byte := (List.range 64).flatMap fun l => natBytes 8 (match c.thread? l with
    | some t => f t
    | none => empty)
  let lanesWith (p : Thread → Bool) : Nat := (maskOf (c.live.filter fun l => c.laneIs l p)).toNat
  let team (p : Team → Bool) : Bool := c.live.any fun l => c.laneIs l fun t => ((s.team? (c.ref t)).map p).getD false
  lane (fun t => (s.recordPc c t).toNat) 0 ++ ((List.range 12).flatMap fun k => natBytes 8 (c.mask k).toNat) ++
    natBytes 4 c.tcause.toNat ++ natBytes 4 c.tval.toNat ++ natBytes 4 c.fflags.toNat ++
    natBytes 4 (1 + (if team (·.halted) then 2 else 0) + (if team (·.attached) then 4 else 0)) ++
    natBytes 8 c.tpc.toNat ++ natBytes 8 c.tmask.toNat ++ natBytes 8 (lanesWith (·.handler)) ++
    natBytes 8 (lanesWith fun t => t.wait.isParked) ++ List.replicate 112 0 ++
    lane (fun t => c.launch + 2 ^ 32 * t.team) (2 ^ 64 - 1) ++ List.replicate 768 0

/-- The crews of a core. -/
def State.crewsOf (s : State) (core : Nat) : List Crew :=
  s.crews.filter fun c => c.cluster * Config.coresPerCluster + c.core == core

/-- Bytes from an offset, as a memory. -/
def imageOf (off : Nat) (bs : List Byte) : Memory :=
  ((List.range bs.length).zip bs).filterMap fun x => if x.2 == 0 then none else some (off + x.1, x.2)

/-- Memories one after another, each with the length it takes. -/
def imagesOf : Nat → List (Nat × Memory) → Memory
  | _, [] => []
  | off, (n, m) :: t => m.map (fun c => (off + c.1, c.2)) ++ imagesOf (off + n) t

/-- The per-lane registers of a core: those of its crews in slot order, lane after lane, as many as the kernel gives a thread. -/
def State.laneImage (s : State) (core : Nat) : List (Nat × Memory) :=
  (sortBy (·.slot) (s.crewsOf core)).flatMap fun c =>
    let n := ((s.kernel? c.bed c.launch).map (·.vregs)).getD 0
    (List.range c.width).map fun l => (4 * n, match c.thread? l with
      | some t => imageOf 0 (wordsBytes ((List.range n).map t.v.get))
      | none => [])

/-- The accumulator slots of a core: those its resident teams claim, team after team. -/
def State.accImage (s : State) (core : Nat) : List (Nat × Memory) :=
  s.teams.flatMap fun t => match t.place with
    | none => []
    | some p => (t.acc.filter fun a => (p.cores[a.core]?).any fun k => p.cluster * Config.coresPerCluster + k == core).map fun a =>
        (73728, imageOf 0 (wordsBytes ((List.range 18432).map a.bank.get)))

/-- The plot memory of a cluster: the plots of its resident teams, then the cluster-shared plots claimed there. -/
def State.plotImage (s : State) (cluster : Nat) : List (Nat × Memory) :=
  (s.residents cluster).map (fun t => (((s.kernel? t.ref.bed t.ref.launch).map (·.plot)).getD 0, t.plot)) ++
    (s.shared.filter fun p => p.cluster == cluster).map fun p => (((s.kernel? p.bed p.launch).map (·.cplot)).getD 0, p.mem)

/-- The image of a section (R392). DESIGN CHOICE (assumption 66): where the spec leaves to the hardware how threads, teams and launches
stand in a structure, they stand one after another; of the structures it does not describe at all the bytes are free. -/
def State.image (s : State) (type unit : Nat) : Image :=
  match type with
  | 1 => .bytes ((s.crewsOf unit).foldl (fun (m : Memory) c => m.write (2048 * c.slot) (s.slotRecord c)) [])
  | 2 => .bytes (imagesOf 0 (s.laneImage unit))
  | 3 => .bytes ((s.crewsOf unit).foldl (fun (m : Memory) c =>
      m.write (1024 * c.slot) (wordsBytes ((List.range 256).map c.s.get))) [])
  | 4 => .bytes (imagesOf 0 (s.accImage unit))
  | 5 => .bytes (imagesOf 0 (s.plotImage unit))
  | 11 => .bytes (imageOf 0 ((s.errcnt.drop 14).flatMap (natBytes 8)))
  | _ => .free (freeIndex s.fresh 31 (type * 2 ^ 32 + unit))

/-- The structure of a section is itself the fatal source: the Cox's state, the firmware of a die (R392; assumption 66). -/
def fatalSource (cause detail type unit : Nat) : Bool :=
  (cause == 1 && type == 8) || ((cause == 2 || cause == 4) && type == 9 && unit == detail)

/-- The length of a section: 0 where the structure is the fatal source, that of the structures R1 sizes, else unspecified. -/
def State.sectionLength (s : State) (cause detail type unit : Nat) : Nat :=
  if fatalSource cause detail type unit then 0 else
  match type with
  | 1 => 64 * 2048
  | 2 => 4 * Config.regWords
  | 3 => 64 * 1024
  | 4 => 4 * 96 * 192 * 4
  | 5 => Config.plotBytes
  | 6 => 1048576
  | 11 => 8 * 26
  | _ => Config.freeNat (freeIndex s.fresh 32 (type * 2 ^ 32 + unit)) % Config.dumpSize

/-- Every section's TYPE and UNIT in the order they are written (R392). -/
def dumpUnits : List (Nat × Nat) :=
  let units (type n : Nat) : List (Nat × Nat) := (List.range n).map fun i => (type, i)
  let cores := Config.clusters * Config.coresPerCluster
  units 1 cores ++ units 2 cores ++ units 3 cores ++ units 4 cores ++ units 5 Config.clusters ++ units 6 Config.clusters ++
    units 7 64 ++ units 8 8 ++ units 9 4 ++ units 10 Config.clusters ++ units 11 1

/-- The sections, one after another behind the header and the directory. -/
def State.sectionsFrom (s : State) (cause detail : Nat) : Nat → List (Nat × Nat) → List Section_
  | _, [] => []
  | off, u :: t =>
    let n := s.sectionLength cause detail u.1 u.2
    { type := u.1, unit := u.2, bed := if u.1 = 8 then u.2 else 0xFF, offset := off, length := n, image := s.image u.1 u.2 } ::
      s.sectionsFrom cause detail (off + n) t

/-- The dump of a device-fatal error. `detail`: the index the cause speaks of. -/
def State.dumpOf (s : State) (cause die detail : Nat) : Dump :=
  { cause := cause, die := die, detail := detail,
    cycle := if die < 4 then s.cycleOf (12 * die) else Config.freeNat (freeIndex s.fresh 33 0) % 2 ^ 64
    done := true, sections := s.sectionsFrom cause detail (64 + 32 * dumpUnits.length) dumpUnits }

/-- The header (R391), as a 512-bit value. -/
def Dump.header (d : Dump) : Nat :=
  0x44504D44 + 2 ^ 32 * 1 + 2 ^ 48 * d.sections.length + 2 ^ 64 * d.cause + 2 ^ 72 * d.die + (if d.done then 2 ^ 80 else 0) +
    2 ^ 96 * (d.detail % 2 ^ 32) + 2 ^ 128 * d.cycle

/-- A directory entry (R392). -/
def Section_.entry (x : Section_) : Nat := x.offset + 2 ^ 64 * x.length + 2 ^ 128 * x.type + 2 ^ 144 * x.bed + 2 ^ 160 * x.unit

/-- A byte of the dump region, as the companion reads it through the dump aperture (R412). -/
def Dump.byte (d : Dump) (off : Nat) : Byte :=
  if off < 64 then BitVec.ofNat 8 (d.header / 256 ^ off)
  else match d.sections[(off - 64) / 32]? with
    | some x => BitVec.ofNat 8 (x.entry / 256 ^ ((off - 64) % 32))
    | none => match d.sections.find? fun x => decide (x.offset ≤ off ∧ off < x.offset + x.length) with
      | some x => match x.image with
        | .bytes m => m.get (off - x.offset)
        | .free seed => Config.freeByte seed (off - x.offset)
      | none => 0

/-- A device-fatal error stops the Cox, every bed and every port; every bed that is on is told (R390, R412). -/
def State.fatal (s : State) (cause die detail : Nat) : State :=
  if s.modState == 3 then s
  else
    let s := { s with dump := some (s.dumpOf cause die detail), modState := 3, cur := none }
    (List.range s.beds.length).foldl (fun s b => if (s.bed b).on then s.message b 8 cause 0 0 else s) s

/-- The die that detects an error of no die of its own, and the die, slice or stack that DETAIL names for a cause whose index the
spec does not give: unspecified (R391; assumption 66). -/
def State.someDie (s : State) : Nat := s.choose 34 0 6
def State.someDetail (s : State) : Nat := s.choose 41 0 (2 ^ 32)

/-! ## Errors (R385 to R389) -/

/-- UNCORRECTABLE_ERROR: counted in its row, and contained. A line or an entry that is only a clean copy is dropped and fetched again;
which line of an L1 the error is in, the spec does not say. -/
def execUncorrectableError (site : ErrSite) (s : State) : Host.Outcome State Fault Refusal :=
  match site with
  | .registers cid => match s.crew? cid with
    | some c => .next ((s.countError 0).failLaunch c.bed c.launch)
    | none => .next s
  | .teamPlot t => .next ((s.countError 1).failLaunch t.bed t.launch)
  | .clusterPlot bed launch => .next ((s.countError 2).failLaunch bed launch)
  | .riddle bed launch => .next ((s.countError 3).failLaunch bed launch)
  | .riddleNet bed launch => .next ((s.countError 4).failLaunch bed launch)
  | .accumulator t => .next ((s.countError 5).failLaunch t.bed t.launch)
  | .l1 => .next ((s.countError 6).dropLine (s.choose 45 0 (max 1 s.l1.length)))
  | .tlb => .next (s.countError 7)
  | .l2Clean => .next (s.countError 8)
  | .l2Dirty bed => .next ((s.countError 9).fenceBed bed)
  | .savedContext t => .next ((s.countError 10).failLaunch t.bed t.launch)
  | .bedFrame bed => .next ((s.countError 10).fenceBed bed)
  | .freeFrame f =>
    if s.retired.contains f || s.beds.any fun b => (b.frames.any fun x => x.frame == f) || b.tableFrames.contains f then .next s
    else
      let s := { s.countError 10 with retired := s.retired ++ [f] }
      .next ((List.range s.beds.length).foldl (fun s b => if (s.bed b).on then s.syncWindow b else s) s)
  | .firmwareFrame => .next ((s.countError 10).fatal 2 s.someDie s.someDetail)
  | .coxState => .next ((s.countError 9).fatal 1 s.someDie s.someDetail)
  | .command cmd => match s.cmd? cmd with
    | some c => if c.status.isSome then .next s else .next (s.dataError c)
    | none => .next s

/-- LINK_REPLAY_EXHAUSTED: device-fatal, cause 3, with the link's index. -/
def execLinkReplayExhausted (link : FatalLink) (s : State) : Host.Outcome State Fault Refusal :=
  let i := match link with
    | .hbm i => i
    | .lpddr i => i
    | .binal => 0
  .next ((s.countError 11).fatal 3 s.someDie i)

/-- WATCHDOG_EXPIRY. -/
def execWatchdogExpiry (s : State) : Host.Outcome State Fault Refusal := .next (s.fatal 6 s.someDie s.someDetail)

/-- MMP_FIRMWARE_FAULT: the MMP of another die writes the dump. -/
def execMmpFirmwareFault (die : Nat) (s : State) : Host.Outcome State Fault Refusal := .next (s.fatal 4 die die)

/-! ## Power (R400, R411) -/

/-- A limit holds no longer at which the clock steps down: module power above 2,600 W, package power above 2,350 W, in mW, a die
above 95 °C, in units of 0.125 °C. -/
def State.tooMuch (s : State) : Bool := decide (2600000 < s.power ∨ 2350000 < s.packagePower ∨ 95 * 8 < s.dieTemp)

/-- A die above 105 °C, or the coolant inlet above 45 °C. -/
def State.tooHot (s : State) : Bool := decide (105 * 8 < s.dieTemp ∨ 45 * 8 < s.inletTemp)

/-- THERMAL_TRIP: device-fatal, cause 5. -/
def execThermalTrip (s : State) : Host.Outcome State Fault Refusal :=
  if s.tooHot then .next (s.fatal 5 s.someDie s.someDetail) else .next s

/-- THROTTLE_STEP: it changes no result and no count in cycles. -/
def execThrottleStep (s : State) : Host.Outcome State Fault Refusal :=
  if s.tooMuch then .next { s with stepDowns := s.stepDowns + 1 } else .next s

/-- An error corrected in a structure of a row that corrects or replays is counted there (R385, R386). -/
def State.correct (s : State) (row : Nat) : State :=
  if [0, 1, 2, 3, 8, 9, 10, 11].contains row then s.countError row else s

/-- A bed may stop its clocks: no inlet holds a record either. -/
def State.bedQuiet (s : State) (bed : Nat) : Bool :=
  (s.bed bed).on && (s.bed bed).block.pstate.getLsbD 1 && !(s.teams.any fun t => t.ref.bed == bed && t.place.isSome) &&
    !(s.pool.any fun e => e.bed == bed) && !((List.range 16).any fun i => inletHeld (s.bed bed).inlets i) &&
    !(s.graphs.any fun g => g.bed == bed && g.nodes.any fun n => !n.tray.isEmpty)

/-- BED_IDLE. -/
def execBedIdle (bed : Nat) (s : State) : Host.Outcome State Fault Refusal :=
  if s.bedQuiet bed then .next (s.setBed bed fun b => { b with idle := true }) else .next s

/-! ## Physical accesses from outside (R402, R403, R209) -/

/-- The migration whose old frame holds a physical address, and the offset there. -/
def State.movingFrame (s : State) (pa : Nat) : Option (Migration × Nat) :=
  s.migrations.findSome? fun m => (s.walk m.bed m.va).bind fun l =>
    if l.kind ≤ 1 ∧ l.frame * 65536 ≤ pa ∧ pa < l.frame * 65536 + 2 ^ m.psz then some (m, pa - l.frame * 65536) else none

/-- A write to a frame that moves is held. -/
def State.holdPa (s : State) (m : Migration) (h : Held) : State :=
  { s with migrations := mapIf (· == m) (fun m => { m with held := m.held ++ [h] }) s.migrations }

/-- A write of the companion or of a peer: a release of what happens before it, and, as an atomic, an acquire (R220, R233, R234). DESIGN
CHOICE (assumption 71): of a peer's accesses, whose classes its requests do not show, so every one. -/
def State.paWrite (s : State) (a : Agent) (sc : Scope) (op : WriteOp) : Write :=
  { op := op, who := a, strong := some (match op with
      | .bytes _ => s.releaseBy a sc [] false
      | _ => { s.releaseBy a sc [] true with acq := true }) }

/-- A write at a physical address, held while its frame moves (R209); of bytes some of which are discarded, byte for byte. -/
def State.writePa (s : State) (keep : Nat → Bool) (pa : Nat) (w : Write) : State :=
  match s.movingFrame pa, w.op with
  | some (m, o), _ => s.holdPa m { off := o, write := w, reply := false }
  | none, .bytes bs =>
    if (List.range bs.length).all fun i => keep (pa + i) then (s.make (.mod pa) w).1
    else ((List.range bs.length).zip bs).foldl (fun s b =>
      if keep (pa + b.1) then (s.make (.mod (pa + b.1)) { w with op := .bytes [b.2] }).1 else s) s
  | none, _ => if keep pa then (s.make (.mod pa) w).1 else s

/-- A read at a physical address acquires (R233, R234). -/
def State.readPa (s : State) (a : Agent) (sc : Scope) (pa n : Nat) : State :=
  s.strongRead (s.releasesAt (.mod pa) n) { scope := sc, home := a.home } true false

/-- An access to a frame that moves waits when a sector of it has a held write. -/
def State.paWaits (s : State) (pa n : Nat) : Bool :=
  match s.movingFrame pa with
  | some (m, o) => s.heldSector m.bed (m.va + o) n
  | none => false

/-- A frame of MMP firmware: it stands in no bed's share. -/
def State.firmwareAt (s : State) (pa : Nat) : Bool :=
  !(s.beds.any fun b => [0, 1].any fun k => decide ((b.share k).1 ≤ pa / 65536 ∧ pa / 65536 < (b.share k).2)) &&
    Config.firmwareFrame (pa / 65536)

/-- What the companion may write through the aperture: no frame that holds tables, none of firmware, nothing in the dump region
(R198, R402). -/
def State.apertureKeeps (s : State) (pa : Nat) : Bool :=
  !(decide (Config.dumpBase ≤ pa ∧ pa < Config.dumpBase + Config.dumpSize)) && !noMemory pa &&
    !(s.beds.any fun b => b.tableFrames.contains (pa / 65536)) && !s.firmwareAt pa

/-- The bytes the companion reads through the aperture (R402); none while it waits for a commit (R209, R233). -/
def State.apertureRead (s : State) (pa n : Nat) : Option (List Byte) :=
  if s.paWaits pa n then none
  else some ((List.range n).flatMap fun i =>
    if decide (Config.dumpBase ≤ pa + i ∧ pa + i < Config.dumpBase + Config.dumpSize) || s.firmwareAt (pa + i) then [0]
    else s.read (.mod (pa + i)) 1)

/-- APERTURE_ACCESS: accesses at SYSTEM scope (R233). A read gives State.apertureRead. -/
def execApertureAccess (op : ApertureOp) (s : State) : Host.Outcome State Fault Refusal :=
  match op with
  | .read pa n => .next (if s.paWaits pa n then s else s.readPa .companion .system pa n)
  | .write pa bs => .next (s.writePa s.apertureKeeps pa (s.paWrite .companion .system (.bytes bs)))
  | .atomic pa op w operand =>
    if aBits w ≤ 64 ∧ pa % (aBits w / 8) = 0 then
      .next (s.writePa s.apertureKeeps pa (s.paWrite .companion .system (.atomic op w operand)))
    else .next s

/-- The bed whose share holds a physical address. -/
def State.ownerOf (s : State) (pa : Nat) : Option Nat :=
  (List.range s.beds.length).find? fun b => (s.bed b).on && ([0, 1].any fun k =>
    let sh := (s.bed b).share k
    decide (sh.1 ≤ pa / 65536 ∧ pa / 65536 < sh.2))

/-- The address a peer's request names, or the bed. -/
def peerBed (s : State) : PeerOp → Option Nat
  | .read pa _ => s.ownerOf pa
  | .write pa _ => s.ownerOf pa
  | .atomic pa _ _ _ => s.ownerOf pa
  | .emitCount bed _ _ _ => some bed
  | .emitRecord bed _ _ _ => some bed

/-- The 256-byte block a request names (R403); records to one node of one instance keep their order too. -/
def peerBlock : PeerOp → Nat
  | .read pa _ => pa / 256
  | .write pa _ => pa / 256
  | .atomic pa _ _ _ => pa / 256
  | .emitCount bed inst node _ => 2 ^ 64 + bed * 2 ^ 24 + inst * 2 ^ 12 + node
  | .emitRecord bed inst node _ => 2 ^ 64 + bed * 2 ^ 24 + inst * 2 ^ 12 + node

/-- A handle names a live node of RSZ so many words. -/
def State.takesWords (s : State) (bed inst node words : Nat) : Bool :=
  (((s.graph? bed inst).bind fun g => g.nodes[node]?).map fun n => 4 * words == n.rsz).getD false

/-- A peer's request performed (R360, R403), as an access within this module's DEVICE instance (R234). -/
def State.peerDo (s : State) (p : Nat) : PeerOp → State
  | .read pa n => s.readPa (.peer p) .device pa n
  | .write pa bs => s.writePa (fun _ => true) pa (s.paWrite (.peer p) .device (.bytes bs))
  | .atomic pa op w operand => s.writePa (fun _ => true) pa (s.paWrite (.peer p) .device (.atomic op w operand))
  | .emitCount bed inst node words =>
    if s.takesWords bed inst node words then s.setGraph bed inst fun g => { g with count := g.count + 1 } else s
  | .emitRecord bed inst node ws =>
    if !s.takesWords bed inst node ws.length then s
    else if s.trayRoom bed inst node then (s.trayPut bed inst node (wordsBytes ws) (s.upTo (.peer p))).fireTrays
    else s.countBy bed inst (-1)

/-- A peer's read waits for a commit; its writes and atomics are held in their order. -/
def State.peerWaits (s : State) : PeerOp → Bool
  | .read pa n => s.paWaits pa n
  | .write _ _ => false
  | .atomic _ _ _ _ => false
  | .emitCount _ _ _ _ => false
  | .emitRecord _ _ _ _ => false

/-- A request of a peer, or a later one to the same block, has been performed: this one is a duplicate. -/
def State.seenBefore (s : State) (peer seq block : Nat) : Bool :=
  s.seqs.any fun q => q.peer == peer && q.block == block && decide (seq ≤ q.seq)

/-- PEER_REQUEST: over a link that is up; those to one block in the order sent, a duplicate discarded; a fenced bed does not answer. -/
def execPeerRequest (link peer seq : Nat) (op : PeerOp) (s : State) : Host.Outcome State Fault Refusal :=
  let up := ((s.links[link]?).map fun l => l.up && l.peer == peer).getD false
  if !up || s.seenBefore peer seq (peerBlock op) || s.peerWaits op then .next s
  else
    let s := { s with seqs := (s.seqs.filter fun q => !(q.peer == peer && q.block == (peerBlock op))) ++ [⟨peer, seq, (peerBlock op)⟩] }
    match peerBed s op with
    | some b =>
      if (s.bed b).fenced then .next s
      else .next ((s.setBed b fun x => { x with idle := false }).peerDo peer op)
    | none => .next (s.peerDo peer op)

/-- HYFIN_LINK_FAILURE: its requests travel over another link to the same peer, or find it unreachable. -/
def execHyfinLinkFailure (link : Nat) (s : State) : Host.Outcome State Fault Refusal :=
  match s.links[link]? with
  | none => .next s
  | some _ => .next { s.countError (linkCounter link) with links := modifyAt s.links link fun l => { l with up := false } }

/-! ## The debug mailbox (R383, R384) -/

/-- A report as a 512-bit value. -/
def Report.value (r : Report) (seq : Nat) : Nat :=
  r.tpc.toNat + 2 ^ 64 * r.tmask.toNat + 2 ^ 128 * r.tval.toNat + 2 ^ 160 * (r.cause % 256) + 2 ^ 168 * (r.kind % 256) +
    2 ^ 176 * (r.core % 16) + 2 ^ 184 * (r.cluster % 256) + 2 ^ 192 * (r.crew % 256) + 2 ^ 208 * (r.tid % 65536) +
    2 ^ 224 * (r.team % 2 ^ 32) + 2 ^ 256 * (r.launch % 2 ^ 32) + 2 ^ 288 * seq

/-- HBM bytes of the mailbox with R and W; none when the report is lost. -/
def State.mailParts (s : State) (bed : Nat) (a : Dword) (n : Nat) : Cox (Option (List Part)) :=
  (s.coxParts bed .read a n).bind fun r => (s.coxParts bed .write a n).map fun w => match r, w with
    | some _, some ps => if ps.all fun p => p.kind == 0 then some ps else none
    | _, _ => none

/-- The oldest report is written, then WR, then EVT by a release at SYSTEM scope; or it waits for room or a page, or is lost. -/
def State.writeReport (s : State) (bed : Nat) (r : Report) (rest : List Report) : Cox State :=
  let base := (s.bed bed).block.mbox
  let gone (s : State) : State := s.setBed bed fun b => { b with reports := rest }
  if base = 0 then .ok (gone s)
  else (s.mailParts bed base 16).bind fun h => match h with
    | none => .ok (gone s)
    | some ps =>
      if ps.any fun p => (s.partWaits p).isSome then .ok s
      else
        let head := leNat (s.readParts ps)
        let wr := field head 64 32
        let rd := field head 96 32
        if (BitVec.ofNat 32 wr - BitVec.ofNat 32 rd).toNat = 32 then .ok s
        else (s.mailParts bed (base + BitVec.ofNat 64 (0x100 + 64 * (wr % 32))) 64).bind fun slot => match slot with
          | none => .ok (gone s)
          | some qs => (s.mailParts bed (base + 8) 4).bind fun w => (s.mailParts bed base 8).map fun e => match w, e with
            | some w, some e =>
              let s := (s.writeParts .cox qs (natBytes 64 (r.value wr))).writeParts .cox w (natBytes 4 (wr + 1))
              gone (s.releaseParts (s.coxStrong [] false) e (natBytes 8 (field head 0 64 + 1)))
            | _, _ => gone s

/-- MAILBOX_REPORT. -/
def execMailboxReport (bed : Nat) (s : State) : Host.Outcome State Fault Refusal :=
  match (s.bed bed).reports with
  | [] => .next s
  | r :: rest => match s.writeReport bed r rest with
    | .ok s => .next (s.coxForget bed)
    | .waits b ps => .next (s.coxAsk b ps)
    | .held _ => .next s

/-! ## After a device-fatal error (R390) -/

/-- What still moves: Trellis, the companion and the peers. -/
def movesInFatal : Move → Bool
  | .host _ _ => true
  | .sense _ _ _ _ _ => true
  | .peer _ _ _ => true
  | .peerFence _ _ => true
  | .event (.apertureAccess _) => true
  | .event (.registerWrite _ _ _) => true
  | .event .configure => true
  | .event .bedOn => true
  | .event .bedOff => true
  | .event .attest => true
  | .event .reset => true
  | .event .registerExpert => true
  | .event .steer => true
  | .event .mmpRequest => true
  | .event (.update _) => true
  | .event .updateComplete => true
  | .event .powerLoss => true
  | _ => false

/-- The move is made: not while the module is stopped, unless it is theirs. -/
def State.mayMove (s : State) (m : Move) : Bool := s.modState != 3 || movesInFatal m

end Sys2Proof.Machine
end

