-- ==== Sys2Proof/Machine/Floats.lean ====
section
/-! DEFINITION. Floating arithmetic, conversion, block quantisation and cross-lane reductions
(spec/09_float_instructions.md R160 to R182, spec/05_arithmetic_rules.md R96 to R106, R112). -/

namespace Sys2Proof.Machine

/-! ## Shared operations -/

/-- A 32-bit result with its flags (R108). -/
def putRes (d : Reg) (r : FRes) : List Put := [Reg.put d 0 (BitVec.ofNat 32 r.bits), .flags r.fl]

/-- A 64-bit result with its flags. -/
def putRes64 (d : Reg) (r : FRes) : List Put := Reg.put64 d (BitVec.ofNat 64 r.bits) ++ [.flags r.fl]

/-- An FP32 source as a pattern. -/
def Ctx.flt (x : Ctx) (a : Src) : Nat := (x.w32 a).toNat

/-- FADD and FMUL (R162). -/
def fltBin (op : Rm → Bool → Bool → Nat → Nat → FRes) (d : Reg) (a b : Src) (rm : Rm) (fzi fzo : Bool) (x : Ctx) : List Put :=
  putRes d (op rm fzi fzo (x.flt a) (x.flt b))

/-- FMIN and FMAX: sources are flushed, then one is returned (R106, R161, R163). -/
def fltMinMax (f : Fmt) (isMax fzi fzo : Bool) (a b : Nat) : FRes :=
  let (p, e) := f.flushIn fzi a
  let (q, g) := f.flushIn fzi b
  (f.minmax isMax fzo p q).withFlags (e ||| g)

/-- An order against a relation of R164, both operands numbers. -/
def relOrd (r : Rel) (o : Ordering) : Bool :=
  match r with
  | .eq => o == .eq
  | .ne => o != .eq
  | .lt => o == .lt
  | .le => o != .gt
  | .gt => o == .gt
  | .ge => o != .lt

/-- A relation of R164 on two values. -/
def fltRel (r : FRel) (a b : Val) : Bool :=
  match r with
  | .rel r unordered => match a.cmp b with
    | some o => relOrd r o
    | none => unordered
  | .num => !a.isNan && !b.isNan
  | .nan => a.isNan || b.isNan

/-- FSET and DSET (R164). -/
def fltSet (f : Fmt) (rel : FRel) (fzi : Bool) (a b : Nat) : Bool × Word :=
  let (p, e) := f.flushIn fzi a
  let (q, g) := f.flushIn fzi b
  (fltRel rel (f.decode p) (f.decode q), sigFlags [f.decode p, f.decode q] ||| e ||| g)

def setPuts (pd : BitVec 3) (r : Bool × Word) : List Put := [.p pd.toNat r.1, .flags r.2]

/-- The class word of FCLASS (R165). -/
def fltClass (f : Fmt) (w : Nat) : Word :=
  match f.decode w with
  | .nan sig => if sig then 0x100 else 0x200
  | .inf neg => if neg then 1 else 0x80
  | .num x =>
    if x.m = 0 then (if x.neg then 8 else 0x10)
    else if f.isSubnormal w then (if x.neg then 4 else 0x20)
    else if x.neg then 2 else 0x40

/-- Two elements of a packed half word (R171). -/
def halves (op : Nat → Nat → Nat → FRes) (a b c : Word) : FRes :=
  let lo := op (field a.toNat 0 16) (field b.toNat 0 16) (field c.toNat 0 16)
  let hi := op (field a.toNat 16 16) (field b.toNat 16 16) (field c.toNat 16 16)
  ⟨hi.bits * 65536 + lo.bits, lo.fl ||| hi.fl⟩

/-- The element format of a packed half instruction. -/
def halfFmt (bf : Bool) : Fmt := if bf then bf16 else f16

def halfBin (op : Fmt → Rm → Bool → Bool → Nat → Nat → FRes) (d : Reg) (a b : Src) (rm : Rm) (bf fzi fzo : Bool) (x : Ctx) :
    List Put :=
  putRes d (halves (fun p q _ => op (halfFmt bf) rm fzi fzo p q) (x.half bf a) (x.half bf b) 0)

/-! ## FP32 arithmetic and compare (R162 to R165) -/

/-- FADD, compact. -/
def execFaddCompact (f : CFlt) (s : State) : Host.Outcome State Fault Refusal :=
  alu always (.v f.d) s (fltBin f32.add (.v f.d) (.v f.d .self) (.v f.a .self) f.rm false false)

/-- FADD. -/
def execFadd (f : FBin) (s : State) : Host.Outcome State Fault Refusal :=
  alu f.g f.d s (fltBin f32.add f.d f.a f.b f.rm f.fzi f.fzo)

/-- FMUL, compact. -/
def execFmulCompact (f : CFlt) (s : State) : Host.Outcome State Fault Refusal :=
  alu always (.v f.d) s (fltBin f32.mul (.v f.d) (.v f.d .self) (.v f.a .self) f.rm false false)

/-- FMUL. -/
def execFmul (f : FBin) (s : State) : Host.Outcome State Fault Refusal :=
  alu f.g f.d s (fltBin f32.mul f.d f.a f.b f.rm f.fzi f.fzo)

/-- FFMA. -/
def execFfma (f : FTri) (s : State) : Host.Outcome State Fault Refusal :=
  alu f.g f.d s fun x => putRes f.d (f32.fma f.rm f.fzi f.fzo (x.flt f.a) (x.flt f.b) (x.flt f.c))

/-- FMIN, compact. -/
def execFminCompact (f : CTwo) (s : State) : Host.Outcome State Fault Refusal :=
  aluV always s fun x => putRes (.v f.d) (fltMinMax f32 false false false (x.flt (.v f.d .self)) (x.flt (.v f.a .self)))

/-- FMIN. -/
def execFmin (f : FTwo) (s : State) : Host.Outcome State Fault Refusal :=
  alu f.g f.d s fun x => putRes f.d (fltMinMax f32 false f.fzi f.fzo (x.flt f.a) (x.flt f.b))

/-- FMAX, compact. -/
def execFmaxCompact (f : CTwo) (s : State) : Host.Outcome State Fault Refusal :=
  aluV always s fun x => putRes (.v f.d) (fltMinMax f32 true false false (x.flt (.v f.d .self)) (x.flt (.v f.a .self)))

/-- FMAX. -/
def execFmax (f : FTwo) (s : State) : Host.Outcome State Fault Refusal :=
  alu f.g f.d s fun x => putRes f.d (fltMinMax f32 true f.fzi f.fzo (x.flt f.a) (x.flt f.b))

/-- FSET. -/
def execFset (f : FSetF) (s : State) : Host.Outcome State Fault Refusal :=
  aluV f.g s fun x => setPuts f.pd (fltSet f32 f.rel f.fzi (x.flt f.a) (x.flt f.b))

/-- FCLASS: no flag. DEDUCED (assumption 62): a constant or literal enters FCLASS.F64 as an FP64 instruction's does (R65). -/
def execFclass (f : FClassF) (s : State) : Host.Outcome State Fault Refusal :=
  alu f.g f.d s fun x => [Reg.put f.d 0 (match f.fmt with
    | .f32 => fltClass f32 (x.flt f.a)
    | .f64 => fltClass f64 (x.dbl f.a)
    | .f16 => fltClass f16 (x.flt f.a % 65536)
    | .bf16 => fltClass bf16 (x.flt f.a % 65536))]

/-! ## Exponent arithmetic (R166) -/

/-- FSCL. -/
def execFscl (f : FTwo) (s : State) : Host.Outcome State Fault Refusal :=
  alu f.g f.d s fun x => putRes f.d (fscl f.fzi f.fzo (x.flt f.a) (x.w32 f.b).toInt)

/-- FFRX. -/
def execFfrx (f : FFrxF) (s : State) : Host.Outcome State Fault Refusal :=
  alu f.g f.d s fun x => putRes f.d (ffrx f.exp f.fzi (x.flt f.a))

/-- FCEILX. -/
def execFceilx (f : FCeilxF) (s : State) : Host.Outcome State Fault Refusal :=
  alu f.g f.d s fun x => putRes f.d (fceilx f.fzi (x.flt f.a))

/-! ## Special functions (R167 to R169) -/

/-- A correctly rounded special function of one source. -/
def specialPuts (h : Val → Raw) (f : FSpecial) (x : Ctx) : List Put := putRes f.d (special f.rm f.fzi f.fzo h (x.flt f.a))

/-- A faithfully rounded one: `op` is its opcode. -/
def faithfulPuts (op : Nat) (h : Val → Raw) (f : FSpecial) (x : Ctx) : List Put :=
  putRes f.d (faithful op f.fzi f.fzo h (x.w32 f.a))

/-- FRCP. -/
def execFrcp (f : FSpecial) (s : State) : Host.Outcome State Fault Refusal := aluLong f.g f.d f.la s (specialPuts frcpRaw f)

/-- FRSQ. -/
def execFrsq (f : FSpecial) (s : State) : Host.Outcome State Fault Refusal := aluLong f.g f.d f.la s (specialPuts frsqRaw f)

/-- FSQRT. -/
def execFsqrt (f : FSpecial) (s : State) : Host.Outcome State Fault Refusal := aluLong f.g f.d f.la s (specialPuts fsqrtRaw f)

/-- FDIV. -/
def execFdiv (f : FSpecial2) (s : State) : Host.Outcome State Fault Refusal :=
  aluLong f.g f.d f.la s (fltBin f32.div f.d f.a f.b f.rm f.fzi f.fzo)

/-- FEX2. -/
def execFex2 (f : FSpecial) (s : State) : Host.Outcome State Fault Refusal := aluLong f.g f.d f.la s (specialPuts fex2Raw f)

/-- FLG2. -/
def execFlg2 (f : FSpecial) (s : State) : Host.Outcome State Fault Refusal := aluLong f.g f.d f.la s (faithfulPuts 0x65 flg2Raw f)

/-- FSIN. -/
def execFsin (f : FSpecial) (s : State) : Host.Outcome State Fault Refusal := aluLong f.g f.d f.la s (faithfulPuts 0x66 fsinRaw f)

/-- FCOS. -/
def execFcos (f : FSpecial) (s : State) : Host.Outcome State Fault Refusal := aluLong f.g f.d f.la s (faithfulPuts 0x67 fcosRaw f)

/-- FTANH. -/
def execFtanh (f : FSpecial) (s : State) : Host.Outcome State Fault Refusal :=
  aluLong f.g f.d f.la s (faithfulPuts 0x68 ftanhRaw f)

/-- FEX2M. -/
def execFex2m (f : FSpecial2) (s : State) : Host.Outcome State Fault Refusal :=
  aluLong f.g f.d f.la s fun x => putRes f.d (special f.rm f.fzi f.fzo (fun v => fex2mRaw v (x.w32 f.b).toInt) (x.flt f.a))

/-! ## FP64 and packed half precision (R170, R171) -/

/-- DADD. -/
def execDadd (f : FBin) (s : State) : Host.Outcome State Fault Refusal :=
  alu f.g f.d s fun x => putRes64 f.d (f64.add f.rm f.fzi f.fzo (x.dbl f.a) (x.dbl f.b))

/-- DMUL. -/
def execDmul (f : FBin) (s : State) : Host.Outcome State Fault Refusal :=
  alu f.g f.d s fun x => putRes64 f.d (f64.mul f.rm f.fzi f.fzo (x.dbl f.a) (x.dbl f.b))

/-- DFMA. -/
def execDfma (f : FTri) (s : State) : Host.Outcome State Fault Refusal :=
  alu f.g f.d s fun x => putRes64 f.d (f64.fma f.rm f.fzi f.fzo (x.dbl f.a) (x.dbl f.b) (x.dbl f.c))

/-- DSET. -/
def execDset (f : FSetF) (s : State) : Host.Outcome State Fault Refusal :=
  aluV f.g s fun x => setPuts f.pd (fltSet f64 f.rel f.fzi (x.dbl f.a) (x.dbl f.b))

/-- HADD2, compact. -/
def execHadd2Compact (f : CHalf) (s : State) : Host.Outcome State Fault Refusal :=
  alu always (.v f.d) s (halfBin Fmt.add (.v f.d) (.v f.d .self) (.v f.a .self) f.rm f.bf16 false false)

/-- HADD2. -/
def execHadd2 (f : HBin) (s : State) : Host.Outcome State Fault Refusal :=
  alu f.g f.d s (halfBin Fmt.add f.d f.a f.b f.rm f.bf16 f.fzi f.fzo)

/-- HMUL2, compact. -/
def execHmul2Compact (f : CHalf) (s : State) : Host.Outcome State Fault Refusal :=
  alu always (.v f.d) s (halfBin Fmt.mul (.v f.d) (.v f.d .self) (.v f.a .self) f.rm f.bf16 false false)

/-- HMUL2. -/
def execHmul2 (f : HBin) (s : State) : Host.Outcome State Fault Refusal :=
  alu f.g f.d s (halfBin Fmt.mul f.d f.a f.b f.rm f.bf16 f.fzi f.fzo)

/-- HFMA2. -/
def execHfma2 (f : HTri) (s : State) : Host.Outcome State Fault Refusal :=
  alu f.g f.d s fun x => putRes f.d
    (halves (fun p q r => (halfFmt f.bf16).fma f.rm f.fzi f.fzo p q r) (x.half f.bf16 f.a) (x.half f.bf16 f.b) (x.half f.bf16 f.c))

/-! ## Conversion (R172 to R175) -/

/-- The width of a CVT format (R173). -/
def cvtWidth (c : CvtFmt) : Nat :=
  match c with
  | .f32 => 32 | .f64 => 64 | .f16 => 16 | .bf16 => 16 | .e5m2 => 8 | .e4m3 => 8 | .e2m1 => 4 | .e8m0 => 8
  | .s8 => 8 | .u8 => 8 | .s16 => 16 | .u16 => 16 | .s32 => 32 | .u32 => 32 | .s64 => 64 | .u64 => 64

/-- The bits of a CVT source (R65). -/
def Ctx.cvtBits (x : Ctx) (src : CvtFmt) (a : Src) : Nat :=
  match src with
  | .f64 => x.dbl a
  | .s64 => (x.w64 a).toNat
  | .u64 => (x.w64 a).toNat
  | .f16 => (x.half false a).toNat
  | .bf16 => (x.half true a).toNat
  | .f32 => x.flt a | .e5m2 => x.flt a | .e4m3 => x.flt a | .e2m1 => x.flt a | .e8m0 => x.flt a
  | .s8 => x.flt a | .u8 => x.flt a | .s16 => x.flt a | .u16 => x.flt a | .s32 => x.flt a | .u32 => x.flt a

/-- A field of a word replaced (R174). -/
def insertField (w : Word) (lo n c : Nat) : Word :=
  BitVec.ofNat 32 (w.toNat - field w.toNat lo n * 2 ^ lo + c % 2 ^ n * 2 ^ lo)

/-- CVT. -/
def execCvt (f : CvtF) (s : State) : Host.Outcome State Fault Refusal :=
  alu f.g f.d s fun x =>
    let ws := cvtWidth f.src
    let wd := cvtWidth f.dst
    let es := if ws < 32 ∧ !f.ins then f.e.toNat else 0
    let r := convert f.dst f.src f.rm (f.q.map fun q => x.flt q % 65536) f.f62 f.f63 (field (x.cvtBits f.src f.a) (ws * es) ws)
    if f.ins then [Reg.put f.d 0 (insertField (x.reg32 f.d) (wd * f.e.toNat) wd r.bits), .flags r.fl]
    else Reg.putN f.d (decide (wd = 64)) r.bits ++ [.flags r.fl]

/-! ## Block quantisation (R176 to R179) -/

/-- The view of another lane of the issue group. -/
def Ctx.at_ (x : Ctx) (l : Nat) : Option Ctx := (x.crew.thread? l).map fun t => { x with lane := l, t := t }

/-- The first lane and the length of the block of a lane (R177). -/
def qntBlock (fmt : BlockFmt) (width lane : Nat) : Nat × Nat :=
  let bs := if fmt == .nb4 then 8 else min 32 width
  (lane / bs * bs, bs)

/-- The contributing lanes of the block, ascending. -/
def Ctx.contributing (x : Ctx) (f : QntF) : List Ctx :=
  let (b, n) := qntBlock f.fmt x.crew.width x.lane
  (x.grp.lanes.filter fun l => decide (b ≤ l ∧ l < b + n) && x.crew.laneIs l (guardTrue f.g)).filterMap x.at_

/-- The largest magnitude among numbers. -/
def maxMag (vs : List Val) : Exact :=
  vs.foldl (fun m v => match v with
    | .num x => if m.cmp { x with neg := false } == .lt then { x with neg := false } else m
    | .nan _ => m
    | .inf _ => m) (Exact.zero false)

/-- The scale code of a block and its flags: the sources of its contributing lanes, and g of NB4 (R177). -/
def qntScale (fmt : BlockFmt) (vs : List Val) (g : Val) : FRes :=
  let bad := vs.any fun v => match v with
    | .num _ => false
    | .nan _ => true
    | .inf _ => true
  let amax := maxMag vs
  if fmt == .nb4 then
    match g with
    | .num gx =>
      if vs.isEmpty then ⟨0, 0⟩
      else if bad || gx.neg || gx.isZero then ⟨0xFF, flagNV⟩
      else if amax.isZero then ⟨0, 0⟩
      else ue5m3.round .ru false (divExact amax (mulExact (Exact.ofInt 6) gx))
    | .nan _ => ⟨if vs.isEmpty then 0 else 0xFF, if vs.isEmpty then 0 else flagNV⟩
    | .inf _ => ⟨if vs.isEmpty then 0 else 0xFF, if vs.isEmpty then 0 else flagNV⟩
  else if bad then ⟨0xFF, flagNV⟩
  else if amax.isZero then ⟨127, 0⟩
  else
    let big : Int := match fmt with
      | .sb8e4 => 448
      | .sb8e5 => 57344
      | .sb4 => 6
      | .nb4 => 6
    ⟨(max (-127) (leastShift amax (Exact.ofInt big)) + 127).toNat, 0⟩

/-- The divisor of a block: its scale, and for NB4 its scale times g; none when the code is NaN or the NB4 scale zero (R178). -/
def qntDivisor (fmt : BlockFmt) (code : Nat) (g : Val) : Option Exact :=
  if fmt == .nb4 then
    match ue5m3.decode code, g with
    | .num s, .num gx => if s.isZero then none else some (mulExact s gx)
    | _, _ => none
  else match decodeE8m0 code with
    | .num s => some s
    | .nan _ => none
    | .inf _ => none

/-- One element (R178). -/
def qntElem (fmt : BlockFmt) (rm : Rm) (q : Option Nat) (div : Option Exact) (v : Val) : FRes :=
  match div, v with
  | some d, .num x =>
    let y := if x.isZero then Exact.zero x.neg else divExact x d
    match q with
    | some q => (blockElem fmt).roundSr q false y
    | none => (blockElem fmt).round rm false y
  | _, _ => ⟨0, 0⟩

/-- QNT. -/
def execQnt (f : QntF) (s : State) : Host.Outcome State Fault Refusal :=
  aluV f.g s fun x =>
    let us := x.contributing f
    let g := match us.head?, f.b with
      | some u, some b => f32.decode (u.flt b)
      | _, _ => .num (Exact.zero false)
    let sc := qntScale f.fmt (us.map fun u => f32.decode (u.flt f.a)) g
    if f.scale then putRes (.v f.d) sc
    else
      let r := qntElem f.fmt f.rm (f.q.map fun q => x.flt q % 65536) (qntDivisor f.fmt sc.bits g) (f32.decode (x.flt f.a))
      putRes (.v f.d) (r.withFlags sc.fl)

/-- One dequantised element (R100, R179). -/
def dqntElem (fmt : BlockFmt) (elem code : Nat) (g : Nat) : FRes :=
  let e := (blockElem fmt).decode elem
  if fmt == .nb4 then
    let p := mulRaw e (ue5m3.decode code)
    let gv := f32.decode g
    let fl := match p with
      | .nan fl => fl
      | .inf _ fl => fl
      | .num _ => 0
    (f32.finish .rn false (mulRaw p.val gv)).withFlags fl
  else f32.finish .rn false (mulRaw e (decodeE8m0 code))

/-- DQNT. -/
def execDqnt (f : DqntF) (s : State) : Host.Outcome State Fault Refusal :=
  alu f.g f.d s fun x =>
    let w := (blockElem f.fmt).width
    putRes f.d (dqntElem f.fmt (field (x.flt f.a) (w * f.e.toNat) w) (x.flt f.b % 256) ((f.c.map x.flt).getD 0))

/-! ## Cross-lane reduction and scan (R180 to R182) -/

/-- A lane becomes pending on mB; it waits for an earlier REDL or SCANL of its own. -/
def redlOut (x : Ctx) (m : BitVec 4) (op : RedOp) (d : BitVec 9) (a : Src) (scan incl : Bool) (la : BitVec 4) : LaneOut :=
  if x.t.redl.isSome then .stall .reg
  else .ok [.redl { id := x.fresh, m := m.toNat, op := op, d := d.toNat, scan := scan, incl := incl, pc := x.grp.pc, value := x.w32 a,
                    left := la.toNat, hdr := x.grp.hdr }]

/-- REDL. -/
def execRedl (f : RedlF) (s : State) : Host.Outcome State Fault Refusal :=
  drive false false f.g s fun s x => (s, redlOut x f.m f.op f.d f.a false false f.la)

/-- SCANL. -/
def execScanl (f : ScanlF) (s : State) : Host.Outcome State Fault Refusal :=
  drive false false f.g s fun s x => (s, redlOut x f.m f.op f.d f.a true f.incl f.la)

end Sys2Proof.Machine
end

