-- ==== Sys2Proof/Machine/Integer.lean ====
section
/-! DEFINITION. Integer arithmetic, logic, shifts, bit fields, compare and select (spec/07_core_instructions.md R120, R140 to R149,
spec/05_arithmetic_rules.md R94, R95). -/

namespace Sys2Proof.Machine

/-! ## Shared operations -/

/-- The width of a .64 or a 32-bit form (R120). -/
def bitsOf (w64 : Bool) : Nat := if w64 then 64 else 32

/-- A source as an integer of the form's width (R120). -/
def Ctx.int (x : Ctx) (w64 sgn : Bool) (a : Src) : Int := toInt sgn (bitsOf w64) (x.nat w64 a)

/-- The destination of an exact integer (R120). -/
def putInt (d : Reg) (w64 sgn sat : Bool) (v : Int) : List Put := Reg.putN d w64 (narrow sat sgn v (bitsOf w64))

/-- A two-source operation on exact integers. -/
def binInt (op : Int → Int → Int) (d : Reg) (a b : Src) (w64 sgn sat : Bool) (x : Ctx) : List Put :=
  putInt d w64 sgn sat (op (x.int w64 sgn a) (x.int w64 sgn b))

/-- The form's fields for a compact word: D is also the first source (R61). -/
def compactSrc (r : BitVec 9) : Src := .v r .self

/-- The high half of the 2n-bit product (R140). -/
def mulHigh (n : Nat) (v : Int) : Nat := wrapNat v (2 * n) / 2 ^ n

/-- SHL (R145): a count of 2n or more moves every bit out, or saturates as any such count does. -/
def shlInt (n : Nat) (a : Int) (sh : Nat) : Int := a * 2 ^ min sh (2 * n)

/-- SHR and SHA (R145). -/
def shrNat (n a sh : Nat) : Nat := a / 2 ^ min sh n
def shaInt (n a sh : Nat) : Int := toInt true n a / (2 ^ min sh n : Nat)

/-- The shift count: B is one register whatever the form (R145). -/
def Ctx.count (x : Ctx) (b : Src) : Nat := (x.w32 b).toNat

def shlPuts (d : Reg) (a b : Src) (w64 sgn sat : Bool) (x : Ctx) : List Put :=
  putInt d w64 sgn sat (shlInt (bitsOf w64) (x.int w64 sgn a) (x.count b))

def shrPuts (d : Reg) (a b : Src) (w64 : Bool) (x : Ctx) : List Put :=
  Reg.putN d w64 (shrNat (bitsOf w64) (x.nat w64 a) (x.count b))

def shaPuts (d : Reg) (a b : Src) (w64 : Bool) (x : Ctx) : List Put :=
  Reg.putN d w64 (wrapNat (shaInt (bitsOf w64) (x.nat w64 a) (x.count b)) (bitsOf w64))

/-- LOP3, bit by bit (R144): index 4a + 2b + c of the table. -/
def lop3 (tt : BitVec 8) (a b c : Word) : Word :=
  (List.range 8).foldl (fun r i =>
    if tt.getLsbD i then
      r ||| ((if bit i 2 then a else ~~~a) &&& (if bit i 1 then b else ~~~b) &&& (if bit i 0 then c else ~~~c))
    else r) 0

/-- BFE (R147). -/
def bfe (sgn : Bool) (n a fw : Nat) : Nat :=
  let pos := field fw 0 8
  let len := field fw 8 8
  if len = 0 then 0
  else wrapNat (toInt sgn len ((toInt sgn n a / (2 ^ pos : Nat)) % (2 ^ len : Nat)).toNat) n

/-- BFI (R147). -/
def bfi (n a b fw : Nat) : Nat :=
  let pos := field fw 0 8
  let stop := min (pos + field fw 8 8) n
  if stop ≤ pos then a
  else a - field a pos (stop - pos) * 2 ^ pos + b % 2 ^ (stop - pos) * 2 ^ pos

def popc (n a : Nat) : Nat := ((List.range n).filter fun i => bit a i).length

def clz (n a : Nat) : Nat := n - bitLen a

def brev (n a : Nat) : Nat := (List.range n).foldl (fun r i => if bit a (n - 1 - i) then r + 2 ^ i else r) 0

/-- Relations (R148). -/
def relInt (r : Rel) (a b : Int) : Bool :=
  match r with
  | .eq => a == b
  | .ne => a != b
  | .lt => decide (a < b)
  | .le => decide (a ≤ b)
  | .gt => decide (b < a)
  | .ge => decide (b ≤ a)

/-- The dot product of packed elements (R143). -/
def idp4 (sa sb i4 : Bool) (a b : Nat) : Int :=
  let w := if i4 then 4 else 8
  (List.range (32 / w)).foldl (fun s i => s + toInt sa w (field a (w * i) w) * toInt sb w (field b (w * i) w)) 0

/-! ## Sums and products (R140 to R143) -/

/-- IADD, compact (R61, R140). -/
def execIaddCompact (f : CInt) (s : State) : Host.Outcome State Fault Refusal :=
  alu always (.v f.d) s (binInt (· + ·) (.v f.d) (compactSrc f.d) (compactSrc f.a) f.w64 false false)

/-- IADD (R140). -/
def execIadd (f : IBin) (s : State) : Host.Outcome State Fault Refusal :=
  alu f.g f.d s (binInt (· + ·) f.d f.a f.b f.w64 f.sgn f.sat)

/-- IADD3 (R140). -/
def execIadd3 (f : ITri) (s : State) : Host.Outcome State Fault Refusal :=
  alu f.g f.d s fun x =>
    putInt f.d f.w64 f.sgn f.sat (x.int f.w64 f.sgn f.a + x.int f.w64 f.sgn f.b + x.int f.w64 f.sgn f.c)

/-- ISUB, compact. -/
def execIsubCompact (f : CInt) (s : State) : Host.Outcome State Fault Refusal :=
  alu always (.v f.d) s (binInt (· - ·) (.v f.d) (compactSrc f.d) (compactSrc f.a) f.w64 false false)

/-- ISUB (R140). -/
def execIsub (f : IBin) (s : State) : Host.Outcome State Fault Refusal :=
  alu f.g f.d s (binInt (· - ·) f.d f.a f.b f.w64 f.sgn f.sat)

/-- IADDC (R141). -/
def execIaddc (f : IAddcF) (s : State) : Host.Outcome State Fault Refusal :=
  alu f.g f.d s fun x =>
    let b := if f.sub then 2 ^ 32 - 1 - (x.w32 f.b).toNat else (x.w32 f.b).toNat
    let v := (x.w32 f.a).toNat + b + (if predOf x.t f.cin != f.cinNeg then 1 else 0)
    Reg.putN f.d false (v % 2 ^ 32) ++ (if f.cout == 7 then [] else [.p f.cout.toNat (decide (2 ^ 32 ≤ v))])

/-- IMUL, compact. -/
def execImulCompact (f : CInt) (s : State) : Host.Outcome State Fault Refusal :=
  alu always (.v f.d) s (binInt (· * ·) (.v f.d) (compactSrc f.d) (compactSrc f.a) f.w64 false false)

/-- IMUL (R140). -/
def execImul (f : IBin) (s : State) : Host.Outcome State Fault Refusal :=
  alu f.g f.d s (binInt (· * ·) f.d f.a f.b f.w64 f.sgn f.sat)

/-- IMULH (R140). -/
def execImulh (f : IBin) (s : State) : Host.Outcome State Fault Refusal :=
  alu f.g f.d s fun x => Reg.putN f.d f.w64 (mulHigh (bitsOf f.w64) (x.int f.w64 f.sgn f.a * x.int f.w64 f.sgn f.b))

/-- IMAD (R140). -/
def execImad (f : ITri) (s : State) : Host.Outcome State Fault Refusal :=
  alu f.g f.d s fun x =>
    putInt f.d f.w64 f.sgn f.sat (x.int f.w64 f.sgn f.a * x.int f.w64 f.sgn f.b + x.int f.w64 f.sgn f.c)

/-- IMADW (R140): 32-bit factors, a 64-bit addend and result. -/
def execImadw (f : ITri) (s : State) : Host.Outcome State Fault Refusal :=
  alu f.g f.d s fun x =>
    putInt f.d true f.sgn f.sat (x.int false f.sgn f.a * x.int false f.sgn f.b + x.int true f.sgn f.c)

/-- IDIV (R95, R142). -/
def execIdiv (f : IDivF) (s : State) : Host.Outcome State Fault Refusal :=
  aluLong f.g f.d f.la s fun x => Reg.putN f.d f.w64 (divNat f.sgn (bitsOf f.w64) (x.nat f.w64 f.a) (x.nat f.w64 f.b))

/-- IREM (R95, R142). -/
def execIrem (f : IDivF) (s : State) : Host.Outcome State Fault Refusal :=
  aluLong f.g f.d f.la s fun x => Reg.putN f.d f.w64 (remNat f.sgn (bitsOf f.w64) (x.nat f.w64 f.a) (x.nat f.w64 f.b))

/-- IMIN, compact. -/
def execIminCompact (f : CInt) (s : State) : Host.Outcome State Fault Refusal :=
  alu always (.v f.d) s (binInt min (.v f.d) (compactSrc f.d) (compactSrc f.a) f.w64 false false)

/-- IMIN (R140). -/
def execImin (f : IBin) (s : State) : Host.Outcome State Fault Refusal :=
  alu f.g f.d s (binInt min f.d f.a f.b f.w64 f.sgn false)

/-- IMAX, compact. -/
def execImaxCompact (f : CInt) (s : State) : Host.Outcome State Fault Refusal :=
  alu always (.v f.d) s (binInt max (.v f.d) (compactSrc f.d) (compactSrc f.a) f.w64 false false)

/-- IMAX (R140). -/
def execImax (f : IBin) (s : State) : Host.Outcome State Fault Refusal :=
  alu f.g f.d s (binInt max f.d f.a f.b f.w64 f.sgn false)

/-- IABS (R140): A is signed; saturation clamps to the signed range. -/
def execIabs (f : IUn) (s : State) : Host.Outcome State Fault Refusal :=
  alu f.g f.d s fun x => putInt f.d f.w64 true f.sat (x.int f.w64 true f.a).natAbs

/-- INEG (R140). -/
def execIneg (f : IUn) (s : State) : Host.Outcome State Fault Refusal :=
  alu f.g f.d s fun x => putInt f.d f.w64 true f.sat (-(x.int f.w64 true f.a))

/-! ## Compare, select, logic, shifts, bit fields (R144 to R149) -/

/-- ISET (R148). -/
def execIset (f : ISetF) (s : State) : Host.Outcome State Fault Refusal :=
  aluV f.g s fun x => [.p f.pd.toNat (relInt f.rel (x.int f.w64 f.sgn f.a) (x.int f.w64 f.sgn f.b))]

/-- SEL (R148). DESIGN CHOICE (assumption 72): one with an s-register D reads the predicate of the lowest guard-true lane. -/
def execSel (f : SelF) (s : State) : Host.Outcome State Fault Refusal :=
  alu f.g f.d s fun x => Reg.putN f.d f.w64 (x.nat f.w64 (if predOf x.t f.p != f.neg then f.a else f.b))

/-- LOP3 (R144). -/
def execLop3 (f : Lop3F) (s : State) : Host.Outcome State Fault Refusal :=
  alu f.g f.d s fun x => [Reg.put f.d 0 (lop3 f.tt (x.w32 f.a) (x.w32 f.b) (x.w32 f.c))]

/-- SHL, compact. -/
def execShlCompact (f : CInt) (s : State) : Host.Outcome State Fault Refusal :=
  alu always (.v f.d) s (shlPuts (.v f.d) (compactSrc f.d) (compactSrc f.a) f.w64 false false)

/-- SHL (R145). -/
def execShl (f : IBin) (s : State) : Host.Outcome State Fault Refusal :=
  alu f.g f.d s (shlPuts f.d f.a f.b f.w64 f.sgn f.sat)

/-- SHR, compact. -/
def execShrCompact (f : CInt) (s : State) : Host.Outcome State Fault Refusal :=
  alu always (.v f.d) s (shrPuts (.v f.d) (compactSrc f.d) (compactSrc f.a) f.w64)

/-- SHR (R145). -/
def execShr (f : IBin) (s : State) : Host.Outcome State Fault Refusal := alu f.g f.d s (shrPuts f.d f.a f.b f.w64)

/-- SHA, compact. -/
def execShaCompact (f : CInt) (s : State) : Host.Outcome State Fault Refusal :=
  alu always (.v f.d) s (shaPuts (.v f.d) (compactSrc f.d) (compactSrc f.a) f.w64)

/-- SHA (R145). -/
def execSha (f : IBin) (s : State) : Host.Outcome State Fault Refusal := alu f.g f.d s (shaPuts f.d f.a f.b f.w64)

/-- SHF (R146): a funnel shift of B : A. -/
def execShf (f : ShfF) (s : State) : Host.Outcome State Fault Refusal :=
  alu f.g f.d s fun x =>
    let y := (x.w32 f.b).toNat * 2 ^ 32 + (x.w32 f.a).toNat
    let sh := min (x.w32 f.c).toNat 32
    Reg.putN f.d false (if f.left then y * 2 ^ sh % 2 ^ 64 / 2 ^ 32 else y / 2 ^ sh % 2 ^ 32)

/-- BFE (R147). -/
def execBfe (f : IBin) (s : State) : Host.Outcome State Fault Refusal :=
  alu f.g f.d s fun x => Reg.putN f.d f.w64 (bfe f.sgn (bitsOf f.w64) (x.nat f.w64 f.a) (x.count f.b))

/-- BFI (R147). -/
def execBfi (f : BfiF) (s : State) : Host.Outcome State Fault Refusal :=
  alu f.g f.d s fun x => Reg.putN f.d f.w64 (bfi (bitsOf f.w64) (x.nat f.w64 f.a) (x.nat f.w64 f.b) (x.count f.c))

/-- POPC (R147): the result is one register. -/
def execPopc (f : IUn) (s : State) : Host.Outcome State Fault Refusal :=
  alu f.g f.d s fun x => Reg.putN f.d false (popc (bitsOf f.w64) (x.nat f.w64 f.a))

/-- CLZ (R147). -/
def execClz (f : IUn) (s : State) : Host.Outcome State Fault Refusal :=
  alu f.g f.d s fun x => Reg.putN f.d false (clz (bitsOf f.w64) (x.nat f.w64 f.a))

/-- BREV (R147). -/
def execBrev (f : IUn) (s : State) : Host.Outcome State Fault Refusal :=
  alu f.g f.d s fun x => Reg.putN f.d f.w64 (brev (bitsOf f.w64) (x.nat f.w64 f.a))

/-- LEA (R149): B is one register, extended under F[63]. -/
def execLea (f : LeaF) (s : State) : Host.Outcome State Fault Refusal :=
  alu f.g f.d s fun x =>
    Reg.putN f.d f.w64 (wrapNat (x.nat f.w64 f.a + toInt f.sgn 32 (x.w32 f.b).toNat * 2 ^ f.sh.toNat) (bitsOf f.w64))

/-- IDP4 (R143): C and the result are signed when an operand is. -/
def execIdp4 (f : Idp4F) (s : State) : Host.Outcome State Fault Refusal :=
  alu f.g f.d s fun x =>
    let sgn := f.sa || f.sb
    Reg.putN f.d false
      (narrow f.sat sgn (toInt sgn 32 (x.w32 f.c).toNat + idp4 f.sa f.sb f.i4 (x.w32 f.a).toNat (x.w32 f.b).toNat) 32)

end Sys2Proof.Machine
end

