-- ==== Sys2Proof/Machine/Masks.lean ====
section
/-! DEFINITION. Masks and predicates (spec/07_core_instructions.md R133 to R139, spec/01_execution_rules.md R22 to R27). -/

namespace Sys2Proof.Machine

/-- A truth table of two inputs: index 2a + b (R135). -/
def tt2 (tt : BitVec 4) (a b : Bool) : Bool := tt.getLsbD ((if a then 2 else 0) + (if b then 1 else 0))

/-- JOIN (R23). -/
def execJoin (g : Guard) (m : BitVec 4) (s : State) : Host.Outcome State Fault Refusal :=
  aluV g s fun _ => [.join m.toNat true]

/-- LEAVE (R23). -/
def execLeave (g : Guard) (m : BitVec 4) (s : State) : Host.Outcome State Fault Refusal :=
  aluV g s fun _ => [.join m.toNat false]

/-- WAITM (R25, R134). -/
def execWaitm (g : Guard) (m : BitVec 4) (s : State) : Host.Outcome State Fault Refusal :=
  drive false false g s fun s _ => (s, .waitm m.toNat)

/-- MLOP (R135): over the lanes that hold a thread. -/
def execMlop (g : Guard) (d a b tt : BitVec 4) (s : State) : Host.Outcome State Fault Refusal :=
  drive false true g s fun s x =>
    let ma := x.crew.mask a.toNat
    let mb := x.crew.mask b.toNat
    (s, .ok [.mask d.toNat (maskOf (x.crew.live.filter fun l => tt2 tt (ma.getLsbD l) (mb.getLsbD l)))])

/-- MMOV (R136): into a mask only lanes with a live or fault-parked thread. -/
def execMmov (g : Guard) (f : MmovForm) (s : State) : Host.Outcome State Fault Refusal :=
  drive false true g s fun s x => (s, .ok (match f with
    | .mm d a => [.mask d.toNat (x.crew.mask a.toNat)]
    | .sm d a => Reg.put64 (.s d) (x.crew.mask a.toNat)
    | .ms d a => [.mask d.toNat (x.reg64 (.s a) &&& maskOf x.crew.live)]))

/-- Predicate pA of a lane; zero where no thread stands (R119). -/
def Ctx.lanePred (x : Ctx) (p : BitVec 3) (l : Nat) : Bool := x.crew.laneIs l fun t => predOf t p

/-- VOTE (R137): over every lane of the mask. -/
def execVote (g : Guard) (f : VoteForm) (pa : BitVec 3) (mb : BitVec 4) (s : State) : Host.Outcome State Fault Refusal :=
  aluV g s fun x =>
    let ls := lanesOf x.crew.width (x.crew.mask mb.toNat)
    match f with
    | .any pd => [.p pd.toNat (ls.any (x.lanePred pa))]
    | .all pd => [.p pd.toNat (ls.all (x.lanePred pa))]
    | .eq pd => [.p pd.toNat (ls.all (x.lanePred pa) || ls.all fun l => !x.lanePred pa l)]
    | .ballot d => Reg.put64 (.v d) (maskOf (ls.filter (x.lanePred pa)))

/-- ELECT (R138): the lowest lane of the mask. -/
def execElect (g : Guard) (pd : BitVec 3) (ma : BitVec 4) (s : State) : Host.Outcome State Fault Refusal :=
  aluV g s fun x => [.p pd.toNat ((lanesOf x.crew.width (x.crew.mask ma.toNat)).head? == some x.lane)]

/-- PLOP (R135). -/
def execPlop (g : Guard) (pd pa pb : BitVec 3) (tt : BitVec 4) (s : State) : Host.Outcome State Fault Refusal :=
  aluV g s fun x => [.p pd.toNat (tt2 tt (predOf x.t pa) (predOf x.t pb))]

/-- PMOV (R139). -/
def execPmov (g : Guard) (f : PmovForm) (s : State) : Host.Outcome State Fault Refusal :=
  aluV g s fun x => match f with
    | .pp pd pa => [.p pd.toNat (predOf x.t pa)]
    | .toReg d => [.v d.toNat (x.t.p.setWidth 32 ||| 0x80)]
    | .fromSrc a => (List.range 7).map fun i => .p i ((x.w32 a).getLsbD i)
    | .nonzero pd a => [.p pd.toNat (x.w32 a != 0)]

end Sys2Proof.Machine
end

