-- ==== Sys2Proof/Machine/Trellis.lean ====
section
/-! DEFINITION. The management window, Trellis commands, beds, power-on, update, attestation and reset
(spec/24_outside_rules.md R396 to R399, R404, R408 to R412). -/

namespace Sys2Proof.Machine

/-! ## The window (R396, R398) -/

/-- A bed block's bytes 0x000 to 0x057. -/
def BedBlock.value (b : BedBlock) : Nat :=
  b.clus.toNat + 2 ^ 64 * b.hbmBase.toNat + 2 ^ 128 * b.hbmSize.toNat + 2 ^ 192 * b.capBase.toNat + 2 ^ 256 * b.capSize.toNat +
    2 ^ 320 * b.shape.toNat + 2 ^ 384 * b.mbox.toNat + 2 ^ 448 * b.inlet.toNat + 2 ^ 512 * b.irq.toNat + 2 ^ 576 * b.prio.toNat +
    2 ^ 608 * b.pq.toNat + 2 ^ 640 * b.ports.toNat + 2 ^ 672 * b.pstate.toNat

/-- DESIGN CHOICE (assumption 68): bits of PRIO, PORTS and PSTATE that R398 does not name are kept as written; CLUS[63:48] reads zero. -/
def BedBlock.ofValue (x : Nat) : BedBlock :=
  let d (lo : Nat) : Dword := BitVec.ofNat 64 (field x lo 64)
  let w (lo : Nat) : Word := BitVec.ofNat 32 (field x lo 32)
  { clus := BitVec.ofNat 48 (field x 0 48), hbmBase := d 64, hbmSize := d 128, capBase := d 192, capSize := d 256, shape := d 320,
    mbox := d 384, inlet := d 448, irq := d 512, prio := w 576, pq := w 608, ports := w 640, pstate := w 672 }

/-- The command's fields (R397). -/
def State.cmdOp (s : State) : Nat := field s.cmdReg.toNat 0 8
def State.cmdPosted (s : State) : Bool := bit s.cmdReg.toNat 63

/-- The n-th 8-byte argument of a command, from byte 8 (assumption 32). -/
def State.cmdArg (s : State) (n : Nat) : Nat := field s.cmdReg.toNat (64 + 64 * n) 64

/-- Trellis has acted on its command. -/
def State.answer (s : State) (status : Nat) : State := { s with cstat := BitVec.ofNat 32 status, cdone := true }

/-- V is cleared. -/
def State.takeCommand (s : State) : State := { s with cmdReg := putBit s.cmdReg 63 false }

/-- Trellis performs no command but RESET: the module boots, or Trellis is updated (R397, R410). -/
def State.trellisBusy (s : State) : Bool := s.modState < 2 || ((s.update.map fun u => u.1 == 1).getD false)

/-- A write to CMD: ignored while a command stands; one with V set is taken up. While the module boots or Trellis is updated any but RESET
completes at once, as does an operation that is none (R397, R410). DESIGN CHOICE (assumption 68): bits [62:8], which R397 does not name,
are kept as written. -/
def State.writeCmd (s : State) (off size data : Nat) : State :=
  if !s.cdone then s
  else
    let s := { s with cmdReg := BitVec.ofNat 512 (putField s.cmdReg.toNat (8 * off) (8 * size) data) }
    if !s.cmdPosted then s
    else if s.trellisBusy ∧ s.cmdOp ≠ 6 then s.takeCommand.answer 1
    else if s.cmdOp = 0 ∨ 9 < s.cmdOp then s.takeCommand.answer 2
    else { s with cdone := false }

/-- A write to a bed block, which only a bed that is off takes (R399). -/
def State.writeBlock (s : State) (bed off size data : Nat) : State :=
  if (s.bed bed).on then s
  else s.setBed bed fun b =>
    { b with block := BedBlock.ofValue (putField b.block.value (8 * off) (8 * size) data), configured := false }

/-- The part of a write that falls in a run of named bytes: its offset there, its length, its data. -/
def clip (offset size data lo n : Nat) : Nat × Nat × Nat :=
  let a := max offset lo
  (a - lo, min (offset + size) (lo + n) - a, data / 256 ^ (a - offset))

/-- REGISTER_WRITE: a write of the companion to the window; the bytes that are read-only or not named ignore it (R396). -/
def execRegisterWrite (offset size data : Nat) (s : State) : Host.Outcome State Fault Refusal :=
  let cmd := clip offset size data 0x100 64
  let s := if cmd.2.1 = 0 then s else s.writeCmd cmd.1 cmd.2.1 cmd.2.2
  .next ((List.range 8).foldl (fun s b =>
    let w := clip offset size data (0x10000 + 0x1000 * b) 0x58
    if w.2.1 = 0 then s else s.writeBlock b w.1 w.2.1 w.2.2) s)

/-- A bed block as the companion reads it: PSTATE[0] says whether the bed is on. -/
def Bed.blockValue (b : Bed) : Nat := putField b.block.value 672 1 (if b.on then 1 else 0)

/-- The bytes the companion reads from the window (R396). -/
def State.windowByte (s : State) (off : Nat) : Byte :=
  let at_ (lo n x : Nat) : Option Byte := if lo ≤ off ∧ off < lo + n then some (BitVec.ofNat 8 (x / 256 ^ (off - lo))) else none
  let block : Option Byte := if 0x10000 ≤ off ∧ off < 0x18000 ∧ off % 0x1000 < 0x58 then
      some (BitVec.ofNat 8 ((s.bed ((off - 0x10000) / 0x1000)).blockValue / 256 ^ (off % 0x1000)))
    else none
  let counts := (List.range 40).findSome? fun i => at_ (0x1000 + 8 * i) 8 ((s.errcnt[i]?).getD 0)
  ((at_ 0 8 (0x384 + 2 ^ 16) <|> at_ 8 4 s.modState <|>
    at_ 0x10 8 (s.power % 2 ^ 32 + 2 ^ 32 * (s.dieTemp % 65536) + 2 ^ 48 * (s.coolant % 65536)) <|> at_ 0x18 8 s.dumpap.toNat <|>
    at_ 0x20 8 s.devap.toNat <|> at_ 0x100 64 s.cmdReg.toNat <|> at_ 0x140 8 (s.cstat.toNat + if s.cdone then 2 ^ 32 else 0) <|>
    counts) <|> block).getD 0

/-! ## Commands (R397) -/

/-- A command that Trellis acts on in one step: busy while the module boots and while Trellis is updated, RESET apart. -/
def trellis (op : Nat) (s : State) (act : State → State × Nat) : Host.Outcome State Fault Refusal :=
  if !s.cmdPosted || s.cmdOp != op then .next s
  else
    let t := s.takeCommand
    if s.trellisBusy && op != 6 then .next (t.answer 1)
    else
      let r := act t
      .next (r.1.answer r.2)

/-! ### Beds (R399) -/

/-- Two ranges do not meet. -/
def apart (a n b m : Nat) : Bool := n == 0 || m == 0 || decide (a + n ≤ b ∨ b + m ≤ a)

/-- A block stays clear of a bed that is on. -/
def BedBlock.clear (b c : BedBlock) : Bool :=
  b.clus &&& c.clus == 0 && apart b.hbmBase.toNat b.hbmSize.toNat c.hbmBase.toNat c.hbmSize.toNat &&
    apart b.capBase.toNat b.capSize.toNat c.capBase.toNat c.capSize.toNat &&
    apart (field b.pq.toNat 0 10) (field b.pq.toNat 10 10) (field c.pq.toNat 0 10) (field c.pq.toNat 10 10)

/-- What CONFIGURE checks. -/
def State.blockOk (s : State) (bed : Nat) : Bool :=
  let b := (s.bed bed).block
  decide (bed < s.beds.length) && (s.beds.all fun x => !x.on || b.clear x.block) &&
    decide (field b.pq.toNat 0 10 + field b.pq.toNat 10 10 ≤ 1024 ∧ field b.prio.toNat 0 8 ≤ field b.prio.toNat 8 8 ∧
      63 ≤ field b.pq.toNat 20 12)

/-- CONFIGURE. -/
def execConfigure (s : State) : Host.Outcome State Fault Refusal :=
  trellis 1 s fun s =>
    let b := s.cmdArg 0
    if s.blockOk b then (s.setBed b fun x => { x with configured := true, counters := Bank.zero }, 0) else (s, 2)

/-- A bed as it starts: nothing mapped, nothing counted, nothing queued. -/
def Bed.started (b : Bed) : Bed :=
  { b with on := true, fenced := false, root := 0, tables := [], frames := [], hostFrames := [], counters := Bank.zero,
           pqs := List.replicate (field b.block.pq.toNat 10 10) { elems := [], next := 0 }, reports := [], head := 0, passed := [],
           experts := [], idle := false }

/-- The service window is mapped (R206). -/
def State.mapWindow (s : State) (bed : Nat) : State :=
  let s := ({ s with mem := s.mem.clear (windowBase bed) 0x80000 } : State).forgetStrong (.mod (windowBase bed)) 0x80000
  let s := (List.range (windowBytes / 65536)).foldl (fun s i =>
    match s.ensureEntry bed (windowVa + 65536 * i) 3 (s.choose 35 i (2 ^ 40)) 4 with
    | some (s, a) => s.setEntry a (leafEntry 3 0 1 0b1011 (windowBase bed / 65536 + i) 0)
    | none => s) s
  s.syncWindow bed

/-- BED ON: a bed that is off and configured starts with an empty page table, when its share holds a frame for the root. -/
def execBedOn (s : State) : Host.Outcome State Fault Refusal :=
  trellis 2 s fun s =>
    let b := s.cmdArg 0
    if s.beds.length ≤ b || (s.bed b).on || !(s.bed b).configured then (s, 2)
    else match (s.setBed b Bed.started).newTable b (s.choose 35 100 (2 ^ 40)) with
      | none => (s, 2)
      | some (t, root) => ((t.setBed b fun x => { x with root := root }).mapWindow b, 0)

/-- What a bed that is off no longer has. -/
def State.stopBed (s : State) (bed : Nat) : State :=
  let s := s.setBed bed fun b =>
    { b with on := false, root := 0, tables := [], frames := [], hostFrames := [], reports := [], passed := [], experts := [],
             idle := false }
  { s with migrations := s.migrations.filter fun m => m.bed != bed
           coxWaits := s.coxWaits.filter fun w => w.bed != bed
           posts := s.posts.filter fun p => p.bed != bed
           orphans := s.orphans.filter fun o => o.1 != bed
           lxs := s.lxs.filter fun x => x.bed != bed
           l1 := s.l1.filter fun x => x.bed != bed }

/-- BED OFF. -/
def execBedOff (s : State) : Host.Outcome State Fault Refusal :=
  trellis 3 s fun s =>
    let b := s.cmdArg 0
    if s.beds.length ≤ b || !(s.bed b).on then (s, 2)
    else if s.loadOf b ≠ 0 then (s, 1)
    else (s.stopBed b, 0)

/-! ### Attestation (R409) -/

/-- Bytes of a digest or a signature over something: which bytes, the spec leaves to SHA-384, ECDSA and the device's keys. -/
def digestBytes (kind what n : Nat) : List Byte :=
  (List.range n).map fun i => Config.attestByte kind (what * 1024 + i)

/-- An image as its digest knows it. -/
def imageName (i : FwImage) : Nat := i.body * 2 ^ 32 + i.version

/-- The report: magic, nonce, device key, images, beds, versions, signature. -/
def State.attestation (s : State) (nonce : Nat) : List Byte :=
  let blocks := s.beds.foldl (fun n b => n * 2 ^ 704 + b.blockValue) 0
  let body := natBytes 8 0x0000000141545354 ++ natBytes 48 nonce ++ digestBytes 0 0 48 ++ digestBytes 1 (imageName s.trellisImage) 48 ++
    digestBytes 2 (imageName s.mmpImage) 48 ++ digestBytes 3 blocks 48 ++ natBytes 4 s.trellisImage.version ++ natBytes 4 s.mmpImage.version
  body ++ digestBytes 4 (leNat body) 96

/-- ATTEST: the nonce in bytes 8 to 55, the report's address in bytes 56 to 63. -/
def execAttest (s : State) : Host.Outcome State Fault Refusal :=
  trellis 4 s fun s => (s.perform .companion (.host (s.cmdArg 6)) (s.attestation (field s.cmdReg.toNat 64 384)), 0)

/-! ### Update (R408, R410) -/

/-- An image passes: its signature holds, and its security version is not below the fused one (R408). -/
def imagePasses (i : FwImage) (target : Nat) : Bool := i.signed && decide (Config.fusedVersion target ≤ i.version)

/-- UPDATE: the image verified, running migrations commit before the MMPs switch over, the PTP clocks hold over while Trellis
does. -/
def execUpdate (image : FwImage) (s : State) : Host.Outcome State Fault Refusal :=
  trellis 5 s fun s =>
    let target := s.cmdArg 1
    if 1 < target then (s, 2)
    else if s.update.isSome || s.modState == 3 then (s, 1)
    else if !imagePasses image target then (s, 3)
    else
      let s := if target = 0 then State.commitAll s.migrations.length s
        else { s with ports := s.ports.map fun p => { p with holdover := true } }
      ({ s with modState := 4, update := some (target, image) }, 0)

/-- UPDATE_COMPLETE: STATE 2 again, a message of kind 7 to every bed that is on. -/
def execUpdateComplete (s : State) : Host.Outcome State Fault Refusal :=
  match s.update with
  | none => .next s
  | some (target, image) =>
    if s.modState != 4 then .next s
    else
      let s := { s with modState := 2, update := none, ports := s.ports.map fun p => { p with holdover := false }
                        mmpImage := if target = 0 then image else s.mmpImage
                        trellisImage := if target = 0 then s.trellisImage else image }
      .next ((List.range s.beds.length).foldl (fun s b => if (s.bed b).on then s.message b 7 target 0 0 else s) s)

/-! ### Reset (R412) -/

/-- The module at power-on; what stands outside it, its firmware and the model's own fields stay. -/
def State.powerOnState (s : State) : State :=
  { State.reset with
    agenda := s.agenda, fresh := s.fresh, host := s.host, peers := s.peers, peerFences := s.peerFences, messages := s.messages, sent := s.sent
    mmpImage := s.mmpImage, trellisImage := s.trellisImage }

/-- RESET: the HBM is zeroed; the dump, the capacity tier and the companion's placement of the windows stay. -/
def execReset (s : State) : Host.Outcome State Fault Refusal :=
  trellis 6 s fun s =>
    ({ s.powerOnState with
       mem := s.mem.filter fun c => decide (Config.hbmBytes ≤ c.1), dump := s.dump, dumpap := s.dumpap, devap := s.devap
       power := s.power, packagePower := s.packagePower, dieTemp := s.dieTemp, coolant := s.coolant, inletTemp := s.inletTemp, retired := s.retired }, 0)

/-- POWER_LOSS: all state ends, the dump included. -/
def execPowerLoss (s : State) : Host.Outcome State Fault Refusal := .next s.powerOnState

/-- The links trained (R403). -/
def State.trainLinks (s : State) : State :=
  { s with links := (List.range 18).map fun i => { peer := Config.linkPeer i % 64, up := Config.linkTrains i } }

/-- POWER_ON: Trellis firmware is verified, then trains the links, then verifies MMP firmware; a refused image stops the boot in
STATE 1 with status 3 (R403, R408). -/
def execPowerOn (trellis mmp : FwImage) (s : State) : Host.Outcome State Fault Refusal :=
  if s.modState != 0 then .next s
  else if !imagePasses trellis 1 then .next { s.answer 3 with modState := 1 }
  else
    let s := { s.trainLinks with trellisImage := trellis }
    if !imagePasses mmp 0 then .next { s.answer 3 with modState := 1 }
    else .next { s with modState := 2, mmpImage := mmp }

/-! ### Experts, steering, requests (R397, R404) -/

/-- REGISTER EXPERT: bed, number, first page, page count. -/
def execRegisterExpert (s : State) : Host.Outcome State Fault Refusal :=
  trellis 7 s fun s =>
    let b := s.cmdArg 0
    if s.beds.length ≤ b then (s, 2)
    else if !(s.bed b).on then (s, 1)
    else
      let e : Expert := { num := s.cmdArg 1, va := BitVec.ofNat 64 (s.cmdArg 2), pages := s.cmdArg 3, standing := 0 }
      (s.setBed b fun x => { x with experts := (x.experts.filter fun y => y.num != e.num) ++ [e] }, 0)

/-- A rule may be installed at a port. -/
def State.ruleOk (s : State) (port r : Nat) : Bool :=
  Rule.wellFormed r && (s.bed (Rule.bed r)).on && (s.bed (Rule.bed r)).block.ports.getLsbD port &&
    (match (s.graph? (Rule.bed r) (Rule.inst r)).bind fun g => g.nodes[Rule.node r]? with
      | some n => n.rsz == 64 && (!n.ord || n.keyoff == 16)
      | none => false)

/-- STEER replaces a rule in one step: its instance counts it, the old one's no longer does. -/
def State.steer (s : State) (port i r : Nat) : State × Nat :=
  let old := (((s.port port).rules[i]?).map (·.toNat)).getD 0
  if Rule.valid r && !s.ruleOk port r then (s, 2)
  else
    let s := s.setPort port fun p =>
      { p with rules := modifyAt p.rules i fun _ => if Rule.valid r then BitVec.ofNat 512 r else 0,
               steered := modifyAt p.steered i fun _ => 0 }
    let s := if Rule.valid r then s.setGraph (Rule.bed r) (Rule.inst r) fun g => { g with count := g.count + 1 } else s
    (if Rule.valid old then s.countBy (Rule.bed old) (Rule.inst old) (-1) else s, 0)

/-- STEER: port, rule index, address of the rule in host memory. -/
def execSteer (s : State) : Host.Outcome State Fault Refusal :=
  trellis 8 s fun s =>
    let port := s.cmdArg 0
    let i := s.cmdArg 1
    if s.ports.length ≤ port ∨ 64 ≤ i then (s, 2) else s.steer port i (leNat (s.host.read (s.cmdArg 2) 64))

/-- MMP REQUEST: passed to the bed's MMP. -/
def execMmpRequest (s : State) : Host.Outcome State Fault Refusal :=
  trellis 9 s fun s =>
    let b := s.cmdArg 0
    if s.beds.length ≤ b then (s, 2)
    else if !(s.bed b).on || s.mmpSwitching then (s, 1)
    else (s.setBed b fun x => { x with passed := x.passed ++ [BitVec.ofNat 64 (s.cmdArg 1)] }, 0)

end Sys2Proof.Machine
end

