-- ==== Sys2Proof/Machine/Dispatch.lean ====
section
/-! DEFINITION. The meaning of each instruction, one arm per constructor. -/

namespace Sys2Proof.Machine

/-- One instruction, on the state in which it executes. -/
def exec (i : Instr) (s : State) : Host.Outcome State Fault Refusal :=
  match i with
  | .nopCompact => Sys2Proof.Machine.execNopCompact s
  | .nop g => Sys2Proof.Machine.execNop g s
  | .bra g off => Sys2Proof.Machine.execBra g off s
  | .brx g a => Sys2Proof.Machine.execBrx g a s
  | .call g d off => Sys2Proof.Machine.execCall g d off s
  | .ret g a => Sys2Proof.Machine.execRet g a s
  | .exit g => Sys2Proof.Machine.execExit g s
  | .yield g => Sys2Proof.Machine.execYield g s
  | .trap g a => Sys2Proof.Machine.execTrap g a s
  | .brk g a => Sys2Proof.Machine.execBrk g a s
  | .rett g => Sys2Proof.Machine.execRett g s
  | .join g m => Sys2Proof.Machine.execJoin g m s
  | .leave g m => Sys2Proof.Machine.execLeave g m s
  | .waitm g m => Sys2Proof.Machine.execWaitm g m s
  | .mlop g d a b tt => Sys2Proof.Machine.execMlop g d a b tt s
  | .mmov g f => Sys2Proof.Machine.execMmov g f s
  | .vote g f pa mb => Sys2Proof.Machine.execVote g f pa mb s
  | .elect g pd ma => Sys2Proof.Machine.execElect g pd ma s
  | .plop g pd pa pb tt => Sys2Proof.Machine.execPlop g pd pa pb tt s
  | .pmov g f => Sys2Proof.Machine.execPmov g f s
  | .iaddCompact f => Sys2Proof.Machine.execIaddCompact f s
  | .iadd f => Sys2Proof.Machine.execIadd f s
  | .iadd3 f => Sys2Proof.Machine.execIadd3 f s
  | .isubCompact f => Sys2Proof.Machine.execIsubCompact f s
  | .isub f => Sys2Proof.Machine.execIsub f s
  | .iaddc f => Sys2Proof.Machine.execIaddc f s
  | .imulCompact f => Sys2Proof.Machine.execImulCompact f s
  | .imul f => Sys2Proof.Machine.execImul f s
  | .imulh f => Sys2Proof.Machine.execImulh f s
  | .imad f => Sys2Proof.Machine.execImad f s
  | .imadw f => Sys2Proof.Machine.execImadw f s
  | .idiv f => Sys2Proof.Machine.execIdiv f s
  | .irem f => Sys2Proof.Machine.execIrem f s
  | .iminCompact f => Sys2Proof.Machine.execIminCompact f s
  | .imin f => Sys2Proof.Machine.execImin f s
  | .imaxCompact f => Sys2Proof.Machine.execImaxCompact f s
  | .imax f => Sys2Proof.Machine.execImax f s
  | .iabs f => Sys2Proof.Machine.execIabs f s
  | .ineg f => Sys2Proof.Machine.execIneg f s
  | .iset f => Sys2Proof.Machine.execIset f s
  | .sel f => Sys2Proof.Machine.execSel f s
  | .lop3 f => Sys2Proof.Machine.execLop3 f s
  | .shlCompact f => Sys2Proof.Machine.execShlCompact f s
  | .shl f => Sys2Proof.Machine.execShl f s
  | .shrCompact f => Sys2Proof.Machine.execShrCompact f s
  | .shr f => Sys2Proof.Machine.execShr f s
  | .shaCompact f => Sys2Proof.Machine.execShaCompact f s
  | .sha f => Sys2Proof.Machine.execSha f s
  | .shf f => Sys2Proof.Machine.execShf f s
  | .bfe f => Sys2Proof.Machine.execBfe f s
  | .bfi f => Sys2Proof.Machine.execBfi f s
  | .popc f => Sys2Proof.Machine.execPopc f s
  | .clz f => Sys2Proof.Machine.execClz f s
  | .brev f => Sys2Proof.Machine.execBrev f s
  | .lea f => Sys2Proof.Machine.execLea f s
  | .idp4 f => Sys2Proof.Machine.execIdp4 f s
  | .movCompact f => Sys2Proof.Machine.execMovCompact f s
  | .mov f => Sys2Proof.Machine.execMov f s
  | .movl f => Sys2Proof.Machine.execMovl f s
  | .bcast f => Sys2Proof.Machine.execBcast f s
  | .rdlane f => Sys2Proof.Machine.execRdlane f s
  | .perm f => Sys2Proof.Machine.execPerm f s
  | .ixset g ix f => Sys2Proof.Machine.execIxset g ix f s
  | .ixld f => Sys2Proof.Machine.execIxld f s
  | .ixst f => Sys2Proof.Machine.execIxst f s
  | .getsr f => Sys2Proof.Machine.execGetsr f s
  | .setsr f => Sys2Proof.Machine.execSetsr f s
  | .faddCompact f => Sys2Proof.Machine.execFaddCompact f s
  | .fadd f => Sys2Proof.Machine.execFadd f s
  | .fmulCompact f => Sys2Proof.Machine.execFmulCompact f s
  | .fmul f => Sys2Proof.Machine.execFmul f s
  | .ffma f => Sys2Proof.Machine.execFfma f s
  | .fminCompact f => Sys2Proof.Machine.execFminCompact f s
  | .fmin f => Sys2Proof.Machine.execFmin f s
  | .fmaxCompact f => Sys2Proof.Machine.execFmaxCompact f s
  | .fmax f => Sys2Proof.Machine.execFmax f s
  | .fset f => Sys2Proof.Machine.execFset f s
  | .fclass f => Sys2Proof.Machine.execFclass f s
  | .fscl f => Sys2Proof.Machine.execFscl f s
  | .ffrx f => Sys2Proof.Machine.execFfrx f s
  | .fceilx f => Sys2Proof.Machine.execFceilx f s
  | .frcp f => Sys2Proof.Machine.execFrcp f s
  | .frsq f => Sys2Proof.Machine.execFrsq f s
  | .fsqrt f => Sys2Proof.Machine.execFsqrt f s
  | .fdiv f => Sys2Proof.Machine.execFdiv f s
  | .fex2 f => Sys2Proof.Machine.execFex2 f s
  | .flg2 f => Sys2Proof.Machine.execFlg2 f s
  | .fsin f => Sys2Proof.Machine.execFsin f s
  | .fcos f => Sys2Proof.Machine.execFcos f s
  | .ftanh f => Sys2Proof.Machine.execFtanh f s
  | .fex2m f => Sys2Proof.Machine.execFex2m f s
  | .dadd f => Sys2Proof.Machine.execDadd f s
  | .dmul f => Sys2Proof.Machine.execDmul f s
  | .dfma f => Sys2Proof.Machine.execDfma f s
  | .dset f => Sys2Proof.Machine.execDset f s
  | .hadd2Compact f => Sys2Proof.Machine.execHadd2Compact f s
  | .hadd2 f => Sys2Proof.Machine.execHadd2 f s
  | .hmul2Compact f => Sys2Proof.Machine.execHmul2Compact f s
  | .hmul2 f => Sys2Proof.Machine.execHmul2 f s
  | .hfma2 f => Sys2Proof.Machine.execHfma2 f s
  | .cvt f => Sys2Proof.Machine.execCvt f s
  | .qnt f => Sys2Proof.Machine.execQnt f s
  | .dqnt f => Sys2Proof.Machine.execDqnt f s
  | .redl f => Sys2Proof.Machine.execRedl f s
  | .scanl f => Sys2Proof.Machine.execScanl f s
  | .ld f => Sys2Proof.Machine.execLd f s
  | .st f => Sys2Proof.Machine.execSt f s
  | .lds f => Sys2Proof.Machine.execLds f s
  | .sts f => Sys2Proof.Machine.execSts f s
  | .ldt f => Sys2Proof.Machine.execLdt f s
  | .stt f => Sys2Proof.Machine.execStt f s
  | .ldp f => Sys2Proof.Machine.execLdp f s
  | .stp f => Sys2Proof.Machine.execStp f s
  | .pf f => Sys2Proof.Machine.execPf f s
  | .cctlIinv g scope => Sys2Proof.Machine.execCctlIinv g scope s
  | .cctlShinv g b scope => Sys2Proof.Machine.execCctlShinv g b scope s
  | .cctlL1inv g scope => Sys2Proof.Machine.execCctlL1inv g scope s
  | .atom f => Sys2Proof.Machine.execAtom f s
  | .atomp f => Sys2Proof.Machine.execAtomp f s
  | .red f => Sys2Proof.Machine.execRed f s
  | .fence g ord scope => Sys2Proof.Machine.execFence g ord scope s
  | .bar f => Sys2Proof.Machine.execBar f s
  | .bari f => Sys2Proof.Machine.execBari f s
  | .bara f => Sys2Proof.Machine.execBara f s
  | .barw f => Sys2Proof.Machine.execBarw f s
  | .bart f => Sys2Proof.Machine.execBart f s
  | .pqput f => Sys2Proof.Machine.execPqput f s
  | .pqtake f => Sys2Proof.Machine.execPqtake f s
  | .push f => Sys2Proof.Machine.execPush f s
  | .mard f => Sys2Proof.Machine.execMard f s
  | .rpop f => Sys2Proof.Machine.execRpop f s
  | .rrel f => Sys2Proof.Machine.execRrel f s
  | .rpub f => Sys2Proof.Machine.execRpub f s
  | .rtinc f => Sys2Proof.Machine.execRtinc f s
  | .rcsnap f => Sys2Proof.Machine.execRcsnap f s
  | .expf f => Sys2Proof.Machine.execExpf f s
  | .emit f => Sys2Proof.Machine.execEmit f s
  | .launch f => Sys2Proof.Machine.execLaunch f s
  | .signal f => Sys2Proof.Machine.execSignal f s
  | .waitev f => Sys2Proof.Machine.execWaitev f s
  | .ordrel g => Sys2Proof.Machine.execOrdrel g s
  | .parkYield g => Sys2Proof.Machine.execParkYield g s
  | .parkEv f => Sys2Proof.Machine.execParkEv f s
  | .reorder f => Sys2Proof.Machine.execReorder f s
  | .sysc f => Sys2Proof.Machine.execSysc f s
  | .dbgHalt f => Sys2Proof.Machine.execDbgHalt f s
  | .dbgResume f => Sys2Proof.Machine.execDbgResume f s
  | .dbgStep f => Sys2Proof.Machine.execDbgStep f s
  | .dbgRdreg f => Sys2Proof.Machine.execDbgRdreg f s
  | .dbgWrreg f => Sys2Proof.Machine.execDbgWrreg f s
  | .dbgSetwp f => Sys2Proof.Machine.execDbgSetwp f s
  | .dbgGetmask f => Sys2Proof.Machine.execDbgGetmask f s
  | .riddleAgeFlush bin pick => Sys2Proof.Machine.execRiddleAgeFlush bin pick s
  | .riddleDeferredFlush bin pick => Sys2Proof.Machine.execRiddleDeferredFlush bin pick s
  | .mmaDense cmd rows => Sys2Proof.Machine.execMmaDense cmd rows s
  | .mmaGrouped cmd rows => Sys2Proof.Machine.execMmaGrouped cmd rows s
  | .mmaExpand cmd rows => Sys2Proof.Machine.execMmaExpand cmd rows s
  | .mmaAbsorb cmd rows => Sys2Proof.Machine.execMmaAbsorb cmd rows s
  | .spanGroupTimeout cmd => Sys2Proof.Machine.execSpanGroupTimeout cmd s
  | .mast cmd => Sys2Proof.Machine.execMast cmd s
  | .mald cmd => Sys2Proof.Machine.execMald cmd s
  | .maz cmd => Sys2Proof.Machine.execMaz cmd s
  | .cpy cmd => Sys2Proof.Machine.execCpy cmd s
  | .gath cmd => Sys2Proof.Machine.execGath cmd s
  | .scat cmd => Sys2Proof.Machine.execScat cmd s
  | .rake cmd => Sys2Proof.Machine.execRake cmd s
  | .rsub cmd => Sys2Proof.Machine.execRsub cmd s
  | .lxw cmd => Sys2Proof.Machine.execLxw cmd s
  | .qcast cmd => Sys2Proof.Machine.execQcast cmd s
  | .cmrg cmd => Sys2Proof.Machine.execCmrg cmd s
  | .mergeGroupTimeout cmd => Sys2Proof.Machine.execMergeGroupTimeout cmd s
  | .patx cmd => Sys2Proof.Machine.execPatx cmd s
  | .engineTokenWrite cmd => Sys2Proof.Machine.execEngineTokenWrite cmd s
  | .feederFillStart cmd => Sys2Proof.Machine.execFeederFillStart cmd s
  | .feederFillComplete cmd => Sys2Proof.Machine.execFeederFillComplete cmd s
  | .storerDrainStart cmd => Sys2Proof.Machine.execStorerDrainStart cmd s
  | .storerDrainComplete cmd => Sys2Proof.Machine.execStorerDrainComplete cmd s
  | .kernelLaunch bed inlet => Sys2Proof.Machine.execKernelLaunch bed inlet s
  | .graphStart bed inlet => Sys2Proof.Machine.execGraphStart bed inlet s
  | .closeRecord bed inlet => Sys2Proof.Machine.execCloseRecord bed inlet s
  | .trayFlush bed inst node key => Sys2Proof.Machine.execTrayFlush bed inst node key s
  | .dispatch bed pick => Sys2Proof.Machine.execDispatch bed pick s
  | .sliceExpiry t => Sys2Proof.Machine.execSliceExpiry t s
  | .parkThresholdExpiry t => Sys2Proof.Machine.execParkThresholdExpiry t s
  | .teamWake t => Sys2Proof.Machine.execTeamWake t s
  | .teamRetire t => Sys2Proof.Machine.execTeamRetire t s
  | .frameReceive port frame fcsGood => Sys2Proof.Machine.execFrameReceive port frame fcsGood s
  | .heldRecordDelivery port bed inst node => Sys2Proof.Machine.execHeldRecordDelivery port bed inst node s
  | .ptpMessage port offset => Sys2Proof.Machine.execPtpMessage port offset s
  | .mmpFaultService bed page answer => Sys2Proof.Machine.execMmpFaultService bed page answer s
  | .map src pick => Sys2Proof.Machine.execMap src pick s
  | .free src => Sys2Proof.Machine.execFree src s
  | .share src => Sys2Proof.Machine.execShare src s
  | .protect src => Sys2Proof.Machine.execProtect src s
  | .migrate src pick => Sys2Proof.Machine.execMigrate src pick s
  | .lookup src => Sys2Proof.Machine.execLookup src s
  | .migrationCommit bed page => Sys2Proof.Machine.execMigrationCommit bed page s
  | .expertPrefetch bed expert pick => Sys2Proof.Machine.execExpertPrefetch bed expert pick s
  | .peerRequest link peer seq op => Sys2Proof.Machine.execPeerRequest link peer seq op s
  | .hyfinLinkFailure link => Sys2Proof.Machine.execHyfinLinkFailure link s
  | .apertureAccess op => Sys2Proof.Machine.execApertureAccess op s
  | .mailboxReport bed => Sys2Proof.Machine.execMailboxReport bed s
  | .uncorrectableError site => Sys2Proof.Machine.execUncorrectableError site s
  | .linkReplayExhausted link => Sys2Proof.Machine.execLinkReplayExhausted link s
  | .watchdogExpiry => Sys2Proof.Machine.execWatchdogExpiry s
  | .thermalTrip => Sys2Proof.Machine.execThermalTrip s
  | .throttleStep => Sys2Proof.Machine.execThrottleStep s
  | .bedIdle bed => Sys2Proof.Machine.execBedIdle bed s
  | .configure => Sys2Proof.Machine.execConfigure s
  | .bedOn => Sys2Proof.Machine.execBedOn s
  | .bedOff => Sys2Proof.Machine.execBedOff s
  | .attest => Sys2Proof.Machine.execAttest s
  | .update image => Sys2Proof.Machine.execUpdate image s
  | .updateComplete => Sys2Proof.Machine.execUpdateComplete s
  | .reset => Sys2Proof.Machine.execReset s
  | .registerExpert => Sys2Proof.Machine.execRegisterExpert s
  | .steer => Sys2Proof.Machine.execSteer s
  | .mmpRequest => Sys2Proof.Machine.execMmpRequest s
  | .registerWrite offset size data => Sys2Proof.Machine.execRegisterWrite offset size data s
  | .powerOn trellis mmp => Sys2Proof.Machine.execPowerOn trellis mmp s
  | .longLatencyResultWrite crew lane index => Sys2Proof.Machine.execLongLatencyResultWrite crew lane index s
  | .mmpFirmwareFault die => Sys2Proof.Machine.execMmpFirmwareFault die s
  | .powerLoss => Sys2Proof.Machine.execPowerLoss s

end Sys2Proof.Machine
end

