-- ==== Sys2Proof/Machine/Run.lean ====
section
/-! DEFINITION. What each move does (assumption 1), and a scene in which a given word is the next instruction to run
(assumption 33). -/

namespace Sys2Proof.Machine

/-! ## Moves -/

/-- A partition issues for a crew at a PC (R15). -/
def issueAt (s : State) (cid : Nat) (pc : Dword) : Host.Outcome State Fault Refusal :=
  match s.prepare cid pc with
  | .done s => .next s
  | .run i s => exec i s

/-- The partition of a crew, all partitions of the module in one order (R15). -/
def Crew.partitionIndex (c : Crew) : Nat :=
  (c.cluster * Config.coresPerCluster + c.core) * Config.partitions + c.slot % Config.partitions

/-- The partitions of the module. -/
def partitionCount : Nat := Config.clusters * Config.coresPerCluster * Config.partitions

/-- Partitions take their turns in order, step by step: how far the turn of a crew's partition is off (R31). -/
def State.turnIn (s : State) (c : Crew) : Nat := (c.partitionIndex + partitionCount - s.fresh % partitionCount) % partitionCount

/-- The crew whose partition's turn comes first. -/
def State.nextTurn (s : State) : List Crew → Option Crew
  | [] => none
  | c :: t => some (t.foldl (fun a b => if s.turnIn b < s.turnIn a then b else a) c)

/-- With nothing on the agenda: the next partition in turn that can, so that none is left out (R31), issues for the crew it selects
that crew's longest-waiting group; where none can, a cycle passes. -/
def defaultMove (s : State) : Host.Outcome State Fault Refusal :=
  let able := s.crews.filter fun c =>
    ((s.selected c.cluster c.core (c.slot % Config.partitions)).map (·.cid)) == some c.cid
  match s.nextTurn able with
  | none => .next (s.tick 1)
  | some c =>
    match ((c.longest (s.openGroups c)).head?).bind c.thread? with
    | some t => issueAt s c.cid t.pc
    | none => .next (s.tick 1)

/-- After another agent's step: failed launches whose commands have ended are freed (R388), and teams that were held back leave
(R272, R287). -/
def State.afterEvent (s : State) : State := s.settleFailed.settleLeaving

/-- One move; the event of an instruction word is none, since words run in issue groups alone. -/
def makeMove (s : State) (m : Move) : Host.Outcome State Fault Refusal :=
  if !s.mayMove m then .next s
  else match m with
    | .issue cid pc => issueAt s cid pc
    | .event i => if (encode i).isEmpty then afterGroup State.afterEvent (exec i s) else .next s
    | .tick n => .next (s.tick n)
    | .inlet bed off data => .next (s.writeInlet bed off data)
    | .host a data => .next (s.make (.host a) (s.paWrite .companion .system (.bytes data))).1
    | .prefetch cluster core bed addr => .next (s.prefetchDw cluster core bed addr)
    | .sense power package die coolant inlet =>
      .next { s with power := power, packagePower := package, dieTemp := die, coolant := coolant, inletTemp := inlet }
    | .corrected row => .next (s.correct row)
    | .peer p pa data => .next (s.make (.peer p pa) (s.paWrite (.peer p) .device (.bytes data))).1
    | .dropLine n => .next (s.dropLine n)
    | .powerTrip => .next (s.fatal 5 s.someDie s.someDetail)
    | .peerFence f on => .next { s with peerFences := (s.peerFences.filter (· != f)) ++ (if on then [f] else []) }

/-- One step: the step number advances, the agenda's head is made, or the default move. -/
def stepOn (s : State) : Host.Outcome State Fault Refusal :=
  let s := { s with fresh := s.fresh + 1, cur := none }
  match s.agenda with
  | [] => if s.modState == 3 then .next s else defaultMove s
  | m :: rest => makeMove { s with agenda := rest } m

/-! ## A scene for one word -/

/-- The virtual address of the scene's block. -/
def sceneCode : Nat := 0x10000

/-- A header: length in words, RH; no live-in count. -/
def sceneHeader (len : Nat) : Nat := 3 + 4 * len + 2 ^ 31

/-- Module memory: a page table of four levels and, in the one page it maps, a block of the word and NOPs, and the block after. -/
def sceneMemory (m : Memory) (w : Nat) : Memory :=
  let m := m.clear 0x10000 0x30000
  let m := m.write 0x10000 (natBytes 8 (0x12000 + 1))
  let m := m.write 0x12000 (natBytes 8 (0x14000 + 1))
  let m := m.write 0x14000 (natBytes 8 (0x16000 + 1))
  let m := m.write 0x16008 (natBytes 8 (2 * 65536 + 0b1111001))
  m.write 0x20000 (natBytes 8 (sceneHeader 6) ++ natBytes 16 w ++ natBytes 8 (sceneHeader 2))

/-- The kernel of the scene. -/
def sceneKernel : Kernel :=
  { entry := BitVec.ofNat 64 sceneCode, handler := 0, width := 16, crews := 1, pair := false, vregs := 512, acc := 4, plot := 4096,
    cplot := 4096 }

/-- Its launch, one team. -/
def sceneLaunch : Launch :=
  { bed := 0, id := 1, kernel := sceneKernel, teams := 1, prio := 0, rfl := 0, parkt := 0, slice := 0, dbg := true, stat := 0, event := 0,
    tag := 0, irq := false, tev := false, ublk := List.replicate 64 0, ublkAddr := none, firing := none, begun := [0], retired := 0,
    mixed := [], held := false, entryTime := 0, failed := false }

/-- Its thread, at the block's header. -/
def sceneThread : Thread :=
  { firstThread sceneKernel 0 0 with
    hdr := BitVec.ofNat 64 sceneCode, hdrW := BitVec.ofNat 64 (sceneHeader 6), entry := none }

/-- Its crew, with one live lane. -/
def sceneCrew : Crew :=
  { firstCrew sceneLaunch 0 0 0 0 0 0 0 with lanes := some sceneThread :: List.replicate 15 none }

/-- Its team, on core 0 of cluster 0. -/
def sceneTeam : Team :=
  { freshTeam ⟨0, 1, 0⟩ with place := some ⟨0, [0], [(0, 0)]⟩, started := true, acc := claimAcc 0 ⟨0, 1, 0⟩ sceneKernel 1 }

/-- The bed of the scene, on, with its page table. -/
def sceneBed (b : Bed) : Bed :=
  { b with on := true, fenced := false, root := 0x10000, tables := [0x10000, 0x12000, 0x14000, 0x16000], frames := [⟨2, 1⟩]
           block := { b.block with clus := 1, hbmSize := 0x4000000 } }

/-- The state in which the next step runs the word: its code in memory, its thread alone at it, its issue on the agenda. -/
def scene (s : State) (w : Nat) : State :=
  { s with
    agenda := .issue 0 (BitVec.ofNat 64 (sceneCode + 8)) :: s.agenda, cur := none, modState := 2, mem := sceneMemory s.mem w, code := []
    migrations := [], beds := modifyAt s.beds 0 sceneBed, launches := [sceneLaunch], teams := [sceneTeam], crews := [sceneCrew]
    shared := [⟨0, 1, 0, []⟩], bins := [], cmds := [], nextCid := s.nextCid + 1 }

end Sys2Proof.Machine
end

