-- ==== Sys2Proof/Machine/Step.lean ====
section
/-! DEFINITION. One step of the module (assumption 1), and the state in which a given word is the instruction the next step runs
(assumption 33). -/

namespace Sys2Proof.Machine

/-- One step. -/
def step (s : State) : Host.Outcome State Fault Refusal := stepOn s

/-- `s` with an instruction of `nbits` bits where the next step fetches. -/
def State.withFetchWord (s : State) (nbits w : Nat) : State := scene s (w % 2 ^ nbits)

end Sys2Proof.Machine
end

