-- ==== Sys2Proof/Safety.lean ====
section
/-! DEFINITION. What a run needs to go on, and the terms in which the statements about instructions are written: the state as a
group finds it, and what an instruction has done when the group is past it. -/

namespace Sys2Proof

/-- The state after n steps; none once a step has stopped. -/
def runSteps : Nat → Machine.State → Option Machine.State
  | 0, s => some s
  | n + 1, s => match Machine.step s with
    | .next t => runSteps n t
    | .fault _ => none
    | .refused _ => none

/-- A run of n steps does not stop. -/
def safeFor (n : Nat) (s : Machine.State) : Bool := (runSteps n s).isSome

namespace Claim

open Machine

/-! ## A group before its instruction -/

/-- The address after the group's instruction. -/
def after (k : Group) : Dword := k.pc + BitVec.ofNat 64 (4 * k.len)

/-- What lane l reads as the group issues. -/
def view (s : State) (c : Crew) (k : Group) (l : Nat) (t : Thread) : Ctx :=
  { crew := c, grp := k, lane := l, t := t, fresh := s.fresh }

/-- The group `k` of crew `c` issues, and nothing else is pending that its instruction could release: no thread of the crew is
stalled at a WAITM or waits for the tree unit, none of the launch is in a Riddle bin, no debugger steps the crew. -/
structure Calm (s : State) (c : Crew) (k : Group) : Prop where
  cur : s.cur = some k
  crew : s.crew? k.cid = some c
  only : ∀ x ∈ s.crews, x.cid = k.cid → x = c
  manned : ∀ x ∈ s.crews, x.lanes.any (·.isSome) = true
  lanes : k.lanes.Nodup
  some_ : k.lanes ≠ []
  live : ∀ l ∈ k.lanes, (c.thread? l).isSome = true
  tree : ∀ l t, c.thread? l = some t → t.redl = none
  masks : ∀ l t m n, c.thread? l = some t → t.wait ≠ .waitm m n
  bins : s.domain c.bed c.launch c.cluster = []
  steps : ∀ t ∈ s.teams, t.stepping.contains k.cid = false

/-- The lane after an instruction that wrote nothing there: one instruction nearer to each result in flight, at the next word. -/
def moved (k : Group) (t : Thread) : Thread := { t.retire k.pc with pc := after k, wait := .none, answered := [], ret := none }

/-- The registers of the crew's kernel. -/
def vregs (s : State) (c : Crew) : Nat := ((s.kernel? c.bed c.launch).map (·.vregs)).getD 512

/-- The crew as its lanes `ls` enter a block at `addr` whose header is `h`: the results in flight are written, the lanes stand at
the header, and a region entry takes the checkpoint (R54, R70, R349). -/
def entered (st : Nat) (ls : List Nat) (addr h : Dword) (region : Bool) (c : Crew) : Crew :=
  let c := c.complete st (c.inFlight ls)
  let c := c.setThreads ls fun t =>
    let t := { t with pc := addr, hdr := addr, hdrW := h, entry := none, answered := [], ret := none, wait := .none }
    if hdrRh h || region then t.checkpoint addr (hdrLv h) else t
  if hdrRh h || region then c.checkpoint (hdrLs h) else c

/-- The crew with lanes `ls` at an address. -/
def stood (ls : List Nat) (a : Dword) (c : Crew) : Crew :=
  c.setThreads ls fun t => { t with pc := a, wait := .none, answered := [], ret := none }

/-- The state with crew `c'` in the place of the crew of `k`, the issue over. -/
def swap (s : State) (k : Group) (c' : Crew) : State :=
  { s with cur := none, crews := mapIf (fun x => x.cid == k.cid) (fun _ => c') s.crews }

/-- The same once a header at `addr` has been fetched: the core's instruction path keeps its words (R78). -/
def landed (s : State) (c : Crew) (k : Group) (addr : Dword) (c' : Crew) : State :=
  { swap s k c' with code := (s.keepWords c 2 addr).code }

/-- Where the group's instruction is the last of its block, the word after it is a header `h` that may be entered (R54, R57). -/
def Onward (s : State) (c : Crew) (k : Group) (h : Dword) : Prop :=
  after k = blockEnd k.hdr k.hdrW → s.enterCheck c (vregs s c) [] (after k) (.fall k.hdr) = .ok h

/-- The state once the lanes of the group, their writes made in `c'`, have gone on: at the next word of the block, or at the
header after it. -/
def goes (s : State) (c : Crew) (k : Group) (h : Dword) (c' : Crew) : State :=
  if after k = blockEnd k.hdr k.hdrW then landed s c k (after k) (entered s.fresh k.lanes (after k) h false c')
  else swap s k (stood k.lanes (after k) c')

/-! ## A group as it issues -/

/-- The guard of an instruction of n words (R59, R61, R68). -/
def guardIn (n : Nat) (ws : List Word) : Guard := if n = 1 then always else guardOf ((ws[1]?).getD 0)

/-- The state as a group issues: it is noted, and lanes that depart from a barrier know what its arrivals did (R16, R220, R348). -/
def noted (s : State) (c : Crew) (k : Group) : State := (s.noteIssue c k.lanes).departBars c k.lanes

/-- Crew `c` of the state may issue the group `k` now, its first lane's thread is `t` (R15, R16). -/
structure Fetching (s : State) (c : Crew) (k : Group) (t : Thread) : Prop where
  crew : s.crew? k.cid = some c
  selected : (s.selected c.cluster c.core (c.slot % Config.partitions)).map (·.cid) = some k.cid
  thread : (k.lanes.head?).bind c.thread? = some t
  entry : t.entry = none
  pc : k.pc = t.iaddr
  hdr : k.hdr = t.hdr
  hdrW : k.hdrW = t.hdrW
  chosen : s.chosen c t.pc = some k.lanes

/-- The same, and the words `ws` at its address, inside its block, are those of one instruction (R51). -/
structure Issuing (s : State) (c : Crew) (k : Group) (t : Thread) (ws : List Word) : Prop extends Fetching s c k t where
  inside : k.pc ≠ blockEnd k.hdr k.hdrW
  word : ∃ w, (noted s c k).fetchWords c t.answered 1 k.pc = .ok [w] ∧ isHeader w = false ∧ formLen w = k.len
  fits : 4 * k.len ≤ (blockEnd k.hdr k.hdrW - k.pc).toNat
  words : (noted s c k).fetchWords c t.answered k.len k.pc = .ok ws

/-- The state in which the instruction of a group executes, with its guard: the issue is noted, the core's instruction path keeps the
words, results in flight that the instruction may not pass are written, and the lanes that read token registers know what their
engines did (R16, R35, R70, R78, R220, R348). -/
def issued (s : State) (c : Crew) (k : Group) (i : Instr) (g : Guard) : State :=
  let u := ((noted s c k).keepWords c k.len k.pc).setCrew k.cid fun c => c.settleFor s.fresh k i g
  { (match u.crew? k.cid with
    | some c1 => u.readTokens c1 (actives c1 k g) i.touch
    | none => u) with cur := some k }

/-! ## Families of words -/

/-- The families of the encoding (R61, R74): the compact forms; control and masks; integers; moves; floats; loads, stores and
atomics; barriers and queues; engines; scheduling; reorder, system and debug. A step of another agent has no word. -/
inductive Family where
  | compact | control | integer | move | float | memory | barrier | engine | scheduling | debug | event
  deriving DecidableEq, Repr

/-- The family of an instruction. -/
def family : Instr → Family
  | .nopCompact => .compact
  | .nop _ => .control
  | .bra _ _ => .control
  | .brx _ _ => .control
  | .call _ _ _ => .control
  | .ret _ _ => .control
  | .exit _ => .control
  | .yield _ => .control
  | .trap _ _ => .control
  | .brk _ _ => .control
  | .rett _ => .control
  | .join _ _ => .control
  | .leave _ _ => .control
  | .waitm _ _ => .control
  | .mlop _ _ _ _ _ => .control
  | .mmov _ _ => .control
  | .vote _ _ _ _ => .control
  | .elect _ _ _ => .control
  | .plop _ _ _ _ _ => .control
  | .pmov _ _ => .control
  | .iaddCompact _ => .compact
  | .iadd _ => .integer
  | .iadd3 _ => .integer
  | .isubCompact _ => .compact
  | .isub _ => .integer
  | .iaddc _ => .integer
  | .imulCompact _ => .compact
  | .imul _ => .integer
  | .imulh _ => .integer
  | .imad _ => .integer
  | .imadw _ => .integer
  | .idiv _ => .integer
  | .irem _ => .integer
  | .iminCompact _ => .compact
  | .imin _ => .integer
  | .imaxCompact _ => .compact
  | .imax _ => .integer
  | .iabs _ => .integer
  | .ineg _ => .integer
  | .iset _ => .integer
  | .sel _ => .integer
  | .lop3 _ => .integer
  | .shlCompact _ => .compact
  | .shl _ => .integer
  | .shrCompact _ => .compact
  | .shr _ => .integer
  | .shaCompact _ => .compact
  | .sha _ => .integer
  | .shf _ => .integer
  | .bfe _ => .integer
  | .bfi _ => .integer
  | .popc _ => .integer
  | .clz _ => .integer
  | .brev _ => .integer
  | .lea _ => .integer
  | .idp4 _ => .integer
  | .movCompact _ => .compact
  | .mov _ => .move
  | .movl _ => .move
  | .bcast _ => .move
  | .rdlane _ => .move
  | .perm _ => .move
  | .ixset _ _ _ => .move
  | .ixld _ => .move
  | .ixst _ => .move
  | .getsr _ => .move
  | .setsr _ => .move
  | .faddCompact _ => .compact
  | .fadd _ => .float
  | .fmulCompact _ => .compact
  | .fmul _ => .float
  | .ffma _ => .float
  | .fminCompact _ => .compact
  | .fmin _ => .float
  | .fmaxCompact _ => .compact
  | .fmax _ => .float
  | .fset _ => .float
  | .fclass _ => .float
  | .fscl _ => .float
  | .ffrx _ => .float
  | .fceilx _ => .float
  | .frcp _ => .float
  | .frsq _ => .float
  | .fsqrt _ => .float
  | .fdiv _ => .float
  | .fex2 _ => .float
  | .flg2 _ => .float
  | .fsin _ => .float
  | .fcos _ => .float
  | .ftanh _ => .float
  | .fex2m _ => .float
  | .dadd _ => .float
  | .dmul _ => .float
  | .dfma _ => .float
  | .dset _ => .float
  | .hadd2Compact _ => .compact
  | .hadd2 _ => .float
  | .hmul2Compact _ => .compact
  | .hmul2 _ => .float
  | .hfma2 _ => .float
  | .cvt _ => .float
  | .qnt _ => .float
  | .dqnt _ => .float
  | .redl _ => .float
  | .scanl _ => .float
  | .ld _ => .memory
  | .st _ => .memory
  | .lds _ => .memory
  | .sts _ => .memory
  | .ldt _ => .memory
  | .stt _ => .memory
  | .ldp _ => .memory
  | .stp _ => .memory
  | .pf _ => .memory
  | .cctlIinv _ _ => .memory
  | .cctlShinv _ _ _ => .memory
  | .cctlL1inv _ _ => .memory
  | .atom _ => .memory
  | .atomp _ => .memory
  | .red _ => .memory
  | .fence _ _ _ => .barrier
  | .bar _ => .barrier
  | .bari _ => .barrier
  | .bara _ => .barrier
  | .barw _ => .barrier
  | .bart _ => .barrier
  | .pqput _ => .barrier
  | .pqtake _ => .barrier
  | .push _ => .engine
  | .mard _ => .engine
  | .rpop _ => .engine
  | .rrel _ => .engine
  | .rpub _ => .engine
  | .rtinc _ => .engine
  | .rcsnap _ => .engine
  | .expf _ => .engine
  | .emit _ => .scheduling
  | .launch _ => .scheduling
  | .signal _ => .scheduling
  | .waitev _ => .scheduling
  | .ordrel _ => .scheduling
  | .parkYield _ => .scheduling
  | .parkEv _ => .scheduling
  | .reorder _ => .debug
  | .sysc _ => .debug
  | .dbgHalt _ => .debug
  | .dbgResume _ => .debug
  | .dbgStep _ => .debug
  | .dbgRdreg _ => .debug
  | .dbgWrreg _ => .debug
  | .dbgSetwp _ => .debug
  | .dbgGetmask _ => .debug
  | .riddleAgeFlush _ _ => .event
  | .riddleDeferredFlush _ _ => .event
  | .mmaDense _ _ => .event
  | .mmaGrouped _ _ => .event
  | .mmaExpand _ _ => .event
  | .mmaAbsorb _ _ => .event
  | .spanGroupTimeout _ => .event
  | .mast _ => .event
  | .mald _ => .event
  | .maz _ => .event
  | .cpy _ => .event
  | .gath _ => .event
  | .scat _ => .event
  | .rake _ => .event
  | .rsub _ => .event
  | .lxw _ => .event
  | .qcast _ => .event
  | .cmrg _ => .event
  | .mergeGroupTimeout _ => .event
  | .patx _ => .event
  | .engineTokenWrite _ => .event
  | .feederFillStart _ => .event
  | .feederFillComplete _ => .event
  | .storerDrainStart _ => .event
  | .storerDrainComplete _ => .event
  | .kernelLaunch _ _ => .event
  | .graphStart _ _ => .event
  | .closeRecord _ _ => .event
  | .trayFlush _ _ _ _ => .event
  | .dispatch _ _ => .event
  | .sliceExpiry _ => .event
  | .parkThresholdExpiry _ => .event
  | .teamWake _ => .event
  | .teamRetire _ => .event
  | .frameReceive _ _ _ => .event
  | .heldRecordDelivery _ _ _ _ => .event
  | .ptpMessage _ _ => .event
  | .mmpFaultService _ _ _ => .event
  | .map _ _ => .event
  | .free _ => .event
  | .share _ => .event
  | .protect _ => .event
  | .migrate _ _ => .event
  | .lookup _ => .event
  | .migrationCommit _ _ => .event
  | .expertPrefetch _ _ _ => .event
  | .peerRequest _ _ _ _ => .event
  | .hyfinLinkFailure _ => .event
  | .apertureAccess _ => .event
  | .mailboxReport _ => .event
  | .uncorrectableError _ => .event
  | .linkReplayExhausted _ => .event
  | .watchdogExpiry => .event
  | .thermalTrip => .event
  | .throttleStep => .event
  | .bedIdle _ => .event
  | .configure => .event
  | .bedOn => .event
  | .bedOff => .event
  | .attest => .event
  | .update _ => .event
  | .updateComplete => .event
  | .reset => .event
  | .registerExpert => .event
  | .steer => .event
  | .mmpRequest => .event
  | .registerWrite _ _ _ => .event
  | .powerOn _ _ => .event
  | .longLatencyResultWrite _ _ _ => .event
  | .mmpFirmwareFault _ => .event
  | .powerLoss => .event

/-! ## What an instruction wrote -/

/-- What one write gives per-lane register r. -/
def putV : Put → Nat → Option Word
  | .v i w, r => if r = i then some w else none
  | _, _ => none

/-- What one write gives uniform register r. -/
def putS : Put → Nat → Option Word
  | .s i w, r => if r = i then some w else none
  | _, _ => none

/-- What one write gives predicate i. -/
def putP : Put → Nat → Option Bool
  | .p j b, i => if i = j then some b else none
  | _, _ => none

/-- What one write gives index register i. -/
def putIx : Put → Nat → Option IxReg
  | .ix j x, i => if i = j then some x else none
  | _, _ => none

/-- What a list of writes gives a place: the last write of it. -/
def last {α : Type} (at_ : Put → Nat → Option α) : List Put → Nat → Option α
  | [], _ => none
  | p :: t, i => (last at_ t i).or (at_ p i)

/-- The floating flags a list of writes raises. -/
def raised : List Put → Word
  | [] => 0
  | .flags w :: t => w ||| raised t
  | _ :: t => raised t

/-- A thread's latest release fence of each kind at each scope from each place, after a list of writes: one executed again takes the
place of the earlier. -/
def fencesAfter : List Put → List FenceMark → List FenceMark
  | [], fs => fs
  | .fence f :: t, fs => fencesAfter t (f :: fs.filter fun e => decide (e.mark ≠ f.mark ∨ e.opnd ≠ f.opnd))
  | _ :: t, fs => fencesAfter t fs

/-- A uniform instruction executes once, on the lowest guard-true lane (R20). -/
def lead (c : Crew) (k : Group) (g : Guard) : Option Nat := (actives c k g).head?

/-- What lane l, guard-true or not, does of an instruction whose lanes do `f`: of a uniform one only the lowest guard-true lane
does it. -/
def doing {α : Type} (none_ : α) (uniform : Bool) (s : State) (c : Crew) (k : Group) (g : Guard) (f : Ctx → α) (l : Nat) : α :=
  match c.thread? l, lead c k g with
  | some t, some l0 => if guardTrue g t && (!uniform || l0 == l) then f (view s c k l t) else none_
  | _, _ => none_

/-- The writes of each lane: those of `f` for a guard-true lane; of a uniform instruction the other guard-true lanes take the
predicates (R20, R239). -/
def given (uniform : Bool) (s : State) (c : Crew) (k : Group) (g : Guard) (f : Ctx → List Put) (l : Nat) : List Put :=
  match c.thread? l, lead c k g with
  | some t, some l0 =>
    if guardTrue g t then
      if uniform && l0 != l then (match c.thread? l0 with
        | some t0 => predPuts (f (view s c k l0 t0))
        | none => [])
      else f (view s c k l t)
    else []
  | _, _ => []

/-- The lanes of the group have executed, their places apart: each lane made its writes, its results in flight one instruction
nearer and `late` behind them; no other register, predicate, mask or crew register changed, nor any other lane. -/
structure Did (c c' : Crew) (k : Group) (ws : Nat → List Put) (late : Nat → List Pend) : Prop where
  rest : { c' with lanes := c.lanes, s := c.s, fflags := c.fflags, errs := c.errs, tokRegs := c.tokRegs } = c
  width : c'.lanes.length = c.lanes.length
  other : ∀ l, l ∉ k.lanes → c'.thread? l = c.thread? l
  lane : ∀ l ∈ k.lanes, ∀ t, c.thread? l = some t → ∃ t', c'.thread? l = some t' ∧
    (∀ r, t'.v.get r = (last putV (ws l) r).getD (t.v.get r)) ∧
    (∀ i, i < 7 → t'.p.getLsbD i = (last putP (ws l) i).getD (t.p.getLsbD i)) ∧
    (∀ i, i < t.ix.length → t'.ix[i]? = some ((last putIx (ws l) i).getD ((t.ix[i]?).getD ⟨0, 0, 0⟩))) ∧
    t'.fences = fencesAfter (ws l) t.fences ∧
    t'.pend = t.pend.map (fun p => { p with left := p.left - 1 }) ++ late l ∧
    { t' with v := t.v, p := t.p, ix := t.ix, wait := t.wait, pend := t.pend, exempt := t.exempt
              answered := t.answered, ret := t.ret, fences := t.fences } = t
  sreg : ∀ r, c'.s.get r = (last putS (k.lanes.flatMap ws) r).getD (c.s.get r)
  errs : ∀ r, r ∈ c'.errs ↔ r ∈ c.errs ∧ last putS (k.lanes.flatMap ws) r = none
  flags : c'.fflags = c.fflags ||| raised (k.lanes.flatMap ws)

/-- The instruction answers a next state in which nothing but the crew has changed, no byte of memory among it, and the crew by
exactly the writes of `f`. -/
def Writes (i : Instr) (s : State) (c : Crew) (k : Group) (h : Dword) (uniform : Bool) (g : Guard) (f : Ctx → List Put) : Prop :=
  ∃ c', exec i s = .next (goes s c k h c') ∧ Did c c' k (given uniform s c k g f) (fun _ => []) ∧
    ∀ a n, (goes s c k h c').read a n = s.read a n

/-- The results of a long-latency instruction with lookahead `n` that are in flight in lane l once step `st` has issued it (R70):
those of the lane's writes; of a uniform one the writes are the lowest guard-true lane's, and the instruction is in flight in each. -/
def inFlight (n : Nat) (uniform : Bool) (s : State) (c : Crew) (k : Group) (g : Guard) (f : Ctx → List Put) (l : Nat) : List Pend :=
  match c.thread? l with
  | some t => if guardTrue g t then [pendOf s.fresh n k.hdr (given uniform s c k g f l)] else []
  | none => []

/-- The same of a long-latency instruction with lookahead `n`: no register changes yet; the results of `f` are in flight (R70). -/
def WritesLate (i : Instr) (s : State) (c : Crew) (k : Group) (h : Dword) (uniform : Bool) (g : Guard) (n : Nat)
    (f : Ctx → List Put) : Prop :=
  ∃ c', exec i s = .next (goes s c k h c') ∧
    Did c c' k (fun _ => []) (inFlight n uniform s c k g f) ∧
    ∀ a n, (goes s c k h c').read a n = s.read a n

/-! ## Instructions that change more than registers, on one guard-true lane -/

/-- Lane l, with thread t, is the group's one guard-true lane. -/
def Solo (c : Crew) (k : Group) (g : Guard) (l : Nat) (t : Thread) : Prop := actives c k g = [l] ∧ c.thread? l = some t

/-- Writes of one lane alone. -/
def only {α : Type} (l : Nat) (ps : List α) (j : Nat) : List α := if j = l then ps else []

/-- The instruction answers a next state: `s1`, but for the crew, which has made the writes `ps` of lane l and goes on. -/
def Does (i : Instr) (s s1 : State) (c : Crew) (k : Group) (h : Dword) (l : Nat) (ps : List Put) : Prop :=
  ∃ c', exec i s = .next (goes s1 c k h c') ∧ Did c c' k (only l ps) (fun _ => [])

/-- A commit may execute: the rest of its block is NOPs, a region header stands after it (R350), and, its effect made in `s1`, the
header `h` there may be entered (R351). -/
def MayCommit (s s1 : State) (c : Crew) (k : Group) (t : Thread) (h : Dword) : Prop :=
  s.commitCheck c k t.answered = .ok ∧ s1.enterCheck c (vregs s1 c) [] (blockEnd k.hdr k.hdrW) (.fall k.hdr) = .ok h

/-- The commit answers a next state: `s1`, but for the crew, which has made the writes `ps` of lane l and stands at the header after
the block, every lane of the group there (R351). -/
def Commits (i : Instr) (s s1 : State) (c : Crew) (k : Group) (h : Dword) (l : Nat) (ps : List Put) : Prop :=
  ∃ c', exec i s = .next (landed s1 c k (blockEnd k.hdr k.hdrW) (entered s1.fresh k.lanes (blockEnd k.hdr k.hdrW) h false c')) ∧
    Did c c' k (only l ps) (fun _ => [])

/-! ## Traps -/

/-- The crew as lanes `ls` take trap `tr`: the trap registers are written and the lanes are in handler mode (R368, R370). -/
def trapped (tr : Trap) (ls : List Nat) (c : Crew) : Crew :=
  { c with tcause := BitVec.ofNat 32 tr.cause, tpc := tr.tpc, tval := tr.tval, tmask := maskOf ls }.setThreads ls fun t =>
    { t with handler := true, wait := .none, entry := none, ret := none, exempt := tr.spares t.exempt }

/-- A trap of the group's lanes may be delivered: the kernel has a handler, whose header `h` may be entered, and no thread of the
crew is in handler mode; a debug trap does not meet a debugger (R370, R371, R375). -/
structure Deliverable (s : State) (c : Crew) (k : Group) (cause : Nat) (kn : Kernel) (h : Dword) : Prop where
  kernel : s.kernel? c.bed c.launch = some kn
  handler : kn.handler ≠ 0
  quiet : c.inHandler = false
  loose : cause = 0x0F ∨ cause = 0x10 → ∀ l ∈ k.lanes, s.attachedLane c l = false
  entry : s.enterCheck c kn.vregs [] kn.handler .enter = .ok h

/-- The state in which every lane of the group has taken the trap and stands at the handler's header, a region entry; nothing else
has changed. -/
def delivered (s : State) (c : Crew) (k : Group) (kn : Kernel) (h : Dword) (tr : Trap) : State :=
  landed s c k kn.handler (entered s.fresh k.lanes kn.handler h true (trapped tr k.lanes c))

/-- The instruction answers that state. -/
def Traps (i : Instr) (s : State) (c : Crew) (k : Group) (kn : Kernel) (h : Dword) (tr : Trap) : Prop :=
  exec i s = .next (delivered s c k kn h tr)

/-- The words of a first fetch say that no header stands at an address: it is not 8-byte-aligned, or the low bits of its word are not
11 (R54, R58). -/
def NoHeader (s : State) (c : Crew) (answered : List PageAns) (a : Dword) : Prop :=
  a.extractLsb' 0 3 ≠ 0 ∨ ∃ w, s.fetchWords c answered 1 a = .ok [w] ∧ w.extractLsb' 0 2 ≠ 3

/-- The first check that a header entered by fall-through at an address fails (R53, R57): reserved bits, LEN, LV, LS, alignment. -/
def headerFault (h a : Dword) (vregs : Nat) : Option Nat :=
  if h.getLsbD 33 = true ∨ h.extractLsb' 62 2 ≠ 0 then some 1
  else if (h.extractLsb' 2 10).toNat < 2 then some 2
  else if vregs < (h.extractLsb' 12 10).toNat then some 3
  else if 256 < (h.extractLsb' 22 9).toNat then some 4
  else if a.extractLsb' 0 3 ≠ 0 then some 5
  else none

/-- A commit, with its guard, and what settles after its group (R350). -/
def commitOf : Instr → Option (Guard × (State → State))
  | .atom f => some (f.g, id)
  | .atomp f => some (f.g, id)
  | .red f => some (f.g, id)
  | .push f => some (f.g, id)
  | .bar f => some (f.g, id)
  | .bara f => some (f.g, id)
  | .bart f => some (f.g, id)
  | .pqput f => some (f.g, id)
  | .pqtake f => some (f.g, id)
  | .reorder f => some (f.g, id)
  | .rpop f => some (f.g, id)
  | .rrel f => some (f.g, id)
  | .rpub f => some (f.g, id)
  | .rtinc f => some (f.g, id)
  | .rcsnap f => some (f.g, id)
  | .emit f => some (f.g, State.fireTrays)
  | .launch f => some (f.g, id)
  | .signal f => some (f.g, id)
  | .ordrel g => some (g, id)
  | .parkYield g => some (g, State.settleLeaving)
  | .parkEv f => some (f.g, State.settleLeaving)
  | _ => none

/-- The check of a commit fails with a sub-cause: a word after it in its block is no compact NOP; or no header with RH = 1 stands at
its fall-through address (R350). -/
def CommitFault (s : State) (c : Crew) (k : Group) (answered : List PageAns) (sub : Nat) : Prop :=
  let stop := blockEnd k.hdr k.hdrW
  ∃ ws, s.fetchWords c answered ((stop - after k).toNat / 4) (after k) = .ok ws ∧
    if sub = 1 then ∃ w ∈ ws, w ≠ 0
    else sub = 2 ∧ (∀ w ∈ ws, w = 0) ∧
      (NoHeader s c answered stop ∨ ∃ w, s.fetchWords c answered 1 stop = .ok [w] ∧ w.getLsbD 31 = false)

/-- The crew as lanes leave handler mode (R128). -/
def released (ls : List Nat) (c : Crew) : Crew := c.setThreads ls fun t => { t with handler := false }

/-- The crew as the thread in lane l exits: its results in flight are lost, those of a uniform instruction for s-registers passing to
another lane that issued it; their flags are raised (R125, R108). -/
def exited (st l : Nat) (c : Crew) : Crew :=
  (((c.passOn l).setThread l fun t => { t with pend := t.pend.map fun p => { p with v := [], s := [] } }).flush st l fun _ => true).remove l

/-- The state once the one thread of a group has exited: its team has counted it, its crew's commands keep its registers (R227); a crew
with no thread left is gone (R44). -/
def gone (s : State) (c : Crew) (k : Group) (l : Nat) (t : Thread) : State :=
  { (s.leaveRegs k.cid [l]).exitThread (c.ref t) with
    cur := none
    crews := (mapIf (fun x => x.cid == k.cid) (fun _ => exited s.fresh l c) s.crews).filter fun c => c.lanes.any (·.isSome) }

/-! ## Values of the integer instructions (R120, R140 to R149) -/

/-- A source read as an integer of the form's width and signedness (R120). -/
def value (x : Ctx) (w64 sgn : Bool) (a : Src) : Int :=
  match w64, sgn with
  | true, true => (x.w64 a).toInt
  | true, false => (x.w64 a).toNat
  | false, true => (x.w32 a).toInt
  | false, false => (x.w32 a).toNat

/-- The exact result, clamped where the form saturates (R94, R120). -/
def clamp (w64 sgn sat : Bool) (v : Int) : Int :=
  if !sat then v
  else match w64, sgn with
    | false, true => max (-0x80000000) (min 0x7FFFFFFF v)
    | false, false => max 0 (min 0xFFFFFFFF v)
    | true, true => max (-0x8000000000000000) (min 0x7FFFFFFFFFFFFFFF v)
    | true, false => max 0 (min 0xFFFFFFFFFFFFFFFF v)

/-- The destination of an integer: its value modulo the width (R120). -/
def result (d : Reg) (w64 : Bool) (v : Int) : List Put :=
  if w64 then Reg.put64 d (BitVec.ofInt 64 v) else [Reg.put d 0 (BitVec.ofInt 32 v)]

/-- An operation of two sources. -/
def two (op : Int → Int → Int) (f : IBin) (x : Ctx) : List Put :=
  result f.d f.w64 (clamp f.w64 f.sgn f.sat (op (value x f.w64 f.sgn f.a) (value x f.w64 f.sgn f.b)))

/-- The compact form of one: D is also the first source, unsigned, unsaturated (R61). -/
def twoCompact (op : Int → Int → Int) (f : CInt) (x : Ctx) : List Put :=
  result (.v f.d) f.w64 (op (value x f.w64 false (.v f.d .self)) (value x f.w64 false (.v f.a .self)))

/-- The quotient and the remainder (R95). -/
def quotient (w64 sgn : Bool) (x : Ctx) (a b : Src) : Int :=
  if value x w64 sgn b = 0 then -1 else (value x w64 sgn a).tdiv (value x w64 sgn b)

def remainder (w64 sgn : Bool) (x : Ctx) (a b : Src) : Int :=
  if value x w64 sgn b = 0 then value x w64 sgn a else (value x w64 sgn a).tmod (value x w64 sgn b)

/-- A relation (R148). -/
def holds (r : Rel) (a b : Int) : Bool :=
  match r with
  | .eq => decide (a = b)
  | .ne => decide (a ≠ b)
  | .lt => decide (a < b)
  | .le => decide (a ≤ b)
  | .gt => decide (a > b)
  | .ge => decide (a ≥ b)

/-- A number from its bits, n of them. -/
def ofBits (n : Nat) (f : Nat → Bool) : Nat := (List.range n).foldr (fun j r => r + (if f j then 2 ^ j else 0)) 0

/-- The width of a form. -/
def width (w64 : Bool) : Nat := if w64 then 64 else 32

/-- The unsigned pattern of a source. -/
def pattern (x : Ctx) (w64 : Bool) (a : Src) : Nat := (value x w64 false a).toNat

/-- The field word of BFE and BFI (R147). -/
def fieldPos (w : Word) : Nat := (w.extractLsb' 0 8).toNat
def fieldLen (w : Word) : Nat := (w.extractLsb' 8 8).toNat

/-- BFE: the field of `len` bits from `pos`, read as an integer of that many bits; bits at or above the width are the sign (R147). -/
def fieldOf (sgn : Bool) (a : Int) (pos len : Nat) : Int :=
  let u := a / 2 ^ pos % 2 ^ len
  if len = 0 then 0 else if sgn && decide (2 ^ (len - 1) ≤ u) then u - 2 ^ len else u

/-- An element of a packed word (R143). -/
def element (sgn : Bool) (w i : Nat) (a : Word) : Int :=
  if sgn then (a.extractLsb' (w * i) w).toInt else (a.extractLsb' (w * i) w).toNat

/-- The dot product (R143). -/
def dot (sa sb i4 : Bool) (a b : Word) : Int :=
  if i4 then ((List.range 8).map fun i => element sa 4 i a * element sb 4 i b).sum
  else ((List.range 4).map fun i => element sa 8 i a * element sb 8 i b).sum

/-! ## Predicates and other lanes -/

/-- A predicate of a thread; p7 is true (R68). -/
def pred (t : Thread) (p : BitVec 3) : Bool := decide (p = 7) || t.p.getLsbD p.toNat

/-- A predicate of a lane; zero where no thread stands (R119). -/
def predAt (c : Crew) (l : Nat) (p : BitVec 3) : Bool :=
  match c.thread? l with
  | some t => pred t p
  | none => false

/-- The lanes of mask m (R22). -/
def members (c : Crew) (m : BitVec 4) : List Nat := (List.range c.lanes.length).filter fun l => (c.mask m.toNat).getLsbD l

/-- The set of some lanes, lane l at bit l. -/
def laneSet (ls : List Nat) : BitVec 64 := BitVec.ofNat 64 (ofBits 64 fun l => ls.contains l)

/-- Register r of lane l, which an instruction names, or of its neighbour; zero past the crew's ends, and where no thread stands in
lane l (R50, R71). -/
def across (x : Ctx) (l : Nat) (n : Neigh) (r : Nat) : Word :=
  if x.crew.thread? l = none then 0
  else match n with
  | .self => x.other l r
  | .left => if l = 0 then 0 else x.other (l - 1) r
  | .right => if l + 1 < x.crew.lanes.length then x.other (l + 1) r else 0

/-- The register that an index register and an offset name: base + current + offset (R153). -/
def named (ix : BitVec 2) (b : Src) (x : Ctx) : Int := ((x.ix ix).base.toNat : Int) + (x.ix ix).cur.toInt + (x.w32 b).toInt

/-- It lies between base and limit, and is a register of the kernel. -/
def Inside (s : State) (c : Crew) (ix : BitVec 2) (b : Src) (x : Ctx) : Prop :=
  ((x.ix ix).base.toNat : Int) ≤ named ix b x ∧ named ix b x < (x.ix ix).limit.toNat ∧ named ix b x < vregs s c

/-! ## Crew registers other than s -/

/-- The lanes of the group have executed and wrote no register of their own. -/
structure Passed (c c' : Crew) (k : Group) : Prop where
  lane : ∀ l ∈ k.lanes, ∀ t, c.thread? l = some t → c'.thread? l = some (t.retire k.pc)
  other : ∀ l, l ∉ k.lanes → c'.thread? l = c.thread? l
  width : c'.lanes.length = c.lanes.length

/-- What a thread's release fence leaves with it: its scope and place, its step, and what happens before it (R218, R226). -/
def fenceMark (s : State) (x : Ctx) (o : Ord) (sc : Scope) : FenceMark := ⟨⟨sc, x.home⟩, o == .opnd, s.fresh, s.upTo x.agent⟩

/-- Nothing has changed but the L1s, and a sector that was not there holds what memory holds. -/
def Filled (s s1 : State) : Prop :=
  { s1 with l1 := s.l1 } = s ∧ ∀ x ∈ s1.l1, x ∈ s.l1 ∨ x.data = s.read x.loc 32 ∧ x.stale = []

/-- The instruction answers a next state in which nothing but the crew has changed: its lanes go on, and apart from them it is
`d`. -/
def Sets (i : Instr) (s : State) (c : Crew) (k : Group) (h : Dword) (d : Crew) : Prop :=
  ∃ c', exec i s = .next (goes s c k h c') ∧ Passed c c' k ∧ { c' with lanes := c.lanes } = { d with lanes := c.lanes }

/-- The crew with a special register written (R155): without .64 a 64-bit register keeps its high half; the reserved bits of
%fflags stay 0 (R107). -/
def setSpecial (sel : Special) (w64 : Bool) (a : Dword) (c : Crew) : Crew :=
  match sel with
  | .fflags => { c with fflags := lo32 a &&& 0x3F }
  | .tcause => { c with tcause := lo32 a }
  | .tval => { c with tval := lo32 a }
  | .tpc => { c with tpc := if w64 then a else hi32 c.tpc ++ lo32 a }
  | .tmask => { c with tmask := if w64 then a else hi32 c.tmask ++ lo32 a }
  | .tid => c | .teamid => c | .launchid => c | .laneid => c | .crewid => c | .coreid => c | .clusterid => c
  | .bed => c | .rkey => c | .cycle => c

/-- The value of a special register other than %fflags as a lane reads it (R79, R155): the trap registers read as zero outside
handler mode. -/
def specialValue (s : State) (x : Ctx) : Special → Nat
  | .tid => x.t.tid
  | .teamid => x.t.team
  | .launchid => x.crew.launch
  | .laneid => x.lane
  | .crewid => x.crew.slot
  | .coreid => x.crew.core
  | .clusterid => x.crew.cluster
  | .bed => x.crew.bed
  | .rkey => x.t.rkey.toNat
  | .cycle => s.cycleOf x.crew.cluster
  | .fflags => x.crew.fflags.toNat
  | .tcause => if x.t.handler then x.crew.tcause.toNat else 0
  | .tpc => if x.t.handler then x.crew.tpc.toNat else 0
  | .tval => if x.t.handler then x.crew.tval.toNat else 0
  | .tmask => if x.t.handler then x.crew.tmask.toNat else 0

/-- Every lane of the group has no result in flight. -/
def Idle (c : Crew) (k : Group) : Prop := ∀ l ∈ k.lanes, ∀ t, c.thread? l = some t → t.pend = []

/-- The lanes of the group stand at its address in its block, none of them fault-parked. -/
def Together (c : Crew) (k : Group) : Prop :=
  ∀ l ∈ k.lanes, ∀ t, c.thread? l = some t → t.iaddr = k.pc ∧ t.hdr = k.hdr ∧ t.hdrW = k.hdrW ∧ t.wait.isParked = false

/-- The lanes of a group are all guard-true, and `l` with thread `t` is the lowest. -/
def Leads (c : Crew) (k : Group) (g : Guard) (l : Nat) (t : Thread) : Prop :=
  actives c k g = k.lanes ∧ k.lanes.head? = some l ∧ c.thread? l = some t

/-- The lanes of a group whose guard is false. -/
def others (c : Crew) (k : Group) (g : Guard) : List Nat := k.lanes.filter fun l => !(actives c k g).contains l

/-- The crew's trap registers, masks and registers are as they were. -/
def SameRegisters (c c' : Crew) : Prop :=
  c'.tcause = c.tcause ∧ c'.tval = c.tval ∧ c'.tpc = c.tpc ∧ c'.tmask = c.tmask ∧ c'.s = c.s ∧ c'.masks = c.masks ∧
    c'.fflags = c.fflags

/-- The instruction answers a next state in which it has had no effect and the team of the group's lanes has halted, with a report of
a kind, a cause, a value and a place, and for kind 0 a message; each of the lanes stands at that place, in handler mode or not as
before; no register has changed, nor any other lane (R371, R372, R375, R384, R401). -/
def Halts (i : Instr) (s : State) (c : Crew) (k : Group) (t : Thread) (kind cause : Nat) (tval : Word) (pc : Dword) : Prop :=
  ∃ u c' tm, exec i s = .next u ∧ u.crew? k.cid = some c' ∧ SameRegisters c c' ∧
    (∀ l ∈ k.lanes, ∀ x, c.thread? l = some x → ∃ x', c'.thread? l = some x' ∧ x'.pc = pc ∧ x'.wait = .none ∧
      x'.handler = x.handler ∧ x'.v = x.v ∧ x'.p = x.p ∧ x'.ix = x.ix) ∧
    (∀ l, l ∉ k.lanes → c'.thread? l = c.thread? l) ∧
    u.team? (c.ref t) = some tm ∧ tm.halted = true ∧ tm.attached = true ∧
    (u.bed c.bed).reports = (s.bed c.bed).reports ++ [{
      launch := c.launch, team := t.team, tid := t.tid, crew := c.slot, cluster := c.cluster, core := c.core, kind := kind, cause := cause
      tval := tval, tmask := laneSet k.lanes, tpc := pc }] ∧
    (kind = 0 → ∃ m, u.messages = s.messages ++ [m] ∧ m.bed = c.bed ∧ m.addr = (s.bed c.bed).block.irq ∧
      m.data.extractLsb' 96 8 = 5 ∧ (m.data.extractLsb' 64 32).toNat = c.launch % 2 ^ 32) ∧
    (kind ≠ 0 → u.messages = s.messages)

/-- The lanes of a group are threads of one team, which stands, on a bed of the module. -/
def OneTeam (s : State) (c : Crew) (k : Group) (t : Thread) : Prop :=
  (∀ l ∈ k.lanes, ∀ x, c.thread? l = some x → x.team = t.team) ∧ (s.team? (c.ref t)).isSome = true ∧ c.bed < s.beds.length

/-! ## Floating results -/

/-- A 32-bit result and its flags. -/
def float (d : Reg) (r : FRes) : List Put := [Reg.put d 0 (BitVec.ofNat 32 r.bits), .flags r.fl]

/-- A 64-bit result and its flags. -/
def double (d : Reg) (r : FRes) : List Put := Reg.put64 d (BitVec.ofNat 64 r.bits) ++ [.flags r.fl]

/-- The signed multiple of 2^q that a number is, for any q at or below its exponent. -/
def scaled (q : Int) (x : Exact) : Int := (if x.neg then -1 else 1) * (x.m * 2 ^ (x.e - q).toNat : Nat)

/-- A source of a floating instruction (R105): its value; under FZI a subnormal one is a zero of its sign. -/
def source (f : Fmt) (fzi : Bool) (w : Nat) : Val :=
  match f.decode w with
  | .num x => .num (if fzi && decide (x.m < 2 ^ f.t) then { x with m := 0 } else x)
  | .nan sig => .nan sig
  | .inf neg => .inf neg

/-- DF, of a source that is flushed (R105). -/
def flushes (f : Fmt) (fzi : Bool) (w : Nat) : Word :=
  match f.decode w with
  | .num x => if fzi && decide (0 < x.m ∧ x.m < 2 ^ f.t) then 0x20 else 0
  | .nan _ => 0
  | .inf _ => 0

/-- NV, where some source is a signalling NaN (R97). -/
def invalid (vs : List Val) : Word := if .nan true ∈ vs then 1 else 0

/-- The canonical NaN of a format, with flags (R97). -/
def nanWith (f : Fmt) (fl : Word) : FRes := ⟨(2 ^ f.e - 1) * 2 ^ f.t + 2 ^ (f.t - 1), fl⟩

/-- An infinity of a format, with flags. -/
def infWith (f : Fmt) (neg : Bool) (fl : Word) : FRes := ⟨(if neg then 2 ^ (f.e + f.t) else 0) + (2 ^ f.e - 1) * 2 ^ f.t, fl⟩

/-- The one rounding of an exact value (Obligations.Rounding), DF beside its flags. -/
def rounded (f : Fmt) (rm : Rm) (fzo : Bool) (df : Word) (x : Exact) : FRes :=
  ⟨(f.round rm fzo x).bits, (f.round rm fzo x).fl ||| df⟩

/-- e is the exact sum of x and y; a zero sum has the sign of its operands, of different signs + but under RD (R101). -/
structure IsSum (rm : Rm) (e x y : Exact) : Prop where
  exact : e.st = false
  value : ∀ q, q ≤ x.e → q ≤ y.e → q ≤ e.e → scaled q e = scaled q x + scaled q y
  zero : e.m = 0 → e.neg = if x.neg = y.neg then x.neg else rm == .rd

/-- The exact product. -/
def product (x y : Exact) : Exact := ⟨x.neg != y.neg, x.m * y.m, x.e + y.e, false⟩

/-- The magnitude of e, whose bit `st` says whether something below its last bit was dropped, is n / d rounded down at e's last bit:
e.m × d ≤ n < (e.m + 1) × d. -/
def Floors (e : Exact) (n d : Nat) : Prop := 2 ^ 80 ≤ e.m ∧ e.m * d ≤ n ∧ n < (e.m + 1) * d ∧ (e.st = true ↔ e.m * d ≠ n)

/-- e is the quotient x / y of numbers that are not zero. -/
def Quotient (e x y : Exact) : Prop :=
  e.neg = (x.neg != y.neg) ∧ ∀ q, q ≤ x.e → q ≤ e.e + y.e →
    Floors e (x.m * 2 ^ (x.e - q).toNat) (y.m * 2 ^ (e.e + y.e - q).toNat)

/-- e is the square root of a positive x, by its square. -/
def Root (e x : Exact) : Prop :=
  e.neg = false ∧ 2 ^ 80 ≤ e.m ∧ ∀ q, q ≤ x.e → q ≤ 2 * e.e →
    let n := x.m * 2 ^ (x.e - q).toNat
    let u := 2 ^ (2 * e.e - q).toNat
    e.m ^ 2 * u ≤ n ∧ n < (e.m + 1) ^ 2 * u ∧ (e.st = true ↔ e.m ^ 2 * u ≠ n)

/-- e is the reciprocal of the square root of a positive x. -/
def InverseRoot (e x : Exact) : Prop :=
  e.neg = false ∧ 2 ^ 80 ≤ e.m ∧ ∀ q, q ≤ 0 → q ≤ 2 * e.e + x.e →
    let n := 2 ^ (-q).toNat
    let u := x.m * 2 ^ (2 * e.e + x.e - q).toNat
    e.m ^ 2 * u ≤ n ∧ n < (e.m + 1) ^ 2 * u ∧ (e.st = true ↔ e.m ^ 2 * u ≠ n)

/-- The numbers of a format: the largest is n × 2^q, the smallest normal 2^least; it has infinities, or none (R96, R98 to R100). -/
structure Extent where
  fmt : Fmt
  n : Nat
  q : Int
  least : Int
  infinities : Bool

/-- Those of each format but E8M0; UE5M3 has its numbers with the sign +. -/
def extents : List Extent :=
  [⟨f64, 2 ^ 53 - 1, 971, -1022, true⟩, ⟨f32, 2 ^ 24 - 1, 104, -126, true⟩, ⟨f16, 2047, 5, -14, true⟩,
    ⟨bf16, 255, 120, -126, true⟩, ⟨e5m2, 7, 13, -14, true⟩, ⟨e4m3, 14, 5, -6, false⟩, ⟨e2m1, 3, 1, 0, false⟩, ⟨ue5m3, 14, 13, -14, false⟩]

/-- The mode takes a magnitude up, away from zero, wherever it is inexact. -/
def away (rm : Rm) (neg : Bool) : Bool := if neg then rm == .rd else rm == .ru

/-- A magnitude a, between lo and hi two numbers one step apart, rounds to hi: `odd` says that the T field of lo is odd (R101). -/
def toUpper (rm : Rm) (neg odd : Bool) (a lo hi : Nat) : Bool :=
  match rm with
  | .rn => decide (lo + hi < 2 * a) || (decide (lo + hi = 2 * a) && odd)
  | .rz => decide (hi ≤ a)
  | .ru => if neg then decide (hi ≤ a) else decide (lo < a)
  | .rd => if neg then decide (lo < a) else decide (hi ≤ a)

/-- A magnitude a of 2^q each, rounded as if the exponent were unbounded, exceeds the largest number (R102). -/
def Extent.exceeds (x : Extent) (rm : Rm) (neg : Bool) (q : Int) (a : Nat) : Bool :=
  let ulp := 2 ^ (x.q - q).toNat
  decide (x.n * ulp < a) && toUpper rm neg (x.n % 2 == 1) a (x.n * ulp) ((x.n + 1) * ulp)

/-- A magnitude a of 2^q each, rounded as if the exponent were unbounded, is below the smallest normal number (R105): it does not
round up to it from the last number of the format's precision before it. -/
def Extent.small (x : Extent) (rm : Rm) (neg : Bool) (q : Int) (a : Nat) : Bool :=
  let lim := 2 ^ (x.least - q).toNat
  decide (0 < a ∧ a < lim) && !toUpper rm neg true a (lim - 2 ^ (x.least - 1 - x.fmt.t - q).toNat) lim

/-- What R101 says of the number r that the rounding of x under a mode is, in multiples of 2^q, against each number y of the
format: none is nearer, or nearer on the mode's side; on a tie the T field is even. -/
def Nearest (rm : Rm) (bits : Nat) (x r y : Int) : Prop :=
  match rm with
  | .rn => (r - x).natAbs ≤ (y - x).natAbs ∧ ((r - x).natAbs = (y - x).natAbs → r ≠ y → bits % 2 = 0)
  | .rz => r.natAbs ≤ x.natAbs ∧ (y.natAbs ≤ x.natAbs → y.natAbs ≤ r.natAbs)
  | .ru => x ≤ r ∧ (x ≤ y → r ≤ y)
  | .rd => r ≤ x ∧ (y ≤ x → y ≤ r)

/-! ## Comparison and exponents (R106, R112, R163 to R166) -/

/-- The pattern of a source or of a result, a subnormal one the pattern of a zero of its sign. -/
def flushedTo (f : Fmt) (fz : Bool) (w : Nat) : Nat :=
  match f.decode w with
  | .num x => if fz && decide (0 < x.m ∧ x.m < 2 ^ f.t) then (if x.neg then 2 ^ (f.e + f.t) else 0) else w
  | .nan _ => w
  | .inf _ => w

/-- A relation of two values, neither a NaN: of the numbers they are, an infinity beyond each (R164). -/
def compared (r : Rel) : Val → Val → Bool
  | .num x, .num y => holds r (scaled (min x.e y.e) x) (scaled (min x.e y.e) y)
  | .inf p, .inf q => holds r (if p then -1 else 1) (if q then -1 else 1)
  | .inf p, .num _ => holds r (if p then -1 else 1) 0
  | .num _, .inf q => holds r 0 (if q then -1 else 1)
  | .nan _, _ => false
  | _, .nan _ => false

/-- The sign of a value. -/
def negative : Val → Bool
  | .num x => x.neg
  | .inf p => p
  | .nan _ => false

/-- a is ordered below b, -0 below +0 (R106). -/
def lowerThan (a b : Val) : Bool := compared .lt a b || (compared .eq a b && negative a && !negative b)

/-- FMIN and FMAX (R106, R163): the number, of two numbers the lower or the higher, as it is. -/
def minOrMax (isMax fzi fzo : Bool) (a b : Nat) : FRes :=
  let p := flushedTo f32 fzi a
  let q := flushedTo f32 fzi b
  let pick := match f32.decode p, f32.decode q with
    | .nan _, .nan _ => 0x7FC00000
    | .nan _, _ => q
    | _, .nan _ => p
    | x, y => if (if isMax then lowerThan x y else lowerThan y x) then q else p
  let fl := invalid [f32.decode a, f32.decode b] ||| flushes f32 fzi a ||| flushes f32 fzi b
  ⟨flushedTo f32 fzo pick, if flushedTo f32 fzo pick = pick then fl else fl ||| 0x18⟩

/-- FSET and DSET (R164): the predicate and the flags. -/
def related (f : Fmt) (r : FRel) (fzi : Bool) (a b : Nat) : Bool × Word :=
  let x := source f fzi a
  let y := source f fzi b
  let anyNan := match x, y with
    | .nan _, _ => true
    | _, .nan _ => true
    | _, _ => false
  (match r with
    | .rel r unordered => if anyNan then unordered else compared r x y
    | .num => !anyNan
    | .nan => anyNan, invalid [x, y] ||| flushes f fzi a ||| flushes f fzi b)

/-- The class of a pattern of n bits with t fraction bits: the bit of FCLASS's result (R165). -/
def classOf (n t : Nat) (w : Nat) : Nat :=
  let neg := w / 2 ^ (n - 1) % 2 = 1
  let e := w / 2 ^ t % 2 ^ (n - 1 - t)
  let m := w % 2 ^ t
  if e = 2 ^ (n - 1 - t) - 1 then (if m = 0 then (if neg then 0 else 7) else if m < 2 ^ (t - 1) then 8 else 9)
  else if e = 0 then (if m = 0 then (if neg then 3 else 4) else if neg then 2 else 5)
  else if neg then 1 else 6

/-- FSCL: x × 2^n, rounded once to nearest (R112). -/
def scl (fzi fzo : Bool) (a : Nat) (n : Int) : FRes :=
  let df := flushes f32 fzi a
  match source f32 fzi a with
  | .nan sig => nanWith f32 (invalid [.nan sig] ||| df)
  | .inf p => infWith f32 p df
  | .num x => rounded f32 .rn fzo df { x with e := x.e + n }

/-- FFRX.MANT and FFRX.EXP: m and e of x = m × 2^e with 1 ≤ |m| < 2 (R166). -/
def mantissa (fzi : Bool) (a : Nat) : FRes :=
  let df := flushes f32 fzi a
  match source f32 fzi a with
  | .nan sig => nanWith f32 (invalid [.nan sig] ||| df)
  | .inf p => infWith f32 p df
  | .num x => ⟨(if x.neg then 2 ^ 31 else 0) + if x.m = 0 then 0 else 126 * 2 ^ 23 + x.m * 2 ^ (23 - Nat.log2 x.m), df⟩

def exponent (fzi : Bool) (a : Nat) : FRes :=
  let df := flushes f32 fzi a
  match source f32 fzi a with
  | .nan _ => ⟨0x80000000, 1 ||| df⟩
  | .inf _ => ⟨0x7FFFFFFF, 1 ||| df⟩
  | .num x => ⟨if x.m = 0 then 0 else (BitVec.ofInt 32 (x.e + Nat.log2 x.m)).toNat, df⟩

/-- x as a fraction of integers, the denominator positive. -/
def ratio (x : Exact) : Int × Nat := (scaled (min x.e 0) x, 2 ^ (-min x.e 0).toNat)

/-- FCEILX: the least integer not below x, within INT32 (R112). -/
def ceiling (fzi : Bool) (a : Nat) : FRes :=
  let df := flushes f32 fzi a
  match source f32 fzi a with
  | .nan _ => ⟨0x80000000, 1 ||| df⟩
  | .inf p => ⟨if p then 0x80000000 else 0x7FFFFFFF, 1 ||| df⟩
  | .num x =>
    let v := -(-(ratio x).1 / (ratio x).2)
    if 0x7FFFFFFF < v then ⟨0x7FFFFFFF, 1 ||| df⟩
    else if v < -0x80000000 then ⟨0x80000000, 1 ||| df⟩
    else ⟨(BitVec.ofInt 32 v).toNat, df⟩

/-! ## Special functions (R167 to R169) -/

/-- A row of the table of R169: what a function gives for -infinity, -0, +0 and +infinity. -/
structure Row where
  fn : Val → Raw
  minusInf : FRes
  minusZero : FRes
  plusZero : FRes
  plusInf : FRes

/-- The table of R169: NV is 1, DZ 2. -/
def specialRows : List Row :=
  [⟨frcpRaw, ⟨0x80000000, 0⟩, ⟨0xFF800000, 2⟩, ⟨0x7F800000, 2⟩, ⟨0, 0⟩⟩,
   ⟨frsqRaw, ⟨0x7FC00000, 1⟩, ⟨0xFF800000, 2⟩, ⟨0x7F800000, 2⟩, ⟨0, 0⟩⟩,
   ⟨fsqrtRaw, ⟨0x7FC00000, 1⟩, ⟨0x80000000, 0⟩, ⟨0, 0⟩, ⟨0x7F800000, 0⟩⟩,
   ⟨fex2Raw, ⟨0, 0⟩, ⟨0x3F800000, 0⟩, ⟨0x3F800000, 0⟩, ⟨0x7F800000, 0⟩⟩,
   ⟨flg2Raw, ⟨0x7FC00000, 1⟩, ⟨0xFF800000, 2⟩, ⟨0xFF800000, 2⟩, ⟨0x7F800000, 0⟩⟩,
   ⟨fsinRaw, ⟨0x7FC00000, 1⟩, ⟨0x80000000, 0⟩, ⟨0, 0⟩, ⟨0x7FC00000, 1⟩⟩,
   ⟨fcosRaw, ⟨0x7FC00000, 1⟩, ⟨0x3F800000, 0⟩, ⟨0x3F800000, 0⟩, ⟨0x7FC00000, 1⟩⟩,
   ⟨ftanhRaw, ⟨0xBF800000, 0⟩, ⟨0x80000000, 0⟩, ⟨0, 0⟩, ⟨0x3F800000, 0⟩⟩]

/-- What a function gives of every source that is no number, of a zero, and what it raises. -/
def Row.special (t : Row) (v : Val) : Option FRes :=
  match v with
  | .nan sig => some (nanWith f32 (invalid [.nan sig]))
  | .inf p => some (if p then t.minusInf else t.plusInf)
  | .num x => if x.m = 0 then some (if x.neg then t.minusZero else t.plusZero) else none

/-- A result is a number between two integers, inexact. -/
def Between (r : FRes) (lo hi : Int) : Prop :=
  r.fl &&& 0x10 ≠ 0 ∧ ∃ y, f32.decode r.bits = .num y ∧
    ∀ q, q ≤ y.e → q ≤ 0 → lo * 2 ^ (-q).toNat ≤ scaled q y ∧ scaled q y ≤ hi * 2 ^ (-q).toNat

/-- A result is a number of a sign, inexact. -/
def OfSign (r : FRes) (neg : Bool) : Prop := r.fl &&& 0x10 ≠ 0 ∧ ∃ y, f32.decode r.bits = .num y ∧ y.neg = neg

/-! ## Conversion (R98, R104, R174, R177 to R179) -/

/-- x rounded to an integer (R101). -/
def roundInt (rm : Rm) (x : Exact) : Int :=
  let n := (ratio x).1
  let d : Int := (ratio x).2
  match rm with
  | .rn => if 2 * (n % d) < d ∨ (2 * (n % d) = d ∧ n / d % 2 = 0) then n / d else n / d + 1
  | .rz => if n < 0 then -(-n / d) else n / d
  | .ru => -(-n / d)
  | .rd => n / d

/-- The value of a signed or unsigned pattern of n bits. -/
def integer (sgn : Bool) (n w : Nat) : Int := if sgn && decide (2 ^ (n - 1) ≤ w % 2 ^ n) then (w % 2 ^ n : Nat) - 2 ^ n else (w % 2 ^ n : Nat)

/-- The bounds of the integers of a width. -/
def least (sgn : Bool) (n : Nat) : Int := if sgn then -2 ^ (n - 1) else 0
def greatest (sgn : Bool) (n : Nat) : Int := if sgn then 2 ^ (n - 1) - 1 else 2 ^ n - 1

/-- The pattern of an integer modulo 2^n. -/
def wrapped (n : Nat) (v : Int) : Nat := (v % 2 ^ n).toNat

/-- The value of a source of CVT, and DF (R98, R105, R174). -/
def cvtSource (src : CvtFmt) (fzi : Bool) (w : Nat) : Val × Word :=
  match cvtFloat src, cvtInt src with
  | some f, _ => (source f fzi w, flushes f fzi w)
  | none, some (sgn, n) => (.num ⟨decide (integer sgn n w < 0), (integer sgn n w).natAbs, 0, false⟩, 0)
  | none, none => (if w % 256 = 255 then .nan false else .num ⟨false, 1, (w % 256 : Nat) - 127, false⟩, 0)

/-- To a floating format (R104): the canonical NaN, or +0 in one without NaN; an infinity, or the largest number in one without;
else the one rounding, by a mode or by a stochastic word. -/
def toFloating (f : Fmt) (rm : Rm) (q : Option Nat) (fzo : Bool) : Val → FRes
  | .nan sig => match f.top with
    | .ieee => nanWith f (invalid [.nan sig])
    | .oneNan => ⟨0x7F, invalid [.nan sig]⟩
    | .none => ⟨0, 1⟩
  | .inf p => match f.top with
    | .ieee => infWith f p 0
    | .oneNan => ⟨if p then 0xFE else 0x7E, 1⟩
    | .none => ⟨if p then 0xF else 7, 1⟩
  | .num x => match q with
    | some q => f.roundSr q fzo x
    | none => f.round rm fzo x

/-- To an integer (R104): within its bounds, with NV where a bound took the place of the value. -/
def toInteger (rm : Rm) (sgn : Bool) (n : Nat) : Val → FRes
  | .nan _ => ⟨0, 1⟩
  | .inf p => ⟨wrapped n (if p then least sgn n else greatest sgn n), 1⟩
  | .num x =>
    let v := roundInt rm x
    if v < least sgn n then ⟨wrapped n (least sgn n), 1⟩
    else if greatest sgn n < v then ⟨wrapped n (greatest sgn n), 1⟩
    else ⟨wrapped n v, if v * (ratio x).2 = (ratio x).1 then 0 else 0x10⟩

/-- To E8M0 (R104): x = m × 2^k with 1 ≤ m < 2 to 2^k or 2^(k + 1). -/
def toScale (rm : Rm) : Val → FRes
  | .nan _ => ⟨0xFF, 1⟩
  | .inf _ => ⟨0xFF, 1⟩
  | .num x =>
    if x.m = 0 ∨ x.neg = true then ⟨0xFF, 1⟩
    else
      let one := 2 ^ Nat.log2 x.m
      let k : Int := x.e + Nat.log2 x.m + 127
      let up : Bool := match rm with
        | .rn => decide (3 * one < 2 * x.m ∨ (3 * one = 2 * x.m ∧ k % 2 = 1))
        | .rz => false
        | .ru => decide (one < x.m)
        | .rd => false
      let code := if up then k + 1 else k
      if code < 0 then ⟨0, 0x18⟩
      else if 254 < code then ⟨254, 0x14⟩
      else ⟨code.toNat, if x.m = one then 0 else 0x10⟩

/-- The conversion step of CVT (R104, R174). -/
def converted (dst src : CvtFmt) (rm : Rm) (q : Option Nat) (f62 fzo : Bool) (w : Nat) : FRes :=
  match cvtInt src, cvtInt dst with
  | some (sa, na), some (sb, nb) =>
    let v := integer sa na w
    ⟨wrapped nb (if f62 then max (least sb nb) (min (greatest sb nb) v) else v), 0⟩
  | _, _ =>
    let v := (cvtSource src f62 w).1
    let r := match cvtFloat dst, cvtInt dst with
      | some f, _ => toFloating f rm q fzo v
      | none, some (sgn, n) => toInteger rm sgn n v
      | none, none => toScale rm v
    ⟨r.bits, r.fl ||| (cvtSource src f62 w).2⟩

/-- amax is the largest magnitude of the numbers of a block, or 0 (R177). -/
def Largest (vs : List Val) (amax : Exact) : Prop :=
  amax.neg = false ∧ amax.st = false ∧
    (∀ x q, .num x ∈ vs → q ≤ x.e → q ≤ amax.e → (scaled q x).natAbs ≤ (scaled q amax).natAbs) ∧
    (amax.m = 0 ∨ ∃ x, .num x ∈ vs ∧ amax = { x with neg := false })

/-- The largest number of a block's elements (R177). -/
def largestElement : BlockFmt → Nat
  | .sb8e4 => 448
  | .sb8e5 => 57344
  | .sb4 => 6
  | .nb4 => 6

/-- A number is at most n × 2^k. -/
def Within (x : Exact) (n : Nat) (k : Int) : Prop := ∀ q, q ≤ x.e → q ≤ k → scaled q x ≤ n * 2 ^ (k - q).toNat

/-- Some contributing lane holds no number (R177). -/
def bad (vs : List Val) : Prop := (∃ sig, .nan sig ∈ vs) ∨ ∃ p, .inf p ∈ vs

/-- FP32 of the exact product of an element, its block's scale and perhaps the tensor's (R100, R179): the canonical NaN where one of
them is a NaN, or one is zero and another infinite. -/
def multiplied (vs : List Val) : FRes :=
  let neg := vs.foldl (fun p v => p != negative v) false
  let nan := vs.any fun v => match v with
    | .nan _ => true
    | .inf _ => false
    | .num _ => false
  let inf := vs.any fun v => match v with
    | .nan _ => false
    | .inf _ => true
    | .num _ => false
  let numbers := vs.filterMap fun v => match v with
    | .nan _ => none
    | .inf _ => none
    | .num x => some x
  if nan then nanWith f32 (invalid vs)
  else if inf then (if numbers.any (·.m == 0) then nanWith f32 1 else infWith f32 neg 0)
  else f32.round .rn false (numbers.foldl product ⟨false, 1, 0, false⟩)

/-- Half i of a word. -/
def half (w : Word) (i : Nat) : Nat := (w.extractLsb' (16 * i) 16).toNat

/-- The result of both halves. -/
def bothOf (f : Nat → FRes) : FRes := ⟨(f 1).bits * 65536 + (f 0).bits, (f 0).fl ||| (f 1).fl⟩

/-! ## Cross-lane trees and merges (R111, R113, R180, R182, R282) -/

/-- The identity of an operation of REDL and SCANL (R180). -/
def identity : RedOp → Word
  | .fadd => 0x80000000
  | .fmin => 0x7F800000
  | .fmax => 0xFF800000
  | .iadd => 0
  | .imins => 0x7FFFFFFF
  | .imaxs => 0x80000000
  | .iminu => 0xFFFFFFFF
  | .imaxu => 0
  | .and => 0xFFFFFFFF
  | .or => 0
  | .xor => 0

/-- A combination, the lower-lane partial first: its word and its flags (R111, R180). -/
def combine (op : RedOp) (a b : Word) : Word × Word :=
  let of (r : FRes) : Word × Word := (BitVec.ofNat 32 r.bits, r.fl)
  match op with
  | .fadd => of (f32.add .rn false false a.toNat b.toNat)
  | .fmin => of (minOrMax false false false a.toNat b.toNat)
  | .fmax => of (minOrMax true false false a.toNat b.toNat)
  | .iadd => (BitVec.ofNat 32 (a.toNat + b.toNat), 0)
  | .imins => (if a.toInt ≤ b.toInt then a else b, 0)
  | .imaxs => (if a.toInt ≤ b.toInt then b else a, 0)
  | .iminu => (if a.toNat ≤ b.toNat then a else b, 0)
  | .imaxu => (if a.toNat ≤ b.toNat then b else a, 0)
  | .and => (a &&& b, 0)
  | .or => (a ||| b, 0)
  | .xor => (a ^^^ b, 0)

/-- The reduction of 2^k words: the combination of those of its halves (R111, up-sweep). -/
def reduced (op : RedOp) : Nat → List Word → Word × Word
  | 0, x => (x.headD 0, 0)
  | k + 1, x =>
    let l := reduced op k (x.take (2 ^ k))
    let r := reduced op k (x.drop (2 ^ k))
    let c := combine op l.1 r.1
    (c.1, l.2 ||| r.2 ||| c.2)

/-- The exclusive prefixes of 2^k words behind `e`: the right half's are behind e and the left half's reduction (R111, down-sweep). -/
def prefixes (op : RedOp) : Nat → Word → List Word → List Word × Word
  | 0, e, _ => ([e], 0)
  | k + 1, e, x =>
    let c := combine op e (reduced op k (x.take (2 ^ k))).1
    let l := prefixes op k e (x.take (2 ^ k))
    let r := prefixes op k c.1 (x.drop (2 ^ k))
    (l.1 ++ r.1, c.2 ||| l.2 ||| r.2)

/-- What lane l of a group of 2^k lanes receives, and the flags of all combinations of the group (R182). -/
def treeWord (op : RedOp) (scan incl : Bool) (k : Nat) (x : List Word) (l : Nat) : Word :=
  if !scan then (reduced op k x).1
  else
    let e := (((prefixes op k (identity op) x).1)[l]?).getD 0
    if incl then (combine op e ((x[l]?).getD 0)).1 else e

def treeFlags (op : RedOp) (scan incl : Bool) (k : Nat) (x : List Word) : Word :=
  let e := prefixes op k (identity op) x
  (reduced op k x).2 ||| (if scan then e.2 else 0) |||
    if scan && incl then ((e.1.zip x).map fun p => (combine op p.1 p.2).2).foldl (· ||| ·) 0 else 0

/-- A word of a partial shifted by n, at most 0: a shift below -2^31 gives a zero of its sign (R113). -/
def shifted (w : Word) (n : Int) : Nat := if n < -2 ^ 31 then w.toNat / 2 ^ 31 * 2 ^ 31 else (scl false false w.toNat n).bits

/-- The merge of two rows (M, l, o) (R113). -/
def mergeTwo (p q : List Word) : List Word :=
  let pm := (p.headD 0).toInt
  let qm := (q.headD 0).toInt
  let m := max pm qm
  BitVec.ofInt 32 m :: ((p.drop 1).zip (q.drop 1)).map fun x =>
    BitVec.ofNat 32 (f32.add .rn false false (shifted x.1 (pm - m)) (shifted x.2 (qm - m))).bits

/-- The bytes of an output row: the row itself; under NORM each o / l, or +0 where l is zero, in FP32 or rounded to BF16 (R282). -/
def mergedRow (norm bf : Bool) (r : List Word) : List Byte :=
  let l := (r[1]?).getD 0
  let quotient (o : Word) : Nat := if l.toNat % 2 ^ 31 = 0 then 0 else (f32.div .rn false false o.toNat l.toNat).bits
  if !norm then r.flatMap fun w => natBytes 4 w.toNat
  else (r.drop 2).flatMap fun o =>
    if bf then natBytes 2 (toFloating bf16 .rn none false (f32.decode (quotient o))).bits else natBytes 4 (quotient o)

/-! ## Transfers of control -/

/-- Every guard-true lane of the group, and there is one, goes to `a`, whose header is `h`; its writes are `ps`. The others go on at
the next word (R122): `exec` answers that state. -/
def Jumps (i : Instr) (s : State) (c : Crew) (k : Group) (g : Guard) (a h : Dword) (ps : List Put) : Prop :=
  ∃ c', exec i s = .next (landed s c k a (entered s.fresh (actives c k g) a h false (stood (others c k g) (after k) c'))) ∧
    Did c c' k (fun l => if l ∈ actives c k g then ps else []) (fun _ => [])

/-- The guard-true lanes may take a transfer to `a`, whose header is `h`; a lane that does not has a word to go on to. -/
structure MayJump (s : State) (c : Crew) (k : Group) (g : Guard) (a h : Dword) : Prop where
  some_ : actives c k g ≠ []
  inside : after k ≠ blockEnd k.hdr k.hdrW ∨ others c k g = []
  entry : s.enterCheck c (vregs s c) [] a (.branch k.pc) = .ok h

/-! ## Loads and stores -/

/-- The words a load of a size writes: register i holds bytes 4i to 4i + 3, little-endian; a byte or a half zero- or sign-extended
(R3, R238). -/
def loaded (z : Size) (bs : List Byte) : List Word :=
  let b (i : Nat) : Byte := (bs[i]?).getD 0
  let words := (List.range (Wf.sizeBytes z / 4)).map fun i => b (4 * i + 3) ++ b (4 * i + 2) ++ b (4 * i + 1) ++ b (4 * i)
  match z with
  | .b8 => [(b 0).zeroExtend 32]
  | .s8 => [(b 0).signExtend 32]
  | .b16 => [(b 1 ++ b 0).zeroExtend 32]
  | .s16 => [(b 1 ++ b 0).signExtend 32]
  | .b32 => words
  | .b64 => words
  | .b128 => words
  | .b256 => words
  | .b512 => words

/-- The bytes a store of a size takes from its registers (R238). -/
def stored (z : Size) (ws : List Word) : List Byte :=
  (List.range (Wf.sizeBytes z)).map fun i => ((ws[i / 4]?).getD 0).extractLsb' (8 * (i % 4)) 8

/-- What a load gives of pieces, in order: of each what memory holds, or what a sector does that the core's L1 holds and from which it
may serve the thread (R195, R196). -/
def Served (s : State) (x : Ctx) (strong : Bool) : List L1Piece → List Byte → List Byte → Prop
  | [], _, bs => bs = []
  | p :: t, mem, bs => ∃ b r, bs = b ++ r ∧ Served s x strong t (mem.drop p.len) r ∧
      (b = mem.take p.len ∨ ∃ y, s.l1Find x.crew x.agent strong p.ref = some y ∧ b = (y.data.drop p.off).take p.len)

/-- Two states differ at most in the L1s and, where `strong` is set, in what the machine keeps of the order of accesses. -/
def Alike (strong : Bool) (s s1 : State) : Prop :=
  { s1 with l1 := s.l1, clocks := s.clocks, heard := s.heard } = s ∧ (strong = false → s1.clocks = s.clocks ∧ s1.heard = s.heard)

/-- A load with lookahead `n` answers a next state: no register and no byte of memory changes yet, the results of `f` are in flight. -/
def LoadsLate (strong : Bool) (i : Instr) (s : State) (c : Crew) (k : Group) (h : Dword) (uniform : Bool) (g : Guard) (n : Nat)
    (f : Ctx → List Put) : Prop :=
  ∃ s1 c', exec i s = .next (goes s1 c k h c') ∧ Alike strong s s1 ∧ Did c c' k (fun _ => []) (inFlight n uniform s c k g f)

/-- The state once the tile lines that a store addressed have followed it: as they were, with its bytes in the sectors it addressed, or,
under .NOL1, gone from the core's L1 (R195, R243). -/
def followed (old s : State) (c : Crew) (hint : Hint) (ps : List Part) (pieces : List L1Piece) (bs : List Byte) : State :=
  if hint = .nol1 then s.l1Forget c pieces else s.l1Update old c ps pieces bs

/-- The same as `Does` of a long-latency instruction: its results are in flight. -/
def DoesLate (i : Instr) (s s1 : State) (c : Crew) (k : Group) (h : Dword) (l n : Nat) (ps : List Put) : Prop :=
  ∃ c', exec i s = .next (goes s1 c k h c') ∧ Did c c' k (fun _ => []) (only l [pendOf s.fresh n k.hdr ps])

/-- The bytes of a store change memory nowhere else: every byte outside its parts reads as before. -/
def Stored (s t : State) (ps : List Part) : Prop :=
  ∀ a : Loc, (∀ p ∈ ps, ∀ i, i < p.len → a ≠ p.loc.add i) → t.read a 1 = s.read a 1

/-- The lanes of a group wait for pages: nothing is executed, nothing else changes (R203). -/
def Parked (i : Instr) (s : State) (c : Crew) (k : Group) (rs : Nat → List PageReq) : Prop :=
  ∃ c', exec i s = .next (swap s k c') ∧ { c' with lanes := c.lanes } = c ∧ c'.lanes.length = c.lanes.length ∧
    (∀ l, l ∉ k.lanes → c'.thread? l = c.thread? l) ∧
    ∀ l ∈ k.lanes, ∀ t, c.thread? l = some t → c'.thread? l = some { t with pc := k.pc, wait := .parked (rs l) }

/-- One lane waits: nothing is executed, nothing else changes (R31). -/
def Stalls (i : Instr) (s : State) (c : Crew) (k : Group) (l : Nat) (w : Wait) : Prop :=
  exec i s = .next (swap s k (c.setThread l fun t => { t with pc := k.pc, wait := w }))

/-! ## Atomics and barriers -/

/-- The value an atomic writes, from the old value and its operand (R249): two's complement for .S, the sum rounded to nearest
for .F; of .CAS the operand is the compared value and, above it, the new one. -/
def combined (op : AOp) (w : AWidth) (old operand : Nat) : Nat :=
  let n := aBits w
  let b := if op == .cas then operand / 2 ^ n else operand
  let signedLe : Bool := decide ((BitVec.ofNat n old).toInt ≤ (BitVec.ofNat n b).toInt)
  match op with
  | .add => (old + b) % 2 ^ n
  | .minu => if old ≤ b then old else b
  | .mins => if signedLe then old else b
  | .maxu => if old ≤ b then b else old
  | .maxs => if signedLe then b else old
  | .and => old &&& b
  | .or => old ||| b
  | .xor => old ^^^ b
  | .inc => if old < b then old + 1 else 0
  | .dec => if 0 < old ∧ old ≤ b then old - 1 else b
  | .exch => b
  | .cas => if old = operand % 2 ^ n then b else old
  | .fadd => ((if n = 64 then f64 else f32).add .rn false false old b).bits
  | .fmin => (f32.minmax false false old b).bits
  | .fmax => (f32.minmax true false old b).bits

/-- A write that returns nothing: `now`, or held with the migrating page of its part (R209). -/
def heldOr (s : State) (p : Part) (w : Write) (now : State) : State :=
  match p.mig with
  | none => now
  | some q => s.hold q.1 q.2 w

/-- A state differs from one in which `bs` were written at a location only in what the machine keeps of the order of accesses, in
its L1s, and in which stores to plot memory await a fence. -/
def Wrote (s s1 : State) (l : Loc) (bs : List Byte) : Prop :=
  { s1 with clocks := s.clocks, strong := s.strong, heard := s.heard, l1 := s.l1, plotMarks := s.plotMarks } = s.write l bs

/-- The old value as the registers of the width take it. -/
def oldWords (w : AWidth) (old : Nat) : List Word := (List.range (Wf.widthRegs w)).map fun i => BitVec.ofNat 32 (old / 2 ^ (32 * i))

/-- The commit answers a next state in which the crew, too, has changed to `c1` beside its lanes' own writes. -/
def CommitsAs (i : Instr) (s s1 : State) (c1 : Crew) (k : Group) (h : Dword) (l : Nat) (ps : List Put) : Prop :=
  ∃ c', exec i s = .next (landed s1 c1 k (blockEnd k.hdr k.hdrW) (entered s1.fresh k.lanes (blockEnd k.hdr k.hdrW) h false c')) ∧
    Did c1 c' k (only l ps) (fun _ => [])

/-- The same of an instruction after which the machine settles by `f`. -/
def CommitsThen (f : State → State) (i : Instr) (s s1 : State) (c : Crew) (k : Group) (h : Dword) (l : Nat) (ps : List Put) : Prop :=
  ∃ c', exec i s = .next (f (landed s1 c k (blockEnd k.hdr k.hdrW)
      (entered s1.fresh k.lanes (blockEnd k.hdr k.hdrW) h false c'))) ∧
    Did c c' k (only l ps) (fun _ => [])

/-- A barrier after one arrival of a team with `live` threads (R254): the first arrival sets the count; the last, of all live
threads when it is zero, completes the phase. -/
def arrived (b : Barrier) (count live : Nat) : Barrier :=
  let n := if b.a = 0 then count else b.c
  if (if n = 0 then live else n) ≤ b.a + 1 then ⟨0, 0, b.phase + 1⟩ else ⟨b.a + 1, n, b.phase⟩

/-- The 16 bytes of a barrier object (R257). -/
def object (gen arr xfer exp : Word) : List Byte := natBytes 4 gen.toNat ++ natBytes 4 arr.toNat ++ natBytes 4 xfer.toNat ++
  natBytes 4 exp.toNat

/-- An element of a priority queue ranks before another: the lower key, the earlier among equals (R262). -/
def ranksBefore (x y : Word × Word × Nat) : Bool := decide (x.1.toNat < y.1.toNat ∨ x.1.toNat = y.1.toNat ∧ x.2.2 < y.2.2)

/-! ## Debugging -/

/-- One lane asks for a team that exists and that no debugger steps, with the privilege to do so (R130, R212). -/
structure Asks (s : State) (c : Crew) (k : Group) (f : DbgF) (l : Nat) (t : Thread) (r : TeamRef) : Prop where
  solo : Solo c k f.g l t
  privilege : ∃ la, s.launch? c.bed c.launch = some la ∧ la.dbg = true
  fresh : t.wait ≠ .step r true
  halting : t.wait ≠ .halt r
  target : (view s c k l t).target f.a = r
  found : s.exists_ r = true
  steady : ∀ tm, s.team? r = some tm → tm.stepping = []

/-- The same of an instruction that has changed its own crew to `c1`, its lanes' writes apart. -/
def DoesAs (i : Instr) (s s1 : State) (c1 : Crew) (k : Group) (h : Dword) (l : Nat) (ps : List Put) : Prop :=
  ∃ c', exec i s = .next (goes s1 c1 k h c') ∧ Did c1 c' k (only l ps) (fun _ => [])

/-- The same of an instruction after which the machine settles by `f`. -/
def DoesThen (f : State → State) (i : Instr) (s s1 : State) (c : Crew) (k : Group) (h : Dword) (l : Nat) (ps : List Put) : Prop :=
  ∃ c', exec i s = .next (f (goes s1 c k h c')) ∧ Did c c' k (only l ps) (fun _ => [])

/-- What pair D receives: a value and a status. -/
def answer (d : Reg) (value : Word) (status : Nat) : List Put := Reg.put64 d (BitVec.ofNat 32 status ++ value)

/-! ## Engine commands -/

/-- A command of a type stands and may be taken up: its common fields are in range, it has not ended and waits for nothing, and a
barrier object it names is there (R296 to R298). -/
structure Waiting (s : State) (id type : Nat) (c : Cmd) : Prop where
  found : s.cmd? id = some c
  type : c.type = type
  head : c.headOk = true
  open_ : c.status = none
  ready : c.waits = []
  object : c.bobj = true → ∃ loc, s.cmdObject c = .ok loc

/-- The step answers a next state in which the command has ended OK with a count and, `s1` apart, nothing else has changed; `m`: the
bytes of its transfer update (R298, R301). -/
def Ends (i : Instr) (s s1 : State) (c : Cmd) (count m : Nat) : Prop :=
  exec i s = .next { s1 with
    cmds := mapIf (fun x => x.id == c.id)
      (fun x => { x with status := some 0, count := count, update := if x.bobj then some m else none, answered := [] }) s1.cmds }

/-- The bytes of parts, cut where the parts end. -/
def pieces : List Part → List Byte → List (List Part × List Byte)
  | [], _ => []
  | p :: t, bs => ([p], (List.range p.len).map fun i => (bs[i]?).getD 0) :: pieces t (bs.drop p.len)

/-- Several writes of a command, in order. -/
def putAll (s : State) (c : Cmd) (ws : List (List Part × List Byte)) : State := ws.foldl (fun s w => s.puts c w) s

/-- What a matrix command writes at row r and column j of its slot, from its A rows and its B columns (R109, R276); none where no
column stands. -/
def matrixElement (s : State) (x : Cmd) (side : BSide) (w : List (List Val)) (a : Cmd → Nat → List Val) (r j : Nat) :
    Option Word :=
  match side.cols[(partOrigin (Mma.span x) (Mma.part x)).2 + j]? with
  | some (some col) => some (macElem (if Mma.latent x then 16 else matClass (Mma.afmt x)) (Mma.flush x)
      ((s.cmdSlot x).get (192 * r + j)) (latentA x w side.drop (a x r)) col)
  | some none => some 0xFF800000
  | none => none

/-- Two commands act on different accumulator slots. -/
def Apart (s : State) (x y : Cmd) : Prop :=
  x.id ≠ y.id ∧ (x.ref ≠ y.ref ∨ s.coreIndex x.ref x.core ≠ s.coreIndex y.ref y.core ∨ x.slotName ≠ y.slotName)

/-- SCAT with ADD: the words of a packed row added to the parts of its table row, held where a part's page migrates (R209, R290). -/
def addRow (s : State) (c : Cmd) (int : Bool) : List Part → List Byte → State
  | [], _ => s
  | p :: t, bs =>
    let ws := bytesWords (bs.take p.len)
    addRow (match p.mig with
      | none => s.puts c ([p], ((bytesWords (s.read p.loc p.len)).zip ws).flatMap fun x => natBytes 4
          (if int then (x.1 + x.2).toNat else (f32.add .rn false false x.1.toNat x.2.toNat).bits))
      | some q => ((List.range ws.length).zip ws).foldl (fun s w =>
          s.hold q.1 (q.2 + 4 * w.1)
            { op := .atomic (if int then .add else .fadd) .b32 w.2.toNat, who := c.agent, strong := none }) s) c int t (bs.drop p.len)

/-- The status word of a command (R301). -/
def statusOf (c : Cmd) (status : Nat) : Word := BitVec.ofNat 32 (status + 256 * c.type + 65536 * min c.count 65535)

/-- The token has reached a crew: its register holds the status word, it is pending no more, its error mark is as R304 states; no
other register has changed. -/
structure Told (w w' : Crew) (c : Cmd) (status : Nat) : Prop where
  word : w'.s.get c.tok = statusOf c status
  others : ∀ r, r ≠ c.tok → w'.s.get r = w.s.get r
  tokens : ∀ r, r ∈ w'.tokens ↔ r ∈ w.tokens ∧ r ≠ c.tok
  errs : ∀ r, r ∈ w'.errs ↔ (r ∈ w.errs ∧ r ≠ c.tok) ∨ (r = c.tok ∧ c.etrap = true ∧ status ≠ 0)
  lanes : w'.lanes = w.lanes
  rest : { w' with s := w.s, ck := w.ck, tokens := w.tokens, errs := w.errs, tokRegs := w.tokRegs } = w

/-! ## Memories -/

/-- Module memory, host memory and the memories of peers are canonical lists. -/
def Canonical (s : State) : Prop := s.mem.wf = true ∧ s.host.wf = true ∧ ∀ p ∈ s.peers, p.2.wf = true

/-! ## Requests and commands from outside -/

/-- A request of an operation is next at its source, and the MMP may act on it (R206, R207). -/
structure Posted (s : State) (src : ReqSource) (op h : Nat) : Prop where
  found : s.request? src = some h
  op : Req.op h = op
  on : (s.bed (srcBed src)).on = true
  serving : s.mmpSwitching = false
  alone : ∀ m ∈ s.migrations, m.bed = srcBed src → m.reply = none
  good : reqBad src h = false

/-- One more on counter i (R385, R407). -/
def counted (s : State) (i : Nat) : State := { s with errcnt := modifyAt s.errcnt i fun n => (n + 1) % 2 ^ 64 }

/-- The interrupt messages of one kind to every bed that is on (R401). -/
def told (s : State) (kind id : Nat) : List Message :=
  ((List.range s.beds.length).filter fun b => (s.bed b).on).map fun b =>
    { bed := b, addr := (s.bed b).block.irq, data := BitVec.ofNat 128 (2 ^ 64 * (id % 2 ^ 32) + 2 ^ 96 * kind + 2 ^ 104 * b) }

/-- A command of Trellis stands, and Trellis serves it: the module has booted and Trellis is not being updated (R397, R410). -/
structure Ordered (s : State) (op : Nat) : Prop where
  posted : s.cmdPosted = true
  op : s.cmdOp = op
  booted : 2 ≤ s.modState
  served : ∀ u, s.update = some u → u.1 ≠ 1

/-- Trellis has taken the command up: its V bit is clear. -/
def opened (s : State) : State := { s with cmdReg := s.cmdReg &&& ~~~(1#512 <<< 63) }

/-- Trellis answers with a status, DONE set. -/
def closed (s : State) (status : Nat) : State := { s with cstat := BitVec.ofNat 32 status, cdone := true }

end Claim

end Sys2Proof
end

