-- ==== Sys2Proof/Certificates/Slice0/Obligations.lean ====
section
/-! DEFINITION. The statements about the model. Each formalises rules of the spec, named in its docstring; a statement about an
instruction is about any calm group that issues it (Claim.Calm), and concludes what `exec` answers and what it leaves unchanged. -/

section

open Sys2Proof Sys2Proof.Machine Sys2Proof.Claim

/-! ## Encoding and the step -/

/-- Words written out bit by bit from the encoding tables (R51, R59 to R62, R72), one or more of each family, decode to the
instructions they stand for; a word with 11 in its low bits is a header. -/
def Obligations.WordsDecode : Prop :=
  decodeWords Limits.widest [0x00281080] = .instr (.iaddCompact ⟨4, 5, false⟩) 1 ∧
  decodeWords Limits.widest [0x00482100] = .instr (.movCompact ⟨8, 9⟩) 1 ∧
  decodeWords Limits.widest [0x00401C82, 0x001C00E0, 0x000003E8] =
    .instr (.iadd ⟨⟨false, 7⟩, .v 7, .v 4 .self, .lit 0x3E8, false, false, false⟩) 3 ∧
  decodeWords Limits.widest [0x00000015, 0x001C0000] = .instr (.exit ⟨false, 7⟩) 2 ∧
  decodeWords Limits.widest [0x80101949, 0x001C0300] =
    .instr (.ffma ⟨⟨false, 7⟩, .v 6, .v 1 .self, .v 2 .self, .v 3 .self, .rn, false, false⟩) 2 ∧
  decodeWords Limits.widest [0x00403249, 0x045C13C8] =
    .instr (.lds ⟨⟨false, 7⟩, .v 12, .v 4, .int 32, .b64, ⟨false, .dflt, .acq, .device⟩, 1⟩) 2 ∧
  decodeWords Limits.widest [0x208052A9, 0x000C0001] = .instr (.pqtake ⟨⟨false, 3⟩, .v 20, 4, .s 8, 0, 0⟩) 2 ∧
  decodeWords Limits.widest [0x001006C1, 0x001C0088] = .instr (.push ⟨⟨false, 7⟩, 1, 2, 1⟩) 2 ∧
  decodeWords Limits.widest [0x00000311, 0x001C0000] = .instr (.ordrel ⟨false, 7⟩) 2 ∧
  decodeWords Limits.widest [0x00100319, 0x001C0200] = .instr (.reorder ⟨⟨false, 7⟩, .v 1 .self, 0, 2, false⟩) 2 ∧
  decodeWords Limits.widest [0x00902101, 0x001C0000] = .instr (.mov ⟨⟨false, 7⟩, .v 8, .v 9 .self⟩) 2 ∧
  decodeWords Limits.widest [0x20000B45, 0x015F64D4] = .instr (.dbgSetwp ⟨⟨false, 7⟩, .v 2, .s 0, .int 80, .int 100⟩) 2 ∧
  decodeWords Limits.widest [0x000000FF] = .header

/-- A step in which a group issues runs the instruction its words decode to (R15, R51, R76): when the agenda's head is the issue
of a group that its partition may choose now, its words decode to `i` and neither the scoreboard nor an error mark of a token
holds it back (R70, R299, R304), the step is `exec i` on the state in which the issue has been noted. The step of another agent is
its `exec` on the state without that move, after which failed launches whose commands have ended are freed and teams held back
leave (R272, R287, R388). The agenda, which says who moves next, is the model's own (assumption 1). -/
def Obligations.StepRunsDecoded : Prop :=
  (∀ (s : State) (c : Crew) (k : Group) (t : Thread) (ws : List Word) (i : Instr) (n : Nat) (rest : List Move),
    s.agenda = .issue k.cid t.pc :: rest → s.modState ≠ 3 →
    let u := { s with fresh := s.fresh + 1, cur := none, agenda := rest }
    Issuing u c k t ws → k.len = n →
    decodeWords (((noted u c k).keepWords c n k.pc).limits c k.lanes) ws = .instr i n →
    scoreboard c k i (guardIn n ws) i.touch = [] → (∀ r ∈ i.touch.rd, r.1 = true → r.2 ∉ c.errs) →
    step s = exec i (issued u c k i (guardIn n ws))) ∧
  ∀ (s : State) (i : Instr) (rest : List Move), s.agenda = .event i :: rest → family i = .event →
    s.modState ≠ 3 ∨ movesInFatal (.event i) = true →
    step s = afterGroup State.afterEvent (exec i { s with fresh := s.fresh + 1, cur := none, agenda := rest })

/-- Decode of encode is the instruction, with every operand at every value the encoding admits (R51, R59 to R76): the compact forms,
of one word, and the control and mask instructions. -/
def Obligations.ControlRoundTrip : Prop :=
  ∀ (l : Limits) (i : Instr) (ws : List Word), i.wf l = true →
    (family i = .compact → decodeWords l (encode i ++ ws) = .instr i 1 ∧ (encode i).length = 1) ∧
    (family i = .control → decodeWords l (encode i ++ ws) = .instr i (encode i).length)

/-- The same of the integer instructions. -/
def Obligations.IntegerRoundTrip : Prop :=
  ∀ (l : Limits) (i : Instr) (ws : List Word), family i = .integer → i.wf l = true →
    decodeWords l (encode i ++ ws) = .instr i (encode i).length

/-- The same of the moves and the floating instructions. -/
def Obligations.FloatRoundTrip : Prop :=
  ∀ (l : Limits) (i : Instr) (ws : List Word), family i = .move ∨ family i = .float → i.wf l = true →
    decodeWords l (encode i ++ ws) = .instr i (encode i).length

/-- The same of the memory and barrier instructions. -/
def Obligations.MemoryRoundTrip : Prop :=
  ∀ (l : Limits) (i : Instr) (ws : List Word), family i = .memory ∨ family i = .barrier → i.wf l = true →
    decodeWords l (encode i ++ ws) = .instr i (encode i).length

/-- The same of the engine, scheduling, reorder and debug instructions. -/
def Obligations.EngineRoundTrip : Prop :=
  ∀ (l : Limits) (i : Instr) (ws : List Word), family i = .engine ∨ family i = .scheduling ∨ family i = .debug → i.wf l = true →
    decodeWords l (encode i ++ ws) = .instr i (encode i).length

/-! ## The whole machine -/

/-- Every step keeps the lists of module memory, of host memory and of the memories of peers canonical, whatever the state it
starts from, so that equal memories are equal states. The form of the lists and what an unlisted byte reads as are the model's
(assumption 3). -/
def Obligations.StepKeepsCanonical : Prop :=
  ∀ s t : State, Canonical s → step s = .next t → Canonical t

/-- The state after reset is canonical, and a run may start from it. -/
def Obligations.ResetCanonical : Prop := Canonical State.reset ∧ ∃ t, step State.reset = .next t

/-- After reset the module is in STATE 0, CSTAT holds status 0 with DONE set, every bed is off and nothing runs (R396, R397,
R412). That a bed is not configured after reset is the model's choice (assumption 2). -/
def Obligations.ResetState : Prop :=
  State.reset.modState = 0 ∧ State.reset.cstat = 0 ∧ State.reset.cdone = true ∧ State.reset.beds.length = 8 ∧
  (∀ b ∈ State.reset.beds, b.on = false ∧ b.configured = false) ∧ State.reset.crews = [] ∧ State.reset.launches = [] ∧
  State.reset.cmds = []

/-! ## Integers (R120, R140 to R149) -/

/-- Integer arithmetic forms the exact integer of R140 and writes it, wrapped or saturated (R94, R120), and nothing else; the compact
forms take D as their first source (R61). -/
def Obligations.IntegerArithmetic : Prop :=
  ∀ (s : State) (c : Crew) (k : Group) (h : Dword), Calm s c k → Onward s c k h →
    (∀ f : IBin, Writes (.iadd f) s c k h f.d.isS f.g (two (· + ·) f) ∧ Writes (.isub f) s c k h f.d.isS f.g (two (· - ·) f) ∧
      Writes (.imul f) s c k h f.d.isS f.g (two (· * ·) f) ∧
      Writes (.imulh f) s c k h f.d.isS f.g (fun x =>
        result f.d f.w64 (value x f.w64 f.sgn f.a * value x f.w64 f.sgn f.b / 2 ^ width f.w64)) ∧
      (f.sat = false → Writes (.imin f) s c k h f.d.isS f.g (two min f) ∧ Writes (.imax f) s c k h f.d.isS f.g (two max f))) ∧
    (∀ f : ITri,
      Writes (.iadd3 f) s c k h f.d.isS f.g (fun x => result f.d f.w64 (clamp f.w64 f.sgn f.sat
        (value x f.w64 f.sgn f.a + value x f.w64 f.sgn f.b + value x f.w64 f.sgn f.c))) ∧
      Writes (.imad f) s c k h f.d.isS f.g (fun x => result f.d f.w64 (clamp f.w64 f.sgn f.sat
        (value x f.w64 f.sgn f.a * value x f.w64 f.sgn f.b + value x f.w64 f.sgn f.c))) ∧
      Writes (.imadw f) s c k h f.d.isS f.g (fun x => result f.d true (clamp true f.sgn f.sat
        (value x false f.sgn f.a * value x false f.sgn f.b + value x true f.sgn f.c)))) ∧
    (∀ f : IUn,
      Writes (.iabs f) s c k h f.d.isS f.g (fun x => result f.d f.w64 (clamp f.w64 true f.sat (value x f.w64 true f.a).natAbs)) ∧
      Writes (.ineg f) s c k h f.d.isS f.g (fun x => result f.d f.w64 (clamp f.w64 true f.sat (-value x f.w64 true f.a)))) ∧
    (∀ f : CInt,
      Writes (.iaddCompact f) s c k h false always (twoCompact (· + ·) f) ∧
      Writes (.isubCompact f) s c k h false always (twoCompact (· - ·) f) ∧
      Writes (.imulCompact f) s c k h false always (twoCompact (· * ·) f) ∧
      Writes (.iminCompact f) s c k h false always (twoCompact min f) ∧
      Writes (.imaxCompact f) s c k h false always (twoCompact max f))

/-- IADDC adds the carry, or subtracts by the complement of B, and writes the carry out of bit 31 to a predicate, to none when it
names p7 (R141); IDIV and IREM truncate toward zero, a zero divisor gives all ones and the dividend, and their results are in
flight for the lookahead window (R95, R142). -/
def Obligations.CarryAndDivision : Prop :=
  ∀ (s : State) (c : Crew) (k : Group) (h : Dword), Calm s c k → Onward s c k h →
    (∀ f : IAddcF, Writes (.iaddc f) s c k h f.d.isS f.g (fun x =>
      let b := if f.sub then 0xFFFFFFFF - value x false false f.b else value x false false f.b
      let v := value x false false f.a + b + (if (pred x.t f.cin != f.cinNeg) = true then 1 else 0)
      result f.d false v ++ if f.cout = 7 then [] else [.p f.cout.toNat (decide (0x100000000 ≤ v))])) ∧
    (∀ f : IDivF,
      WritesLate (.idiv f) s c k h f.d.isS f.g f.la.toNat (fun x => result f.d f.w64 (quotient f.w64 f.sgn x f.a f.b)) ∧
      WritesLate (.irem f) s c k h f.d.isS f.g f.la.toNat (fun x => result f.d f.w64 (remainder f.w64 f.sgn x f.a f.b)))

/-- LOP3 takes each bit from its truth table (R144); ISET compares and writes a predicate, SEL selects by one (R148). -/
def Obligations.LogicAndCompare : Prop :=
  ∀ (s : State) (c : Crew) (k : Group) (h : Dword), Calm s c k → Onward s c k h →
    (∀ f : Lop3F, Writes (.lop3 f) s c k h f.d.isS f.g (fun x => [Reg.put f.d 0 (BitVec.ofNat 32 (ofBits 32 fun j =>
      f.tt.getLsbD (4 * ((x.w32 f.a).getLsbD j).toNat + 2 * ((x.w32 f.b).getLsbD j).toNat + ((x.w32 f.c).getLsbD j).toNat)))])) ∧
    (∀ f : ISetF, Writes (.iset f) s c k h false f.g (fun x =>
      [.p f.pd.toNat (holds f.rel (value x f.w64 f.sgn f.a) (value x f.w64 f.sgn f.b))])) ∧
    (∀ f : SelF, Writes (.sel f) s c k h f.d.isS f.g (fun x =>
      result f.d f.w64 (value x f.w64 false (if (pred x.t f.p != f.neg) = true then f.a else f.b))))

/-- The shifts (R145) and the funnel shift (R146). A count past the width leaves zero, or the sign. -/
def Obligations.Shifts : Prop :=
  ∀ (s : State) (c : Crew) (k : Group) (h : Dword), Calm s c k → Onward s c k h →
    (∀ f : IBin,
      Writes (.shl f) s c k h f.d.isS f.g (fun x => result f.d f.w64 (clamp f.w64 f.sgn f.sat
        (value x f.w64 f.sgn f.a * 2 ^ pattern x false f.b))) ∧
      Writes (.shr f) s c k h f.d.isS f.g (fun x => result f.d f.w64 (value x f.w64 false f.a / 2 ^ pattern x false f.b)) ∧
      Writes (.sha f) s c k h f.d.isS f.g (fun x => result f.d f.w64 (value x f.w64 true f.a / 2 ^ pattern x false f.b))) ∧
    (∀ f : CInt,
      Writes (.shlCompact f) s c k h false always (fun x => result (.v f.d) f.w64
        (value x f.w64 false (.v f.d .self) * 2 ^ pattern x false (.v f.a .self))) ∧
      Writes (.shrCompact f) s c k h false always (fun x => result (.v f.d) f.w64
        (value x f.w64 false (.v f.d .self) / 2 ^ pattern x false (.v f.a .self))) ∧
      Writes (.shaCompact f) s c k h false always (fun x => result (.v f.d) f.w64
        (value x f.w64 true (.v f.d .self) / 2 ^ pattern x false (.v f.a .self)))) ∧
    (∀ f : ShfF, Writes (.shf f) s c k h f.d.isS f.g (fun x =>
      let y := pattern x false f.b * 2 ^ 32 + pattern x false f.a
      let n := min (pattern x false f.c) 32
      result f.d false (if f.left then (y * 2 ^ n / 2 ^ 32 : Nat) else (y / 2 ^ n : Nat))))

/-- Bit fields and bit counts (R147), LEA (R149) and the dot product (R143). -/
def Obligations.BitFields : Prop :=
  ∀ (s : State) (c : Crew) (k : Group) (h : Dword), Calm s c k → Onward s c k h →
    (∀ f : IBin, Writes (.bfe f) s c k h f.d.isS f.g (fun x =>
      result f.d f.w64 (fieldOf f.sgn (value x f.w64 f.sgn f.a) (fieldPos (x.w32 f.b)) (fieldLen (x.w32 f.b))))) ∧
    (∀ f : BfiF, Writes (.bfi f) s c k h f.d.isS f.g (fun x =>
      let p := fieldPos (x.w32 f.c)
      result f.d f.w64 (ofBits (width f.w64) fun j =>
        if p ≤ j ∧ j < p + fieldLen (x.w32 f.c) then (pattern x f.w64 f.b).testBit (j - p) else (pattern x f.w64 f.a).testBit j))) ∧
    (∀ f : IUn,
      Writes (.popc f) s c k h f.d.isS f.g (fun x =>
        result f.d false ((List.range (width f.w64)).countP fun j => (pattern x f.w64 f.a).testBit j)) ∧
      Writes (.clz f) s c k h f.d.isS f.g (fun x => result f.d false
        (if pattern x f.w64 f.a = 0 then width f.w64 else width f.w64 - 1 - Nat.log2 (pattern x f.w64 f.a) : Nat)) ∧
      Writes (.brev f) s c k h f.d.isS f.g (fun x =>
        result f.d f.w64 (ofBits (width f.w64) fun j => (pattern x f.w64 f.a).testBit (width f.w64 - 1 - j)))) ∧
    (∀ f : LeaF, Writes (.lea f) s c k h f.d.isS f.g (fun x =>
      result f.d f.w64 (value x f.w64 false f.a + value x false f.sgn f.b * 2 ^ f.sh.toNat))) ∧
    (∀ f : Idp4F, Writes (.idp4 f) s c k h f.d.isS f.g (fun x => result f.d false (clamp false (f.sa || f.sb) f.sat
      (value x false (f.sa || f.sb) f.c + dot f.sa f.sb f.i4 (x.w32 f.a) (x.w32 f.b)))))

/-! ## Predicates, moves and special registers -/

/-- VOTE reads the predicate of every lane of the mask, ELECT names its lowest lane, PLOP applies its truth table, PMOV moves
predicates to and from registers (R135, R137 to R139). -/
def Obligations.Predicates : Prop :=
  ∀ (s : State) (c : Crew) (k : Group) (h : Dword) (g : Guard), Calm s c k → Onward s c k h →
    (∀ pd pa m,
      Writes (.vote g (.any pd) pa m) s c k h false g (fun _ => [.p pd.toNat (decide (∃ l ∈ members c m, predAt c l pa = true))]) ∧
      Writes (.vote g (.all pd) pa m) s c k h false g (fun _ => [.p pd.toNat (decide (∀ l ∈ members c m, predAt c l pa = true))]) ∧
      Writes (.vote g (.eq pd) pa m) s c k h false g (fun _ => [.p pd.toNat (decide ((∀ l ∈ members c m, predAt c l pa = true) ∨
        ∀ l ∈ members c m, predAt c l pa = false))])) ∧
    (∀ d pa m, Writes (.vote g (.ballot d) pa m) s c k h false g (fun _ =>
      Reg.put64 (.v d) (laneSet ((members c m).filter fun l => predAt c l pa)))) ∧
    (∀ pd m, Writes (.elect g pd m) s c k h false g (fun x => [.p pd.toNat (decide ((members c m).head? = some x.lane))])) ∧
    (∀ pd pa pb tt, Writes (.plop g pd pa pb tt) s c k h false g (fun x =>
      [.p pd.toNat (tt.getLsbD (2 * (pred x.t pa).toNat + (pred x.t pb).toNat))])) ∧
    (∀ pd pa, Writes (.pmov g (.pp pd pa)) s c k h false g (fun x => [.p pd.toNat (pred x.t pa)])) ∧
    (∀ d, Writes (.pmov g (.toReg d)) s c k h false g (fun x =>
      [.v d.toNat (BitVec.ofNat 32 (ofBits 8 fun j => pred x.t (BitVec.ofNat 3 j)))])) ∧
    (∀ a, Writes (.pmov g (.fromSrc a)) s c k h false g (fun x => (List.range 7).map fun j => .p j ((x.w32 a).getLsbD j))) ∧
    (∀ pd a, Writes (.pmov g (.nonzero pd a)) s c k h false g (fun x => [.p pd.toNat (decide (x.w32 a ≠ 0))]))

/-- MOV and MOVL copy a source (R151). BCAST, RDLANE and PERM read register A of another lane, the neighbour of that lane under a
neighbour select (R71, R119, R151). A lane outside the crew, or with no thread, reads as zero, its neighbour's register too where
the empty lane is the one named (R50); the register of a lane none of whose results in flight names it is read as it stands. A
neighbour select on the A operand of these reads is the model's reading (assumption 10). -/
def Obligations.CrossLane : Prop :=
  ∀ (s : State) (c : Crew) (k : Group) (h : Dword), Calm s c k → Onward s c k h →
    (∀ f : CTwo, Writes (.movCompact f) s c k h false always (fun x => [.v f.d.toNat (x.t.v.get f.a.toNat)])) ∧
    (∀ f : MovF, Writes (.mov f) s c k h f.d.isS f.g (fun x => [Reg.put f.d 0 (x.w32 f.a)])) ∧
    (∀ f : MovlF, Writes (.movl f) s c k h f.d.isS f.g (fun x => match f.mode with
      | .full => Reg.put64 f.d (x.w64 f.a)
      | .zx => [Reg.put f.d 0 (x.w32 f.a), Reg.put f.d 1 0]
      | .hi => [Reg.put f.d 1 (x.w32 f.a)])) ∧
    (∀ f : BcastF, Writes (.bcast f) s c k h false f.g (fun x =>
      [.v f.d.toNat (match (members c f.m).head? with
        | some l => across x l f.an f.a.toNat
        | none => 0)])) ∧
    (∀ f : RdlaneF, Writes (.rdlane f) s c k h false f.g (fun x =>
      [.v f.d.toNat (across x (pattern x false f.b % c.lanes.length) f.an f.a.toNat)])) ∧
    (∀ f : PermF, Writes (.perm f) s c k h false f.g (fun x =>
      [.v f.d.toNat (across x (match f.mode with
        | .idx => pattern x false f.b % c.lanes.length
        | .xor => x.lane ^^^ (pattern x false f.b % c.lanes.length)
        | .rot => (x.lane + pattern x false f.b) % c.lanes.length) f.an f.a.toNat)])) ∧
    (∀ l t j r, c.thread? l = some t →
      (c.thread? j = none → (view s c k l t).other j r = 0) ∧
      (∀ u, c.thread? j = some u → (∀ p ∈ u.pend, ∀ w ∈ p.v, w.1 ≠ r) → (view s c k l t).other j r = u.v.get r))

/-- Index registers: IXSET sets base and limit, or the current value, IXLD and IXST reach the register that base, current value and
offset name (R153). -/
def Obligations.IndexRegisters : Prop :=
  ∀ (s : State) (c : Crew) (k : Group) (h : Dword) (g : Guard), Calm s c k → Onward s c k h →
    (∀ ix a b, (∀ l ∈ actives c k g, ∀ t, c.thread? l = some t →
        pattern (view s c k l t) false a ≤ pattern (view s c k l t) false b ∧ pattern (view s c k l t) false b ≤ vregs s c) →
      Writes (.ixset g ix (.bl a b)) s c k h false g (fun x => [.ix ix.toNat ⟨x.w32 a, x.w32 b, 0⟩])) ∧
    (∀ ix a, Writes (.ixset g ix (.cur a)) s c k h false g (fun x =>
      [.ix ix.toNat ⟨(x.ix ix).base, (x.ix ix).limit, x.w32 a⟩])) ∧
    (∀ ix a, Writes (.ixset g ix (.add a)) s c k h false g (fun x =>
      [.ix ix.toNat ⟨(x.ix ix).base, (x.ix ix).limit, (x.ix ix).cur + x.w32 a⟩])) ∧
    (∀ f : IxldF, (∀ l ∈ actives c k f.g, ∀ t, c.thread? l = some t → t.pend = [] ∧ Inside s c f.ix f.b (view s c k l t)) →
      Writes (.ixld f) s c k h false f.g (fun x => [.v f.d.toNat (x.t.v.get (named f.ix f.b x).toNat)])) ∧
    (∀ f : IxstF, (∀ l ∈ actives c k f.g, ∀ t, c.thread? l = some t → t.pend = [] ∧ Inside s c f.ix f.b (view s c k l t)) →
      Writes (.ixst f) s c k h false f.g (fun x => [.v (named f.ix f.b x).toNat (x.w32 f.a)]))

/-- An index register set with base above limit or limit above the kernel's registers, and an access outside base and limit, take the
Register Bounds trap with the offending number in %tval (R153); nothing else happens. -/
def Obligations.IndexBounds : Prop :=
  ∀ (s : State) (c : Crew) (k : Group) (kn : Kernel) (h : Dword) (l : Nat) (t : Thread), Calm s c k → Deliverable s c k 5 kn h →
    (∀ g ix a b, Leads c k g l t →
      (∀ l ∈ k.lanes, ∀ t, c.thread? l = some t → ¬ (pattern (view s c k l t) false a ≤ pattern (view s c k l t) false b ∧
        pattern (view s c k l t) false b ≤ vregs s c)) →
      Traps (.ixset g ix (.bl a b)) s c k kn h { cause := 5, tval := (view s c k l t).w32 b, tpc := k.pc }) ∧
    (∀ f : IxldF, Leads c k f.g l t →
      (∀ l ∈ k.lanes, ∀ t, c.thread? l = some t → let x := view s c k l t
        named f.ix f.b x < (x.ix f.ix).base.toNat ∨ ((x.ix f.ix).limit.toNat : Int) ≤ named f.ix f.b x) →
      Traps (.ixld f) s c k kn h { cause := 5, tval := BitVec.ofInt 32 (named f.ix f.b (view s c k l t)), tpc := k.pc }) ∧
    (∀ f : IxstF, Leads c k f.g l t →
      (∀ l ∈ k.lanes, ∀ t, c.thread? l = some t → let x := view s c k l t
        named f.ix f.b x < (x.ix f.ix).base.toNat ∨ ((x.ix f.ix).limit.toNat : Int) ≤ named f.ix f.b x) →
      Traps (.ixst f) s c k kn h { cause := 5, tval := BitVec.ofInt 32 (named f.ix f.b (view s c k l t)), tpc := k.pc })

/-- GETSR reads a special register, SETSR writes the crew's from the lowest guard-true lane (R79, R154, R155). %fflags is read and
written with none of the group's results in flight (R108). -/
def Obligations.SpecialRegisters : Prop :=
  ∀ (s : State) (c : Crew) (k : Group) (h : Dword), Calm s c k → Onward s c k h →
    (∀ f : GetsrF, (f.sel = .fflags → Idle c k) →
      Writes (.getsr f) s c k h f.d.isS f.g (fun x => result f.d f.w64 (specialValue s x f.sel))) ∧
    (∀ f : SetsrF, (f.sel = .fflags → Idle c k) →
      Sets (.setsr f) s c k h (match lead c k f.g with
        | some l => match c.thread? l with
          | some t => setSpecial f.sel f.w64 ((view s c k l t).w64 f.a) c
          | none => c
        | none => c))

/-! ## Masks -/

/-- JOIN sets and LEAVE clears the bits of the guard-true lanes (R23), MLOP applies its table to the masks of lanes with a thread
(R135), MMOV copies a mask, to and from registers too (R136). WAITM stalls the guard-true lanes while a lane of the mask is not
stalled there, the others pass; when every lane of the mask is one of them, or there is none, all go on at once (R25, R134). -/
def Obligations.Masks : Prop :=
  (∀ l g m, (Instr.join g m).wf l = true ∨ (Instr.leave g m).wf l = true → 1 ≤ m.toNat ∧ m.toNat ≤ 11) ∧
  (∀ (s : State) (c : Crew) (k : Group) (h : Dword) (g : Guard), Calm s c k → Onward s c k h →
    (∀ m, Sets (.join g m) s c k h (c.setMask m.toNat (c.mask m.toNat ||| laneSet (actives c k g)))) ∧
    (∀ m, Sets (.leave g m) s c k h (c.setMask m.toNat (c.mask m.toNat &&& ~~~ laneSet (actives c k g)))) ∧
    (∀ d a b tt, Sets (.mlop g d a b tt) s c k h (if actives c k g = [] then c else c.setMask d.toNat
      (laneSet ((List.range c.lanes.length).filter fun l => (c.thread? l).isSome &&
        tt.getLsbD (2 * ((c.mask a.toNat).getLsbD l).toNat + ((c.mask b.toNat).getLsbD l).toNat))))) ∧
    (∀ d a, Sets (.mmov g (.mm d a)) s c k h (if actives c k g = [] then c else c.setMask d.toNat (c.mask a.toNat))) ∧
    (∀ d a, Sets (.mmov g (.ms d a)) s c k h (if actives c k g = [] then c else c.setMask d.toNat
      ((c.s.get (a.toNat + 1) ++ c.s.get a.toNat) &&& laneSet ((List.range c.lanes.length).filter fun l => (c.thread? l).isSome)))) ∧
    (∀ d a, Writes (.mmov g (.sm d a)) s c k h true g (fun _ =>
      [.s d.toNat (lo32 (c.mask a.toNat)), .s (d.toNat + 1) (hi32 (c.mask a.toNat))]))) ∧
  ∀ (s : State) (c : Crew) (k : Group) (h : Dword) (g : Guard) (m : BitVec 4), Calm s c k → Together c k → m.toNat < 12 →
    ((∃ j ∈ members c m, j ∉ actives c k g) → after k ≠ blockEnd k.hdr k.hdrW ∨ others c k g = [] →
      ∃ c', exec (.waitm g m) s = .next (swap s k c') ∧ { c' with lanes := c.lanes } = c ∧ c'.lanes.length = c.lanes.length ∧
        (∀ l, l ∉ k.lanes → c'.thread? l = c.thread? l) ∧
        ∀ l ∈ k.lanes, ∀ t, c.thread? l = some t → c'.thread? l = some
          (if guardTrue g t then { t.retire k.pc with pc := k.pc, wait := .waitm m.toNat k.len } else moved k t)) ∧
    (Onward s c k h → Idle c k → (∀ j ∈ members c m, j ∈ actives c k g) → actives c k g = k.lanes →
      Sets (.waitm g m) s c k h c)

/-! ## Instructions with no result -/

/-- NOP changes nothing but the position, and PF, beside that, brings what memory holds into L1s, no more (R124, R246); YIELD notes that
the crew has yielded. A FENCE makes no access (R252): a release fence is remembered by each thread that executes it, with what
happens before it; an acquire fence, and .FULL with it, learns from what the thread's strong reads have met (R218, R219, R226). A
cache control drops the copies of code, of one shape record with the tile lines of its identifier, or the L1 lines that the cores and
clusters of the scope keep, and waits while a write of its thread is held for a migrating page (R209, R247, R248). Which
cores a cache control reaches at once, what it is remembered for, and for whose held writes it waits are the model's reading
(assumptions 9, 48 and 64), and so is the order of the .FULL fences (assumption 70). -/
def Obligations.NoEffect : Prop :=
  (∀ (s : State) (c : Crew) (k : Group) (h : Dword) (g : Guard), Calm s c k → Onward s c k h →
    Writes .nopCompact s c k h false always (fun _ => []) ∧
    Writes (.nop g) s c k h false g (fun _ => []) ∧
    (∀ f : PfF, ∃ s1 c', exec (.pf f) s = .next (goes s1 c k h c') ∧ Did c c' k (fun _ => []) (fun _ => []) ∧ Filled s s1 ∧
      (f.l1 = false ∨ f.hint = .nol1 → s1 = s)) ∧
    (∀ o sc, o = .rel ∨ o = .opnd → Writes (.fence g o sc) s c k h false g (fun x => [.fence (fenceMark s x o sc)])) ∧
    Sets (.yield g) s c k h (if actives c k g = [] then c else { c with yielded := true })) ∧
  ∀ (s : State) (c : Crew) (k : Group) (h : Dword) (g : Guard) (l : Nat) (t : Thread) (sc : Scope), Calm s c k → Solo c k g l t →
    let x := view s c k l t
    let mark : Mark := { scope := sc, home := x.home }
    (let s1 := s.fenceAcquire mark
      let s2 := s1.fenceFull mark
      { s1 with clocks := s.clocks } = s ∧ { s2 with clocks := s.clocks, fulls := s.fulls } = s ∧
      (Onward s1 c k h → Does (.fence g .acq sc) s s1 c k h l []) ∧
      (Onward s2 c k h → Does (.fence g .full sc) s s2 c k h l [.fence (fenceMark s2 x .full sc)])) ∧
    (∀ m b, (s.migrations.find? fun m => m.held.any fun w => w.write.who == x.agent) = some m → k.lanes = [l] →
      ∀ i ∈ [Instr.cctlIinv g sc, .cctlShinv g b sc, .cctlL1inv g sc], Stalls i s c k l (.migr (m.va / 65536))) ∧
    ((∀ m ∈ s.migrations, ∀ w ∈ m.held, w.write.who ≠ x.agent) →
      (let s1 := ({ s with code := s.code.filter fun q => !(s.coreInScope x sc q.cluster q.core) } : State).purge x none sc;
        Onward s1 c k h → Does (.cctlIinv g sc) s s1 c k h l []) ∧
      (let s1 := { s with l1 := s.l1.filter fun q => !(s.coreInScope x sc q.cluster q.core) };
        Onward s1 c k h → Does (.cctlL1inv g sc) s s1 c k h l []) ∧
      ∀ b, let id := pattern x false b % 65536
        let s1 := ({ s with
          shapes := s.shapes.filter fun q => !(q.bed == c.bed && q.id == id &&
            (sc == .system || s.crews.any fun y => y.cluster == q.cluster && x.inScope sc y))
          l1 := s.l1.filter fun q => !(q.bed == c.bed && q.id == id && s.coreInScope x sc q.cluster q.core) } : State).purge x (some id) sc
        (id = 0 → Onward s c k h → Does (.cctlShinv g b sc) s s c k h l []) ∧
        (id ≠ 0 → Onward s1 c k h → Does (.cctlShinv g b sc) s s1 c k h l []))

/-! ## Floating point -/

/-- FADD, FMUL and FFMA, DADD, DMUL and DFMA write the machine's rounded result (Obligations.Rounding) and raise its flags, the
compact forms with D as their first source (R162, R170). In each format, of sources flushed under FZI, it is the one rounding of the
exact sum, product, sum with a product, or quotient (R101, R105, R106, R163); an infinity goes through by its sign, and a finite
number that is not zero divided by zero is an infinity with DZ. The sign of a zero quotient is the model's reading (assumption
62). What has no value is in Obligations.NanResults. -/
def Obligations.FloatArithmetic : Prop :=
  (∀ f ∈ [f64, f32, f16, bf16], ∀ (rm : Rm) (fzi fzo : Bool) (a b c : Nat),
    let v := source f fzi
    let df := flushes f fzi a ||| flushes f fzi b
    (∀ x y, v a = .num x → v b = .num y →
      (∃ e, IsSum rm e x y ∧ f.add rm fzi fzo a b = rounded f rm fzo df e) ∧
      f.mul rm fzi fzo a b = rounded f rm fzo df (product x y) ∧
      (∀ z, v c = .num z → ∃ e, IsSum rm e (product x y) z ∧ f.fma rm fzi fzo a b c = rounded f rm fzo (df ||| flushes f fzi c) e) ∧
      (x.m ≠ 0 → y.m ≠ 0 → ∃ e, Quotient e x y ∧ f.div rm fzi fzo a b = rounded f rm fzo df e) ∧
      (x.m = 0 → y.m ≠ 0 → f.div rm fzi fzo a b = rounded f rm fzo df (product x y)) ∧
      (x.m ≠ 0 → y.m = 0 → f.div rm fzi fzo a b = infWith f (x.neg != y.neg) (2 ||| df)) ∧
      (∀ p, v c = .inf p → f.fma rm fzi fzo a b c = infWith f p (df ||| flushes f fzi c))) ∧
    (∀ p, v a = .inf p →
      (v b = .inf p → f.add rm fzi fzo a b = infWith f p df) ∧
      (∀ n, v b = .inf n → f.mul rm fzi fzo a b = infWith f (p != n) df) ∧
      (∀ y, v b = .num y → f.add rm fzi fzo a b = infWith f p df ∧ f.add rm fzi fzo b a = infWith f p df ∧
        (y.m ≠ 0 → f.mul rm fzi fzo a b = infWith f (p != y.neg) df ∧ f.mul rm fzi fzo b a = infWith f (p != y.neg) df) ∧
        f.div rm fzi fzo a b = infWith f (p != y.neg) df ∧
        f.div rm fzi fzo b a = rounded f rm fzo df ⟨p != y.neg, 0, 0, false⟩) ∧
      (∀ n, v b = .inf n ∨ (∃ y, v b = .num y ∧ y.m ≠ 0 ∧ y.neg = n) → v c = .inf (p != n) ∨ (∃ z, v c = .num z) →
        f.fma rm fzi fzo a b c = infWith f (p != n) (df ||| flushes f fzi c) ∧
        f.fma rm fzi fzo b a c = infWith f (p != n) (df ||| flushes f fzi c)))) ∧
  ∀ (s : State) (c : Crew) (k : Group) (h : Dword), Calm s c k → Onward s c k h →
    (∀ f : FBin,
      Writes (.fadd f) s c k h f.d.isS f.g (fun x => float f.d (f32.add f.rm f.fzi f.fzo (x.w32 f.a).toNat (x.w32 f.b).toNat)) ∧
      Writes (.fmul f) s c k h f.d.isS f.g (fun x => float f.d (f32.mul f.rm f.fzi f.fzo (x.w32 f.a).toNat (x.w32 f.b).toNat)) ∧
      Writes (.dadd f) s c k h f.d.isS f.g (fun x => double f.d (f64.add f.rm f.fzi f.fzo (x.dbl f.a) (x.dbl f.b))) ∧
      Writes (.dmul f) s c k h f.d.isS f.g (fun x => double f.d (f64.mul f.rm f.fzi f.fzo (x.dbl f.a) (x.dbl f.b)))) ∧
    (∀ f : FTri,
      Writes (.ffma f) s c k h f.d.isS f.g (fun x =>
        float f.d (f32.fma f.rm f.fzi f.fzo (x.w32 f.a).toNat (x.w32 f.b).toNat (x.w32 f.c).toNat)) ∧
      Writes (.dfma f) s c k h f.d.isS f.g (fun x => double f.d (f64.fma f.rm f.fzi f.fzo (x.dbl f.a) (x.dbl f.b) (x.dbl f.c)))) ∧
    (∀ f : CFlt,
      Writes (.faddCompact f) s c k h false always (fun x =>
        float (.v f.d) (f32.add f.rm false false (x.t.v.get f.d.toNat).toNat (x.t.v.get f.a.toNat).toNat)) ∧
      Writes (.fmulCompact f) s c k h false always (fun x =>
        float (.v f.d) (f32.mul f.rm false false (x.t.v.get f.d.toNat).toNat (x.t.v.get f.a.toNat).toNat)))

/-- Rounding (R99, R101 to R103, R105), in each format but E8M0, of every exact number x, in multiples of a small 2^q. A magnitude up to
the largest number delivers a number of x's sign: to nearest none of the format is nearer, on a tie the T field is even, and toward
zero, up and down it is the nearest on its side; NX says that it is not x. A magnitude beyond the largest gives an infinity or the
largest number by R102's table, with OF and NX. UF is an inexact result that is small after rounding; FZO makes a small one zero. A
value with something dropped below its bits rounds as any value between its neighbours does. Stochastic rounding takes the
number away from zero when the fraction of the step and the word q16 reach 1. UE5M3, which has no sign, gives NaN and NV of a negative
number (R99). -/
def Obligations.Rounding : Prop :=
  ∀ e ∈ extents, let f := e.fmt; ∀ (x : Exact) (q : Int), x.st = false → q ≤ x.e → q ≤ e.least - 1 - f.t →
    (f = ue5m3 → x.neg = true → x.m ≠ 0 → ∀ rm fzo q16, f.round rm fzo x = ⟨0xFF, 1⟩ ∧ f.roundSr q16 fzo x = ⟨0xFF, 1⟩) ∧
    ((f = ue5m3 → x.neg = false) →
    let a := (scaled q x).natAbs
    let ulp := 2 ^ (e.q - q).toNat
    let top := e.n * ulp
    (∀ rm : Rm, let r := f.round rm false x
      (a ≤ top → (∃ y, f.decode r.bits = .num y ∧ y.neg = x.neg) ∧ r.fl &&& 4 = 0) ∧
      (∀ y z w, a ≤ top ∨ e.infinities = true → f.decode r.bits = .num y → w < 2 ^ f.width → f.decode w = .num z →
        Nearest rm r.bits (scaled q x) (scaled q y) (scaled q z) ∧ (r.fl &&& 0x10 = 0 ↔ scaled q y = scaled q x)) ∧
      (top < a → r.fl = (if e.exceeds rm x.neg q a then 0x14 else 0x10) ∧
        f.decode r.bits = if e.infinities && e.exceeds rm x.neg q a && (rm == .rn || away rm x.neg) then .inf x.neg
          else .num ⟨x.neg, e.n, e.q, false⟩) ∧
      (r.fl &&& 8 ≠ 0 ↔ e.small rm x.neg q a = true ∧ r.fl &&& 0x10 ≠ 0) ∧
      f.round rm true x = if e.small rm x.neg q a then ⟨if x.neg then 2 ^ (f.e + f.t) else 0, 0x18⟩ else r) ∧
    (∀ (rm : Rm) (fzo : Bool) (y : Exact) (k d : Nat), y.st = true → 2 ^ (f.t + 3) ≤ y.m → 0 < d → d < 2 ^ k →
      f.round rm fzo y = f.round rm fzo ⟨y.neg, y.m * 2 ^ k + d, y.e - k, false⟩) ∧
    ∀ q16, q16 < 65536 → let r := f.roundSr q16 false x
      (∀ lo hi, let down := f.round .rz false x
        let up := f.round (if x.neg then .rd else .ru) false x
        a ≤ top → f.decode down.bits = .num lo → f.decode up.bits = .num hi →
        let l := (scaled q lo).natAbs
        let u := (scaled q hi).natAbs
        r.bits = (if u = l ∨ (a - l) * 65536 / (u - l) + q16 < 65536 then down else up).bits ∧ (r.fl &&& 0x10 = 0 ↔ u = l)) ∧
      (top < a → f.decode r.bits = if e.infinities && decide (65536 ≤ (a - top) * 65536 / ulp + q16) then .inf x.neg
        else .num ⟨x.neg, e.n, e.q, false⟩))

/-- Of addition, multiplication, division and fused multiply-add: a NaN among the operands gives the canonical NaN of the format,
never a payload, with NV when one is signalling (R97). The invalid operations give it with NV: infinities of different signs added,
zero times infinity, also when the third operand of the multiply-add is a NaN, 0 / 0 and infinity / infinity (R106, R163). -/
def Obligations.NanResults : Prop :=
  ∀ f ∈ [f64, f32, f16, bf16], ∀ (rm : Rm) (fzi fzo : Bool) (a b c : Nat),
    let v := source f fzi
    let df := flushes f fzi a ||| flushes f fzi b
    let df3 := df ||| flushes f fzi c
    let nan (w : Nat) : Prop := ∃ sig, v w = .nan sig
    let zero (w : Nat) : Prop := ∃ x, v w = .num x ∧ x.m = 0
    let inf (w : Nat) : Prop := ∃ p, v w = .inf p
    let void : Prop := (inf a ∧ zero b) ∨ (zero a ∧ inf b)
    (nan a ∨ nan b → ∀ r ∈ [f.add rm fzi fzo a b, f.mul rm fzi fzo a b, f.div rm fzi fzo a b],
      r = nanWith f (invalid [v a, v b] ||| df)) ∧
    (nan a ∨ nan b ∨ nan c → ¬ void → f.fma rm fzi fzo a b c = nanWith f (invalid [v a, v b, v c] ||| df3)) ∧
    (void → f.mul rm fzi fzo a b = nanWith f (1 ||| df) ∧ f.fma rm fzi fzo a b c = nanWith f (1 ||| df3)) ∧
    (∀ p, v a = .inf p → v b = .inf (!p) → f.add rm fzi fzo a b = nanWith f (1 ||| df)) ∧
    ((zero a ∧ zero b) ∨ (inf a ∧ inf b) → f.div rm fzi fzo a b = nanWith f (1 ||| df)) ∧
    (∀ p n, v a = .inf p → (v b = .inf n ∨ ∃ y, v b = .num y ∧ y.m ≠ 0 ∧ y.neg = n) → v c = .inf (p == n) →
      f.fma rm fzi fzo a b c = nanWith f (1 ||| df3) ∧ f.fma rm fzi fzo b a c = nanWith f (1 ||| df3))

/-- FMIN and FMAX write the lower and the higher number, a NaN giving way (R106, R163); FSET and DSET the relation of two values
(R164); FCLASS the bit of the class (R165); FSCL x × 2^n, FFRX the significand or the exponent, FCEILX the least integer not below
(R112, R166); the flags besides. That a constant enters FCLASS.F64 as an FP64 instruction's does is the model's reading
(assumption 62). -/
def Obligations.FloatCompare : Prop :=
  ∀ (s : State) (c : Crew) (k : Group) (h : Dword), Calm s c k → Onward s c k h →
    (∀ f : FTwo,
      Writes (.fmin f) s c k h f.d.isS f.g (fun x => float f.d (minOrMax false f.fzi f.fzo (x.w32 f.a).toNat (x.w32 f.b).toNat)) ∧
      Writes (.fmax f) s c k h f.d.isS f.g (fun x => float f.d (minOrMax true f.fzi f.fzo (x.w32 f.a).toNat (x.w32 f.b).toNat)) ∧
      Writes (.fscl f) s c k h f.d.isS f.g (fun x => float f.d (scl f.fzi f.fzo (x.w32 f.a).toNat (x.w32 f.b).toInt))) ∧
    (∀ f : CTwo,
      Writes (.fminCompact f) s c k h false always (fun x =>
        float (.v f.d) (minOrMax false false false (x.t.v.get f.d.toNat).toNat (x.t.v.get f.a.toNat).toNat)) ∧
      Writes (.fmaxCompact f) s c k h false always (fun x =>
        float (.v f.d) (minOrMax true false false (x.t.v.get f.d.toNat).toNat (x.t.v.get f.a.toNat).toNat))) ∧
    (∀ f : FSetF,
      Writes (.fset f) s c k h false f.g (fun x => let r := related f32 f.rel f.fzi (x.w32 f.a).toNat (x.w32 f.b).toNat
        [.p f.pd.toNat r.1, .flags r.2]) ∧
      Writes (.dset f) s c k h false f.g (fun x => let r := related f64 f.rel f.fzi (x.dbl f.a) (x.dbl f.b)
        [.p f.pd.toNat r.1, .flags r.2])) ∧
    (∀ f : FClassF, Writes (.fclass f) s c k h f.d.isS f.g (fun x => [Reg.put f.d 0 (BitVec.twoPow 32 (match f.fmt with
      | .f32 => classOf 32 23 (x.w32 f.a).toNat
      | .f64 => classOf 64 52 (x.dbl f.a)
      | .f16 => classOf 16 10 (x.w32 f.a).toNat
      | .bf16 => classOf 16 7 (x.w32 f.a).toNat))])) ∧
    (∀ f : FFrxF, Writes (.ffrx f) s c k h f.d.isS f.g (fun x =>
      float f.d (if f.exp then exponent f.fzi (x.w32 f.a).toNat else mantissa f.fzi (x.w32 f.a).toNat))) ∧
    (∀ f : FCeilxF, Writes (.fceilx f) s c k h f.d.isS f.g (fun x => float f.d (ceiling f.fzi (x.w32 f.a).toNat)))

/-- The special functions and the division put their rounded result in flight for the lookahead window (R70, R167 to R169). Of an
FP32 source, flushed under FZI: the table of R169; FRCP, FSQRT and FRSQ round the exact quotient and roots once; the powers of two
are exact at integers and lie between the powers of their neighbours; the logarithm is exact at powers of two and between its
neighbours elsewhere; sine and cosine are exact at quarter turns and have the sign of their half turn elsewhere; the hyperbolic
tangent has the sign of its source and is at most 1. Some values between the exact points are written out, those of R169's example
among them. Which of two neighbours a faithfully rounded function gives is free (assumption 56). -/
def Obligations.SpecialFunctions : Prop :=
  (∀ (rm : Rm) (fzi fzo : Bool) (a : Nat),
    let v := source f32 fzi a
    let df := flushes f32 fzi a
    let on (fn : Val → Raw) : FRes := special rm fzi fzo fn a
    (∀ t ∈ specialRows, ∀ r, t.special v = some r → on t.fn = ⟨r.bits, r.fl ||| df⟩) ∧
    (∀ sig m, v = .nan sig → on (fex2mRaw · m) = nanWith f32 (invalid [v])) ∧
    (∀ p m, v = .inf p → on (fex2mRaw · m) = ⟨if p then 0 else 0x7F800000, 0⟩) ∧
    (∀ x, v = .num x → x.m ≠ 0 →
      (∃ e, Quotient e ⟨false, 1, 0, false⟩ x ∧ on frcpRaw = rounded f32 rm fzo df e) ∧
      (x.neg = true → ∀ fn ∈ [frsqRaw, fsqrtRaw, flg2Raw], on fn = nanWith f32 (1 ||| df)) ∧
      (x.neg = false → (∃ e, InverseRoot e x ∧ on frsqRaw = rounded f32 rm fzo df e) ∧
        (∃ e, Root e x ∧ on fsqrtRaw = rounded f32 rm fzo df e) ∧
        let n := Nat.log2 x.m
        if x.m = 2 ^ n then on flg2Raw = rounded f32 rm fzo df ⟨decide (x.e + n < 0), (x.e + n).natAbs, 0, false⟩
        else Between (on flg2Raw) (x.e + n) (x.e + n + 1)) ∧
      (∀ j, 4 * (ratio x).1 = j * (ratio x).2 →
        on fsinRaw = ⟨if j % 4 = 1 then 0x3F800000 else if j % 4 = 3 then 0xBF800000 else 0, df⟩ ∧
        on fcosRaw = ⟨if j % 4 = 0 then 0x3F800000 else if j % 4 = 2 then 0xBF800000 else 0, df⟩) ∧
      ((∀ j, 4 * (ratio x).1 ≠ j * (ratio x).2) →
        OfSign (on fsinRaw) (decide (2 * (ratio x).1 / (ratio x).2 % 2 = 1)) ∧
        OfSign (on fcosRaw) (decide ((4 * (ratio x).1 + (ratio x).2) / (2 * (ratio x).2) % 2 = 1))) ∧
      OfSign (on ftanhRaw) x.neg ∧ Between (on ftanhRaw) (-1) 1) ∧
    ∀ (m i : Int) (fn : Val → Raw) (x : Exact), v = .num x → fn = (fex2mRaw · m) ∨ (fn = fex2Raw ∧ m = 0) →
      let n := (ratio x).1 - m * (ratio x).2
      (n = i * (ratio x).2 → on fn = rounded f32 rm fzo df ⟨false, 1, i, false⟩) ∧
      (128 ≤ i → i * (ratio x).2 ≤ n → on fn = rounded f32 rm fzo df ⟨false, 1, 128, false⟩) ∧
      (i ≤ -151 → n < i * (ratio x).2 → on fn = rounded f32 rm fzo df ⟨false, 1, -152, false⟩) ∧
      (-126 ≤ i → i < 127 → i * (ratio x).2 < n → n < (i + 1) * (ratio x).2 → (on fn).fl = 0x10 ||| df ∧
        ((i + 127) * 2 ^ 23).toNat ≤ (on fn).bits ∧ (on fn).bits ≤ ((i + 128) * 2 ^ 23).toNat)) ∧
  (∀ (op : Nat) (fzi fzo : Bool) (fn : Val → Raw) (a : Word),
    faithful op fzi fzo fn a = special .ru fzi fzo fn a.toNat ∨ faithful op fzi fzo fn a = special .rd fzi fzo fn a.toNat) ∧
  (special .rz false false (fex2mRaw · 5) 0x40900000 = ⟨0x3F3504F3, 0x10⟩ ∧
    special .rn false false fex2Raw 0x3F000000 = ⟨0x3FB504F3, 0x10⟩ ∧
    special .rd false false flg2Raw 0x40400000 = ⟨0x3FCAE00D, 0x10⟩ ∧ special .ru false false flg2Raw 0x40400000 = ⟨0x3FCAE00E, 0x10⟩ ∧
    special .rd false false fsinRaw 0x3E000000 = ⟨0x3F3504F3, 0x10⟩ ∧ special .ru false false fsinRaw 0x3E000000 = ⟨0x3F3504F4, 0x10⟩ ∧
    special .rd false false fcosRaw 0x3D800000 = ⟨0x3F6C835E, 0x10⟩ ∧ special .ru false false fcosRaw 0x3D800000 = ⟨0x3F6C835F, 0x10⟩ ∧
    special .rd false false ftanhRaw 0x3F800000 = ⟨0x3F42F7D5, 0x10⟩ ∧
    special .ru false false ftanhRaw 0x3F800000 = ⟨0x3F42F7D6, 0x10⟩) ∧
  ∀ (s : State) (c : Crew) (k : Group) (h : Dword), Calm s c k → Onward s c k h →
    (∀ f : FSpecial,
      let correct (i : Instr) (fn : Val → Raw) : Prop := WritesLate i s c k h f.d.isS f.g f.la.toNat fun x =>
        float f.d (special f.rm f.fzi f.fzo fn (x.w32 f.a).toNat)
      let faithful (i : Instr) (op : Nat) (fn : Val → Raw) : Prop := WritesLate i s c k h f.d.isS f.g f.la.toNat fun x =>
        float f.d (faithful op f.fzi f.fzo fn (x.w32 f.a))
      correct (.frcp f) frcpRaw ∧ correct (.frsq f) frsqRaw ∧ correct (.fsqrt f) fsqrtRaw ∧ correct (.fex2 f) fex2Raw ∧
      faithful (.flg2 f) 0x65 flg2Raw ∧ faithful (.fsin f) 0x66 fsinRaw ∧ faithful (.fcos f) 0x67 fcosRaw ∧
      faithful (.ftanh f) 0x68 ftanhRaw) ∧
    (∀ f : FSpecial2,
      WritesLate (.fdiv f) s c k h f.d.isS f.g f.la.toNat (fun x =>
        float f.d (f32.div f.rm f.fzi f.fzo (x.w32 f.a).toNat (x.w32 f.b).toNat)) ∧
      WritesLate (.fex2m f) s c k h f.d.isS f.g f.la.toNat (fun x =>
        float f.d (special f.rm f.fzi f.fzo (fun v => fex2mRaw v (x.w32 f.b).toInt) (x.w32 f.a).toNat)))

/-- The packed half instructions act on both halves of a word, in FP16 or BF16 (R160, R171). -/
def Obligations.PackedHalves : Prop :=
  ∀ (s : State) (c : Crew) (k : Group) (h : Dword), Calm s c k → Onward s c k h →
    (∀ f : HBin,
      Writes (.hadd2 f) s c k h f.d.isS f.g (fun x => float f.d (bothOf (fun i =>
        (halfFmt f.bf16).add f.rm f.fzi f.fzo (half (x.half f.bf16 f.a) i) (half (x.half f.bf16 f.b) i)))) ∧
      Writes (.hmul2 f) s c k h f.d.isS f.g (fun x => float f.d (bothOf (fun i =>
        (halfFmt f.bf16).mul f.rm f.fzi f.fzo (half (x.half f.bf16 f.a) i) (half (x.half f.bf16 f.b) i))))) ∧
    (∀ f : HTri, Writes (.hfma2 f) s c k h f.d.isS f.g (fun x => float f.d (bothOf (fun i =>
      (halfFmt f.bf16).fma f.rm f.fzi f.fzo (half (x.half f.bf16 f.a) i) (half (x.half f.bf16 f.b) i) (half (x.half f.bf16 f.c) i))))) ∧
    (∀ f : CHalf,
      Writes (.hadd2Compact f) s c k h false always (fun x => float (.v f.d) (bothOf (fun i =>
        (halfFmt f.bf16).add f.rm false false (half (x.t.v.get f.d.toNat) i) (half (x.t.v.get f.a.toNat) i)))) ∧
      Writes (.hmul2Compact f) s c k h false always (fun x => float (.v f.d) (bothOf (fun i =>
        (halfFmt f.bf16).mul f.rm false false (half (x.t.v.get f.d.toNat) i) (half (x.t.v.get f.a.toNat) i)))))

/-- CVT converts the source, the element .E of a word when the source is narrow, by the table of R104, to the whole destination or to
one element of it (R98, R172 to R174). QNT chooses the least scale that takes a block's largest magnitude into its format, and
rounds the one exact quotient of each element by it; DQNT rounds the exact product of an element and its scales (R100, R176 to
R179). The flags of the block conversions at their corners and the sign of an integer zero are the model's reading (assumptions
47 and 62). -/
def Obligations.Conversions : Prop :=
  (∀ (s : State) (c : Crew) (k : Group) (h : Dword), Calm s c k → Onward s c k h →
    (∀ f : CvtF, Writes (.cvt f) s c k h f.d.isS f.g (fun x =>
      let n := Wf.cvtBits f.dst
      let m := Wf.cvtBits f.src
      let from_ := x.cvtBits f.src f.a / 2 ^ (m * if m < 32 ∧ f.ins = false then f.e.toNat else 0) % 2 ^ m
      let r := converted f.dst f.src f.rm (f.q.map fun q => (x.w32 q).toNat % 65536) f.f62 f.f63 from_
      if f.ins then [Reg.put f.d 0 (BitVec.ofNat 32 (ofBits 32 fun j =>
        if n * f.e.toNat ≤ j ∧ j < n * f.e.toNat + n then r.bits.testBit (j - n * f.e.toNat) else (x.reg32 f.d).getLsbD j)), .flags r.fl]
      else if n = 64 then double f.d r else float f.d r)) ∧
    (∀ f : QntF, Writes (.qnt f) s c k h false f.g (fun x =>
      let us := x.contributing f
      let g := match us.head?, f.b with
        | some u, some b => f32.decode (u.w32 b).toNat
        | _, _ => .num (Exact.zero false)
      let sc := qntScale f.fmt (us.map fun u => f32.decode (u.w32 f.a).toNat) g
      if f.scale then float (.v f.d) sc
      else float (.v f.d) ((qntElem f.fmt f.rm (f.q.map fun q => (x.w32 q).toNat % 65536) (qntDivisor f.fmt sc.bits g)
        (f32.decode (x.w32 f.a).toNat)).withFlags sc.fl))) ∧
    (∀ f : DqntF, Writes (.dqnt f) s c k h f.d.isS f.g (fun x =>
      let n := (blockElem f.fmt).width
      let e := (blockElem f.fmt).decode ((x.w32 f.a).toNat / 2 ^ (n * f.e.toNat) % 2 ^ n)
      let code := (x.w32 f.b).toNat % 256
      float f.d (multiplied (if f.fmt = .nb4 then [e, ue5m3.decode code, f32.decode ((f.c.map fun g => (x.w32 g).toNat).getD 0)]
        else [e, if code = 255 then .nan false else .num ⟨false, 1, (code : Int) - 127, false⟩]))))) ∧
  (∀ (fmt : BlockFmt) (vs : List Val) (g : Val), (∀ x, .num x ∈ vs ∨ g = .num x → x.st = false) →
    (bad vs → qntScale fmt vs g = ⟨0xFF, 1⟩) ∧
    (¬ bad vs → fmt ≠ .nb4 → ∃ amax, Largest vs amax ∧
      (amax.m = 0 → qntScale fmt vs g = ⟨127, 0⟩) ∧
      (amax.m ≠ 0 → ∃ k, Within amax (largestElement fmt) k ∧ ¬ Within amax (largestElement fmt) (k - 1) ∧
        qntScale fmt vs g = ⟨(max k (-127) + 127).toNat, 0⟩)) ∧
    (vs = [] → qntScale .nb4 vs g = ⟨0, 0⟩) ∧
    (vs ≠ [] → (∀ y, g = .num y → y.m = 0 ∨ y.neg = true) → qntScale .nb4 vs g = ⟨0xFF, 1⟩) ∧
    (¬ bad vs → ∀ y, g = .num y → y.m ≠ 0 → y.neg = false → ∃ amax, Largest vs amax ∧
      (amax.m = 0 → qntScale .nb4 vs g = ⟨0, 0⟩) ∧
      (amax.m ≠ 0 → ∃ e, Quotient e amax (product ⟨false, 6, 0, false⟩ y) ∧ qntScale .nb4 vs g = ue5m3.round .ru false e))) ∧
  ∀ (fmt : BlockFmt) (rm : Rm) (q : Option Nat) (code : Nat) (x : Exact) (g : Val), x.st = false → code < 256 →
    let div := qntDivisor fmt code g
    (code = 0xFF → div = none) ∧
    (fmt ≠ .nb4 → code ≠ 0xFF → div = some ⟨false, 1, code - 127, false⟩) ∧
    (fmt = .nb4 → ∀ y z, ue5m3.decode code = .num y → g = .num z → div = if y.m = 0 then none else some (product y z)) ∧
    (∀ v, qntElem fmt rm q none v = ⟨0, 0⟩) ∧
    ∀ d : Exact, d.m ≠ 0 → d.st = false → let f := blockElem fmt
      (x.m = 0 → qntElem fmt rm q (some d) (.num x) = ⟨if x.neg then 2 ^ (f.e + f.t) else 0, 0⟩) ∧
      (x.m ≠ 0 → ∃ e, Quotient e x d ∧ qntElem fmt rm q (some d) (.num x) = toFloating f rm q false (.num e))

/-! ## Control transfer and traps -/

/-- BRA, BRX, CALL and RET take their guard-true lanes to the target, an offset of the block or a register pair, and leave the others
at the next word; CALL writes the header after its block to its pair first (R121 to R123). Without a guard-true lane they do
nothing. A target that is not 8-byte-aligned, or at which no header stands, takes the Branch Target trap at the transfer, which
writes no register (R58, R365). -/
def Obligations.Branches : Prop :=
  ∀ (s : State) (c : Crew) (k : Group) (h : Dword) (g : Guard), Calm s c k →
    (∀ off : BitVec 20, MayJump s c k g (k.hdr + off.signExtend 64 * 8) h →
      Jumps (.bra g (.near off)) s c k g (k.hdr + off.signExtend 64 * 8) h []) ∧
    (∀ off : BitVec 32, MayJump s c k g (k.hdr + off.signExtend 64 * 8) h →
      Jumps (.bra g (.far off)) s c k g (k.hdr + off.signExtend 64 * 8) h []) ∧
    (∀ d, ∀ off : BitVec 20, MayJump s c k g (k.hdr + off.signExtend 64 * 8) h →
      Jumps (.call g d (.near off)) s c k g (k.hdr + off.signExtend 64 * 8) h (Reg.put64 (.v d) (blockEnd k.hdr k.hdrW))) ∧
    (∀ d, ∀ off : BitVec 32, MayJump s c k g (k.hdr + off.signExtend 64 * 8) h →
      Jumps (.call g d (.far off)) s c k g (k.hdr + off.signExtend 64 * 8) h (Reg.put64 (.v d) (blockEnd k.hdr k.hdrW))) ∧
    (∀ a dst, (∀ l ∈ actives c k g, ∀ t, c.thread? l = some t → (view s c k l t).reg64 a = dst) → MayJump s c k g dst h →
      Jumps (.brx g a) s c k g dst h [] ∧ Jumps (.ret g a) s c k g dst h []) ∧
    (actives c k g = [] → Onward s c k h → ∀ off d a,
      Writes (.bra g off) s c k h false g (fun _ => []) ∧ Writes (.brx g a) s c k h false g (fun _ => []) ∧
      Writes (.call g d off) s c k h false g (fun _ => []) ∧ Writes (.ret g a) s c k h false g (fun _ => [])) ∧
    ∀ (kn : Kernel) (l : Nat) (t : Thread), Leads c k g l t → Deliverable s c k 3 kn h →
      let trap (a : Dword) : Trap := { cause := 3, tval := lo32 a, tpc := k.pc }
      (∀ (o : Off) (d : BitVec 9), let a := k.hdr + (match o with
          | .near o => o.signExtend 64
          | .far o => o.signExtend 64) * 8
        (∀ j ∈ k.lanes, ∀ x, c.thread? j = some x → NoHeader s c [] a) →
        Traps (.bra g o) s c k kn h (trap a) ∧ Traps (.call g d o) s c k kn h (trap a)) ∧
      (∀ a, (∀ j ∈ k.lanes, ∀ x, c.thread? j = some x → NoHeader s c [] ((view s c k j x).reg64 a)) →
        Traps (.brx g a) s c k kn h (trap ((view s c k l t).reg64 a)) ∧
        Traps (.ret g a) s c k kn h (trap ((view s c k l t).reg64 a)))

/-- EXIT ends the thread of a guard-true lane: it leaves its crew and every mask, its team counts it (R24, R125). What becomes of
s-register results in flight is the model's reading (assumption 57). -/
def Obligations.Exit : Prop :=
  ∀ (s : State) (c : Crew) (k : Group) (g : Guard) (l : Nat) (t : Thread), Calm s c k → k.lanes = [l] → c.thread? l = some t →
    guardTrue g t = true → exec (.exit g) s = .next (gone s c k l t) ∧ (exited s.fresh l c).thread? l = none ∧
      (∀ m, m < c.masks.length → ((exited s.fresh l c).mask (m + 1)).getLsbD l = false) ∧
      ∀ tm, s.team? (c.ref t) = some tm → ∃ tm', (gone s c k l t).team? (c.ref t) = some tm' ∧ tm'.exited = tm.exited + 1

/-- TRAP and BRK take their trap on every lane of the group, when no lane's guard is false: cause, value and the address to resume
at are saved, the lanes stand at the handler in handler mode (R127, R365, R368, R370). TRAP resumes after its block, BRK at
itself. Without a handler the team halts, its lanes where they would resume, with a report of kind 0 and a message (R372); in
handler mode it halts at the trapping instruction with a report of kind 1 (R371); at a BRK of an attached team with one of kind 2
(R375). While another thread of the crew is in handler mode the lanes wait at the instruction, and no longer (R371). That the
guard-false lanes go on after the delivery, and that a BRK of an attached team halts with kind 2 in handler mode too, where R371 and
R375 both speak, are the model's choices (assumptions 15, 50). -/
def Obligations.TrapInstructions : Prop :=
  ∀ (s : State) (c : Crew) (k : Group) (kn : Kernel) (h : Dword) (g : Guard) (a : Src) (l : Nat) (t : Thread), Calm s c k →
    Leads c k g l t →
    let value := (view s c k l t).w32 a
    (Deliverable s c k 0x0E kn h → Traps (.trap g a) s c k kn h { cause := 0x0E, tval := value, tpc := blockEnd k.hdr k.hdrW }) ∧
    (Deliverable s c k 0x0F kn h → Traps (.brk g a) s c k kn h { cause := 0x0F, tval := value, tpc := k.pc }) ∧
    (s.kernel? c.bed c.launch = some kn → OneTeam s c k t → Together c k →
      ((∀ j ∈ k.lanes, s.attachedLane c j = true) → Halts (.brk g a) s c k t 2 0x0F value k.pc) ∧
      ((∀ j ∈ k.lanes, ∀ x, c.thread? j = some x → x.handler = true) →
        Halts (.trap g a) s c k t 1 0x0E value k.pc ∧
        ((∀ j ∈ k.lanes, s.attachedLane c j = false) → Halts (.brk g a) s c k t 1 0x0F value k.pc)) ∧
      ((∀ j ∈ k.lanes, ∀ x, c.thread? j = some x → x.handler = false) →
        (kn.handler = 0 → Halts (.trap g a) s c k t 0 0x0E value (blockEnd k.hdr k.hdrW) ∧
          ((∀ j ∈ k.lanes, s.attachedLane c j = false) → Halts (.brk g a) s c k t 0 0x0F value k.pc)) ∧
        (kn.handler ≠ 0 → c.inHandler = true → (∀ j ∈ k.lanes, ∀ x, c.thread? j = some x → x.entry = none) →
          let blocked := swap s k (c.setThreads k.lanes fun x => { x with pc := k.pc, wait := .trap })
          exec (.trap g a) s = .next blocked ∧
          ((∀ j ∈ k.lanes, s.attachedLane c j = false) → exec (.brk g a) s = .next blocked)))) ∧
    ∀ (u : State) (d : Crew) (x : Thread), x.wait = .trap → u.waitOver d x = !d.inHandler

/-- What the delivery of TRAP and of BRK leaves: the trap registers hold the cause, the value, the address to resume at and the set
of the delivered lanes; these stand at the handler's header in handler mode, with their registers, and may be restarted there; no
other lane, register, mask or byte of memory has changed (R368, R370). The decode traps, of a step in which a group issues, are
delivered to every lane whatever its guard: a header at an instruction position is Illegal Header with sub-cause 6 (R57), words
that reach beyond the block are Block Overrun (R54), and others that are no instruction Illegal Instruction with the sub-cause of
the first failing check (R76, R77). A lane that passes the last instruction of its block finds no header there (Block Overrun) or
one that fails a check (Illegal Header), the instruction executed (R54, R57). That a form's length is tested before the rest of
its words is the model's choice (assumption 63). -/
def Obligations.TrapEntry : Prop :=
  (∀ (s : State) (c : Crew) (k : Group) (kn : Kernel) (h : Dword) (g : Guard) (a : Src) (l : Nat) (t : Thread), Calm s c k →
    Leads c k g l t → Idle c k →
    let entry (i : Instr) (cause : Nat) (pc : Dword) : Prop := ∃ u c', exec i s = .next u ∧ u.crew? k.cid = some c' ∧
      c'.tcause = BitVec.ofNat 32 cause ∧ c'.tval = (view s c k l t).w32 a ∧ c'.tpc = pc ∧ c'.tmask = laneSet k.lanes ∧ c'.s = c.s ∧
      c'.masks = c.masks ∧ c'.fflags = c.fflags ∧
      (∀ j ∈ k.lanes, ∀ x, c.thread? j = some x → ∃ x', c'.thread? j = some x' ∧ x'.handler = true ∧ x'.pc = kn.handler ∧
        x'.hdr = kn.handler ∧ x'.hdrW = h ∧ x'.entry = none ∧ x'.wait = .none ∧ x'.v = x.v ∧ x'.p = x.p ∧ x'.ix = x.ix ∧
        x'.ck.pc = kn.handler ∧ x'.ck.handler = true) ∧
      (∀ j, j ∉ k.lanes → c'.thread? j = c.thread? j) ∧ u.teams = s.teams ∧ ∀ b n, u.read b n = s.read b n
    (Deliverable s c k 0x0E kn h → entry (.trap g a) 0x0E (blockEnd k.hdr k.hdrW)) ∧
    (Deliverable s c k 0x0F kn h → entry (.brk g a) 0x0F k.pc)) ∧
  (∀ (s : State) (c c1 : Crew) (k : Group) (t : Thread) (kn : Kernel) (h : Dword) (rest : List Move),
    s.agenda = .issue k.cid t.pc :: rest → s.modState ≠ 3 →
    let u := { s with fresh := s.fresh + 1, cur := none, agenda := rest }
    let v := noted u c k
    Fetching u c k t → k.pc ≠ blockEnd k.hdr k.hdrW → v.crew? k.cid = some c1 → Calm { v with cur := some k } c1 k →
    (∀ w, v.fetchWords c t.answered 1 k.pc = .ok [w] →
      (w.extractLsb' 0 2 = 3 → Deliverable v c1 k 2 kn h → step s = .next (delivered v c1 k kn h { cause := 2, tval := 6, tpc := k.pc })) ∧
      (w.extractLsb' 0 2 ≠ 3 → (blockEnd k.hdr k.hdrW - k.pc).toNat < 4 * formLen w → Deliverable v c1 k 4 kn h →
        step s = .next (delivered v c1 k kn h { cause := 4, tval := lo32 k.hdr, tpc := k.pc })) ∧
      (∀ ws m, w.extractLsb' 0 2 ≠ 3 → formLen w = k.len → 4 * k.len ≤ (blockEnd k.hdr k.hdrW - k.pc).toNat →
        v.fetchWords c t.answered k.len k.pc = .ok ws → let x := v.keepWords c k.len k.pc
        decodeWords (x.limits c k.lanes) ws = .illegal m → Deliverable x c1 k 1 kn h →
        step s = .next (delivered x c1 k kn h { cause := 1, tval := BitVec.ofNat 32 m.code, tpc := k.pc })))) ∧
  ∀ (s : State) (c : Crew) (k : Group) (kn : Kernel) (h : Dword), Calm s c k → after k = blockEnd k.hdr k.hdrW →
    let a := after k
    let passed := c.setThreads k.lanes fun x => x.retire k.pc
    (∀ w, s.fetchWords c [] 1 a = .ok [w] →
      (w.extractLsb' 0 2 ≠ 3 → Deliverable s c k 4 kn h →
        exec .nopCompact s = .next (delivered s passed k kn h { cause := 4, tval := lo32 k.hdr, tpc := a })) ∧
      (∀ w1 sub, w.extractLsb' 0 2 = 3 → s.fetchWords c [] 2 a = .ok [w, w1] → headerFault (w1 ++ w) a (vregs s c) = some sub →
        Deliverable s c k 2 kn h →
        exec .nopCompact s = .next (delivered s passed k kn h { cause := 2, tval := BitVec.ofNat 32 sub, tpc := a })))

/-- RETT takes lanes in handler mode back to %tpc, out of handler mode, as a region entry; outside handler mode it takes the
Permission trap with sub-cause 7 and has no other effect (R58, R128, R366). -/
def Obligations.Rett : Prop :=
  ∀ (s : State) (c : Crew) (k : Group) (kn : Kernel) (h : Dword) (g : Guard) (l : Nat) (t : Thread), Calm s c k →
    Leads c k g l t →
    ((∀ l ∈ k.lanes, ∀ t, c.thread? l = some t → t.handler = true) →
      s.enterCheck c (vregs s c) [] c.tpc (.branch k.pc) = .ok h →
      exec (.rett g) s = .next (landed s c k c.tpc (entered s.fresh k.lanes c.tpc h true
        (released k.lanes (c.setThreads k.lanes (·.retire k.pc)))))) ∧
    ((∀ l ∈ k.lanes, ∀ t, c.thread? l = some t → t.handler = false) → Deliverable s c k 8 kn h →
      Traps (.rett g) s c k kn h { cause := 8, tval := 7, tpc := k.pc })

/-! ## Loads and stores -/

/-- LD and LDS, LDP: the bytes read are in flight for the registers of D, zero- or sign-extended (R236, R238, R241, R245), where no
lane meets a watchpoint. An access of LD or LDS all of which hits in the core's L1 is served from there whatever its translation
(R195). One that passes the checks of R240 and waits for no migrating page reads memory, or of a sector what the L1 may serve: a
strong load takes no sector that a write has made stale; .NOL1 passes L1 by (R196, R222, R243). When a result in flight is written
is the model's reading (assumption 60). -/
def Obligations.Loads : Prop :=
  ∀ (s : State) (c : Crew) (k : Group) (h : Dword), Calm s c k → Onward s c k h →
    (∀ (f : LdStF) (strong : Bool),
      let i : Instr := if strong then .lds f else .ld f
      let n := Wf.sizeBytes f.size
      let addr (x : Ctx) : Dword := x.reg64 f.a + (x.w32 f.b).signExtend 64
      let each (p : Ctx → Prop) : Prop := ∀ l ∈ actives c k f.g, ∀ t, c.thread? l = some t → p (view s c k l t)
      let gives (bs : Nat → List Byte) : Prop :=
        LoadsLate strong i s c k h f.d.isS f.g f.la.toNat fun x => Reg.puts f.d (loaded f.size (bs x.lane))
      each (fun x => s.watch x false true false (addr x).toNat n = none) →
      (∀ bs, f.m.hint ≠ .nol1 →
        each (fun x => s.l1Hit x.crew x.agent strong (linearPieces (addr x).toNat n) = some (bs x.lane)) → gives bs) ∧
      (∀ ps : Nat → List Part, each (fun x => s.access x .read (addr x) n = .inr (ps x.lane) ∧ s.migrWait (ps x.lane) = none) →
        ∃ bs, gives bs ∧ each fun x =>
          if f.m.hint = .nol1 then bs x.lane = s.readParts (ps x.lane)
          else Served s x strong (linearPieces (addr x).toNat n) (s.readParts (ps x.lane)) (bs x.lane))) ∧
    (∀ (f : LdStPF) (loc : Nat → Loc),
      (∀ l ∈ actives c k f.g, ∀ t, c.thread? l = some t → let x := view s c k l t
        let o := x.w32 f.a + x.w32 f.b
        s.plotAccess x o (Wf.sizeBytes f.size) = .inr (loc l) ∧ s.watch x true true false o.toNat (Wf.sizeBytes f.size) = none) →
      WritesLate (.ldp f) s c k h f.d.isS f.g f.la.toNat
        (fun x => Reg.puts f.d (loaded f.size (s.read (loc x.lane) (Wf.sizeBytes f.size)))))

/-- LDT and STT reach the bytes that a shape record and four coordinates name; a load's bytes out of bounds are zero, a store's are
discarded, and the cluster keeps the record (R193, R194, R244). -/
def Obligations.TensorAccess : Prop :=
  ∀ (s : State) (c : Crew) (k : Group) (h : Dword) (f : LdStTF) (l : Nat) (t : Thread) (e : TensorAt) (ps : List Part),
    Calm s c k → Solo c k f.g l t → Canonical s →
    let x := view s c k l t
    let id := pattern x false f.b % 65536
    let n := Wf.sizeBytes f.size
    let s1 := s.keepShape c.cluster c.bed id
    s.tensor x id (x.regs 4 f.a) n = .inr e →
    (s.tensorParts x .read e.a e.m = .inr ps → s.migrWait ps = none → s.watch x false true false e.a.toNat e.m = none →
      Onward s c k h → ∃ s2 bs, Alike false s1 s2 ∧
        (if f.m.hint = .nol1 then bs = s.readParts ps else Served s x false e.view.pieces (s.readParts ps) bs) ∧
        DoesLate (.ldt f) s s2 c k h l f.la.toNat (Reg.puts f.d (loaded f.size (bs ++ List.replicate (n - e.m) 0)))) ∧
    (s1.tensorParts x .write e.a e.m = .inr ps → hostParts ps = false → s1.watch x false false true e.a.toNat e.m = none →
      let bs := (stored f.size (x.regs (Wf.sizeRegs f.size) f.d)).take e.m
      let s2 := followed s1 (s1.writeParts x.agent ps bs) c f.m.hint ps e.view.pieces bs
      Onward s2 c k h → Does (.stt f) s s2 c k h l [] ∧ Stored s s2 ps)

/-- ST and STS write the bytes of their registers to the parts of the address, and no other byte changes; a store that reaches
host memory is a commit; STP writes plot memory (R236, R242, R245, R350). Which lanes a store to host memory commits, and that all
lanes of a committing group go to the end of the block, are the model's reading (assumptions 15 and 17). -/
def Obligations.Stores : Prop :=
  ∀ (s : State) (c : Crew) (k : Group) (h : Dword) (l : Nat) (t : Thread), Calm s c k → Canonical s →
    (∀ (f : LdStF) (ps : List Part), Solo c k f.g l t →
      let x := view s c k l t
      let a := x.reg64 f.a + (x.w32 f.b).signExtend 64
      let bs := stored f.size (x.regs (Wf.sizeRegs f.size) f.d)
      s.access x .write a (Wf.sizeBytes f.size) = .inr ps → s.watch x false false true a.toNat (Wf.sizeBytes f.size) = none →
      ∀ strong : Bool,
        let i : Instr := if strong then .sts f else .st f
        let s1 := followed s (if strong then s.strongParts x f.m ps bs else s.writeParts x.agent ps bs) c f.m.hint ps
          (linearPieces a.toNat (Wf.sizeBytes f.size)) bs
        Stored s s1 ps ∧
        (hostParts ps = false → Onward s1 c k h → Does i s s1 c k h l []) ∧
        (hostParts ps = true → k.lanes = [l] → MayCommit s s1 c k t h → Commits i s s1 c k h l [])) ∧
    (∀ (f : LdStPF) (loc : Loc), Solo c k f.g l t →
      let x := view s c k l t
      let o := x.w32 f.a + x.w32 f.b
      let bs := stored f.size (x.regs (Wf.sizeRegs f.size) f.d)
      let s1 := (s.perform x.agent loc bs).markPlot x o (Wf.sizeBytes f.size)
      s.plotAccess x o (Wf.sizeBytes f.size) = .inr loc → s.watch x true false true o.toNat (Wf.sizeBytes f.size) = none →
      Onward s1 c k h → Does (.stp f) s s1 c k h l [] ∧ Wrote s s1 loc bs)

/-- What a store wrote is what a load of the same bytes reads, in module memory outside the words the MMP alone writes and the
reserved bits of request slots, which read zero, and in host memory (R6, R183, R185, R206, R207). -/
def Obligations.ReadAfterWrite : Prop :=
  ∀ (s : State) (a : Nat) (bs : List Byte), Canonical s →
    ((∀ i, i < bs.length → windowRo (a + i) = false ∧ noMemory (a + i) = false) →
      (s.write (.mod a) bs).read (.mod a) bs.length = (List.range bs.length).map fun i => (bs[i]?).getD 0 &&& slotMask (a + i)) ∧
    ((∀ i, i < bs.length → windowRo (a + i) = false ∧ noMemory (a + i) = false ∧ slotMask (a + i) = 0xFF) →
      (s.write (.mod a) bs).read (.mod a) bs.length = bs) ∧
    (s.write (.host a) bs).read (.host a) bs.length = bs ∧
    Canonical (s.write (.mod a) bs) ∧ Canonical (s.write (.host a) bs)

/-- An access at an address that is not canonical takes the Permission trap with sub-cause 1 on every lane, one that no
translation backs, and no L1 serves, waits for its pages (R183, R195, R202, R203, R240); a plot access past the allocation takes the Plot Bounds trap
(R186, R187). A commit that is not the last instruction of its block, or that no region header follows, takes the Region trap before
any effect (R350). That a lane executes its instruction again is the model's form of its resumption (assumption 16). -/
def Obligations.AccessChecks : Prop :=
  ∀ (s : State) (c : Crew) (k : Group) (kn : Kernel) (h : Dword) (l : Nat) (t : Thread), Calm s c k →
    (∀ f : LdStF, Leads c k f.g l t → f.d.isS = false →
      ((∀ l ∈ k.lanes, ∀ t, c.thread? l = some t → let x := view s c k l t
          canonical (x.reg64 f.a + (x.w32 f.b).signExtend 64) = false) → Deliverable s c k 8 kn h →
        Traps (.ld f) s c k kn h { cause := 8, tval := 1, tpc := k.pc } ∧
        Traps (.lds f) s c k kn h { cause := 8, tval := 1, tpc := k.pc } ∧
        Traps (.st f) s c k kn h { cause := 8, tval := 1, tpc := k.pc } ∧
        Traps (.sts f) s c k kn h { cause := 8, tval := 1, tpc := k.pc }) ∧
      (∀ rs : Nat → List PageReq, (∀ l ∈ k.lanes, ∀ t, c.thread? l = some t → let x := view s c k l t
          let a := x.reg64 f.a + (x.w32 f.b).signExtend 64
          s.translate c.bed t.answered .read a (Wf.sizeBytes f.size) = .fault (rs l) ∧
            (f.m.hint = .nol1 ∨ s.l1Hit c x.agent false (linearPieces a.toNat (Wf.sizeBytes f.size)) = none)) →
        Parked (.ld f) s c k rs ∧ Parked (.lds f) s c k rs)) ∧
    (∀ f : LdStPF, Leads c k f.g l t → f.d.isS = false →
      (∀ l ∈ k.lanes, ∀ t, c.thread? l = some t → let x := view s c k l t
        let o := x.w32 f.a + x.w32 f.b
        o.getLsbD 31 = false ∧ kn.plot < o.toNat + Wf.sizeBytes f.size) → Deliverable s c k 9 kn h →
      Traps (.ldp f) s c k kn h { cause := 9, tval := (view s c k l t).w32 f.a + (view s c k l t).w32 f.b, tpc := k.pc } ∧
      Traps (.stp f) s c k kn h { cause := 9, tval := (view s c k l t).w32 f.a + (view s c k l t).w32 f.b, tpc := k.pc }) ∧
    ∀ (i : Instr) (g : Guard) (f : State → State) (sub : Nat), commitOf i = some (g, f) → Leads c k g l t →
      CommitFault s c k t.answered sub → Deliverable s c k 6 kn h →
      exec i s = .next (f (delivered s c k kn h { cause := 6, tval := BitVec.ofNat 32 sub, tpc := k.pc }))

/-! ## Atomics, barriers and queues -/

/-- ATOM and ATOMP write the combination of the old value and the operand, and D receives the old value; RED writes it and answers
nothing. On a migrating page ATOM and RED are held with it: the lane of an ATOM stalls, and its D receives the value that the page's
commit has returned (R209, R249 to R251). The lane commits; that all lanes of its group then go to the end of the block is the
model's reading (assumption 15). -/
def Obligations.Atomics : Prop :=
  ∀ (s : State) (c : Crew) (k : Group) (h : Dword) (l : Nat) (t : Thread), Calm s c k →
    (∀ (f : AtomF) (p : Part) (ps : List Part), Solo c k f.g l t →
      let x := view s c k l t
      let n := aBits f.w / 8
      let old := leNat (s.read p.loc n)
      let operand := wordsNat (x.srcRegs (Wf.atomOperandRegs f.op f.w) f.b)
      let w := s.atomicWrite x p.loc f.m f.op f.w operand
      let s1 := (s.make p.loc w).1.lineAfter s x p f.m.hint (x.reg64 f.a).toNat n
      (x.returned f.d = none → s.atomicAccess x .atomic (x.reg64 f.a) (aLog f.w) = .inr (p :: ps) →
        s.watch x false true true (x.reg64 f.a).toNat n = none →
        (p.mig = none → MayCommit s s1 c k t h → Commits (.atom f) s s1 c k h l (Reg.puts f.d (oldWords f.w old)) ∧
          Wrote s s1 p.loc (natBytes n (combined f.op f.w old operand))) ∧
        (∀ q, p.mig = some q → k.lanes = [l] → s.commitCheck c k t.answered = .ok →
          exec (.atom f) s = .next (swap (s.hold q.1 q.2 w true) k
            (c.setThread l fun t => { t with pc := k.pc, wait := .migr (q.2 / 65536) })))) ∧
      (∀ v, x.returned f.d = some v → MayCommit s s c k t h → Commits (.atom f) s s c k h l (Reg.puts f.d (oldWords f.w v)))) ∧
    (∀ (f : AtompF) (loc : Loc), Solo c k f.g l t →
      let x := view s c k l t
      let old := leNat (s.read loc (aBits f.w / 8))
      let operand := wordsNat (x.srcRegs (Wf.atomOperandRegs f.op f.w) f.b)
      let s1 := (s.make loc (s.atomicWrite x loc f.m f.op f.w operand)).1.markPlot x (x.w32 f.a) (aBits f.w / 8)
      s.plotAccess x (x.w32 f.a) (aBits f.w / 8) = .inr loc → pattern x false f.a % (aBits f.w / 8) = 0 →
      s.watch x true true true (pattern x false f.a) (aBits f.w / 8) = none →
      MayCommit s s1 c k t h → Commits (.atomp f) s s1 c k h l (Reg.puts f.d (oldWords f.w old)) ∧
        Wrote s s1 loc (natBytes (aBits f.w / 8) (combined f.op f.w old operand))) ∧
    (∀ (f : RedF) (p : Part) (ps : List Part), Solo c k f.g l t →
      let x := view s c k l t
      let a := x.reg64 f.a + (x.w32 f.b).signExtend 64
      let operand := wordsNat (x.regs (Wf.atomOperandRegs f.op f.w) f.d)
      let n := aBits f.w / 8
      let w := s.atomicWrite x p.loc f.m f.op f.w operand
      let s1 := heldOr s p w ((s.make p.loc w).1.lineAfter s x p f.m.hint a.toNat n)
      s.atomicAccess x .write a (aLog f.w) = .inr (p :: ps) → s.watch x false true true a.toNat n = none →
      MayCommit s s1 c k t h → Commits (.red f) s s1 c k h l [] ∧
        (p.mig = none → Wrote s s1 p.loc (natBytes n (combined f.op f.w (leNat (s.read p.loc n)) operand))))

/-- BAR makes one arrival at a barrier of the lane's team, which completes a phase when it is the last, and of which the departures from
that phase know; .SYNC then waits, at the header after its block, for the phase it arrived in (R220, R254 to R256). That all lanes
of a committing group go to the end of the block is the model's reading (assumption 15). -/
def Obligations.TeamBarriers : Prop :=
  ∀ (s : State) (c : Crew) (k : Group) (h : Dword) (l : Nat) (t : Thread) (f : BarF) (tm : Team) (b : Barrier), Calm s c k →
    Solo c k f.g l t → s.team? (c.ref t) = some tm → tm.bars[f.num.toNat]? = some b →
    let one (b : Barrier) : Barrier := arrived b (pattern (view s c k l t) false f.cnt) (s.liveThreads (c.ref t))
    let s1 := (s.give (view s c k l t).agent (.bar (c.ref t) f.num.toNat b.phase)).setTeam (c.ref t) fun x =>
      { x with bars := modifyAt x.bars f.num.toNat one };
    MayCommit s s1 c k t h →
    (f.arv = true → Commits (.bar f) s s1 c k h l []) ∧
    (f.arv = false → ∃ c', Did c c' k (only l []) (fun _ => []) ∧
      exec (.bar f) s = .next (landed s1 c k (blockEnd k.hdr k.hdrW)
        ((entered s1.fresh k.lanes (blockEnd k.hdr k.hdrW) h false c').setThread l
          fun t => { t with wait := .bar f.num.toNat b.phase })))

/-- Barrier objects (R257 to R261): BARI writes a fresh object; BARA counts one arrival down and answers the generation; BART adds
to the bytes outstanding; the arrival or the bytes that end a phase start the next generation; BARW answers a generation other
than the one given, and waits while it stands. Writes of an object in a migrating page are held with it: BARA stalls for the value
that the page's commit returns (R209). That a waiting lane executes BARW again is the model's form of the wait (assumption 58); that
all lanes of a committing group go to the end of the block is its reading (assumption 15). -/
def Obligations.BarrierObjects : Prop :=
  ∀ (s : State) (c : Crew) (k : Group) (h : Dword) (l : Nat) (t : Thread) (p : Part) (g a x e : Word), Calm s c k →
    let v := view s c k l t
    let told (s1 : State) (o : BarObj) (hint : Hint) : State := (s1.objectLine s v o hint p).markObject v o
    (∀ f : BarSF, Solo c k f.g l t → s.barObject (view s c k l t) .atomic true f.o = .inr p →
      let n : Word := if pattern (view s c k l t) false f.b % 2 ^ 31 = 0 then 1 else BitVec.ofNat 32 (pattern (view s c k l t) false f.b % 2 ^ 31)
      let s1 := told (s.makePart p (s.objectWrite v p.loc (modOf .rlx f.scope) (.bytes (object 0 n 0 n)))) f.o f.hint
      Onward s1 c k h → Does (.bari f) s s1 c k h l [] ∧ (p.mig = none → Wrote s s1 p.loc (object 0 n 0 n))) ∧
    (∀ f : BaraF, Solo c k f.g l t →
      (∀ old, v.returned f.d = some old → MayCommit s s c k t h →
        Commits (.bara f) s s c k h l [Reg.put f.d 0 (BitVec.ofNat 32 old)]) ∧
      (v.returned f.d = none → s.barObject v .atomic true f.o = .inr p →
        let w := s.objectWrite v p.loc (modOf .rel f.scope) .arrive
        let s1 := told (s.make p.loc w).1 f.o f.hint
        (s.read p.loc 16 = object g a x e → 0 < a.toInt → 0 < e.toInt → p.mig = none → MayCommit s s1 c k t h →
          Commits (.bara f) s s1 c k h l [Reg.put f.d 0 g] ∧
          Wrote s s1 p.loc (if a = 1 ∧ x = 0 then object (g + 1) e 0 e else object g (a - 1) x e)) ∧
        (∀ q, p.mig = some q → k.lanes = [l] → s.commitCheck c k t.answered = .ok →
          exec (.bara f) s = .next (swap (s.hold q.1 q.2 w true) k
            (c.setThread l fun t => { t with pc := k.pc, wait := .migr (q.2 / 65536) }))))) ∧
    (s.read p.loc 16 = object g a x e → 0 ≤ a.toInt → 0 < e.toInt →
      (∀ f : BarSF, Solo c k f.g l t → s.barObject (view s c k l t) .atomic true f.o = .inr p →
        let y := x + v.w32 f.b
        let s1 := told (s.makePart p (s.objectWrite v p.loc (modOf .rlx f.scope) (.transfer (v.w32 f.b)))) f.o f.hint
        MayCommit s s1 c k t h → Commits (.bart f) s s1 c k h l [] ∧
          (p.mig = none → Wrote s s1 p.loc (if a = 0 ∧ y = 0 then object (g + 1) e 0 e else object g a y e)))) ∧
    (∀ f : BarwF, Solo c k f.g l t → s.barObject (view s c k l t) .read false f.o = .inr p → s.migrWait [p] = none →
      let gen : Word := BitVec.ofNat 32 (leNat (s.read p.loc 4))
      let s1 := (s.strongReads v (modOf .acq f.scope) [(p.loc, 4)]).departObject p.loc (v.mark f.scope p.loc) (v.w32 f.b) gen
      (gen ≠ v.w32 f.b → Onward s c k h → Does (.barw f) s s1 c k h l [.v f.d.toNat gen] ∧ Alike true s s1) ∧
      (gen = v.w32 f.b → k.lanes = [l] → Stalls (.barw f) s c k l (.barw (v.obj f.o p) gen 0)))

/-- PQPUT appends an element, or reports a full queue; PQTAKE removes one of the first ranks, the first for a window of 1, or reports
an empty queue and all ones (R262 to R264). That all lanes of a committing group go to the end of the block is the model's reading
(assumption 15). -/
def Obligations.PriorityQueues : Prop :=
  ∀ (s : State) (c : Crew) (k : Group) (h : Dword) (l : Nat) (t : Thread) (q : PQueue), Calm s c k →
    (∀ f : PqputF, Solo c k f.g l t → let i := pattern (view s c k l t) false f.a
      (s.bed c.bed).pqs[i]? = some q →
      ((s.bed c.bed).pqCapacity ≤ q.elems.length → MayCommit s s c k t h →
        Commits (.pqput f) s s c k h l [.p f.pd.toNat true]) ∧
      (q.elems.length < (s.bed c.bed).pqCapacity →
        let kv := (view s c k l t).reg64 f.b
        let s1 := (s.give (view s c k l t).agent (.element c.bed i q.next)).setBed c.bed fun b => b.setPq i ⟨q.elems ++ [(lo32 kv, hi32 kv, q.next)], q.next + 1⟩
        MayCommit s s1 c k t h → Commits (.pqput f) s s1 c k h l [.p f.pd.toNat false])) ∧
    (∀ f : PqtakeF, Solo c k f.g l t → let i := pattern (view s c k l t) false f.a
      (s.bed c.bed).pqs[i]? = some q →
      (q.elems = [] → MayCommit s s c k t h →
        Commits (.pqtake f) s s c k h l [.p f.pb.toNat true, Reg.put f.d 0 0xFFFFFFFF, Reg.put f.d 1 0]) ∧
      (q.elems ≠ [] → ∃ e ∈ q.elems, q.elems.countP (fun y => ranksBefore y e) < takeWindow f.win ∧
        let s1 := ((s.take (view s c k l t).agent (.element c.bed i e.2.2)).forgetPoints (· == .element c.bed i e.2.2)).setBed
          c.bed fun b => b.setPq i ⟨q.elems.filter fun y => y.2.2 != e.2.2, q.next⟩
        (MayCommit s s1 c k t h →
          Commits (.pqtake f) s s1 c k h l [.p f.pb.toNat false, Reg.put f.d 0 e.1, Reg.put f.d 1 e.2.1])))

/-! ## Engine instructions -/

/-- PUSH: the 16 uniform registers of its descriptor enter the queue as one command and its token register is pending; a full
queue is reported in a predicate, or waited for, and a pending token register is waited for (R266, R294, R299). MARD reads words
of an accumulator slot, zero outside it (R315), and takes the Mixed Team trap where m0 holds threads of two teams (R45). The first
instruction that reads a token register whose error mark stands takes the Engine Error trap instead, with the status word, and the
mark is gone (R304). That all lanes of a committing group go to the end of the block is the model's reading (assumption 15). -/
def Obligations.Commands : Prop :=
  (∀ (s : State) (c c1 : Crew) (k : Group) (t : Thread) (kn : Kernel) (h : Dword) (ws : List Word) (i : Instr) (r : Nat)
      (rest : List Move), s.agenda = .issue k.cid t.pc :: rest → s.modState ≠ 3 →
    let u := { s with fresh := s.fresh + 1, cur := none, agenda := rest }
    let v := (noted u c k).keepWords c k.len k.pc
    Issuing u c k t ws → decodeWords (v.limits c k.lanes) ws = .instr i k.len → i.isCommit = false →
    scoreboard c k i (guardIn k.len ws) i.touch = [] → (true, r) ∈ i.touch.rd → r ∈ c.errs →
    (∀ q, (true, q) ∈ i.touch.rd → q ∈ c.errs → q = r) → v.crew? k.cid = some c1 → Calm { v with cur := some k } c1 k →
    actives c1 k (guardIn k.len ws) = k.lanes → (∀ l x, c1.thread? l = some x → x.pend = []) → Deliverable v c1 k 0x0D kn h →
    step s = .next (delivered v { c1 with errs := c1.errs.filter (· != r) } k kn h { cause := 0x0D, tval := c1.s.get r, tpc := k.pc })) ∧
  ∀ (s : State) (c : Crew) (k : Group) (h : Dword) (l : Nat) (t : Thread), Calm s c k →
    (∀ f : PushF, Solo c k f.g l t →
      let q := f.q.toNat
      let tok := (c.s.get (16 * f.sb.toNat + 15)).toNat % 256
      let cmd := s.newCmd (view s c k l t) q ((List.range 16).map fun i => c.s.get (16 * f.sb.toNat + i))
      let s1 := { s.learn (.agent cmd.agent) (s.upTo (view s c k l t).agent) with
        cmds := s.cmds ++ [cmd]
        nextCmd := s.nextCmd + 1 };
      (q = 0 → s.mixedTeam (view s c k l t) = none) →
      (tok ∉ c.tokens → s.queued c q < queueDepth q → MayCommit s s1 c k t h →
        CommitsAs (.push f) s s1 (c.pendToken tok) k h l (if f.pd = 7 then [] else [.p f.pd.toNat false])) ∧
      (tok ∉ c.tokens → queueDepth q ≤ s.queued c q →
        (f.pd ≠ 7 → MayCommit s s c k t h → Commits (.push f) s s c k h l [.p f.pd.toNat true]) ∧
        (f.pd = 7 → k.lanes = [l] → s.commitCheck c k t.answered = .ok → Stalls (.push f) s c k l (.queue q))) ∧
      (tok ∈ c.tokens → k.lanes = [l] → s.commitCheck c k t.answered = .ok → Stalls (.push f) s c k l (.token tok))) ∧
    (∀ f : MardF, Onward s c k h →
      (∀ l ∈ actives c k f.g, ∀ t, c.thread? l = some t → s.mixedTeam (view s c k l t) = none ∧
        s.slotPending (c.ref t) c.core f.slot.toNat = false) →
      WritesLate (.mard f) s c k h false f.g f.la.toNat (fun x =>
        let sel := pattern x false f.b
        let word (j : Nat) : Word := slotWord (s.slot x.ref (s.coreIndex x.ref c.core) f.slot.toNat) (sel % 256 + x.lane)
          (sel / 256 % 256 + j)
        (List.range (f.n1.toNat + 1)).map fun j => .v (f.d.toNat + j)
          (if f.bf16 then packBf16 (word (2 * j)) (word (2 * j + 1)) else word j))) ∧
    (∀ (f : MardF) (kn : Kernel) (u : Thread), Leads c k f.g l t → (∃ j ∈ members c 0, c.thread? j = some u ∧ u.team ≠ t.team) →
      l ∈ members c 0 → Deliverable s c k 0x0B kn h → Traps (.mard f) s c k kn h { cause := 0x0B, tval := 1, tpc := k.pc })

/-- RTINC adds to a routing counter and stays at its maximum, one past the last takes the Permission trap with sub-cause 6; RCSNAP
writes counters to memory and clears them; EXPF leaves a standing hint (R291, R292, R328). That all lanes of a
committing group go to the end of the block is the model's reading (assumption 15). -/
def Obligations.RoutingCounters : Prop :=
  ∀ (s : State) (c : Crew) (k : Group) (h : Dword) (l : Nat) (t : Thread), Calm s c k →
    (∀ f : TwoSrcF, Solo c k f.g l t →
      let i := pattern (view s c k l t) false f.a
      let n := pattern (view s c k l t) false f.b
      let s1 := s.setBed c.bed fun b =>
        { b with counters := b.counters.set i (BitVec.ofNat 32 (min ((b.counters.get i).toNat + n) 0xFFFFFFFF)) };
      (i < 4096 → MayCommit s s1 c k t h → Commits (.rtinc f) s s1 c k h l []) ∧
      (let s2 := s.setBed c.bed fun b => { b with
        experts := mapIf (fun e => e.num == i) (fun e => { e with standing := n % 256 }) b.experts };
        Onward s2 c k h → Does (.expf f) s s2 c k h l [])) ∧
    (∀ (f : TwoSrcF) (kn : Kernel), Leads c k f.g l t → s.commitCheck c k t.answered = .ok → Deliverable s c k 8 kn h →
      (∀ l ∈ k.lanes, ∀ t, c.thread? l = some t → 4096 ≤ pattern (view s c k l t) false f.a) →
      Traps (.rtinc f) s c k kn h { cause := 8, tval := 6, tpc := k.pc }) ∧
    (∀ (f : RcsnapF) (ps : List Part), Solo c k f.g l t →
      let a := (view s c k l t).pairN f.an f.a
      let first := pattern (view s c k l t) false f.b
      let n := pattern (view s c k l t) false f.c
      let bs := (List.range n).flatMap fun i => natBytes 4 ((s.bed c.bed).counters.get (first + i)).toNat
      let s1 := (followed s (s.writeParts (view s c k l t).agent ps bs) c .dflt ps (linearPieces a.toNat (4 * n)) bs).setBed c.bed fun b =>
        { b with counters := b.counters.setList first (List.replicate n 0) };
      0 < n → first + n ≤ 4096 → canonical a = true → a.toNat % 4 = 0 → s.access (view s c k l t) .write a (4 * n) = .inr ps →
      s.watch (view s c k l t) false false true a.toNat (4 * n) = none → MayCommit s s1 c k t h →
      Commits (.rcsnap f) s s1 c k h l [] ∧
      (c.bed < s.beds.length → ∀ i, (s1.bed c.bed).counters.get i =
        if first ≤ i ∧ i < first + n then 0 else (s.bed c.bed).counters.get i))

/-- RPOP hands out the stage at TAIL, FULL of an input ring and EMPTY of an output ring, and it is HELD; at the end of the walk it
answers all ones, in error all ones but bit 0, and otherwise waits. RREL empties a HELD stage of an input ring, RPUB publishes one
of an output ring; what RPOP of an input ring takes over it knows, what RREL and RPUB hand on is known there (R230, R284, R285, R321
to R323). What RPOP answers on a ring in error with stages FULL, and that all lanes of a committing group go to the end of the block,
are the model's reading (assumptions 15 and 43). -/
def Obligations.RingStages : Prop :=
  ∀ (s : State) (c : Crew) (k : Group) (h : Dword) (l : Nat) (t : Thread) (kn : Kernel) (a : Nat), Calm s c k →
    s.kernel? c.bed c.launch = some kn → a % 256 = 0 → a + 256 ≤ kn.plot →
    let hdr := s.ringHeader (c.ref t) a
    let put (s : State) (x : Nat) : State := s.write (.plot (c.ref t) a) (natBytes 64 x)
    field hdr 48 4 ≠ 0 →
    (∀ f : RpopF, Solo c k f.g l t → pattern (view s c k l t) false f.a = a →
      let i := ringTail hdr
      let s0 := if ringOut hdr then s else s.take (view s c k l t).agent (.stage (c.ref t) a i)
      let s1 := put s0 (hdr + (if ringOut hdr then 3 else 1) * 8 ^ i - 2 ^ 116 * i + 2 ^ 116 * ((i + 1) % ringStages hdr))
      (ringErr hdr = true → MayCommit s s c k t h → Commits (.rpop f) s s c k h l [Reg.put f.d 0 0xFFFFFFFE]) ∧
      (ringErr hdr = false → s.ringCovered (c.ref t) a hdr = false → ringStage hdr i = (if ringOut hdr then 0 else 2) →
        MayCommit s s1 c k t h →
        Commits (.rpop f) s s1 c k h l [Reg.put f.d 0 (BitVec.ofNat 32 (a + 256 + 256 * ringSize hdr * i))]) ∧
      (ringErr hdr = false → (s.ringCovered (c.ref t) a hdr = true ∨
          ringStage hdr i ≠ (if ringOut hdr then 0 else 2) ∧ ringDone hdr = true) → MayCommit s s c k t h →
        Commits (.rpop f) s s c k h l [Reg.put f.d 0 0xFFFFFFFF]) ∧
      (ringErr hdr = false → s.ringCovered (c.ref t) a hdr = false → ringStage hdr i ≠ (if ringOut hdr then 0 else 2) →
        ringDone hdr = false → k.lanes = [l] → s.commitCheck c k t.answered = .ok → Stalls (.rpop f) s c k l (.ring a))) ∧
    (∀ (f : TwoSrcF) (i : Nat), Solo c k f.g l t → pattern (view s c k l t) false f.a = a → i < ringStages hdr →
      0 < ringSize hdr → pattern (view s c k l t) false f.b = a + 256 + 256 * ringSize hdr * i → ringStage hdr i = 3 →
      let s0 := s.give (view s c k l t).agent (.stage (c.ref t) a i)
      (let s1 := put s0 (hdr - 3 * 8 ^ i);
        ringOut hdr = false → MayCommit s s1 c k t h → Commits (.rrel f) s s1 c k h l []) ∧
      (let s1 := put s0 (hdr + 8 ^ i);
        ringOut hdr = true → MayCommit s s1 c k t h → Commits (.rpub f) s s1 c k h l []))

/-! ## Scheduling instructions -/

/-- EMIT to a tray of this module appends its record where there is room, counts it and reports whether there was; LAUNCH hands
its record, as a weak load reads it, to the Cox and takes the launch's number or the refusal's code; ORDREL releases the stream of
its launch (R343, R360, R361). The trays that are full then fire. The order of LAUNCH's checks, what a closing record is checked for,
and that all lanes of a committing group go to the end of the block, are the model's reading (assumptions 15, 28 and 59). -/
def Obligations.Launching : Prop :=
  ∀ (s : State) (c : Crew) (k : Group) (h : Dword) (l : Nat) (t : Thread), Calm s c k →
    (∀ (f : EmitF) (inst : Nat) (gr : Graph) (n : Node), Solo c k f.g l t →
      let a := (view s c k l t).w32 f.a
      let node := a.toNat % 4096
      let bytes := ((view s c k l t).regs (f.n1.toNat + 1) f.b).flatMap fun w => natBytes 4 w.toNat
      let s1 := (s.setBed c.bed fun b => { b with idle := false }).setGraph c.bed inst fun g =>
        { g with nodes := modifyAt g.nodes node (fun n => { n with tray := n.tray ++ [{ bytes := bytes, age := 0, seen := s.upTo (view s c k l t).agent }] })
                 count := g.count + 1 };
      a.toNat / 2 ^ 24 = 0 → s.emitInst (view s c k l t) a = some inst → s.graph? c.bed inst = some gr →
      gr.nodes[node]? = some n → 4 * (f.n1.toNat + 1) = n.rsz →
      (n.tray.length < n.tcap → MayCommit s s1 c k t h →
        CommitsThen State.fireTrays (.emit f) s s1 c k h l (if f.pd = 7 then [] else [.p f.pd.toNat false])) ∧
      (n.tcap ≤ n.tray.length → MayCommit s s c k t h →
        CommitsThen State.fireTrays (.emit f) s s c k h l (if f.pd = 7 then [] else [.p f.pd.toNat true]))) ∧
    (∀ (f : LaunchF) (ps : List Part), Solo c k f.g l t →
      let a := (view s c k l t).reg64 f.a
      a.toNat % 64 = 0 → s.access (view s c k l t) .read a 320 = .inr ps →
      s.watch (view s c k l t) false true false a.toNat 320 = none → s.migrWait ps = none →
      ∃ s0 bs, Alike false s s0 ∧ Served s (view s c k l t) false (linearPieces a.toNat 320) (s.readParts ps) bs ∧
        ∀ s1 v, s0.submit c.bed bs (((s.launch? c.bed c.launch).map (·.dbg)).getD false) (s.upTo (view s c k l t).agent) = .ok (s1, v) →
          MayCommit s (s1.coxForget c.bed) c k t h →
          Commits (.launch f) s (s1.coxForget c.bed) c k h l [Reg.put f.d 0 (match v with
            | .accepted id => BitVec.ofNat 32 id
            | .refused code => BitVec.ofNat 32 (0xFFFFFF00 + code))]) ∧
    (∀ g, Solo c k g l t → let s1 := s.releaseStream c.bed c.launch (s.upTo (view s c k l t).agent)
      MayCommit s s1 c k t h → Commits (.ordrel g) s s1 c k h l [])

/-- SIGNAL adds to the count of an event object, or is held with a migrating page; WAITEV takes the count once it has reached its
threshold and waits until then (R209, R362). PARK.YIELD makes its team leave, to enter the pool at the time of the yield; PARK.EV
does unless the count has been reached already (R344, R354, R364). The order of an object's checks, and that all
lanes of a committing group go to the end of the block, are the model's reading (assumptions 15, 58 and 59). -/
def Obligations.EventObjects : Prop :=
  ∀ (s : State) (c : Crew) (k : Group) (h : Dword) (l : Nat) (t : Thread), Calm s c k →
    (∀ (f : SignalF) (p : Part) (ps : List Part), Solo c k f.g l t →
      let a := (view s c k l t).reg64 f.a
      let n := pattern (view s c k l t) false f.b
      let w := s.objectWrite (view s c k l t) p.loc (modOf .rel .device) (.atomic .add .b64 n)
      let s1 := heldOr s p w ((s.make p.loc w).1.lineAfter s (view s c k l t) p .dflt a.toNat 8)
      s.eventObject (view s c k l t) .atomic a = .inr (p :: ps) → s.watch (view s c k l t) false true true a.toNat 8 = none →
      MayCommit s s1 c k t h → Commits (.signal f) s s1 c k h l [] ∧
        (p.mig = none → Wrote s s1 p.loc (natBytes 8 ((leNat (s.read p.loc 8) + n) % 2 ^ 64)))) ∧
    (∀ (f : WaitevF) (loc : Loc), Solo c k f.g l t →
      let a := (view s c k l t).reg64 f.a
      let count := leNat (s.read loc 8)
      let n := pattern (view s c k l t) true f.b
      s.waitObject (view s c k l t) a = .inr loc → s.watch (view s c k l t) false true false a.toNat 8 = none →
      let s1 := s.strongReads (view s c k l t) (modOf .acq .device) [(loc, 8)]
      (n ≤ count → Onward s c k h → Does (.waitev f) s s1 c k h l (Reg.put64 f.d (BitVec.ofNat 64 count)) ∧ Alike true s s1) ∧
      (count < n → k.lanes = [l] → Stalls (.waitev f) s c k l (.waitev (.va c.bed (vaIndex a)) n 0))) ∧
    (∀ g, Solo c k g l t →
      let s1 := s.setTeam (c.ref t) fun x => x.toLeave (.preempt s.clock)
      MayCommit s s1 c k t h → CommitsThen State.settleLeaving (.parkYield g) s s1 c k h l []) ∧
    (∀ (f : ParkEvF) (loc : Loc), Solo c k f.g l t →
      let count := leNat (s.read loc 8)
      let n := pattern (view s c k l t) true f.b
      let s1 := s.setTeam (c.ref t) fun x => x.toLeave (.park [.event (.va c.bed (vaIndex ((view s c k l t).reg64 f.a))) n])
      s.waitObject (view s c k l t) ((view s c k l t).reg64 f.a) = .inr loc →
      (n ≤ count → MayCommit s s c k t h → CommitsThen State.settleLeaving (.parkEv f) s s c k h l []) ∧
      (count < n → MayCommit s s1 c k t h → CommitsThen State.settleLeaving (.parkEv f) s s1 c k h l []))

/-! ## Reordering, reduction and debugging -/

/-- REORDER takes its thread out of the crew, with its payload, into the bin of its key (R35, R157). REDL and SCANL leave a lane
pending until every lane of the mask is; then each receives its element of the tree's result, in the fixed order of R111 (R180 to
R182). When the Riddle flushes within a step is the model's reading (assumption 23). -/
def Obligations.Exchange : Prop :=
  ∀ (s : State) (c : Crew) (k : Group) (h : Dword), Calm s c k →
    (∀ (f : ReorderF) (l : Nat) (t : Thread), k.lanes = [l] → Solo c k f.g l t → t.handler = false → c.tokens = [] →
      t.pend = [] → s.commitCheck c k t.answered = .ok →
      let b : Binned :=
        { bed := c.bed, launch := c.launch, cluster := some c.cluster, bin := if f.team then some t.team else none,
          key := BitVec.ofNat 16 (pattern (view s c k l t) false f.key), team := t.team, tid := t.tid,
          pc := blockEnd k.hdr k.hdrW, vp := f.vp.toNat, payload := (List.range f.n.toNat).map fun i => t.v.get (f.vp.toNat + i),
          seq := s.binSeq, waited := 0, due := false, exempt := t.exempt, fences := t.fences }
      let s1 := if f.team then s else s.setLaunch c.bed c.launch fun la =>
        { la with mixed := if la.mixed.contains c.cluster then la.mixed else c.cluster :: la.mixed };
      exec (.reorder f) s = .next (State.endGroup (State.dropEmpty { s1.leaveRegs k.cid [l] with
        bins := s.bins ++ [b]
        binSeq := s.binSeq + 1
        crews := mapIf (fun x => x.cid == k.cid) (fun _ => c.remove l) s.crews }) c)) ∧
    (∀ (i : Instr) (g : Guard) (m : BitVec 4) (op : RedOp) (d n : Nat) (a : Src) (scan incl : Bool) (la : BitVec 4),
      (∃ f : RedlF, i = .redl f ∧ g = f.g ∧ m = f.m ∧ op = f.op ∧ d = f.d.toNat ∧ a = f.a ∧ la = f.la ∧ scan = false ∧
          incl = false) ∨
        (∃ f : ScanlF, i = .scanl f ∧ g = f.g ∧ m = f.m ∧ op = f.op ∧ d = f.d.toNat ∧ a = f.a ∧ la = f.la ∧ scan = true ∧
          incl = f.incl) →
      Together c k → Onward s c k h → d < 512 → m.toNat < 12 → n ∈ [4, 5, 6] → c.lanes.length = 2 ^ n →
      ((∃ j ∈ members c m, j ∉ actives c k g) →
        ∃ c', exec i s = .next (goes s c k h c') ∧ { c' with lanes := c.lanes } = c ∧ c'.lanes.length = c.lanes.length ∧
          (∀ l, l ∉ k.lanes → c'.thread? l = c.thread? l) ∧
          ∀ l ∈ k.lanes, ∀ t, c.thread? l = some t → c'.thread? l = some (if guardTrue g t then
            { t.retire k.pc with
              redl := some { id := s.fresh, m := m.toNat, op := op, d := d, scan := scan, incl := incl, pc := k.pc
                             value := (view s c k l t).w32 a, left := la.toNat, hdr := k.hdr } }
            else t.retire k.pc)) ∧
      ((∀ j ∈ members c m, j ∈ actives c k g) → actives c k g ≠ [] → Idle c k →
        let xs := (List.range c.lanes.length).map fun l => match c.thread? l with
          | some t => if l ∈ actives c k g then (view s c k l t).w32 a else identity op
          | none => identity op
        ∃ u c', exec i s = .next u ∧ u.crew? k.cid = some c' ∧ c'.fflags = c.fflags ||| treeFlags op scan incl n xs ∧
          (∀ b n, u.read b n = s.read b n) ∧
          ∀ l ∈ k.lanes, ∀ t, c.thread? l = some t → ∃ t', c'.thread? l = some t' ∧ t'.redl = none ∧
            ∀ r, t'.v.get r = if guardTrue g t = true ∧ r = d then treeWord op scan incl n xs l else t.v.get r))

/-- SYSC.CAP reads the capability registers (R129, R212). A DBG request is answered with a value and a status: 1 for a team that
does not exist, 2 for one that is not halted as the request needs; without debug privilege the Permission trap with sub-cause 8 is
taken (R130). HALT, RESUME, STEP, RDREG, WRREG, GETMASK and SETWP act on the team they name (R131, R132, R373 to R377, R381). The
status of a second HALT, the corners of selectors, the order of two statuses and a request to the lane's own team are the model's
reading (assumptions 18 and 67). -/
def Obligations.Debugging : Prop :=
  ∀ (s : State) (c : Crew) (k : Group) (h : Dword) (l : Nat) (t : Thread) (r : TeamRef), Calm s c k → Onward s c k h →
    (∀ f : SyscF, Writes (.sysc f) s c k h f.d.isS f.g (fun x => [Reg.put f.d 0 (match pattern x false f.b with
      | 0 => 0x03553556
      | 1 => BitVec.ofNat 32 (s.clusterCount c.bed * 2 ^ 16 + 0x184)
      | _ => 0)])) ∧
    (∀ (f : DbgF) (kn : Kernel) (j : Nat) (u : Thread) (hh : Dword), Leads c k f.g j u → Deliverable s c k 8 kn hh →
      (∀ la, s.launch? c.bed c.launch = some la → la.dbg = false) →
      ∀ i ∈ [Instr.dbgHalt f, .dbgStep f, .dbgRdreg f, .dbgWrreg f, .dbgSetwp f, .dbgGetmask f],
        Traps i s c k kn hh { cause := 8, tval := 8, tpc := k.pc } ∧
        exec (.dbgResume f) s = .next (State.settleLeaving (landed s c k kn.handler (entered s.fresh k.lanes kn.handler hh true
          (trapped { cause := 8, tval := 8, tpc := k.pc } k.lanes c))))) ∧
    (∀ f : DbgF, Solo c k f.g l t → (∃ la, s.launch? c.bed c.launch = some la ∧ la.dbg = true) →
      (∀ q, t.wait ≠ .step q true ∧ t.wait ≠ .halt q) → s.exists_ ((view s c k l t).target f.a) = false →
      ∀ i ∈ [Instr.dbgHalt f, .dbgStep f, .dbgRdreg f, .dbgWrreg f, .dbgSetwp f, .dbgGetmask f],
        Does i s s c k h l (answer f.d 0 1) ∧ DoesThen State.settleLeaving (.dbgResume f) s s c k h l (answer f.d 0 1)) ∧
    (∀ f : DbgF, Solo c k f.g l t → (∃ la, s.launch? c.bed c.launch = some la ∧ la.dbg = true) → (view s c k l t).target f.a = r →
      t.wait = .halt r ∨ t.wait = .step r true →
      Does (.dbgHalt f) s s c k h l (answer f.d 0 0) ∧ Does (.dbgStep f) s s c k h l (answer f.d 0 0)) ∧
    (∀ f : DbgF, Asks s c k f l t r → s.halted r = false →
      (∀ i ∈ [Instr.dbgStep f, .dbgRdreg f, .dbgWrreg f, .dbgGetmask f], Does i s s c k h l (answer f.d 0 2)) ∧
      DoesThen State.settleLeaving (.dbgResume f) s s c k h l (answer f.d 0 2)) ∧
    (∀ f : DbgF, Asks s c k f l t r → s.team? r = none →
      Does (.dbgHalt f) s { s with teams := s.teams ++ [{ freshTeam r with haltAtPlace := true }] } c k h l (answer f.d 0 0)) ∧
    (∀ (f : DbgF) (tm : Team), Asks s c k f l t r → s.team? r = some tm →
      (tm.halted = false → tm.haltAtPlace = false → tm.place.isSome = true →
        let s1 := (s.flushTeam r).setTeam r fun x => { x with halted := true, attached := true };
        let c1 := c.complete s.fresh (c.inFlight (c.lanesOfTeam r))
        (s.treeWaits r = false → DoesAs (.dbgHalt f) s s1 c1 k h l (answer f.d 0 0)) ∧
        (s.treeWaits r = true → k.lanes = [l] →
          exec (.dbgHalt f) s = .next (swap s1 k (c1.setThread l fun t => { t with pc := k.pc, wait := .halt r })))) ∧
      (tm.halted = false → tm.haltAtPlace = false → tm.place = none →
        Does (.dbgHalt f) s (s.setTeam r fun x => { x with haltAtPlace := true }) c k h l (answer f.d 0 0)) ∧
      (tm.halted = true ∨ tm.haltAtPlace = true → Does (.dbgHalt f) s s c k h l (answer f.d 0 2)) ∧
      (tm.halted = true →
        DoesThen State.settleLeaving (.dbgResume f) s (s.setTeam r fun x => { x with halted := false }) c k h l
          (answer f.d 0 0)) ∧
      (tm.halted = true → s.stepCrews r = [] → Does (.dbgStep f) s s c k h l (answer f.d 0 0)) ∧
      (tm.halted = true → s.stepCrews r ≠ [] → k.cid ∉ s.stepCrews r → k.lanes = [l] →
        exec (.dbgStep f) s = .next (swap (s.setTeam r fun x => { x with stepping := s.stepCrews r }) k
          (c.setThread l fun t => { t with pc := k.pc, wait := .step r true }))) ∧
      (∀ (tid : Nat) (n : Named) (c2 : Crew) (l2 : Nat) (t2 : Thread), tm.halted = true →
        s.named r ((view s c k l t).w32 f.b) = some (tid, n) → s.standing r tid = .lane c2 l2 t2 →
        (∀ w, s.readNamed c2 l2 t2 n = some w → Does (.dbgRdreg f) s s c k h l (answer f.d w 0)) ∧
        (∀ c3, c2.cid ≠ k.cid → n.writable = true → c2.writeNamed s.fresh l2 (((s.kernel? c2.bed c2.launch).map (·.handler)).getD 0)
            ((view s c k l t).w32 f.c) n = some c3 →
          let s1 := s.setCrew c2.cid fun _ => c3
          Does (.dbgWrreg f) s (if n.isPc then s1.dropReplies (.thread r tid) else s1) c k h l (answer f.d 0 0))) ∧
      (∀ (tid m : Nat) (hi : Bool) (c2 : Crew) (l2 : Nat) (t2 : Thread), tm.halted = true → tid < s.threadsOf r → tid < 2048 →
        m ≤ 11 ∨ m = 15 →
        pattern (view s c k l t) false f.b = tid * 2 ^ 19 + (if hi then 16 else 0) + m → s.standing r tid = .lane c2 l2 t2 →
        let w := if m = 15 then laneSet (c2.lanesOfTeam r) else c2.mask m
        Does (.dbgGetmask f) s s c k h l (answer f.d (if hi then hi32 w else lo32 w) 0)) ∧
      (∀ u kind len : Nat, u < 4 → 0 < kind → kind < 4 → len ≤ 12 →
        pattern (view s c k l t) false f.c = u + 8 * kind + 32 * len → pattern (view s c k l t) true f.b % 2 ^ len = 0 →
        (∀ p, tm.place = some p → s.unitTaken r p.cluster u = false) →
        Does (.dbgSetwp f) s (s.setTeam r fun y => { y with watches := (y.watches.filter fun v => v.unit != u) ++
          [{ unit := u, plot := false, rd := bit kind 0, wr := bit kind 1, len := len, base := (view s c k l t).w64 f.b }] })
          c k h l (answer f.d 0 0)))

/-! ## Steps of the engines -/

/-- Matrix commands. An MMA that may start captures its registers and its descriptor (R271, R311); one that has started writes its
next rows to the slot of each member of its group, every element by R109, and ends with its last row (R268 to R273, R278); a
GROUPED one writes C rows to memory (R310). A span group still incomplete in time ends TIMEOUT (R269). MAST, MALD and MAZ move a
region of a slot to and from memory, and clear a slot (R313, R314). That one step does one row, and the corners of the modes, are
the model's (assumptions 7, 13, 40 and 44). -/
def Obligations.MatrixCommands : Prop :=
  ∀ (s : State) (id n : Nat) (c : Cmd),
    (Waiting s id 1 c → c.rows = none → Mma.span c = 0 → s.moveTurn c = true → s.mmaStatus c = none →
      ∀ desc, s.readDesc c = .ok desc → descStatus c desc = none →
      ∀ p ∈ [(0, Instr.mmaDense id n), (1, .mmaGrouped id n), (2, .mmaExpand id n), (3, .mmaAbsorb id n)], Mma.mode c = p.1 →
        ∃ t y, exec p.2 s = .next t ∧ t.cmd? id = some y ∧ y.rows = some (s.captureRows c) ∧ y.desc = desc ∧ y.group = [id]) ∧
    (Waiting s id 1 c → c.rows.isSome = true → s.cmdResident c = true → ∀ i ∈ [Instr.mmaDense id n, .mmaGrouped id n,
        .mmaExpand id n, .mmaAbsorb id n], (∀ m, Mma.mode c = m → (m, i) ∈ [(0, Instr.mmaDense id n), (1, .mmaGrouped id n),
        (2, .mmaExpand id n), (3, .mmaAbsorb id n)]) →
      exec i s = exec i ((s.members c).foldl (fun s x => s.setCmd x.id fun y => { y with resume := false }) s)) ∧
    (∀ (lead : Cmd) (g : List Cmd), Waiting s id 1 c → c.rows.isSome = true → s.members c = lead :: g →
      (∀ x ∈ s.cmds, x.resume = false) →
      (∀ x ∈ lead :: g, x.waits = [] ∧ s.cmdResident x = true) → s.cmdResident c = true → (lead :: g).Pairwise (Apart s) →
      (∀ (side : Cmd → BSide) (w : Cmd → List (List Val)) (a : Cmd → Nat → List Val),
        s.loadWeights lead = .ok s → (∀ x ∈ lead :: g, s.sideB x = .ok (side x, w x)) →
        let all := (lead :: g).foldl (fun m x => max m (Mma.rowsOf x)) 0
        let hi := min all (lead.rp + n)
        (∀ x ∈ lead :: g, ∀ r, lead.rp ≤ r → r < hi → r < Mma.rowsOf x → s.aRow x r = .ok (a x r)) →
        ∀ p ∈ [(0, Instr.mmaDense id n), (2, .mmaExpand id n), (3, .mmaAbsorb id n)], Mma.mode c = p.1 →
          ∃ t, exec p.2 s = .next t ∧ ∀ x ∈ lead :: g,
            (∀ r j, r < 96 → j < 192 → (t.cmdSlot x).get (192 * r + j) =
              if lead.rp ≤ r ∧ r < hi ∧ r < Mma.rowsOf x ∧ j < Mma.colsOf x then
                (matrixElement s x (side x) (w x) a r j).getD ((s.cmdSlot x).get (192 * r + j))
              else (s.cmdSlot x).get (192 * r + j)) ∧
            ∃ y, t.cmd? x.id = some y ∧ y.rp = hi ∧ y.status = if hi = all then some 0 else x.status) ∧
      (Mma.mode c = 1 →
        (Mma.entries lead ≤ lead.entry → ∃ t, exec (.mmaGrouped id n) s = .next t ∧
          ∀ x ∈ lead :: g, ∃ y, t.cmd? x.id = some y ∧ y.status = some 0) ∧
        (let s1 := s.scratchSlots (lead :: g)
          ∀ dest bytes ps, lead.entry < Mma.entries lead → lead.rp < (tableEntry lead.desc lead.entry).rows →
          s1.groupedRow lead lead.entry lead.rp = .ok (dest, bytes) → s1.parts lead .write dest = .ok ps →
          exec (.mmaGrouped id 1) s = .next (((s1.puts lead (ps, bytes)).setProgress (lead :: g) lead.entry (lead.rp + 1)).runGrouped
            (lead :: g) lead.id (Mma.entries lead + 1) 0)))) ∧
    (Waiting s id 1 c → s.joins c c = true → (s.spanGroup c).length < (spanTile (Mma.span c)).2.2 →
      (∃ x ∈ s.spanGroup c, x.arrived = true ∧ 2 ^ 24 ≤ x.cycles) →
      ∃ t, exec (.spanGroupTimeout id) s = .next t ∧
        ∀ x ∈ s.spanGroup c, x.arrived = true → ∃ y, t.cmd? x.id = some y ∧ y.status = some 7) ∧
    (∀ ps : Nat → List Part, Waiting s id 2 c → s.moveTurn c = true → s.moveStatus c = none →
      (∀ i, i < Move.rows c → s.parts c .write (Move.range c i) = .ok (ps i)) →
      Ends (.mast id) s (putAll s c ((List.range (Move.rows c)).map fun i => (ps i, (List.range (Move.cols c)).flatMap fun j =>
        storeElem (Move.fmt c) (slotWord (s.cmdSlot c) (Move.frow c + i) (Move.fcol c + j))))) c 0 c.bytes) ∧
    (∀ bs : Nat → List Byte, Waiting s id 3 c → s.moveTurn c = true → s.moveStatus c = none →
      (∀ i, i < Move.rows c → s.operand c (Move.plot c) (Move.addr c + i * Move.str c) (Move.cols c * Move.size c) = .ok (bs i)) →
      ∃ t y, exec (.mald id) s = .next t ∧ t.cmd? id = some y ∧ y.status = some 0 ∧
        ∀ r j, r < 96 → j < 192 → (t.cmdSlot c).get (192 * r + j) =
          if Move.frow c ≤ r ∧ r < Move.frow c + Move.rows c ∧ Move.fcol c ≤ j ∧ j < Move.fcol c + Move.cols c then
            loadElem (Move.fmt c) (leNat (((bs (r - Move.frow c)).drop (Move.size c * (j - Move.fcol c))).take (Move.size c)))
          else (s.cmdSlot c).get (192 * r + j)) ∧
    (Waiting s id 4 c → s.moveTurn c = true → c.f 0 128 = 0 → c.f 130 286 = 0 → s.badSlot c = false →
      ∃ t y, exec (.maz id) s = .next t ∧ t.cmd? id = some y ∧ y.status = some 0 ∧ ∀ i, (t.cmdSlot c).get i = 0)

/-- CPY copies rows where no source byte is a destination byte (R316); GATH packs the rows an index list names, zero for an index
out of range, SCAT writes or adds packed rows to them (R290, R317); RAKE writes a bag's vector, or NaN for a bad bag (R289, R318,
R319); QCAST writes a block of 256 to 65,536 bytes to the plot of each target (R325); LXW fills a weight slot (R324). That one step
makes all of a command's effects, and that CPY's rows are written in ascending order where its destination rows overlap one another,
are the model's (assumptions 7, 40 and 42). -/
def Obligations.TransferCommands : Prop :=
  ∀ (s : State) (id : Nat) (c : Cmd),
    (∀ (data : Nat → List Byte) (from_ to_ : Nat → List Part), Waiting s id 5 c →
      let rows := c.f 160 16 + 1
      let src (r : Nat) : Range := ⟨c.bit 256, c.f 0 64 + r * c.f 192 32, c.f 128 32⟩
      let dst (r : Nat) : Range := ⟨c.bit 257, c.f 64 64 + r * c.f 224 32, c.f 128 32⟩
      c.f 176 16 = 0 → c.f 258 158 = 0 → c.f 128 32 ≠ 0 →
      (c.bit 256 = true → c.f 32 32 = 0 ∧ s.plotRows c (c.f 0 64) (c.f 192 32) rows (c.f 128 32) = true) →
      (c.bit 257 = true → c.f 96 32 = 0 ∧ s.plotRows c (c.f 64 64) (c.f 224 32) rows (c.f 128 32) = true) →
      (∀ r, r < rows → s.gets c (src r) = .ok (data r) ∧ s.parts c .read (src r) = .ok (from_ r) ∧
        s.parts c .write (dst r) = .ok (to_ r)) →
      (∀ r q, r < rows → q < rows → ∀ p ∈ to_ r, ∀ i, i < p.len → ∀ o ∈ from_ q, o.has (p.loc.add i) = false) →
      Ends (.cpy id) s (putAll s c ((List.range rows).flatMap fun r => pieces (to_ r) (data r))) c 0
        (c.f 128 32 * rows)) ∧
    (∀ (idx : List Word) (row : Word → List Byte) (ps : List Part), Waiting s id 6 c →
      let t := c.table
      let len := roundUp (t.n * t.rb) 256
      let bytes := idx.flatMap fun i => if i.toNat < t.nr then row i else List.replicate t.rb 0
      s.tableStatus c true len = none → s.getsWords c ⟨t.isp, t.idx, 4 * t.n⟩ = .ok idx →
      (∀ i ∈ idx, i.toNat < t.nr → s.gets c ⟨false, t.base + i.toNat * t.stride, t.rb⟩ = .ok (row i)) →
      s.parts c .write ⟨t.lsp, t.pack, len⟩ = .ok ps →
      Ends (.gath id) s (s.puts c (ps, bytes ++ List.replicate (len - bytes.length) 0)) c (idx.countP fun i => decide (t.nr ≤ i.toNat))
        c.bytes) ∧
    (∀ (idx : List Word) (packed : List Byte) (ps : Nat → List Part), Waiting s id 7 c →
      let t := c.table
      let good := (List.range t.n).filter fun j => decide (((idx[j]?).getD 0).toNat < t.nr)
      let row (j : Nat) : List Byte := (packed.drop (j * t.rb)).take t.rb
      s.tableStatus c false (t.n * t.rb) = none → s.getsWords c ⟨t.isp, t.idx, 4 * t.n⟩ = .ok idx →
      s.gets c ⟨t.lsp, t.pack, t.n * t.rb⟩ = .ok packed →
      (∀ j ∈ good, s.parts c .write ⟨false, t.base + ((idx[j]?).getD 0).toNat * t.stride, t.rb⟩ = .ok (ps j)) →
      Ends (.scat id) s (good.foldl (fun s j => if c.bit 138 then addRow s c (c.bit 139) (ps j) (row j) else s.puts c (ps j, row j)) s)
        c (t.n - good.length) c.bytes) ∧
    (∀ (desc : List Byte) (offs : List Word) (bag : Nat → Option (List Byte)) (ps : Nat → List Part), Waiting s id 8 c →
      let d := leNat desc
      let rlen := field d 96 12 + 1
      let eb := if c.bit 386 then 2 else 4
      let nb := c.f 320 16 + 1
      c.f 387 29 = 0 → c.f 336 16 = 0 → (c.f 384 2 ≠ 1 → c.f 128 64 = 0) → c.f 0 64 % 32 = 0 → c.f 64 64 % 4 = 0 →
      c.f 128 64 % 4 = 0 → c.f 192 64 % 4 = 0 → c.f 256 64 % eb = 0 → c.f 352 32 % eb = 0 →
      s.gets c ⟨false, c.f 0 64, 32⟩ = .ok desc → field d 160 96 = 0 → field d 116 12 = 0 → field d 108 4 = 0 →
      field d 112 4 ≤ 5 → field d 128 32 % 32 = 0 → rlen * rakeSize (field d 112 4) ≤ field d 128 32 →
      s.getsWords c ⟨false, c.f 192 64, 4 * (nb + 1)⟩ = .ok offs →
      (∀ b, b < nb → s.rakeBag c d offs b = .ok (bag b) ∧
        s.parts c .write ⟨false, c.f 256 64 + b * c.f 352 32, rlen * eb⟩ = .ok (ps b)) →
      Ends (.rake id) s (putAll s c ((List.range nb).map fun b => (ps b,
        (bag b).getD ((List.range rlen).flatMap fun _ => if c.bit 386 then [0xC0, 0x7F] else [0, 0, 0xC0, 0x7F]))))
        c ((List.range nb).countP fun b => (bag b).isNone) (nb * rlen * eb)) ∧
    (∀ (bs : List Byte) (la : Launch), Waiting s id 11 c → s.launch? c.bed c.launch = some la →
      let n := c.f 64 32
      let off := c.f 96 32
      let targets := ((List.range 32).filter fun i => c.bit (160 + i)).map fun i => c.f 128 32 + i
      c.f 193 223 = 0 → 256 ≤ n → n ≤ 65536 → n % 256 = 0 → targets ≠ [] → off % 256 = 0 → off + n ≤ la.kernel.plot →
      off < 2 ^ 31 →
      (c.bit 192 = true → c.f 32 32 = 0 ∧ s.plotRows c (c.f 0 64) 0 1 n = true) →
      (∀ t ∈ targets, t < la.teams ∧ s.residentIn ⟨c.bed, c.launch, t⟩ c.cluster = true) →
      s.gets c ⟨c.bit 192, c.f 0 64, n⟩ = .ok bs →
      Ends (.qcast id) s ((putAll s c (targets.map fun t => ([⟨.plot ⟨c.bed, c.launch, t⟩ off, n, 0, none⟩], bs))).setCmd id
        fun x => { x with arrived := false }) c 0 c.bytes) ∧
    (∀ bs : List Byte, Waiting s id 10 c →
      let dh := 16 * c.f 68 4
      c.f 72 344 = 0 → 0 < dh → dh ≤ 128 → c.f 0 64 % 256 = 0 → (∀ w ∈ s.lxs, w.cluster = c.cluster → s.slotUsed w = false) →
      s.gets c ⟨false, c.f 0 64, 768 * dh⟩ = .ok bs →
      Ends (.lxw id) s (s.putWeights { cluster := c.cluster, slot := c.f 64 4, bed := c.bed, launch := c.launch,
                                       addr := BitVec.ofNat 64 (c.f 0 64), dh := dh, data := halfWords bs }) c 0 (768 * dh))

/-- PATX lists the slots of the included positions and their pages (R279, R327). A merge group takes its members in and merges
when the last arrives, its rows in ascending team order (R113), to the plot of the lowest team; one still incomplete in time ends
TIMEOUT (R282, R326). An engine's token writes the command's status word, after the transfer update that is due, and the command
is gone (R260, R298 to R304). The values PATX refuses and the parting of effects and token are the model's reading (assumptions 40
and 41). -/
def Obligations.TokensAndLists : Prop :=
  ∀ (s : State) (id : Nat) (c : Cmd),
    (∀ (rb : List Byte) (gs : List Word) (pg : List Nat) (p1 p2 : List Part), Waiting s id 13 c →
      let r := leNat rb
      let l := c.f 64 32
      let sink := c.f 96 24
      let win := c.f 128 24
      let inc := (List.range l).filter fun p => decide ((∃ g ∈ gs, g.toNat = p) ∨
        (field r 0 32 ≠ 0 ∧ l ≤ p + field r 0 32) ∨ (field r 32 32 ≠ 0 ∧ p % field r 32 32 = field r 64 32))
      let gone (p : Nat) : Bool := decide (sink ≤ p ∧ p + win < l)
      let sl := (inc.filter fun p => !gone p).map fun p => if p < sink then p else sink + (p - sink) % win
      let b1 := natBytes 4 sl.length ++ sl.flatMap (natBytes 4)
      let b2 := natBytes 8 pg.length ++ pg.flatMap fun p => natBytes 8 (c.f 160 64 + 65536 * p)
      c.f 120 8 = 0 → c.f 152 8 = 0 → c.f 384 32 = 0 → win ≠ 0 → sink + win ≤ 2 ^ 24 → c.f 224 64 % 4 = 0 → c.f 288 64 % 8 = 0 →
      s.gets c ⟨false, c.f 0 64, 64⟩ = .ok rb → field r 192 320 = 0 → field r 96 32 ≤ 65536 →
      (field r 32 32 ≠ 0 → field r 64 32 < field r 32 32) → s.getsWords c ⟨false, field r 128 64, 4 * field r 96 32⟩ = .ok gs →
      pg.Pairwise (· < ·) → (∀ x, x ∈ pg ↔ ∃ y ∈ sl, x = y / 85) → sl.length ≤ c.f 352 32 → pg.length ≤ c.f 352 32 →
      s.parts c .write ⟨false, c.f 224 64, b1.length⟩ = .ok p1 → s.parts c .write ⟨false, c.f 288 64, b2.length⟩ = .ok p2 →
      Ends (.patx id) s (putAll s c [(p1, b1), (p2, b2)]) c (inc.countP gone) (b1.length + b2.length)) ∧
    (∀ ws : List Word, Waiting s id 12 c → c.arrived = false → s.cmdResident c = true → s.mergeStatus c = none →
      (∀ x ∈ s.mergeGroup c, Mrg.key x = Mrg.key c ∧ x.team ≠ c.team) →
      (s.mergeGroup c = [] → (s.mergeGroups c.cluster).length < 8) →
      s.getsWords c ⟨true, Mrg.poff c, Mrg.rows c * Mrg.pitch c⟩ = .ok ws →
      let rows := (List.range (Mrg.rows c)).map fun i => (ws.drop (Mrg.pitch c / 4 * i)).take (2 + Mrg.d c)
      let s1 := s.setCmd id fun x => { x with arrived := true, cycles := 0, partial_ := rows };
      exec (.cmrg id) s = .next (if Mrg.n c ≤ (s1.mergeGroup c).length then s1.mergeDone (s1.mergeGroup c) else s1)) ∧
    (∀ (g rest : List Cmd) (ps : Nat → List Part), (c :: rest).Perm g →
      (c :: rest).Pairwise (fun x y => x.team < y.team ∧ x.id ≠ y.id) → c.type = 12 →
      (∀ x ∈ rest, x.type = 12 ∧ Mrg.key x = Mrg.key c) →
      (∀ i, i < Mrg.rows c → s.parts c .write ⟨true, Mrg.ooff c + i * Mrg.outPitch c, Mrg.outLen c⟩ = .ok (ps i)) →
      let row (i : Nat) : List Word := rest.foldl (fun r x => mergeTwo r ((x.partial_[i]?).getD [])) ((c.partial_[i]?).getD [])
      let s1 := putAll s c ((List.range (Mrg.rows c)).map fun i => (ps i, mergedRow (Mrg.norm c) (Mrg.bf c) (row i)));
      s.mergeDone g = { s1 with
        cmds := mapIf (fun x => (c :: rest).any (·.id == x.id))
          (fun x => { x with
            status := some 0, count := 0, group := (c :: rest).map (·.id), answered := []
            update := if x.bobj then some (Mrg.rows c * Mrg.pitch c) else none }) s1.cmds }) ∧
    (Waiting s id 12 c → c.arrived = true → (∃ x ∈ s.mergeGroup c, 2 ^ 24 ≤ x.cycles) →
      ∃ t, exec (.mergeGroupTimeout id) s = .next t ∧ ∀ x ∈ s.mergeGroup c, ∃ y, t.cmd? x.id = some y ∧ y.status = some 7) ∧
    (∀ (w : Crew) (st : Nat), s.cmd? id = some c → c.waits = [] → s.crew? c.cid = some w → c.status = some st →
      (∀ x ∈ s.updatesBefore c, x.update = none) →
      ∃ t w', exec (.engineTokenWrite id) s = .next t ∧ t.crew? c.cid = some w' ∧ Told w w' c st ∧ t.cmd? id = none ∧
        ∀ a n, t.read a n = s.read a n) ∧
    (∀ m, s.cmd? id = some c → c.waits = [] → c.status = none → c.typeOk = false →
      (c.bobj = true → (∃ p, s.cmdObject c = .ok p) ∧ s.headBytes c = .ok m ∧ (c.type ≠ 9 → m = c.bytes)) →
      exec (.engineTokenWrite id) s = .next { s with
        cmds := mapIf (fun x => x.id == id)
          (fun x => { x with status := some 1, count := 0, update := if x.bobj then some m else none, answered := [] }) s.cmds }) ∧
    (∀ (w : Crew) (st m : Nat) (p : Part) (g a x e : Word), s.cmd? id = some c → c.waits = [] → s.crew? c.cid = some w →
      c.status = some st → c.update = some m → s.updatesBefore c = [c] → s.cmdObject c = .ok p →
      s.read p.loc 16 = object g a x e → 0 ≤ a.toInt → 0 < e.toInt →
      let y := x - BitVec.ofNat 32 m
      let w1 := s.updateWrite c p.loc (BitVec.ofInt 32 (-(m : Int)))
      let s1 := heldOr s p w1 (s.make p.loc w1).1
      Wrote s (s.make p.loc w1).1 p.loc (if a = 0 ∧ y = 0 then object (g + 1) e 0 e else object g a y e) ∧
      ∃ t w', exec (.engineTokenWrite id) s = .next t ∧ t.crew? c.cid = some w' ∧ Told w w' c st ∧ t.cmd? id = none ∧
        t.migrations = s1.migrations ∧ ∀ b n, t.read b n = s1.read b n) ∧
    (∀ (u : State) (all : Bool), s.cmd? id = some c → c.waits = [] → c.status.isSome = true →
      s.makeUpdates (s.updatesBefore c) = (u, all) → ∃ t, exec (.engineTokenWrite id) s = .next t ∧
        (∀ b n, t.read b n = u.read b n) ∧ (all = false → t.cmd? id ≠ none ∧ t.crew? c.cid = s.crew? c.cid) ∧
        (all = true → t.cmd? id = none))

/-- A subscription writes its ring's header and begins its walk (R284, R320); a feeder takes up the EMPTY stage at HEAD and leaves
it FULL of its tiles, the rest of the last stage zero; a storer takes up a PUBLISHED one, writes its tiles out and leaves it EMPTY
(R285, R286); what is handed on with a stage is known to whoever takes it up (R230). An instruction in flight completes: its results
reach its registers (R70), in every lane that issued it, which is the model's reading (assumption 60), as the parting of a stage's
start and end is (assumptions 40 and 43). -/
def Obligations.RingEngines : Prop :=
  ∀ (s : State) (id : Nat) (c : Cmd),
    (∀ tiles : Nat, Waiting s id 9 c → c.walk = none →
      let h := c.f 0 32
      let stsz := c.f 64 16
      let nstg := c.f 48 4
      let hdr := 2 ^ 48 * nstg + (if c.bit 52 then 2 ^ 52 else 0) + 2 ^ 64 * stsz
      let s1 := (s.write (.plot c.ref h) (natBytes 64 hdr)).forgetPoints fun n => match n with
        | .stage t j _ => t == c.ref && j == h
        | _ => false
      let begun (s : State) : State := s.setCmd id fun x => { x with walk := some (x.subWalk tiles), answered := [] };
      c.f 80 16 = 0 → c.f 54 10 = 0 → 0 < nstg → 0 < stsz → stsz ≤ 16384 → 0 < tiles → tiles < 2 ^ 32 → h % 256 = 0 →
      h + 256 + 256 * stsz * (nstg + 1) ≤ ((s.kernel? c.bed c.launch).map (·.plot)).getD 0 → h < 2 ^ 31 → s.ringBusy c h = false →
      (c.bit 53 = true → c.f 32 16 = 0 → c.f 160 64 = 0 → c.f 224 192 = 0 → c.f 96 64 % 8 = 0 →
        (∃ bs, s.gets c ⟨false, c.f 96 64, 8⟩ = .ok bs ∧ tiles = 255 * leNat bs) → exec (.rsub id) s = .next (begun s1)) ∧
      (c.bit 53 = false → tiles = c.f 224 32 * c.f 256 32 * c.f 288 32 →
        (∃ r, s.shape c.cluster c.bed (c.f 32 16) c.home c.answered = .record r) →
        exec (.rsub id) s = .next (begun (s1.keepShape c.cluster c.bed (c.f 32 16))))) ∧
    (∀ w : Walk, Waiting s id 9 c → c.walk = some w → (∃ tm, s.team? c.ref = some tm ∧ tm.place.isSome = true) →
      let hdr := s.ringHeader c.ref w.hdr
      let head := ringHead hdr
      let put (x : Nat) : State := (s.take c.agent (.stage c.ref w.hdr head)).write (.plot c.ref w.hdr) (natBytes 64 x)
      let count := min w.stsz (w.tiles - w.cursor)
      (w.out = false → w.cursor < w.tiles → ringStage hdr head = 0 → exec (.feederFillStart id) s = .next (put (hdr + 8 ^ head))) ∧
      (w.out = true → w.cursor < w.tiles → ringStage hdr head = 4 → exec (.storerDrainStart id) s = .next (put (hdr + 8 ^ head))) ∧
      (∀ (tile : Nat → List Byte) (ps : List Part), w.out = false → ringStage hdr head = 1 →
        (∀ i, i < count → (s.walkTile c w (w.cursor + i)).bind (s.tileBytes c) = .ok (tile i)) →
        s.parts c .write ⟨true, stageAt w.hdr hdr head, 256 * w.stsz⟩ = .ok ps →
        let bs := (List.range count).flatMap tile
        exec (.feederFillComplete id) s =
          .next (((s.puts c (ps, bs ++ List.replicate (256 * w.stsz - bs.length) 0)).give c.agent
            (.stage c.ref w.hdr head)).stageDone c w hdr 2)) ∧
      (∀ (bs : List Byte) (tile : Nat → TilePieces) (ps : Nat → Nat × Range → List Part), w.out = true → ringStage hdr head = 5 →
        s.gets c ⟨true, stageAt w.hdr hdr head, 256 * count⟩ = .ok bs →
        (∀ i, i < count → s.walkTile c w (w.cursor + i) = .ok (tile i) ∧
          ∀ p ∈ (tile i).1, s.parts c .write p.2 = .ok (ps i p)) →
        exec (.storerDrainComplete id) s = .next (State.settleLeaving ((putAll s c ((List.range count).flatMap fun i =>
          (tile i).1.map fun p => (ps i p, (bs.drop (256 * i + p.1)).take p.2.len))).stageDone c w hdr 0))) ∧
      (∀ u : State, ∀ new, w.tiles ≤ w.cursor + count → u.cmd? id = some c →
        ∃ y, (u.stageDone c w hdr new).cmd? id = some y ∧ y.status = some 0)) ∧
    (∀ (cid l i : Nat) (x : Crew) (t : Thread) (q : Pend), s.crew? cid = some x → x.thread? l = some t → t.pend[i]? = some q →
      let mine (j : Nat) : List Pend := (((x.thread? j).map (·.pend)).getD []).filter (·.id == q.id)
      ∃ u x', exec (.longLatencyResultWrite cid l i) s = .next u ∧ u.crew? cid = some x' ∧ (∀ a n, u.read a n = s.read a n) ∧
        x'.fflags = x.fflags ||| raised ((x.live.flatMap mine).map fun p => .flags p.fl) ∧
        (∀ r, (∀ j, ∀ p ∈ mine j, ∀ w ∈ p.s, w.1 ≠ r) → x'.s.get r = x.s.get r) ∧
        ∀ j y, x.thread? j = some y → ∃ y', x'.thread? j = some y' ∧ y'.pend = y.pend.filter (·.id != q.id) ∧
          (∀ r, (∀ p ∈ mine j, ∀ w ∈ p.v, w.1 ≠ r) → y'.v.get r = y.v.get r) ∧
          ∀ p, mine j = [p] → p.v.Pairwise (fun a b => a.1 ≠ b.1) → ∀ w ∈ p.v,
            y'.v.get w.1 = w.2 ∨ q.id < y.v.stamp w.1 ∧ y'.v.get w.1 = y.v.get w.1)

/-! ## The Cox and the Riddle -/

/-- A record in an inlet is captured once, its V bit cleared, and accepted or refused: a launch enters the pool with what its
record says (R331 to R333, R344), a graph instance starts or is closed (R334). A tray that may fire gives a launch of one team its
records (R337, R338). What a closing record is checked for, and that the Cox retries an action that waits for a page, are the
model's reading (assumption 28). -/
def Obligations.Records : Prop :=
  ∀ (s : State) (bed : Nat),
    (∀ (inlet : Nat) (s1 : State) (v : Verdict), inlet < 16 →
      let bs := (s.bed bed).inlets.read (512 * inlet) 320
      let h := leNat ((s.bed bed).inlets.read (512 * inlet) 64)
      Record.valid h = true → s.submit bed bs true (s.upTo .companion) = .ok (s1, v) →
      ∀ i, (Record.graph h = false ∧ i = Instr.kernelLaunch bed inlet) ∨
          (Record.graph h = true ∧ Record.close h = false ∧ i = .graphStart bed inlet) ∨
          (Record.graph h = true ∧ Record.close h = true ∧ i = .closeRecord bed inlet) →
        exec i s = .next ((s1.coxForget bed).setBed bed fun b =>
          { b with inlets := b.inlets.write (512 * inlet + 13) [b.inlets.get (512 * inlet + 13) &&& 0x7F] })) ∧
    (∀ (bs : List Byte) (priv : Bool) (seen : Clock) (k : Kernel), let h := leNat (bs.take 64)
      (s.bed bed).on = true → (s.bed bed).fenced = false → Record.graph h = false → s.loadOf bed < 65536 →
      (Record.dbg h = true → priv = true) → s.recordBad bed h = false → (s.bed bed).prioOk (Record.prio h) = true →
      (Record.kdesc h).toNat % 64 = 0 → s.readKernel bed (Record.kdesc h) = .ok (.good k) → Record.stat h = 0 →
      ∃ s1 la, s.submit bed bs priv seen = .ok (s1, .accepted la.id) ∧ s1.launches = s.launches ++ [la] ∧ la.bed = bed ∧ la.kernel = k ∧
        la.teams = Record.teams h + 1 ∧ la.prio = Record.prio h ∧ la.dbg = Record.dbg h ∧ la.slice = Record.slice h ∧
        la.parkt = Record.parkt h ∧ la.rfl = Record.rfl_ h ∧ la.event = Record.event h ∧ la.tag = Record.tag h ∧
        la.ublk = bytesWords ((bs.drop 64).take 256) ∧ la.begun = [] ∧
        s1.pool = s.pool ++ [{ bed := bed, launch := la.id, team := none, time := s.clock, passes := 0 }]) ∧
    (∀ (inst node : Nat) (key : Word) (g : Graph) (n : Node), s.graph? bed inst = some g → g.nodes[node]? = some n →
      (s.bed bed).fenced = false → let k := if n.ord then some key else none
      n.fires k = true →
      exec (.trayFlush bed inst node key) s = .next ((s.fire bed inst node k).countBy bed inst 0) ∧
      (n.coal ≠ 0 → (n.ublk = 0 ∨ ∃ bs, s.coxRead bed n.ublk 256 = .ok (some bs)) → s.launch? bed (s.launchId bed) = none →
        ∃ la f, (s.fire bed inst node k).launches = s.launches ++ [la] ∧ la.firing = some f ∧ la.teams = 1 ∧
        la.kernel = n.kernel ∧ la.prio = n.prio ∧ f.inst = inst ∧ f.node = node ∧ f.key = k ∧
        f.recs = ((n.tray.filter fun r => n.keyOf r == k).take n.coal).map (·.bytes)))

/-- DISPATCH places the first entry of the pool that fits, as it is or after a pre-emption for its level, the more urgent and the
older before it passed over: the order is by level, and by time among equals (R344 to R347, R352). A team leaves when its slice
ends with one as urgent in the pool (R352), or when its threads have waited long enough (R355); a parked one enters the pool again
when a condition holds (R356), and one whose threads have all exited retires and is in the pool no more (R30, R344, R357). Threads
leave a bin in order of arrival for an empty slot of their launch: those of one that is due, and, of a domain that holds no other,
those of one whose oldest has waited the launch's limit (R37, R38, R43). The arithmetic of levels, the pick of a slot and the units are the model's
reading (assumptions 23, 25 and 26). -/
def Obligations.Placement : Prop :=
  ∀ (s : State) (bed : Nat),
    (∀ (pick : Nat) (pre post : List PoolEntry), (s.bed bed).on = true → (s.bed bed).fenced = false → s.poolOrder bed = pre ++ post →
      (∀ x ∈ pre, ∀ u, s.entryUnit x pick = some u → s.placeUnit x.bed u = none ∧ s.chooseVictims x u = none) →
      (post = [] → exec (.dispatch bed pick) s = .next s) ∧
      ∀ e rest u, post = e :: rest → s.entryUnit e pick = some u →
        (∀ t, s.placeUnit e.bed u = some t → exec (.dispatch bed pick) s = .next (t.poolAfter e u)) ∧
        (∀ cl vs, s.placeUnit e.bed u = none → s.chooseVictims e u = some (cl, vs) →
          let s1 := vs.foldl (fun s v => s.leave v (.preempt (s.firstTime v))) s
          exec (.dispatch bed pick) s = .next (((s1.placeUnitIn u cl).map fun t => t.poolAfter e u).getD s1))) ∧
    (∀ (e : PoolEntry) (rest : List PoolEntry), s.poolOrder bed = e :: rest →
      (∀ x ∈ s.pool, x.bed = bed → s.overdue x = false) → ∀ x ∈ s.pool, x.bed = bed →
      s.levelOf e < s.levelOf x ∨ s.levelOf e = s.levelOf x ∧ e.time ≤ x.time) ∧
    (∀ (r : TeamRef) (tm : Team) (la : Launch), s.team? r = some tm → s.launch? r.bed r.launch = some la →
      (tm.place.isSome = true → tm.leaving = none → (∀ q ∈ s.unitOf r, s.halted q = false) → tm.halted = false →
        (0 < la.slice → la.slice * 1024 ≤ tm.slice → 0 < s.liveThreads r →
          ((∃ e ∈ s.pool, e.bed = r.bed ∧ s.levelOf e ≤ la.prio) →
            exec (.sliceExpiry r) s = .next (s.leave r (.preempt la.entryTime))) ∧
          ((∀ e ∈ s.pool, e.bed = r.bed → la.prio < s.levelOf e) →
            exec (.sliceExpiry r) s = .next (s.setTeam r fun x => { x with slice := 0 }))) ∧
        (0 < la.parkt → s.parkDue r la.parkt = true → exec (.parkThresholdExpiry r) s = .next (s.leave r (.park [])))) ∧
      (tm.parked = true → (∃ q ∈ tm.conds, s.condHolds q = true) →
        exec (.teamWake r) s = .next (State.setBed { s with
          pool := s.pool ++ [{ bed := r.bed, launch := r.launch, team := some r.team, time := s.clock, passes := 0 }]
          teams := mapIf (fun x => x.ref == r) (fun x => { x with parked := false, entryTime := s.clock }) s.teams } r.bed
          fun b => { b with idle := false })) ∧
      (tm.started = true → la.failed = false → s.liveThreads r = 0 → (∀ x ∈ s.cmds, x.ref ≠ r) →
        exec (.teamRetire r) s = .next (s.retire r la) ∧
        (la.tev = false → la.firing = none → la.retired + 1 < la.teams → ∃ u, exec (.teamRetire r) s = .next u ∧
          u.team? r = none ∧ u.crews = s.crews ∧ (u.launch? r.bed r.launch).map (·.retired) = some (la.retired + 1) ∧
          ∀ e ∈ u.pool, e.bed = r.bed → e.launch = r.launch → e.team ≠ some r.team))) ∧
    (∀ (bin : BinRef) (pick : Nat) (la : Launch) (bs : List Binned) (i : Instr), s.launch? bin.bed bin.launch = some la →
      bs ≠ [] → bs.length ≤ la.kernel.width → s.emptySlots bin.bed bin.launch bin.cluster bin.team ≠ [] →
      (i = .riddleAgeFlush bin pick ∧ bs = s.binOf bin ∧ 0 < la.rfl ∧ (∃ b, bs.head? = some b ∧ la.rfl ≤ b.waited) ∧
          (∀ b ∈ s.domain bin.bed bin.launch bin.cluster, b.inBin bin = true ∧ b.due = false)) ∨
        (i = .riddleDeferredFlush bin pick ∧ bs = (s.binOf bin).take la.kernel.width ∧ ∃ b ∈ s.binOf bin, b.due = true) →
      ∃ u c, exec i s = .next u ∧ u.bins = s.bins.filter (fun b => !(bs.any fun x => x.seq == b.seq)) ∧
        u.crews.getLast? = some c ∧ c.cid = s.nextCid ∧ u.nextCid = s.nextCid + 1 ∧
        (c.owner, c.core, c.slot) ∈ s.emptySlots bin.bed bin.launch bin.cluster bin.team ∧ c.cluster = bin.cluster ∧
        ∀ j, (c.thread? j).map (fun t => (t.team, t.tid, t.rkey)) = (bs[j]?).map fun b => (b.team, b.tid, b.key.setWidth 32))

/-! ## The memory system's own steps -/

/-- The MMP's requests, of one page each: MAP installs a leaf on zeroed frames, FREE removes one, SHARE gives a second page the
same frames, PROTECT changes rights and cacheability, MIGRATE begins a move, LOOKUP writes leaf entries to memory (R207 to R209).
A request is consumed with its status. A move commits (R209), the prefetcher begins one (R292), a fault is served or declined
(R203 to R205). When MIGRATE answers, which frames are taken and what may be installed are the model's reading (assumptions 19, 21
and 22). -/
def Obligations.MemoryService : Prop :=
  ∀ (s : State) (src : ReqSource) (h pick : Nat), let bed := srcBed src
    let va := vaIndex (Req.va h)
    let n := 2 ^ (Req.shift h - 16)
    (∀ (s1 s2 : State) (a f : Nat), Posted s src 1 h → Req.count h = 1 → Req.kind h ≤ 2 → Req.cache h ≠ 3 →
      s.newLeafAt bed va (Req.level h) pick = .inl (s1, a) →
      (s1.takeFrames bed (Req.kind h) n pick = some (s2, f) → exec (.map src pick) s = .next ((s2.setEntry a
        (1 + (if Req.level h < 3 then 2 else 0) + Req.rights h * 8 + Req.cache h * 128 + Req.kind h * 512 +
          f * 65536)).endRequest src 0)) ∧
      (s1.takeFrames bed (Req.kind h) n pick = none → exec (.map src pick) s = .next (s.endRequest src 1))) ∧
    (∀ l : Leaf, Posted s src 2 h → Req.count h = 1 → s.pageLeaf bed va (Req.shift h) = some l → l.mig = false →
      exec (.free src) s = .next ((s.freePage bed l).endRequest src 0)) ∧
    (∀ (l : Leaf) (s1 : State) (a : Nat), Posted s src 3 h → Req.count h = 1 → Req.cache h ≠ 3 → Req.rangeOk h (Req.src h) = true →
      (srcWindow src = true → Req.inWindow h (Req.src h) = false) →
      s.pageLeaf bed (vaIndex (Req.src h)) (Req.shift h) = some l → l.mig = false → Req.rights h &&& l.rights = Req.rights h →
      (∀ x ∈ (s.bed bed).framesOf l.kind, l.frame ≤ x.frame → x.frame < l.frame + 2 ^ (l.shift - 16) → x.refs < 0xFFFF) →
      s.newLeafAt bed va (Req.level h) (s.choose 30 va (2 ^ 40)) = .inl (s1, a) →
      exec (.share src) s = .next (((s1.setFrames bed l.kind (if l.kind = 3 then id else raiseFrames l.frame (2 ^ (l.shift - 16)))).setEntry
        a (leafEntry (Req.level h) l.kind (Req.cache h) (Req.rights h) l.frame l.peer)).endRequest src 0)) ∧
    (∀ l : Leaf, Posted s src 4 h → Req.count h = 1 → Req.cache h ≠ 3 → s.pageLeaf bed va (Req.shift h) = some l → l.mig = false →
      exec (.protect src) s = .next (((s.shootDown bed l.va l.shift).setEntry l.at_ (l.entry - l.rights * 8 - l.cache * 128 + Req.rights h * 8 +
        Req.cache h * 128)).endRequest src 0)) ∧
    (∀ (l : Leaf) (s1 : State) (f : Nat), Posted s src 5 h → Req.count h = 1 → Req.kind h ≤ 2 →
      s.pageLeaf bed va (Req.shift h) = some l → l.mig = false → s.moving bed va = false →
      s.takeFrames bed (Req.kind h) (2 ^ (l.shift - 16)) pick = some (s1, f) →
      let m : Migration := { bed := bed, va := l.va, psz := l.shift, kind := Req.kind h, newPa := f * 65536, held := [],
                             reply := some src }
      let s2 := (s1.shootDown bed l.va l.shift).setEntry l.at_ (l.entry + 4096)
      exec (.migrate src pick) s = .next (State.syncWindow { s2 with migrations := s2.migrations ++ [m] } bed)) ∧
    (∀ ps : List Part, Posted s src 6 h → (Req.src h).toNat % 8 = 0 →
      s.translate bed [] .write (Req.src h) (8 * Req.count h) = .ok ps →
      exec (.lookup src) s = .next ((s.writeParts .mmp ps ((List.range (Req.count h)).flatMap fun i =>
        natBytes 8 (((s.walk bed (va + i * 2 ^ Req.shift h)).map (·.entry)).getD 0))).endRequest src 0)) ∧
    (∀ op, Posted s src op h → bed < s.beds.length → ∀ st, let b := (s.endRequest src st).bed bed
      (srcWindow src = true → b.head = (s.bed bed).head + 1) ∧ (srcWindow src = false → b.passed = (s.bed bed).passed.drop 1)) ∧
    (∀ (bed page : Nat) (m : Migration), s.mmpSwitching = false → s.migration? bed (page * 65536) = some m →
      exec (.migrationCommit bed page) s = .next (s.commitMove m) ∧
      (m.reply = none → (s.commitMove m).migrations.map (fun x => { x with held := [] }) =
        (s.migrations.filter fun x => !x.covers m.bed m.va).map fun x => { x with held := [] })) ∧
    (∀ (bed num : Nat) (e : Expert) (l : Leaf) (t : State), s.mmpSwitching = false →
      ((s.bed bed).experts.find? fun e => e.num == num) = some e → let page := vaIndex e.va + 65536 * (pick % max 1 e.pages)
      s.walk bed page = some l → l.mig = false → s.moving bed page = false → l.kind ≤ 1 →
      s.beginMove bed l (1 - l.kind) (pick / max 1 e.pages) none = some t →
      exec (.expertPrefetch bed num pick) s = .next (t.syncWindow bed)) ∧
    (∀ (bed page : Nat), s.mmpSwitching = false → s.pageWanted bed page = true →
      (s.walk bed (page * 65536) = none → exec (.mmpFaultService bed page .declined) s = .next (s.served bed page fun _ => false)) ∧
      (∀ l, s.walk bed (page * 65536) = some l →
        exec (.mmpFaultService bed page .declined) s = .next (s.served bed page fun fw => !(fw && l.fw)) ∧
        ∀ e : Dword, (l.fw = false → exec (.mmpFaultService bed page (.backed e)) s = .next (s.served bed page fun _ => true)) ∧
          let level := if l.shift = 16 then 3 else if l.shift = 26 then 2 else 1
          (l.fw = true → l.mig = false → s.moving bed (page * 65536) = false → s.entryOk bed level e.toNat = true →
            exec (.mmpFaultService bed page (.backed e)) s =
              .next (((s.installLeaf bed level l.at_ e.toNat (some l)).syncWindow bed).served bed page fun _ => true))) ∧
      (∀ (e : Dword) (s1 : State) (a : Nat), s.walk bed (page * 65536) = none → s.entryOk bed 3 e.toNat = true →
        s.ensureEntry bed (page * 65536) 3 (s.choose 30 page (2 ^ 40)) 4 = some (s1, a) →
        exec (.mmpFaultService bed page (.backed e)) s =
          .next (((s1.installLeaf bed 3 a e.toNat none).syncWindow bed).served bed page fun _ => true)))

/-- The companion's aperture reaches physical memory (R402); a peer's request is performed once, over a link that is up and for a
bed that is not fenced (R360, R403). A frame is steered, counted and becomes a record in its tray, or is held by its port, or is
dropped and counted (R340, R341, R404 to R406); a held record follows when there is room; a port's clock slews or steps (R407). A
link that fails is down (R403); a report is written to the debug mailbox, EVT last by a release (R383, R384). The places of counters
and the order of a frame's checks are the model's reading (assumptions 29 and 39). The model's choices: a sequence number not above one
seen in its block is a duplicate (assumption 52; R403 speaks of duplicates only); the sign of a PTP trim and its 0 at an offset of 0 (assumption 38); that a peer's and the companion's accesses release and acquire
(assumption 71). -/
def Obligations.OutsideTraffic : Prop :=
  ∀ s : State,
    (∀ pa n, (s.paWaits pa n = true → exec (.apertureAccess (.read pa n)) s = .next s ∧ s.apertureRead pa n = none) ∧
      (s.paWaits pa n = false → ∃ t bs, exec (.apertureAccess (.read pa n)) s = .next t ∧ Alike true s t ∧
        s.apertureRead pa n = some bs ∧ bs.length = n ∧ ∀ i, i < n → bs[i]? =
          if decide (Config.dumpBase ≤ pa + i ∧ pa + i < Config.dumpBase + Config.dumpSize) || s.firmwareAt (pa + i) then some 0
          else (s.read (.mod (pa + i)) 1)[0]?)) ∧
    (∀ pa (bs : List Byte), Canonical s → s.movingFrame pa = none →
      (∀ i, i < bs.length → s.apertureKeeps (pa + i) = true ∧ windowRo (pa + i) = false ∧ slotMask (pa + i) = 0xFF) →
      ∃ t, exec (.apertureAccess (.write pa bs)) s = .next t ∧ t.read (.mod pa) bs.length = bs ∧
        ∀ a, a < pa ∨ pa + bs.length ≤ a → t.read (.mod a) 1 = s.read (.mod a) 1) ∧
    (∀ pa op w x, aBits w ≤ 64 → x < 2 ^ aBits w ∨ op = .cas → pa % (aBits w / 8) = 0 → s.movingFrame pa = none →
      s.apertureKeeps pa = true → ∃ t, exec (.apertureAccess (.atomic pa op w x)) s = .next t ∧
        Wrote s t (.mod pa) (natBytes (aBits w / 8) (combined op w (leNat (s.read (.mod pa) (aBits w / 8))) x))) ∧
    (∀ link peer seq op (l : Link), s.links[link]? = some l → l.up = true → l.peer = peer → s.peerWaits op = false →
      (∀ q ∈ s.seqs, q.peer = peer → q.block = peerBlock op → q.seq < seq) →
      let s1 := { s with
        seqs := (s.seqs.filter fun q : PeerSeq => !(q.peer == peer && q.block == peerBlock op)) ++ [PeerSeq.mk peer seq (peerBlock op)] };
      (peerBed s op = none → exec (.peerRequest link peer seq op) s = .next (s1.peerDo peer op)) ∧
      (∀ b, peerBed s op = some b → (s.bed b).fenced = false →
        exec (.peerRequest link peer seq op) s = .next ((s1.setBed b fun x => { x with idle := false }).peerDo peer op))) ∧
    (∀ link peer seq op, (∃ q ∈ s.seqs, q.peer = peer ∧ q.block = peerBlock op ∧ seq ≤ q.seq) →
      exec (.peerRequest link peer seq op) s = .next s) ∧
    (∀ (port : Nat) (frame : List Byte), 2 ≤ s.modState → s.modState ≠ 3 → port < s.ports.length →
      (8388608 < 64 * (s.port port).held.length + frame.length → ∀ good,
        exec (.frameReceive port frame good) s = .next (counted s (36 + port))) ∧
      (64 * (s.port port).held.length + frame.length ≤ 8388608 →
        exec (.frameReceive port frame false) s = .next (counted (counted s 12) (32 + port)) ∧
        (s.steer? port frame = none → exec (.frameReceive port frame true) s = .next (counted s (32 + port))) ∧
        (∀ (rule : Nat) (seqs bufs : List Part), s.steer? port frame = some rule →
          let p := s.port port
          let r := ((p.rules[rule]?).map (·.toNat)).getD 0
          let bed := Rule.bed r
          let key := frameWord frame (Rule.koff r) &&& Rule.kmask r
          let size := 256 * Rule.bsz r
          let at_ := Rule.fbase r + BitVec.ofNat 64 (size * ((p.steered[rule]?).getD 0 % max 1 (Rule.nbuf r)))
          let bytes := frame.take size
          (s.bed bed).on = true → (s.bed bed).fenced = false →
          s.portParts bed (Rule.seqt r + BitVec.ofNat 64 (4 * packKey r key)) 4 = some seqs →
          s.portParts bed at_ size = some bufs →
          let seq := leNat (s.readThrough seqs)
          let s1 := (((s.writeParts (.port port) seqs (natBytes 4 (seq + 1))).writeParts (.port port) (takeParts bytes.length bufs)
            bytes).setPort port fun p => { p with steered := modifyAt p.steered rule (· + 1) }).setGraph bed (Rule.inst r) fun g =>
              { g with count := g.count + 1 };
          let record := natBytes 64 (p.sec + 2 ^ 48 * p.ns + 2 ^ 80 * p.frac + 2 ^ 96 * (port % 4) + 2 ^ 112 * (frame.length % 65536) +
            2 ^ 128 * key + 2 ^ 160 * seq + 2 ^ 192 * at_.toNat + 2 ^ 256 * rule + (if size < frame.length then 2 ^ 264 else 0))
          let room := s1.trayRoom bed (Rule.inst r) (Rule.node r) && !(s1.port port).holdsFor bed (Rule.inst r) (Rule.node r)
          exec (.frameReceive port frame true) s = .next (if room then
              (s1.trayPut bed (Rule.inst r) (Rule.node r) record (s1.upTo (.port port))).fireTrays
            else s1.setPort port fun p => { p with held := p.held ++
              [{ bed := bed, inst := Rule.inst r, node := Rule.node r, bytes := record, seen := s1.upTo (.port port) }] })))) ∧
    (∀ port bed inst node (x : HeldRec) (rest : List HeldRec), takeHeld bed inst node (s.port port).held = some (x, rest) →
      (s.bed bed).fenced = false → s.trayRoom bed inst node = true →
      exec (.heldRecordDelivery port bed inst node) s =
        .next (((s.setPort port fun p => { p with held := rest }).trayPut bed inst node x.bytes x.seen).fireTrays)) ∧
    (∀ port (off : Int) (p : Port), s.ports[port]? = some p → p.holdover = false → ∃ t p', exec (.ptpMessage port off) s = .next t ∧
      t.ports[port]? = some p' ∧ t.mem = s.mem ∧
      (off.natAbs < 1000000 → ∃ r : Int, 1 ≤ r ∧ r ≤ 500 ∧
        p' = { p with slew := off * 65536, trim := if off < 0 then -r else if off = 0 then 0 else r }) ∧
      (1000000 ≤ off.natAbs → 0 ≤ (p.sec : Int) * 1000000000 + p.ns + off → p.ns < 1000000000 → p.frac < 65536 →
        (p.sec : Int) * 1000000000 + p.ns + off < 2 ^ 48 * 1000000000 →
        (p'.sec : Int) * 1000000000 + p'.ns = p.sec * 1000000000 + p.ns + off ∧ p'.frac = p.frac ∧ p'.slew = 0 ∧ p'.trim = 0)) ∧
    (∀ link (l : Link), s.links[link]? = some l → exec (.hyfinLinkFailure link) s = .next { counted s (14 + link) with
      links := modifyAt s.links link fun l => { l with up := false } }) ∧
    (∀ bed (r : Report) (rest : List Report), (s.bed bed).reports = r :: rest → let base := (s.bed bed).block.mbox
      let gone (s : State) : State := (s.setBed bed fun b => { b with reports := rest }).coxForget bed
      (base = 0 → exec (.mailboxReport bed) s = .next (gone s)) ∧
      (∀ ps qs w e : List Part, base ≠ 0 → s.mailParts bed base 16 = .ok (some ps) → (∀ p ∈ ps, s.partWaits p = none) →
        let head := leNat (s.readParts ps)
        let wr := field head 64 32
        BitVec.ofNat 32 wr - BitVec.ofNat 32 (field head 96 32) ≠ 32#32 →
        s.mailParts bed (base + BitVec.ofNat 64 (0x100 + 64 * (wr % 32))) 64 = .ok (some qs) →
        s.mailParts bed (base + 8) 4 = .ok (some w) → s.mailParts bed base 8 = .ok (some e) →
        let s1 := (s.writeParts .cox qs (natBytes 64 (r.value wr))).writeParts .cox w (natBytes 4 (wr + 1))
        exec (.mailboxReport bed) s = .next (gone (s1.releaseParts (s1.coxStrong [] false) e (natBytes 8 (field head 0 64 + 1))))))

/-! ## Errors, power and Trellis -/

/-- A device-fatal error stops the module in STATE 3 with a dump of its cause and tells every bed that is on; memory keeps its
contents (R385, R390, R391). Another uncorrectable error is counted and contained in its launch, its command, its bed or its frame
(R385 to R389). Throttling changes no result, an idle bed's clocks stop (R400, R411). Power loss ends all state; at power-on a
good boot runs, a refused image answers status 3 (R403, R408, R412). The places of counters, some containments and what survives
power loss are the model's reading (assumptions 29, 35 and 37). -/
def Obligations.ErrorsAndPower : Prop :=
  ∀ s : State,
    (s.modState ≠ 3 → ∀ (link : FatalLink) (die : Nat), ∀ p ∈ [(Instr.watchdogExpiry, 6, none), (.thermalTrip, 5, none),
        (.mmpFirmwareFault die, 4, some die), (.uncorrectableError .firmwareFrame, 2, none), (.uncorrectableError .coxState, 1, none),
        (.linkReplayExhausted link, 3, some (match link with
          | .hbm i => i
          | .lpddr i => i
          | .binal => 0))],
      (p.2.1 = 5 → 840 < s.dieTemp ∨ 360 < s.inletTemp) →
      ∃ t d, exec p.1 s = .next t ∧ t.modState = 3 ∧ t.dump = some d ∧ d.cause = p.2.1 ∧ (∀ i, p.2.2 = some i → d.detail = i) ∧
        d.done = true ∧ t.mem = s.mem ∧ t.crews = s.crews ∧ t.messages = s.messages ++ told s 8 p.2.1) ∧
    (s.dieTemp ≤ 840 → s.inletTemp ≤ 360 → exec .thermalTrip s = .next s) ∧
    (∀ rest, s.agenda = .powerTrip :: rest → s.modState ≠ 3 → ∃ t d, step s = .next t ∧ t.modState = 3 ∧ t.dump = some d ∧
      d.cause = 5 ∧ d.done = true ∧ t.mem = s.mem ∧ t.crews = s.crews ∧ t.messages = s.messages ++ told s 8 5) ∧
    (∀ p ∈ [(ErrSite.tlb, 7), (.l2Clean, 8)], exec (.uncorrectableError p.1) s = .next (counted s p.2)) ∧
    (∃ t, exec (.uncorrectableError .l1) s = .next t ∧ { t with l1 := s.l1 } = counted s 6 ∧ ∀ x ∈ t.l1, x ∈ s.l1) ∧
    (∀ row ∈ [0, 1, 2, 3, 8, 9, 10, 11], ∀ rest, s.agenda = .corrected row :: rest → s.modState ≠ 3 →
      step s = .next (counted { s with fresh := s.fresh + 1, cur := none, agenda := rest } row)) ∧
    (∀ cid (c : Crew), s.crew? cid = some c →
      exec (.uncorrectableError (.registers cid)) s = .next ((counted s 0).failLaunch c.bed c.launch)) ∧
    (∀ t : TeamRef, ∀ p ∈ [(ErrSite.teamPlot t, 1), (.clusterPlot t.bed t.launch, 2), (.riddle t.bed t.launch, 3),
        (.riddleNet t.bed t.launch, 4), (.accumulator t, 5), (.savedContext t, 10)],
      exec (.uncorrectableError p.1) s = .next ((counted s p.2).failLaunch t.bed t.launch)) ∧
    (∀ bed, ∀ p ∈ [(ErrSite.l2Dirty bed, 9), (.bedFrame bed, 10)],
      exec (.uncorrectableError p.1) s = .next ((counted s p.2).fenceBed bed)) ∧
    (∀ id (c : Cmd), s.cmd? id = some c → c.status = none → ∃ t y, exec (.uncorrectableError (.command id)) s = .next t ∧
      t.cmd? id = some y ∧ y.status = some 12) ∧
    exec .throttleStep s = .next (if 2600000 < s.power ∨ 2350000 < s.packagePower ∨ 760 < s.dieTemp
      then { s with stepDowns := s.stepDowns + 1 } else s) ∧
    (∀ bed, (s.bed bed).on = true → (s.bed bed).block.pstate.getLsbD 1 = true →
      (∀ t ∈ s.teams, t.ref.bed = bed → t.place = none) → (∀ e ∈ s.pool, e.bed ≠ bed) →
      (∀ g ∈ s.graphs, g.bed = bed → ∀ n ∈ g.nodes, n.tray = []) →
      (∀ i, i < 16 → ((s.bed bed).inlets.get (512 * i + 13)).getLsbD 7 = false) →
      exec (.bedIdle bed) s = .next (s.setBed bed fun b => { b with idle := true })) ∧
    exec .powerLoss s = .next { State.reset with
      agenda := s.agenda, fresh := s.fresh, host := s.host, peers := s.peers, peerFences := s.peerFences, messages := s.messages
      sent := s.sent, mmpImage := s.mmpImage, trellisImage := s.trellisImage } ∧
    (s.modState = 0 → ∀ a b : FwImage,
      let good (i : FwImage) (target : Nat) : Bool := i.signed && decide (Config.fusedVersion target ≤ i.version)
      (good a 1 = false → exec (.powerOn a b) s = .next { closed s 3 with modState := 1 }) ∧
      (good a 1 = true → ∃ ls, ls.length = 18 ∧
        exec (.powerOn a b) s = .next (if good b 0 then
            { s with modState := 2, links := ls, trellisImage := a, mmpImage := b }
          else { closed s 3 with modState := 1, links := ls, trellisImage := a })))

/-- A write to the management window reaches the command register and the blocks of beds that are off, and nothing that is
read-only (R396 to R399). Trellis performs its commands and answers a status (R397 to R399, R404, R408 to R412): CONFIGURE, BED
ON, BED OFF, ATTEST, UPDATE, RESET, REGISTER EXPERT, STEER and MMP REQUEST; while the module boots, and while Trellis is updated,
every one but RESET answers busy. The report of ATTEST is laid out as R409 lays it out; which bytes its digests and its signature
hold is free, and the order of its two versions is the model's choice (assumption 30). The places of arguments, some statuses and
what RESET keeps are the model's choices (assumptions 32, 36, 37 and 54), and so are what a bed starts with and where its service
window is mapped (Bed.started and mapWindow; assumptions 14 and 20), and that the unnamed bits of CMD and of a bed block are kept as
written (assumption 68). -/
def Obligations.TrellisCommands : Prop :=
  ∀ s : State, let u := opened s
    let b := s.cmdArg 0
    (∀ off size data, 0 < size → off + size ≤ 64 → s.cdone = true →
      let x : BitVec 512 := BitVec.ofNat 512 (putField s.cmdReg.toNat (8 * off) (8 * size) data)
      let op := (x.toNat % 256)
      (x.getLsbD 63 = false → exec (.registerWrite (0x100 + off) size data) s = .next { s with cmdReg := x }) ∧
      let busy : Prop := s.modState < 2 ∨ s.update.map (·.1) = some 1
      (x.getLsbD 63 = true → busy → op ≠ 6 →
        exec (.registerWrite (0x100 + off) size data) s = .next (closed (opened { s with cmdReg := x }) 1)) ∧
      (x.getLsbD 63 = true → 1 ≤ op → op ≤ 9 → ¬ busy ∨ op = 6 →
        exec (.registerWrite (0x100 + off) size data) s = .next { s with cmdReg := x, cdone := false }) ∧
      (x.getLsbD 63 = true → op = 0 ∨ 9 < op → ¬ busy →
        exec (.registerWrite (0x100 + off) size data) s = .next (closed (opened { s with cmdReg := x }) 2))) ∧
    (∀ off size data, 0 < size → off + size ≤ 64 → s.cdone = false → exec (.registerWrite (0x100 + off) size data) s = .next s) ∧
    (∀ bed off size data, bed < 8 → off < 0x58 → off + size ≤ 0x1000 → 0 < size →
      exec (.registerWrite (0x10000 + 0x1000 * bed + off) size data) s = .next (if (s.bed bed).on then s else s.setBed bed fun x =>
        { x with block := BedBlock.ofValue (putField x.block.value (8 * off) (8 * min size (0x58 - off)) data), configured := false })) ∧
    (∀ off size data, off < 0x100 → off + size ≤ 0x100 → exec (.registerWrite off size data) s = .next s) ∧
    (s.cmdPosted = true → s.modState < 2 → ∀ v, ∀ p ∈ [(1, Instr.configure), (2, .bedOn), (3, .bedOff), (4, .attest), (5, .update v),
      (7, .registerExpert), (8, .steer), (9, .mmpRequest)], s.cmdOp = p.1 → exec p.2 s = .next (closed u 1)) ∧
    (Ordered s 1 → (s.blockOk b = true → exec .configure s =
        .next (closed (u.setBed b fun x => { x with configured := true, counters := Bank.zero }) 0)) ∧
      (s.blockOk b = false → exec .configure s = .next (closed u 2))) ∧
    (Ordered s 2 → b < s.beds.length → (s.bed b).on = false → (s.bed b).configured = true → ∀ t root,
      (u.setBed b Bed.started).newTable b (s.choose 35 100 (2 ^ 40)) = some (t, root) →
      exec .bedOn s = .next (closed ((t.setBed b fun x => { x with root := root }).mapWindow b) 0)) ∧
    (Ordered s 3 → b < s.beds.length → (s.bed b).on = true →
      (s.loadOf b = 0 → ∃ t, exec .bedOff s = .next (closed t 0) ∧ (t.bed b).on = false ∧ (∀ m ∈ t.migrations, m.bed ≠ b) ∧
        (∀ x ∈ t.l1, x.bed ≠ b) ∧ (∀ x ∈ t.lxs, x.bed ≠ b) ∧ (∀ x ∈ t.posts, x.bed ≠ b) ∧ t.mem = s.mem) ∧
      (s.loadOf b ≠ 0 → exec .bedOff s = .next (closed u 1))) ∧
    (Ordered s 4 → ∃ key trellis mmp beds sign : List Byte, (∀ d ∈ [key, trellis, mmp, beds], d.length = 48) ∧ sign.length = 96 ∧
      exec .attest s = .next (closed (u.perform .companion (.host (s.cmdArg 6)) (natBytes 8 0x0000000141545354 ++
        natBytes 48 (field s.cmdReg.toNat 64 384) ++ key ++ trellis ++ mmp ++ beds ++ natBytes 4 s.trellisImage.version ++
        natBytes 4 s.mmpImage.version ++ sign)) 0)) ∧
    (Ordered s 5 → s.cmdArg 1 ≤ 1 → s.modState ≠ 3 → s.update = none →
      ∀ i : FwImage, let good := i.signed && decide (Config.fusedVersion (s.cmdArg 1) ≤ i.version)
      (good = false → exec (.update i) s = .next (closed u 3)) ∧
      (good = true → ∃ t, exec (.update i) s = .next t ∧ t.modState = 4 ∧ t.update = some (s.cmdArg 1, i) ∧
        t.cstat = 0 ∧ t.cdone = true ∧ (s.cmdArg 1 = 0 → t.migrations = []) ∧
        (s.cmdArg 1 = 1 → t.mem = s.mem ∧ ∀ p ∈ t.ports, p.holdover = true))) ∧
    (∀ x, s.update = some x → s.modState = 4 → ∃ t, exec .updateComplete s = .next t ∧ t.modState = 2 ∧ t.update = none ∧
      t.mmpImage = (if x.1 = 0 then x.2 else s.mmpImage) ∧ t.trellisImage = (if x.1 = 0 then s.trellisImage else x.2) ∧
      t.messages = s.messages ++ told s 7 x.1 ∧ t.mem = s.mem) ∧
    (s.cmdPosted = true → s.cmdOp = 6 → ∃ t, exec .reset s = .next t ∧ t.modState = 0 ∧ t.cstat = 0 ∧ t.cdone = true ∧
      t.crews = [] ∧ t.launches = [] ∧ t.l1 = [] ∧ t.beds = State.reset.beds ∧ t.dump = s.dump ∧
      t.mem = s.mem.filter fun c => decide (0xC000000000 ≤ c.1)) ∧
    (Ordered s 7 → b < s.beds.length → (s.bed b).on = true → exec .registerExpert s = .next (closed (u.setBed b fun x =>
      { x with experts := (x.experts.filter fun y => y.num != s.cmdArg 1) ++
          [{ num := s.cmdArg 1, va := BitVec.ofNat 64 (s.cmdArg 2), pages := s.cmdArg 3, standing := 0 }] }) 0)) ∧
    (Ordered s 8 → b < s.ports.length → s.cmdArg 1 < 64 → let r := leNat (s.host.read (s.cmdArg 2) 64)
      let old := (((s.port b).rules[s.cmdArg 1]?).map (·.toNat)).getD 0
      Rule.valid r = true →
      (s.ruleOk b r = false → exec .steer s = .next (closed u 2)) ∧
      (s.ruleOk b r = true → Rule.valid old = false → exec .steer s = .next (closed ((u.setPort b fun p =>
        { p with rules := modifyAt p.rules (s.cmdArg 1) fun _ => BitVec.ofNat 512 r
                 steered := modifyAt p.steered (s.cmdArg 1) fun _ => 0 }).setGraph (Rule.bed r) (Rule.inst r) fun g =>
          { g with count := g.count + 1 }) 0))) ∧
    (Ordered s 9 → b < s.beds.length → (s.bed b).on = true → s.mmpSwitching = false → exec .mmpRequest s =
      .next (closed (u.setBed b fun x => { x with passed := x.passed ++ [BitVec.ofNat 64 (s.cmdArg 1)] }) 0))

end
end

