-- ==== Sys2Proof/Laws/Lists.lean ====
section
/-! SUPPORT. Laws of lists changed by position or by test, of masks and of bits. -/

namespace Sys2Proof.Machine

/-! ## By position -/

@[simp] theorem modifyAt_length {α : Type} (l : List α) (i : Nat) (f : α → α) : (modifyAt l i f).length = l.length := by
  induction l generalizing i with
  | nil => rfl
  | cons x t ih => cases i <;> simp [modifyAt, ih]

theorem modifyAt_get {α : Type} (l : List α) (i j : Nat) (f : α → α) :
    (modifyAt l i f)[j]? = if j = i then (l[j]?).map f else l[j]? := by
  induction l generalizing i j with
  | nil => simp [modifyAt]
  | cons x t ih => cases i <;> cases j <;> simp [modifyAt, ih]

@[simp] theorem modifyAt_get_same {α : Type} (l : List α) (i : Nat) (f : α → α) : (modifyAt l i f)[i]? = (l[i]?).map f := by
  simp [modifyAt_get]

theorem modifyAt_get_ne {α : Type} (l : List α) {i j : Nat} (h : j ≠ i) (f : α → α) : (modifyAt l i f)[j]? = l[j]? := by
  simp [modifyAt_get, h]

theorem modifyAt_comp {α : Type} (l : List α) (i : Nat) (f g : α → α) :
    modifyAt (modifyAt l i f) i g = modifyAt l i (g ∘ f) := by
  induction l generalizing i with
  | nil => rfl
  | cons x t ih => cases i <;> simp [modifyAt, ih]

theorem modifyAt_id {α : Type} (l : List α) (i : Nat) (f : α → α) (h : ∀ x, l[i]? = some x → f x = x) : modifyAt l i f = l := by
  induction l generalizing i with
  | nil => rfl
  | cons x t ih =>
    cases i with
    | zero => simp [modifyAt, h]
    | succ i => simp only [modifyAt, List.cons.injEq, true_and]; exact ih i fun y hy => h y (by simpa using hy)

/-- Every element keeps a property when the changed one does. -/
theorem modifyAt_forall {α : Type} {P : α → Prop} (l : List α) (i : Nat) (f : α → α) (h : ∀ x ∈ l, P x)
    (hf : ∀ x ∈ l, P x → P (f x)) : ∀ x ∈ modifyAt l i f, P x := by
  induction l generalizing i with
  | nil => simp [modifyAt]
  | cons y t ih =>
    have ht := ih (i - 1) (fun x hx => h x (by simp [hx])) fun x hx => hf x (by simp [hx])
    cases i with
    | zero =>
      intro x hx
      rcases List.mem_cons.1 hx with rfl | hx
      · exact hf y (by simp) (h y (by simp))
      · exact h x (by simp [hx])
    | succ i =>
      intro x hx
      rcases List.mem_cons.1 hx with rfl | hx
      · exact h x (by simp)
      · exact ht x hx

/-! ## By test -/

@[simp] theorem mapIf_nil {α : Type} (p : α → Bool) (f : α → α) : mapIf p f [] = [] := rfl

@[simp] theorem mapIf_length {α : Type} (p : α → Bool) (f : α → α) (l : List α) : (mapIf p f l).length = l.length := by
  simp [mapIf]

theorem mapIf_cons {α : Type} (p : α → Bool) (f : α → α) (x : α) (l : List α) :
    mapIf p f (x :: l) = (if p x then f x else x) :: mapIf p f l := rfl

/-- A change that keeps the test can be followed by another. -/
theorem mapIf_mapIf {α : Type} (p : α → Bool) (f g : α → α) (l : List α) (h : ∀ x, p x → p (f x)) :
    mapIf p g (mapIf p f l) = mapIf p (g ∘ f) l := by
  induction l with
  | nil => rfl
  | cons x t ih => by_cases hx : p x <;> simp [mapIf_cons, ih, hx, h]

theorem mapIf_congr {α : Type} (p : α → Bool) (f g : α → α) (l : List α) (h : ∀ x ∈ l, p x → f x = g x) :
    mapIf p f l = mapIf p g l := by
  induction l with
  | nil => rfl
  | cons x t ih =>
    rw [mapIf_cons, mapIf_cons, ih fun y hy => h y (by simp [hy])]
    by_cases hx : p x <;> simp [hx, h]

theorem mapIf_id {α : Type} (p : α → Bool) (f : α → α) (l : List α) (h : ∀ x ∈ l, p x → f x = x) : mapIf p f l = l := by
  induction l with
  | nil => rfl
  | cons x t ih =>
    rw [mapIf_cons, ih fun y hy => h y (by simp [hy])]
    by_cases hx : p x <;> simp [hx, h]

/-- The first element a test finds, after a change that keeps the test. -/
theorem find_mapIf {α : Type} (p : α → Bool) (f : α → α) (l : List α) (h : ∀ x, p x → p (f x)) :
    (mapIf p f l).find? p = (l.find? p).map f := by
  induction l with
  | nil => rfl
  | cons x t ih => by_cases hx : p x <;> simp [mapIf_cons, ih, hx, h]

/-- A change that another test does not see. -/
theorem find_mapIf_other {α : Type} (p q : α → Bool) (f : α → α) (l : List α) (h : ∀ x, q x → p x = false)
    (hf : ∀ x, p x → q (f x) = false) : (mapIf p f l).find? q = l.find? q := by
  induction l with
  | nil => rfl
  | cons x t ih =>
    rw [mapIf_cons]
    by_cases hx : p x
    · have hq : q x = false := by
        cases hc : q x with
        | false => rfl
        | true => simp [h x hc] at hx
      simp [hx, hf x hx, hq, ih]
    · simp only [hx, Bool.false_eq_true, if_false, List.find?_cons, ih]

theorem mem_mapIf {α : Type} {p : α → Bool} {f : α → α} {l : List α} {y : α} (h : y ∈ mapIf p f l) :
    ∃ x ∈ l, y = if p x then f x else x := by
  obtain ⟨x, hx, rfl⟩ := List.mem_map.1 h
  exact ⟨x, hx, rfl⟩

/-- Every element keeps a property when the changed ones do. -/
theorem mapIf_forall {α : Type} {P : α → Prop} (p : α → Bool) (f : α → α) (l : List α) (h : ∀ x ∈ l, P x)
    (hf : ∀ x ∈ l, p x → P x → P (f x)) : ∀ x ∈ mapIf p f l, P x := by
  intro y hy
  obtain ⟨x, hx, rfl⟩ := mem_mapIf hy
  by_cases hp : p x
  · simpa [hp] using hf x hx hp (h x hx)
  · simpa [hp] using h x hx

/-! ## Bits -/

theorem putBit_get {w : Nat} (m : BitVec w) (i j : Nat) (b : Bool) (h : j < w) :
    (putBit m i b).getLsbD j = if j = i then b else m.getLsbD j := by
  unfold putBit
  cases b <;> by_cases hij : j = i
  · subst hij; simp [h]
  · rcases Nat.lt_or_ge j i with hl | hl
    · simp [h, hij, hl]
    · have : j - i ≠ 0 := by omega
      simp [h, hij, this, Nat.not_lt.2 hl]
  · subst hij; simp [h]
  · rcases Nat.lt_or_ge j i with hl | hl
    · simp [hij, hl]
    · have : j - i ≠ 0 := by omega
      simp [hij, this, Nat.not_lt.2 hl]

end Sys2Proof.Machine
end

