-- ==== Sys2Proof/Laws/Memory.lean ====
section
/-! SUPPORT. Laws of memories and of register banks: the canonical form that every operation keeps, and what a read gives after a
write (assumption 3). -/

namespace Sys2Proof.Machine

/-! ## The canonical form -/

theorem Memory.wfFrom_mono {m : Memory} {lo lo' : Nat} (hle : lo' ≤ lo) (h : m.wfFrom lo = true) : m.wfFrom lo' = true := by
  cases m with
  | nil => rfl
  | cons c t =>
    simp only [Memory.wfFrom, Bool.and_eq_true, decide_eq_true_eq] at h ⊢
    exact ⟨⟨by omega, h.1.2⟩, h.2⟩

/-- Nothing below the first address is listed. -/
theorem Memory.get_below {m : Memory} {lo x : Nat} (h : m.wfFrom lo = true) (hx : x < lo) : m.get x = 0 := by
  induction m generalizing lo with
  | nil => rfl
  | cons c t ih =>
    simp only [Memory.wfFrom, Bool.and_eq_true, decide_eq_true_eq] at h
    have : x ≠ c.1 := by omega
    simp only [Memory.get, this, if_false]
    exact ih h.2 (by omega)

theorem Memory.set_wfFrom {m : Memory} {lo x : Nat} (b : Byte) (h : m.wfFrom lo = true) (hx : lo ≤ x) :
    (m.set x b).wfFrom lo = true := by
  induction m generalizing lo with
  | nil =>
    unfold Memory.set
    split
    · rfl
    · simp_all [Memory.wfFrom]
  | cons c t ih =>
    simp only [Memory.wfFrom, Bool.and_eq_true, decide_eq_true_eq] at h
    unfold Memory.set
    split
    · split
      · simp_all [Memory.wfFrom]
      · simp only [Memory.wfFrom, Bool.and_eq_true, decide_eq_true_eq]
        refine ⟨⟨hx, by simp_all⟩, ⟨by omega, h.1.2⟩, h.2⟩
    · split
      · split
        · exact Memory.wfFrom_mono (by omega) h.2
        · rename_i he hb
          simp only [Memory.wfFrom, Bool.and_eq_true, decide_eq_true_eq]
          exact ⟨⟨hx, by simp_all⟩, by subst he; exact h.2⟩
      · simp only [Memory.wfFrom, Bool.and_eq_true, decide_eq_true_eq]
        exact ⟨h.1, ih h.2 (by omega)⟩

/-- Writing one byte keeps the canonical form. -/
theorem Memory.set_wf {m : Memory} (x : Nat) (b : Byte) (h : m.wf = true) : (m.set x b).wf = true :=
  Memory.set_wfFrom b h (Nat.zero_le _)

/-- Writing bytes keeps the canonical form. -/
theorem Memory.write_wf {m : Memory} (a : Nat) (bs : List Byte) (h : m.wf = true) : (m.write a bs).wf = true := by
  induction bs generalizing m a with
  | nil => exact h
  | cons b t ih => exact ih (a + 1) (Memory.set_wf a b h)

theorem Memory.filter_wfFrom {m : Memory} {lo : Nat} (p : Host.Cell → Bool) (h : m.wfFrom lo = true) :
    Memory.wfFrom lo (m.filter p) = true := by
  induction m generalizing lo with
  | nil => rfl
  | cons c t ih =>
    simp only [Memory.wfFrom, Bool.and_eq_true, decide_eq_true_eq] at h
    by_cases hp : p c
    · simp only [List.filter_cons, hp, if_true, Memory.wfFrom, Bool.and_eq_true, decide_eq_true_eq]
      exact ⟨h.1, ih h.2⟩
    · simp only [List.filter_cons, hp, Bool.false_eq_true, if_false]
      exact Memory.wfFrom_mono (by omega) (ih h.2)

/-- Clearing bytes keeps the canonical form. -/
theorem Memory.clear_wf {m : Memory} (a n : Nat) (h : m.wf = true) : (m.clear a n).wf = true := Memory.filter_wfFrom _ h

/-- Writing module memory keeps the canonical form. -/
theorem writeMod_wf {m : Memory} (pa : Nat) (bs : List Byte) (h : m.wf = true) : (writeMod m pa bs).wf = true := by
  induction bs generalizing m pa with
  | nil => exact h
  | cons b t ih =>
    unfold writeMod
    split
    · exact ih (pa + 1) h
    · exact ih (pa + 1) (Memory.set_wf pa _ h)

theorem Memory.wf_nil : Memory.wf [] = true := rfl

/-! ## Reads after writes -/

theorem Memory.get_set_from {m : Memory} {lo x : Nat} (b : Byte) (y : Nat) (h : m.wfFrom lo = true) :
    (m.set x b).get y = if y = x then b else m.get y := by
  induction m generalizing lo with
  | nil =>
    simp only [Memory.set]
    split
    · rename_i hb; subst hb; simp [Memory.get]
    · simp [Memory.get]
  | cons c t ih =>
    simp only [Memory.wfFrom, Bool.and_eq_true, decide_eq_true_eq] at h
    unfold Memory.set
    by_cases h1 : x < c.1
    · by_cases hb : b = 0
      · simp only [h1, hb, if_true]
        by_cases hy : y = x
        · subst hy
          have : y ≠ c.1 := by omega
          simp only [Memory.get, this, if_false, if_true]
          exact Memory.get_below h.2 (by omega)
        · simp [hy]
      · simp only [h1, hb, if_true, if_false, Memory.get]
    · by_cases h2 : x = c.1
      · by_cases hb : b = 0
        · simp only [h2, hb, if_true, if_false, Nat.lt_irrefl]
          by_cases hy : y = c.1
          · subst hy
            simp only [if_true]
            exact Memory.get_below h.2 (by omega)
          · simp [hy, Memory.get]
        · simp only [h2, hb, if_true, if_false, Nat.lt_irrefl, Memory.get]
          by_cases hy : y = c.1 <;> simp [hy]
      · simp only [h1, h2, if_false, Memory.get]
        rw [ih h.2]
        by_cases hy : y = c.1
        · have : y ≠ x := by omega
          simp [hy, Ne.symm h2]
        · simp [hy]

/-- A byte after a byte is written: the byte written there, and the old one everywhere else. -/
theorem Memory.get_set {m : Memory} (x y : Nat) (b : Byte) (h : m.wf = true) :
    (m.set x b).get y = if y = x then b else m.get y := Memory.get_set_from b y h

/-- A byte outside a run of bytes is as before the run was written. -/
theorem Memory.get_write_outside {m : Memory} (a y : Nat) (bs : List Byte) (h : m.wf = true) (hy : y < a ∨ a + bs.length ≤ y) :
    (m.write a bs).get y = m.get y := by
  induction bs generalizing m a with
  | nil => rfl
  | cons b t ih =>
    simp only [List.length_cons] at hy
    have hne : y ≠ a := by omega
    simp only [Memory.write]
    rw [ih (a + 1) (Memory.set_wf a b h) (by omega), Memory.get_set a y b h]
    simp [hne]

/-- A byte inside a run of bytes is the byte written there. -/
theorem Memory.get_write_inside {m : Memory} (a i : Nat) (bs : List Byte) (h : m.wf = true) (hi : i < bs.length) :
    (m.write a bs).get (a + i) = bs[i] := by
  induction bs generalizing m a i with
  | nil => simp at hi
  | cons b t ih =>
    simp only [Memory.write]
    cases i with
    | zero =>
      rw [Memory.get_write_outside (a + 1) (a + 0) t (Memory.set_wf a b h) (by omega), Memory.get_set a _ b h]
      simp
    | succ i =>
      have := ih (a + 1) i (Memory.set_wf a b h) (by simpa using hi)
      rw [show a + (i + 1) = a + 1 + i by omega, this]
      simp

/-- What was written reads back. -/
theorem Memory.read_write {m : Memory} (a : Nat) (bs : List Byte) (h : m.wf = true) : (m.write a bs).read a bs.length = bs := by
  have key : ∀ (k : Nat) (pre : List Byte) (rest : List Byte), bs = pre ++ rest → k = pre.length →
      (m.write a bs).read (a + k) rest.length = rest := by
    intro k pre rest
    induction rest generalizing k pre with
    | nil => intros; rfl
    | cons b t ih =>
      intro he hk
      simp only [List.length_cons, Memory.read]
      have hl : k < bs.length := by simp [he, hk]
      have hb : (m.write a bs).get (a + k) = b := by
        rw [Memory.get_write_inside a k bs h hl]
        simp [he, hk]
      rw [hb, Nat.add_assoc, ih (k + 1) (pre ++ [b]) (by simp [he]) (by simp [hk])]
  simpa using key 0 [] bs rfl rfl

@[simp] theorem Memory.read_length (m : Memory) (a n : Nat) : (m.read a n).length = n := by
  induction n generalizing a with
  | zero => rfl
  | succ n ih => simp [Memory.read, ih]

/-- A byte of module memory after a write there. -/
theorem writeMod_get_outside {m : Memory} (a y : Nat) (bs : List Byte) (h : m.wf = true) (hy : y < a ∨ a + bs.length ≤ y) :
    (writeMod m a bs).get y = m.get y := by
  induction bs generalizing m a with
  | nil => rfl
  | cons b t ih =>
    simp only [List.length_cons] at hy
    have hne : y ≠ a := by omega
    unfold writeMod
    split
    · exact ih (a + 1) h (by omega)
    · rw [ih (a + 1) (Memory.set_wf a _ h) (by omega), Memory.get_set a y _ h]
      simp [hne]

/-! ## Banks -/

theorem cellsGet_set (b : Base) (cs : List (Nat × Word)) (i j : Nat) (w : Word) :
    cellsGet b (cellsSet cs i w) j = if j = i then w else cellsGet b cs j := by
  induction cs with
  | nil => simp [cellsSet, cellsGet]
  | cons c t ih =>
    unfold cellsSet
    split
    · simp [cellsGet]
    · split
      · rename_i h
        by_cases hj : j = i <;> simp [cellsGet, hj, ← h]
      · rename_i h1 h2
        by_cases hj : j = c.1
        · have : j ≠ i := fun h => h2 (h ▸ hj)
          simp [cellsGet, hj, hj ▸ this]
        · simp [cellsGet, hj, ih]

/-- A word of a bank after one is written. -/
theorem Bank.get_set (b : Bank) (i j : Nat) (w : Word) : (b.set i w).get j = if j = i then w else b.get j :=
  cellsGet_set b.base b.cells i j w

theorem vcellsGet_set (b : Base) (cs : List VCell) (c : VCell) (j : Nat) :
    vcellsGet b (vcellsSet cs c) j = if j = c.idx then c.val else vcellsGet b cs j := by
  induction cs with
  | nil => simp [vcellsSet, vcellsGet]
  | cons d t ih =>
    unfold vcellsSet
    split
    · simp [vcellsGet]
    · split
      · rename_i h
        by_cases hj : j = c.idx
        · simp [vcellsGet, hj]
        · simp [vcellsGet, hj, ← h]
      · rename_i h1 h2
        by_cases hj : j = d.idx
        · have : j ≠ c.idx := fun h => h2 (h.symm.trans hj)
          simp [vcellsGet, hj, hj ▸ this]
        · simp [vcellsGet, hj, ih]

/-- A per-lane register after one is written. -/
theorem VBank.get_set (b : VBank) (st i j : Nat) (w : Word) : (b.set st i w).get j = if j = i then w else b.get j :=
  vcellsGet_set b.base b.cells ⟨i, w, st⟩ j

end Sys2Proof.Machine
end

