-- ==== Sys2Proof/Laws/Crew.lean ====
section
/-! SUPPORT. Laws of crews and their threads: what a change of one lane leaves, and what the writes of an instruction do. -/

namespace Sys2Proof.Machine

/-! ## Threads by lane -/

theorem Crew.thread?_setThread (c : Crew) (l j : Nat) (f : Thread → Thread) :
    (c.setThread l f).thread? j = if j = l then (c.thread? l).map f else c.thread? j := by
  simp only [Crew.setThread, Crew.thread?, modifyAt_get]
  by_cases h : j = l
  · subst h
    simp only [if_true]
    cases c.lanes[j]? <;> rfl
  · simp [h]

@[simp] theorem Crew.thread?_setThread_same (c : Crew) (l : Nat) (f : Thread → Thread) :
    (c.setThread l f).thread? l = (c.thread? l).map f := by simp [Crew.thread?_setThread]

theorem Crew.thread?_setThread_ne (c : Crew) {l j : Nat} (h : j ≠ l) (f : Thread → Thread) :
    (c.setThread l f).thread? j = c.thread? j := by simp [Crew.thread?_setThread, h]

@[simp] theorem Crew.setThread_width (c : Crew) (l : Nat) (f : Thread → Thread) : (c.setThread l f).width = c.width := by
  simp [Crew.width, Crew.setThread]

/-- A change of lanes leaves everything else of a crew. -/
theorem Crew.setThread_rest (c : Crew) (l : Nat) (f : Thread → Thread) :
    { c.setThread l f with lanes := c.lanes } = c := rfl

theorem Crew.setThreads_eq (c : Crew) (ls : List Nat) (f : Thread → Thread) :
    c.setThreads ls f = { c with lanes := (c.setThreads ls f).lanes } := by
  unfold Crew.setThreads
  induction ls generalizing c with
  | nil => rfl
  | cons l t ih =>
    simp only [List.foldl_cons]
    rw [ih (c.setThread l f)]
    rfl

theorem Crew.setThreads_width (c : Crew) (ls : List Nat) (f : Thread → Thread) : (c.setThreads ls f).width = c.width := by
  unfold Crew.setThreads
  induction ls generalizing c with
  | nil => rfl
  | cons l t ih => simp only [List.foldl_cons]; rw [ih]; simp

/-- Each of distinct lanes is changed once. -/
theorem Crew.thread?_setThreads (c : Crew) (ls : List Nat) (f : Thread → Thread) (h : ls.Nodup) (j : Nat) :
    (c.setThreads ls f).thread? j = if j ∈ ls then (c.thread? j).map f else c.thread? j := by
  unfold Crew.setThreads
  induction ls generalizing c with
  | nil => simp
  | cons l t ih =>
    obtain ⟨hl, ht⟩ := List.nodup_cons.1 h
    simp only [List.foldl_cons]
    rw [ih (c.setThread l f) ht]
    by_cases hj : j = l
    · subst hj; simp [hl]
    · simp [hj, Crew.thread?_setThread_ne c hj]

/-! ## Writes -/

/-- The part of a write that changes the thread of its lane. -/
def Put.onThread (stamp : Nat) : Put → Thread → Thread
  | .v r w, t => { t with v := t.v.set stamp r w }
  | .p i b, t => { t with p := putBit t.p i b }
  | .ix i x, t => { t with ix := modifyAt t.ix i fun _ => x }
  | .redl r, t => { t with redl := some r }
  | .fence f, t => { t with fences := addFence f t.fences }
  | _, t => t

/-- The part of a write that changes the crew. -/
def Put.onCrew (l : Nat) : Put → Crew → Crew
  | .s r w, c => c.setS r w
  | .mask k m, c => c.setMask k m
  | .join k b, c => c.setMask k (putBit (c.mask k) l b)
  | .flags w, c => { c with fflags := c.fflags ||| w }
  | .setFlags w, c => { c with fflags := w }
  | .tcause w, c => { c with tcause := w }
  | .tval w, c => { c with tval := w }
  | .tpc w, c => { c with tpc := w }
  | .tmask w, c => { c with tmask := w }
  | _, c => c

/-- A write that changes no mask and no trap register of the crew, nor the tree unit. -/
def Put.plain : Put → Bool
  | .v _ _ => true
  | .s _ _ => true
  | .p _ _ => true
  | .ix _ _ => true
  | .flags _ => true
  | .fence _ => true
  | _ => false

theorem modifyAt_map_id (l : List (Option Thread)) (i : Nat) : modifyAt l i (·.map fun t => t) = l :=
  modifyAt_id l i _ fun x _ => by cases x <;> rfl

/-- A write is its two parts. -/
theorem Crew.put_eq (c : Crew) (st l : Nat) (p : Put) :
    c.put st l p = { p.onCrew l c with lanes := (c.setThread l (p.onThread st)).lanes } := by
  have same : ∀ d : Crew, d.lanes = c.lanes → d = { d with lanes := (c.setThread l fun t => t).lanes } := by
    intro d hd
    simp only [Crew.setThread, modifyAt_map_id, ← hd]
  have mask : ∀ k m, (c.setMask k m).lanes = c.lanes := by
    intro k m; unfold Crew.setMask; split <;> rfl
  cases p with
  | v r w => rfl
  | p i b => rfl
  | ix i x => rfl
  | redl r => rfl
  | fence sc => rfl
  | s r w => exact same _ rfl
  | mask k m => exact same _ (mask k m)
  | join k b => exact same _ (mask k _)
  | flags w => exact same _ rfl
  | setFlags w => exact same _ rfl
  | tcause w => exact same _ rfl
  | tval w => exact same _ rfl
  | tpc w => exact same _ rfl
  | tmask w => exact same _ rfl

theorem Put.onCrew_lanes (l : Nat) (p : Put) (c : Crew) : (p.onCrew l c).lanes = c.lanes := by
  cases p <;> simp only [Put.onCrew, Crew.setS, Crew.setMask] <;> first | rfl | (split <;> rfl)

/-- What a list of writes does to the thread of its lane. -/
def putsThread (st : Nat) (ps : List Put) (t : Thread) : Thread := ps.foldl (fun t p => p.onThread st t) t

/-- What a list of writes does to the crew. -/
def putsCrew (l : Nat) (ps : List Put) (c : Crew) : Crew := ps.foldl (fun c p => p.onCrew l c) c

theorem Crew.puts_thread? (c : Crew) (st l : Nat) (ps : List Put) (j : Nat) :
    (c.puts st l ps).thread? j = if j = l then (c.thread? l).map (putsThread st ps) else c.thread? j := by
  unfold Crew.puts putsThread
  induction ps generalizing c with
  | nil => by_cases h : j = l <;> simp [h]
  | cons p t ih =>
    simp only [List.foldl_cons]
    rw [ih (c.put st l p)]
    have hp : ∀ i, (c.put st l p).thread? i = if i = l then (c.thread? l).map (p.onThread st) else c.thread? i := by
      intro i
      rw [Crew.put_eq]
      exact Crew.thread?_setThread c l i _
    by_cases h : j = l
    · subst h; simp [hp, Function.comp_def]
    · simp [h, hp]

theorem Crew.puts_lanes_length (c : Crew) (st l : Nat) (ps : List Put) : (c.puts st l ps).lanes.length = c.lanes.length := by
  unfold Crew.puts
  induction ps generalizing c with
  | nil => rfl
  | cons p t ih =>
    simp only [List.foldl_cons]
    rw [ih, Crew.put_eq]
    simp [Crew.setThread]

end Sys2Proof.Machine
end

