-- ==== Sys2Proof/Laws/Order.lean ====
section
/-! SUPPORT. What the order of accesses changes (spec/13_consistency_rules.md R218 to R221, spec/11_memory_rules.md R196): clocks,
releases and L1 sectors, and no other part of the state. One lemma for each operation. -/

namespace Sys2Proof.Machine

variable (s : State)

theorem learn_eq (n : Point) (k : Clock) : s.learn n k = { s with clocks := (s.learn n k).clocks } := by
  unfold State.learn; split <;> rfl

theorem give_eq (a : Agent) (n : Point) : s.give a n = { s with clocks := (s.give a n).clocks } := learn_eq s _ _

theorem take_eq (a : Agent) (n : Point) : s.take a n = { s with clocks := (s.take a n).clocks } := learn_eq s _ _

/-- A fold of steps each of which changes the clocks alone. -/
theorem foldl_clocks {α : Type} (f : State → α → State) (h : ∀ s a, f s a = { s with clocks := (f s a).clocks }) (l : List α) :
    l.foldl f s = { s with clocks := (l.foldl f s).clocks } := by
  induction l generalizing s with
  | nil => rfl
  | cons a t ih =>
    simp only [List.foldl_cons]
    have h1 := ih (f s a)
    rw [h s a] at h1 ⊢
    exact h1

theorem acquire_eq (a : Agent) (rs : List Release) (ms : List Mark) (rmt : Bool) :
    s.acquire a rs ms rmt = { s with clocks := (s.acquire a rs ms rmt).clocks } :=
  foldl_clocks s _ (fun s _ => learn_eq s _ _) _

theorem hear_eq (m : Mark) (rs : List Release) : s.hear m rs = { s with heard := (s.hear m rs).heard } := by
  unfold State.hear; split <;> rfl

theorem strongRead_eq (rs : List Release) (m : Mark) (acq rmt : Bool) :
    s.strongRead rs m acq rmt = { s with clocks := (s.strongRead rs m acq rmt).clocks, heard := (s.strongRead rs m acq rmt).heard } := by
  unfold State.strongRead
  rw [hear_eq]
  cases acq
  · rfl
  · simp only [if_true]
    rw [acquire_eq]

theorem departObject_eq (l : Loc) (m : Mark) (x y : Word) :
    s.departObject l m x y = { s with clocks := (s.departObject l m x y).clocks } := acquire_eq s _ _ _ _

theorem fenceAcquire_eq (m : Mark) : s.fenceAcquire m = { s with clocks := (s.fenceAcquire m).clocks } :=
  foldl_clocks s _ (fun s _ => acquire_eq s _ _ _ _) _

theorem fenceFull_eq (m : Mark) : s.fenceFull m = { s with clocks := (s.fenceFull m).clocks, fulls := (s.fenceFull m).fulls } := by
  unfold State.fenceFull
  rw [acquire_eq]

theorem staleL1_eq (a : Agent) (l : Loc) (n : Nat) : s.staleL1 a l n = { s with l1 := (s.staleL1 a l n).l1 } := by
  unfold State.staleL1; dsimp only; split <;> rfl

theorem weakWrite_eq (l : Loc) (n : Nat) : s.weakWrite l n = { s with strong := (s.weakWrite l n).strong } := by
  unfold State.weakWrite; split <;> rfl

theorem ite_strong (c : Prop) [Decidable c] (x : List StrongLoc) :
    (if c then s else { s with strong := x }) = { s with strong := (if c then s else { s with strong := x }).strong } := by
  split <;> rfl

theorem strongWrite_eq (l : Loc) (n : Nat) (w : Strong) (g : Word) :
    s.strongWrite l n w g = { s with strong := (s.strongWrite l n w g).strong } := by
  exact ite_strong s _ _

theorem forgetStrong_eq (l : Loc) (n : Nat) : s.forgetStrong l n = { s with strong := (s.forgetStrong l n).strong } := by
  unfold State.forgetStrong; split <;> rfl

theorem shootDown_eq (bed va n : Nat) : s.shootDown bed va n = { s with l1 := (s.shootDown bed va n).l1 } := by
  unfold State.shootDown; split <;> rfl

/-- A write of bytes changes what it writes, L1 sectors and the strong writes of its place. -/
theorem perform_eq (a : Agent) (l : Loc) (bs : List Byte) :
    s.perform a l bs = { s.write l bs with l1 := (s.perform a l bs).l1, strong := (s.perform a l bs).strong } := by
  unfold State.perform
  rw [weakWrite_eq, staleL1_eq]

/-- A write performed changes what it writes, L1 sectors, the strong writes of its place, and, as a strong read-modify-write, what its
agent has heard and knows. -/
theorem make_eq (l : Loc) (w : Write) :
    (s.make l w).1 = { s.write l (w.op.apply (s.read l w.op.len)) with
      l1 := (s.make l w).1.l1, strong := (s.make l w).1.strong, clocks := (s.make l w).1.clocks, heard := (s.make l w).1.heard } := by
  unfold State.make
  dsimp only
  split
  · rw [weakWrite_eq, staleL1_eq]
  · rw [strongWrite_eq]
    split
    · rw [strongRead_eq, staleL1_eq]
    · rw [staleL1_eq]

/-- The value found is what stood at the place. -/
@[simp] theorem make_old (l : Loc) (w : Write) : (s.make l w).2 = leNat (s.read l w.op.len) := rfl

end Sys2Proof.Machine
end

