-- ==== Sys2Proof/Laws/State.lean ====
section
/-! SUPPORT. What each update of one part of the state leaves: every other field. One lemma per field and update. -/

namespace Sys2Proof.Machine

variable (s : State)


/-! ### setCrew -/

@[simp] theorem setCrew_agenda (cid : Nat) (f : Crew → Crew) : (s.setCrew cid f).agenda = s.agenda := rfl
@[simp] theorem setCrew_cur (cid : Nat) (f : Crew → Crew) : (s.setCrew cid f).cur = s.cur := rfl
@[simp] theorem setCrew_fresh (cid : Nat) (f : Crew → Crew) : (s.setCrew cid f).fresh = s.fresh := rfl
@[simp] theorem setCrew_teams (cid : Nat) (f : Crew → Crew) : (s.setCrew cid f).teams = s.teams := rfl
@[simp] theorem setCrew_launches (cid : Nat) (f : Crew → Crew) : (s.setCrew cid f).launches = s.launches := rfl
@[simp] theorem setCrew_graphs (cid : Nat) (f : Crew → Crew) : (s.setCrew cid f).graphs = s.graphs := rfl
@[simp] theorem setCrew_pool (cid : Nat) (f : Crew → Crew) : (s.setCrew cid f).pool = s.pool := rfl
@[simp] theorem setCrew_bins (cid : Nat) (f : Crew → Crew) : (s.setCrew cid f).bins = s.bins := rfl
@[simp] theorem setCrew_binSeq (cid : Nat) (f : Crew → Crew) : (s.setCrew cid f).binSeq = s.binSeq := rfl
@[simp] theorem setCrew_nextCid (cid : Nat) (f : Crew → Crew) : (s.setCrew cid f).nextCid = s.nextCid := rfl
@[simp] theorem setCrew_cmds (cid : Nat) (f : Crew → Crew) : (s.setCrew cid f).cmds = s.cmds := rfl
@[simp] theorem setCrew_nextCmd (cid : Nat) (f : Crew → Crew) : (s.setCrew cid f).nextCmd = s.nextCmd := rfl
@[simp] theorem setCrew_lxs (cid : Nat) (f : Crew → Crew) : (s.setCrew cid f).lxs = s.lxs := rfl
@[simp] theorem setCrew_plotMarks (cid : Nat) (f : Crew → Crew) : (s.setCrew cid f).plotMarks = s.plotMarks := rfl
@[simp] theorem setCrew_clocks (cid : Nat) (f : Crew → Crew) : (s.setCrew cid f).clocks = s.clocks := rfl
@[simp] theorem setCrew_strong (cid : Nat) (f : Crew → Crew) : (s.setCrew cid f).strong = s.strong := rfl
@[simp] theorem setCrew_heard (cid : Nat) (f : Crew → Crew) : (s.setCrew cid f).heard = s.heard := rfl
@[simp] theorem setCrew_fulls (cid : Nat) (f : Crew → Crew) : (s.setCrew cid f).fulls = s.fulls := rfl
@[simp] theorem setCrew_purges (cid : Nat) (f : Crew → Crew) : (s.setCrew cid f).purges = s.purges := rfl
@[simp] theorem setCrew_mem (cid : Nat) (f : Crew → Crew) : (s.setCrew cid f).mem = s.mem := rfl
@[simp] theorem setCrew_host (cid : Nat) (f : Crew → Crew) : (s.setCrew cid f).host = s.host := rfl
@[simp] theorem setCrew_peers (cid : Nat) (f : Crew → Crew) : (s.setCrew cid f).peers = s.peers := rfl
@[simp] theorem setCrew_shared (cid : Nat) (f : Crew → Crew) : (s.setCrew cid f).shared = s.shared := rfl
@[simp] theorem setCrew_l1 (cid : Nat) (f : Crew → Crew) : (s.setCrew cid f).l1 = s.l1 := rfl
@[simp] theorem setCrew_code (cid : Nat) (f : Crew → Crew) : (s.setCrew cid f).code = s.code := rfl
@[simp] theorem setCrew_shapes (cid : Nat) (f : Crew → Crew) : (s.setCrew cid f).shapes = s.shapes := rfl
@[simp] theorem setCrew_migrations (cid : Nat) (f : Crew → Crew) : (s.setCrew cid f).migrations = s.migrations := rfl
@[simp] theorem setCrew_retired (cid : Nat) (f : Crew → Crew) : (s.setCrew cid f).retired = s.retired := rfl
@[simp] theorem setCrew_coxWaits (cid : Nat) (f : Crew → Crew) : (s.setCrew cid f).coxWaits = s.coxWaits := rfl
@[simp] theorem setCrew_posts (cid : Nat) (f : Crew → Crew) : (s.setCrew cid f).posts = s.posts := rfl
@[simp] theorem setCrew_orphans (cid : Nat) (f : Crew → Crew) : (s.setCrew cid f).orphans = s.orphans := rfl
@[simp] theorem setCrew_beds (cid : Nat) (f : Crew → Crew) : (s.setCrew cid f).beds = s.beds := rfl
@[simp] theorem setCrew_ports (cid : Nat) (f : Crew → Crew) : (s.setCrew cid f).ports = s.ports := rfl
@[simp] theorem setCrew_links (cid : Nat) (f : Crew → Crew) : (s.setCrew cid f).links = s.links := rfl
@[simp] theorem setCrew_seqs (cid : Nat) (f : Crew → Crew) : (s.setCrew cid f).seqs = s.seqs := rfl
@[simp] theorem setCrew_peerFences (cid : Nat) (f : Crew → Crew) : (s.setCrew cid f).peerFences = s.peerFences := rfl
@[simp] theorem setCrew_sent (cid : Nat) (f : Crew → Crew) : (s.setCrew cid f).sent = s.sent := rfl
@[simp] theorem setCrew_modState (cid : Nat) (f : Crew → Crew) : (s.setCrew cid f).modState = s.modState := rfl
@[simp] theorem setCrew_power (cid : Nat) (f : Crew → Crew) : (s.setCrew cid f).power = s.power := rfl
@[simp] theorem setCrew_packagePower (cid : Nat) (f : Crew → Crew) : (s.setCrew cid f).packagePower = s.packagePower := rfl
@[simp] theorem setCrew_inletTemp (cid : Nat) (f : Crew → Crew) : (s.setCrew cid f).inletTemp = s.inletTemp := rfl
@[simp] theorem setCrew_dieTemp (cid : Nat) (f : Crew → Crew) : (s.setCrew cid f).dieTemp = s.dieTemp := rfl
@[simp] theorem setCrew_coolant (cid : Nat) (f : Crew → Crew) : (s.setCrew cid f).coolant = s.coolant := rfl
@[simp] theorem setCrew_dumpap (cid : Nat) (f : Crew → Crew) : (s.setCrew cid f).dumpap = s.dumpap := rfl
@[simp] theorem setCrew_devap (cid : Nat) (f : Crew → Crew) : (s.setCrew cid f).devap = s.devap := rfl
@[simp] theorem setCrew_cmdReg (cid : Nat) (f : Crew → Crew) : (s.setCrew cid f).cmdReg = s.cmdReg := rfl
@[simp] theorem setCrew_cstat (cid : Nat) (f : Crew → Crew) : (s.setCrew cid f).cstat = s.cstat := rfl
@[simp] theorem setCrew_cdone (cid : Nat) (f : Crew → Crew) : (s.setCrew cid f).cdone = s.cdone := rfl
@[simp] theorem setCrew_errcnt (cid : Nat) (f : Crew → Crew) : (s.setCrew cid f).errcnt = s.errcnt := rfl
@[simp] theorem setCrew_clock (cid : Nat) (f : Crew → Crew) : (s.setCrew cid f).clock = s.clock := rfl
@[simp] theorem setCrew_stopped (cid : Nat) (f : Crew → Crew) : (s.setCrew cid f).stopped = s.stopped := rfl
@[simp] theorem setCrew_stepDowns (cid : Nat) (f : Crew → Crew) : (s.setCrew cid f).stepDowns = s.stepDowns := rfl
@[simp] theorem setCrew_mmpImage (cid : Nat) (f : Crew → Crew) : (s.setCrew cid f).mmpImage = s.mmpImage := rfl
@[simp] theorem setCrew_trellisImage (cid : Nat) (f : Crew → Crew) : (s.setCrew cid f).trellisImage = s.trellisImage := rfl
@[simp] theorem setCrew_update (cid : Nat) (f : Crew → Crew) : (s.setCrew cid f).update = s.update := rfl
@[simp] theorem setCrew_dump (cid : Nat) (f : Crew → Crew) : (s.setCrew cid f).dump = s.dump := rfl
@[simp] theorem setCrew_messages (cid : Nat) (f : Crew → Crew) : (s.setCrew cid f).messages = s.messages := rfl

/-! ### setThread -/

@[simp] theorem setThread_agenda (cid l : Nat) (f : Thread → Thread) : (s.setThread cid l f).agenda = s.agenda := rfl
@[simp] theorem setThread_cur (cid l : Nat) (f : Thread → Thread) : (s.setThread cid l f).cur = s.cur := rfl
@[simp] theorem setThread_fresh (cid l : Nat) (f : Thread → Thread) : (s.setThread cid l f).fresh = s.fresh := rfl
@[simp] theorem setThread_teams (cid l : Nat) (f : Thread → Thread) : (s.setThread cid l f).teams = s.teams := rfl
@[simp] theorem setThread_launches (cid l : Nat) (f : Thread → Thread) : (s.setThread cid l f).launches = s.launches := rfl
@[simp] theorem setThread_graphs (cid l : Nat) (f : Thread → Thread) : (s.setThread cid l f).graphs = s.graphs := rfl
@[simp] theorem setThread_pool (cid l : Nat) (f : Thread → Thread) : (s.setThread cid l f).pool = s.pool := rfl
@[simp] theorem setThread_bins (cid l : Nat) (f : Thread → Thread) : (s.setThread cid l f).bins = s.bins := rfl
@[simp] theorem setThread_binSeq (cid l : Nat) (f : Thread → Thread) : (s.setThread cid l f).binSeq = s.binSeq := rfl
@[simp] theorem setThread_nextCid (cid l : Nat) (f : Thread → Thread) : (s.setThread cid l f).nextCid = s.nextCid := rfl
@[simp] theorem setThread_cmds (cid l : Nat) (f : Thread → Thread) : (s.setThread cid l f).cmds = s.cmds := rfl
@[simp] theorem setThread_nextCmd (cid l : Nat) (f : Thread → Thread) : (s.setThread cid l f).nextCmd = s.nextCmd := rfl
@[simp] theorem setThread_lxs (cid l : Nat) (f : Thread → Thread) : (s.setThread cid l f).lxs = s.lxs := rfl
@[simp] theorem setThread_plotMarks (cid l : Nat) (f : Thread → Thread) : (s.setThread cid l f).plotMarks = s.plotMarks := rfl
@[simp] theorem setThread_clocks (cid l : Nat) (f : Thread → Thread) : (s.setThread cid l f).clocks = s.clocks := rfl
@[simp] theorem setThread_strong (cid l : Nat) (f : Thread → Thread) : (s.setThread cid l f).strong = s.strong := rfl
@[simp] theorem setThread_heard (cid l : Nat) (f : Thread → Thread) : (s.setThread cid l f).heard = s.heard := rfl
@[simp] theorem setThread_fulls (cid l : Nat) (f : Thread → Thread) : (s.setThread cid l f).fulls = s.fulls := rfl
@[simp] theorem setThread_purges (cid l : Nat) (f : Thread → Thread) : (s.setThread cid l f).purges = s.purges := rfl
@[simp] theorem setThread_mem (cid l : Nat) (f : Thread → Thread) : (s.setThread cid l f).mem = s.mem := rfl
@[simp] theorem setThread_host (cid l : Nat) (f : Thread → Thread) : (s.setThread cid l f).host = s.host := rfl
@[simp] theorem setThread_peers (cid l : Nat) (f : Thread → Thread) : (s.setThread cid l f).peers = s.peers := rfl
@[simp] theorem setThread_shared (cid l : Nat) (f : Thread → Thread) : (s.setThread cid l f).shared = s.shared := rfl
@[simp] theorem setThread_l1 (cid l : Nat) (f : Thread → Thread) : (s.setThread cid l f).l1 = s.l1 := rfl
@[simp] theorem setThread_code (cid l : Nat) (f : Thread → Thread) : (s.setThread cid l f).code = s.code := rfl
@[simp] theorem setThread_shapes (cid l : Nat) (f : Thread → Thread) : (s.setThread cid l f).shapes = s.shapes := rfl
@[simp] theorem setThread_migrations (cid l : Nat) (f : Thread → Thread) : (s.setThread cid l f).migrations = s.migrations := rfl
@[simp] theorem setThread_retired (cid l : Nat) (f : Thread → Thread) : (s.setThread cid l f).retired = s.retired := rfl
@[simp] theorem setThread_coxWaits (cid l : Nat) (f : Thread → Thread) : (s.setThread cid l f).coxWaits = s.coxWaits := rfl
@[simp] theorem setThread_posts (cid l : Nat) (f : Thread → Thread) : (s.setThread cid l f).posts = s.posts := rfl
@[simp] theorem setThread_orphans (cid l : Nat) (f : Thread → Thread) : (s.setThread cid l f).orphans = s.orphans := rfl
@[simp] theorem setThread_beds (cid l : Nat) (f : Thread → Thread) : (s.setThread cid l f).beds = s.beds := rfl
@[simp] theorem setThread_ports (cid l : Nat) (f : Thread → Thread) : (s.setThread cid l f).ports = s.ports := rfl
@[simp] theorem setThread_links (cid l : Nat) (f : Thread → Thread) : (s.setThread cid l f).links = s.links := rfl
@[simp] theorem setThread_seqs (cid l : Nat) (f : Thread → Thread) : (s.setThread cid l f).seqs = s.seqs := rfl
@[simp] theorem setThread_peerFences (cid l : Nat) (f : Thread → Thread) : (s.setThread cid l f).peerFences = s.peerFences := rfl
@[simp] theorem setThread_sent (cid l : Nat) (f : Thread → Thread) : (s.setThread cid l f).sent = s.sent := rfl
@[simp] theorem setThread_modState (cid l : Nat) (f : Thread → Thread) : (s.setThread cid l f).modState = s.modState := rfl
@[simp] theorem setThread_power (cid l : Nat) (f : Thread → Thread) : (s.setThread cid l f).power = s.power := rfl
@[simp] theorem setThread_packagePower (cid l : Nat) (f : Thread → Thread) : (s.setThread cid l f).packagePower = s.packagePower := rfl
@[simp] theorem setThread_inletTemp (cid l : Nat) (f : Thread → Thread) : (s.setThread cid l f).inletTemp = s.inletTemp := rfl
@[simp] theorem setThread_dieTemp (cid l : Nat) (f : Thread → Thread) : (s.setThread cid l f).dieTemp = s.dieTemp := rfl
@[simp] theorem setThread_coolant (cid l : Nat) (f : Thread → Thread) : (s.setThread cid l f).coolant = s.coolant := rfl
@[simp] theorem setThread_dumpap (cid l : Nat) (f : Thread → Thread) : (s.setThread cid l f).dumpap = s.dumpap := rfl
@[simp] theorem setThread_devap (cid l : Nat) (f : Thread → Thread) : (s.setThread cid l f).devap = s.devap := rfl
@[simp] theorem setThread_cmdReg (cid l : Nat) (f : Thread → Thread) : (s.setThread cid l f).cmdReg = s.cmdReg := rfl
@[simp] theorem setThread_cstat (cid l : Nat) (f : Thread → Thread) : (s.setThread cid l f).cstat = s.cstat := rfl
@[simp] theorem setThread_cdone (cid l : Nat) (f : Thread → Thread) : (s.setThread cid l f).cdone = s.cdone := rfl
@[simp] theorem setThread_errcnt (cid l : Nat) (f : Thread → Thread) : (s.setThread cid l f).errcnt = s.errcnt := rfl
@[simp] theorem setThread_clock (cid l : Nat) (f : Thread → Thread) : (s.setThread cid l f).clock = s.clock := rfl
@[simp] theorem setThread_stopped (cid l : Nat) (f : Thread → Thread) : (s.setThread cid l f).stopped = s.stopped := rfl
@[simp] theorem setThread_stepDowns (cid l : Nat) (f : Thread → Thread) : (s.setThread cid l f).stepDowns = s.stepDowns := rfl
@[simp] theorem setThread_mmpImage (cid l : Nat) (f : Thread → Thread) : (s.setThread cid l f).mmpImage = s.mmpImage := rfl
@[simp] theorem setThread_trellisImage (cid l : Nat) (f : Thread → Thread) : (s.setThread cid l f).trellisImage = s.trellisImage := rfl
@[simp] theorem setThread_update (cid l : Nat) (f : Thread → Thread) : (s.setThread cid l f).update = s.update := rfl
@[simp] theorem setThread_dump (cid l : Nat) (f : Thread → Thread) : (s.setThread cid l f).dump = s.dump := rfl
@[simp] theorem setThread_messages (cid l : Nat) (f : Thread → Thread) : (s.setThread cid l f).messages = s.messages := rfl

/-! ### setThreads -/

@[simp] theorem setThreads_agenda (cid : Nat) (ls : List Nat) (f : Thread → Thread) : (s.setThreads cid ls f).agenda = s.agenda := rfl
@[simp] theorem setThreads_cur (cid : Nat) (ls : List Nat) (f : Thread → Thread) : (s.setThreads cid ls f).cur = s.cur := rfl
@[simp] theorem setThreads_fresh (cid : Nat) (ls : List Nat) (f : Thread → Thread) : (s.setThreads cid ls f).fresh = s.fresh := rfl
@[simp] theorem setThreads_teams (cid : Nat) (ls : List Nat) (f : Thread → Thread) : (s.setThreads cid ls f).teams = s.teams := rfl
@[simp] theorem setThreads_launches (cid : Nat) (ls : List Nat) (f : Thread → Thread) : (s.setThreads cid ls f).launches = s.launches := rfl
@[simp] theorem setThreads_graphs (cid : Nat) (ls : List Nat) (f : Thread → Thread) : (s.setThreads cid ls f).graphs = s.graphs := rfl
@[simp] theorem setThreads_pool (cid : Nat) (ls : List Nat) (f : Thread → Thread) : (s.setThreads cid ls f).pool = s.pool := rfl
@[simp] theorem setThreads_bins (cid : Nat) (ls : List Nat) (f : Thread → Thread) : (s.setThreads cid ls f).bins = s.bins := rfl
@[simp] theorem setThreads_binSeq (cid : Nat) (ls : List Nat) (f : Thread → Thread) : (s.setThreads cid ls f).binSeq = s.binSeq := rfl
@[simp] theorem setThreads_nextCid (cid : Nat) (ls : List Nat) (f : Thread → Thread) : (s.setThreads cid ls f).nextCid = s.nextCid := rfl
@[simp] theorem setThreads_cmds (cid : Nat) (ls : List Nat) (f : Thread → Thread) : (s.setThreads cid ls f).cmds = s.cmds := rfl
@[simp] theorem setThreads_nextCmd (cid : Nat) (ls : List Nat) (f : Thread → Thread) : (s.setThreads cid ls f).nextCmd = s.nextCmd := rfl
@[simp] theorem setThreads_lxs (cid : Nat) (ls : List Nat) (f : Thread → Thread) : (s.setThreads cid ls f).lxs = s.lxs := rfl
@[simp] theorem setThreads_plotMarks (cid : Nat) (ls : List Nat) (f : Thread → Thread) : (s.setThreads cid ls f).plotMarks = s.plotMarks := rfl
@[simp] theorem setThreads_clocks (cid : Nat) (ls : List Nat) (f : Thread → Thread) : (s.setThreads cid ls f).clocks = s.clocks := rfl
@[simp] theorem setThreads_strong (cid : Nat) (ls : List Nat) (f : Thread → Thread) : (s.setThreads cid ls f).strong = s.strong := rfl
@[simp] theorem setThreads_heard (cid : Nat) (ls : List Nat) (f : Thread → Thread) : (s.setThreads cid ls f).heard = s.heard := rfl
@[simp] theorem setThreads_fulls (cid : Nat) (ls : List Nat) (f : Thread → Thread) : (s.setThreads cid ls f).fulls = s.fulls := rfl
@[simp] theorem setThreads_purges (cid : Nat) (ls : List Nat) (f : Thread → Thread) : (s.setThreads cid ls f).purges = s.purges := rfl
@[simp] theorem setThreads_mem (cid : Nat) (ls : List Nat) (f : Thread → Thread) : (s.setThreads cid ls f).mem = s.mem := rfl
@[simp] theorem setThreads_host (cid : Nat) (ls : List Nat) (f : Thread → Thread) : (s.setThreads cid ls f).host = s.host := rfl
@[simp] theorem setThreads_peers (cid : Nat) (ls : List Nat) (f : Thread → Thread) : (s.setThreads cid ls f).peers = s.peers := rfl
@[simp] theorem setThreads_shared (cid : Nat) (ls : List Nat) (f : Thread → Thread) : (s.setThreads cid ls f).shared = s.shared := rfl
@[simp] theorem setThreads_l1 (cid : Nat) (ls : List Nat) (f : Thread → Thread) : (s.setThreads cid ls f).l1 = s.l1 := rfl
@[simp] theorem setThreads_code (cid : Nat) (ls : List Nat) (f : Thread → Thread) : (s.setThreads cid ls f).code = s.code := rfl
@[simp] theorem setThreads_shapes (cid : Nat) (ls : List Nat) (f : Thread → Thread) : (s.setThreads cid ls f).shapes = s.shapes := rfl
@[simp] theorem setThreads_migrations (cid : Nat) (ls : List Nat) (f : Thread → Thread) : (s.setThreads cid ls f).migrations = s.migrations := rfl
@[simp] theorem setThreads_retired (cid : Nat) (ls : List Nat) (f : Thread → Thread) : (s.setThreads cid ls f).retired = s.retired := rfl
@[simp] theorem setThreads_coxWaits (cid : Nat) (ls : List Nat) (f : Thread → Thread) : (s.setThreads cid ls f).coxWaits = s.coxWaits := rfl
@[simp] theorem setThreads_posts (cid : Nat) (ls : List Nat) (f : Thread → Thread) : (s.setThreads cid ls f).posts = s.posts := rfl
@[simp] theorem setThreads_orphans (cid : Nat) (ls : List Nat) (f : Thread → Thread) : (s.setThreads cid ls f).orphans = s.orphans := rfl
@[simp] theorem setThreads_beds (cid : Nat) (ls : List Nat) (f : Thread → Thread) : (s.setThreads cid ls f).beds = s.beds := rfl
@[simp] theorem setThreads_ports (cid : Nat) (ls : List Nat) (f : Thread → Thread) : (s.setThreads cid ls f).ports = s.ports := rfl
@[simp] theorem setThreads_links (cid : Nat) (ls : List Nat) (f : Thread → Thread) : (s.setThreads cid ls f).links = s.links := rfl
@[simp] theorem setThreads_seqs (cid : Nat) (ls : List Nat) (f : Thread → Thread) : (s.setThreads cid ls f).seqs = s.seqs := rfl
@[simp] theorem setThreads_peerFences (cid : Nat) (ls : List Nat) (f : Thread → Thread) : (s.setThreads cid ls f).peerFences = s.peerFences := rfl
@[simp] theorem setThreads_sent (cid : Nat) (ls : List Nat) (f : Thread → Thread) : (s.setThreads cid ls f).sent = s.sent := rfl
@[simp] theorem setThreads_modState (cid : Nat) (ls : List Nat) (f : Thread → Thread) : (s.setThreads cid ls f).modState = s.modState := rfl
@[simp] theorem setThreads_power (cid : Nat) (ls : List Nat) (f : Thread → Thread) : (s.setThreads cid ls f).power = s.power := rfl
@[simp] theorem setThreads_packagePower (cid : Nat) (ls : List Nat) (f : Thread → Thread) : (s.setThreads cid ls f).packagePower = s.packagePower := rfl
@[simp] theorem setThreads_inletTemp (cid : Nat) (ls : List Nat) (f : Thread → Thread) : (s.setThreads cid ls f).inletTemp = s.inletTemp := rfl
@[simp] theorem setThreads_dieTemp (cid : Nat) (ls : List Nat) (f : Thread → Thread) : (s.setThreads cid ls f).dieTemp = s.dieTemp := rfl
@[simp] theorem setThreads_coolant (cid : Nat) (ls : List Nat) (f : Thread → Thread) : (s.setThreads cid ls f).coolant = s.coolant := rfl
@[simp] theorem setThreads_dumpap (cid : Nat) (ls : List Nat) (f : Thread → Thread) : (s.setThreads cid ls f).dumpap = s.dumpap := rfl
@[simp] theorem setThreads_devap (cid : Nat) (ls : List Nat) (f : Thread → Thread) : (s.setThreads cid ls f).devap = s.devap := rfl
@[simp] theorem setThreads_cmdReg (cid : Nat) (ls : List Nat) (f : Thread → Thread) : (s.setThreads cid ls f).cmdReg = s.cmdReg := rfl
@[simp] theorem setThreads_cstat (cid : Nat) (ls : List Nat) (f : Thread → Thread) : (s.setThreads cid ls f).cstat = s.cstat := rfl
@[simp] theorem setThreads_cdone (cid : Nat) (ls : List Nat) (f : Thread → Thread) : (s.setThreads cid ls f).cdone = s.cdone := rfl
@[simp] theorem setThreads_errcnt (cid : Nat) (ls : List Nat) (f : Thread → Thread) : (s.setThreads cid ls f).errcnt = s.errcnt := rfl
@[simp] theorem setThreads_clock (cid : Nat) (ls : List Nat) (f : Thread → Thread) : (s.setThreads cid ls f).clock = s.clock := rfl
@[simp] theorem setThreads_stopped (cid : Nat) (ls : List Nat) (f : Thread → Thread) : (s.setThreads cid ls f).stopped = s.stopped := rfl
@[simp] theorem setThreads_stepDowns (cid : Nat) (ls : List Nat) (f : Thread → Thread) : (s.setThreads cid ls f).stepDowns = s.stepDowns := rfl
@[simp] theorem setThreads_mmpImage (cid : Nat) (ls : List Nat) (f : Thread → Thread) : (s.setThreads cid ls f).mmpImage = s.mmpImage := rfl
@[simp] theorem setThreads_trellisImage (cid : Nat) (ls : List Nat) (f : Thread → Thread) : (s.setThreads cid ls f).trellisImage = s.trellisImage := rfl
@[simp] theorem setThreads_update (cid : Nat) (ls : List Nat) (f : Thread → Thread) : (s.setThreads cid ls f).update = s.update := rfl
@[simp] theorem setThreads_dump (cid : Nat) (ls : List Nat) (f : Thread → Thread) : (s.setThreads cid ls f).dump = s.dump := rfl
@[simp] theorem setThreads_messages (cid : Nat) (ls : List Nat) (f : Thread → Thread) : (s.setThreads cid ls f).messages = s.messages := rfl

/-! ### dropEmpty -/

@[simp] theorem dropEmpty_agenda : s.dropEmpty.agenda = s.agenda := rfl
@[simp] theorem dropEmpty_cur : s.dropEmpty.cur = s.cur := rfl
@[simp] theorem dropEmpty_fresh : s.dropEmpty.fresh = s.fresh := rfl
@[simp] theorem dropEmpty_teams : s.dropEmpty.teams = s.teams := rfl
@[simp] theorem dropEmpty_launches : s.dropEmpty.launches = s.launches := rfl
@[simp] theorem dropEmpty_graphs : s.dropEmpty.graphs = s.graphs := rfl
@[simp] theorem dropEmpty_pool : s.dropEmpty.pool = s.pool := rfl
@[simp] theorem dropEmpty_bins : s.dropEmpty.bins = s.bins := rfl
@[simp] theorem dropEmpty_binSeq : s.dropEmpty.binSeq = s.binSeq := rfl
@[simp] theorem dropEmpty_nextCid : s.dropEmpty.nextCid = s.nextCid := rfl
@[simp] theorem dropEmpty_cmds : s.dropEmpty.cmds = s.cmds := rfl
@[simp] theorem dropEmpty_nextCmd : s.dropEmpty.nextCmd = s.nextCmd := rfl
@[simp] theorem dropEmpty_lxs : s.dropEmpty.lxs = s.lxs := rfl
@[simp] theorem dropEmpty_plotMarks : s.dropEmpty.plotMarks = s.plotMarks := rfl
@[simp] theorem dropEmpty_clocks : s.dropEmpty.clocks = s.clocks := rfl
@[simp] theorem dropEmpty_strong : s.dropEmpty.strong = s.strong := rfl
@[simp] theorem dropEmpty_heard : s.dropEmpty.heard = s.heard := rfl
@[simp] theorem dropEmpty_fulls : s.dropEmpty.fulls = s.fulls := rfl
@[simp] theorem dropEmpty_purges : s.dropEmpty.purges = s.purges := rfl
@[simp] theorem dropEmpty_mem : s.dropEmpty.mem = s.mem := rfl
@[simp] theorem dropEmpty_host : s.dropEmpty.host = s.host := rfl
@[simp] theorem dropEmpty_peers : s.dropEmpty.peers = s.peers := rfl
@[simp] theorem dropEmpty_shared : s.dropEmpty.shared = s.shared := rfl
@[simp] theorem dropEmpty_l1 : s.dropEmpty.l1 = s.l1 := rfl
@[simp] theorem dropEmpty_code : s.dropEmpty.code = s.code := rfl
@[simp] theorem dropEmpty_shapes : s.dropEmpty.shapes = s.shapes := rfl
@[simp] theorem dropEmpty_migrations : s.dropEmpty.migrations = s.migrations := rfl
@[simp] theorem dropEmpty_retired : s.dropEmpty.retired = s.retired := rfl
@[simp] theorem dropEmpty_coxWaits : s.dropEmpty.coxWaits = s.coxWaits := rfl
@[simp] theorem dropEmpty_posts : s.dropEmpty.posts = s.posts := rfl
@[simp] theorem dropEmpty_orphans : s.dropEmpty.orphans = s.orphans := rfl
@[simp] theorem dropEmpty_beds : s.dropEmpty.beds = s.beds := rfl
@[simp] theorem dropEmpty_ports : s.dropEmpty.ports = s.ports := rfl
@[simp] theorem dropEmpty_links : s.dropEmpty.links = s.links := rfl
@[simp] theorem dropEmpty_seqs : s.dropEmpty.seqs = s.seqs := rfl
@[simp] theorem dropEmpty_peerFences : s.dropEmpty.peerFences = s.peerFences := rfl
@[simp] theorem dropEmpty_sent : s.dropEmpty.sent = s.sent := rfl
@[simp] theorem dropEmpty_modState : s.dropEmpty.modState = s.modState := rfl
@[simp] theorem dropEmpty_power : s.dropEmpty.power = s.power := rfl
@[simp] theorem dropEmpty_packagePower : s.dropEmpty.packagePower = s.packagePower := rfl
@[simp] theorem dropEmpty_inletTemp : s.dropEmpty.inletTemp = s.inletTemp := rfl
@[simp] theorem dropEmpty_dieTemp : s.dropEmpty.dieTemp = s.dieTemp := rfl
@[simp] theorem dropEmpty_coolant : s.dropEmpty.coolant = s.coolant := rfl
@[simp] theorem dropEmpty_dumpap : s.dropEmpty.dumpap = s.dumpap := rfl
@[simp] theorem dropEmpty_devap : s.dropEmpty.devap = s.devap := rfl
@[simp] theorem dropEmpty_cmdReg : s.dropEmpty.cmdReg = s.cmdReg := rfl
@[simp] theorem dropEmpty_cstat : s.dropEmpty.cstat = s.cstat := rfl
@[simp] theorem dropEmpty_cdone : s.dropEmpty.cdone = s.cdone := rfl
@[simp] theorem dropEmpty_errcnt : s.dropEmpty.errcnt = s.errcnt := rfl
@[simp] theorem dropEmpty_clock : s.dropEmpty.clock = s.clock := rfl
@[simp] theorem dropEmpty_stopped : s.dropEmpty.stopped = s.stopped := rfl
@[simp] theorem dropEmpty_stepDowns : s.dropEmpty.stepDowns = s.stepDowns := rfl
@[simp] theorem dropEmpty_mmpImage : s.dropEmpty.mmpImage = s.mmpImage := rfl
@[simp] theorem dropEmpty_trellisImage : s.dropEmpty.trellisImage = s.trellisImage := rfl
@[simp] theorem dropEmpty_update : s.dropEmpty.update = s.update := rfl
@[simp] theorem dropEmpty_dump : s.dropEmpty.dump = s.dump := rfl
@[simp] theorem dropEmpty_messages : s.dropEmpty.messages = s.messages := rfl

/-! ### setTeam -/

@[simp] theorem setTeam_agenda (r : TeamRef) (f : Team → Team) : (s.setTeam r f).agenda = s.agenda := rfl
@[simp] theorem setTeam_cur (r : TeamRef) (f : Team → Team) : (s.setTeam r f).cur = s.cur := rfl
@[simp] theorem setTeam_fresh (r : TeamRef) (f : Team → Team) : (s.setTeam r f).fresh = s.fresh := rfl
@[simp] theorem setTeam_crews (r : TeamRef) (f : Team → Team) : (s.setTeam r f).crews = s.crews := rfl
@[simp] theorem setTeam_launches (r : TeamRef) (f : Team → Team) : (s.setTeam r f).launches = s.launches := rfl
@[simp] theorem setTeam_graphs (r : TeamRef) (f : Team → Team) : (s.setTeam r f).graphs = s.graphs := rfl
@[simp] theorem setTeam_pool (r : TeamRef) (f : Team → Team) : (s.setTeam r f).pool = s.pool := rfl
@[simp] theorem setTeam_bins (r : TeamRef) (f : Team → Team) : (s.setTeam r f).bins = s.bins := rfl
@[simp] theorem setTeam_binSeq (r : TeamRef) (f : Team → Team) : (s.setTeam r f).binSeq = s.binSeq := rfl
@[simp] theorem setTeam_nextCid (r : TeamRef) (f : Team → Team) : (s.setTeam r f).nextCid = s.nextCid := rfl
@[simp] theorem setTeam_cmds (r : TeamRef) (f : Team → Team) : (s.setTeam r f).cmds = s.cmds := rfl
@[simp] theorem setTeam_nextCmd (r : TeamRef) (f : Team → Team) : (s.setTeam r f).nextCmd = s.nextCmd := rfl
@[simp] theorem setTeam_lxs (r : TeamRef) (f : Team → Team) : (s.setTeam r f).lxs = s.lxs := rfl
@[simp] theorem setTeam_plotMarks (r : TeamRef) (f : Team → Team) : (s.setTeam r f).plotMarks = s.plotMarks := rfl
@[simp] theorem setTeam_clocks (r : TeamRef) (f : Team → Team) : (s.setTeam r f).clocks = s.clocks := rfl
@[simp] theorem setTeam_strong (r : TeamRef) (f : Team → Team) : (s.setTeam r f).strong = s.strong := rfl
@[simp] theorem setTeam_heard (r : TeamRef) (f : Team → Team) : (s.setTeam r f).heard = s.heard := rfl
@[simp] theorem setTeam_fulls (r : TeamRef) (f : Team → Team) : (s.setTeam r f).fulls = s.fulls := rfl
@[simp] theorem setTeam_purges (r : TeamRef) (f : Team → Team) : (s.setTeam r f).purges = s.purges := rfl
@[simp] theorem setTeam_mem (r : TeamRef) (f : Team → Team) : (s.setTeam r f).mem = s.mem := rfl
@[simp] theorem setTeam_host (r : TeamRef) (f : Team → Team) : (s.setTeam r f).host = s.host := rfl
@[simp] theorem setTeam_peers (r : TeamRef) (f : Team → Team) : (s.setTeam r f).peers = s.peers := rfl
@[simp] theorem setTeam_shared (r : TeamRef) (f : Team → Team) : (s.setTeam r f).shared = s.shared := rfl
@[simp] theorem setTeam_l1 (r : TeamRef) (f : Team → Team) : (s.setTeam r f).l1 = s.l1 := rfl
@[simp] theorem setTeam_code (r : TeamRef) (f : Team → Team) : (s.setTeam r f).code = s.code := rfl
@[simp] theorem setTeam_shapes (r : TeamRef) (f : Team → Team) : (s.setTeam r f).shapes = s.shapes := rfl
@[simp] theorem setTeam_migrations (r : TeamRef) (f : Team → Team) : (s.setTeam r f).migrations = s.migrations := rfl
@[simp] theorem setTeam_retired (r : TeamRef) (f : Team → Team) : (s.setTeam r f).retired = s.retired := rfl
@[simp] theorem setTeam_coxWaits (r : TeamRef) (f : Team → Team) : (s.setTeam r f).coxWaits = s.coxWaits := rfl
@[simp] theorem setTeam_posts (r : TeamRef) (f : Team → Team) : (s.setTeam r f).posts = s.posts := rfl
@[simp] theorem setTeam_orphans (r : TeamRef) (f : Team → Team) : (s.setTeam r f).orphans = s.orphans := rfl
@[simp] theorem setTeam_beds (r : TeamRef) (f : Team → Team) : (s.setTeam r f).beds = s.beds := rfl
@[simp] theorem setTeam_ports (r : TeamRef) (f : Team → Team) : (s.setTeam r f).ports = s.ports := rfl
@[simp] theorem setTeam_links (r : TeamRef) (f : Team → Team) : (s.setTeam r f).links = s.links := rfl
@[simp] theorem setTeam_seqs (r : TeamRef) (f : Team → Team) : (s.setTeam r f).seqs = s.seqs := rfl
@[simp] theorem setTeam_peerFences (r : TeamRef) (f : Team → Team) : (s.setTeam r f).peerFences = s.peerFences := rfl
@[simp] theorem setTeam_sent (r : TeamRef) (f : Team → Team) : (s.setTeam r f).sent = s.sent := rfl
@[simp] theorem setTeam_modState (r : TeamRef) (f : Team → Team) : (s.setTeam r f).modState = s.modState := rfl
@[simp] theorem setTeam_power (r : TeamRef) (f : Team → Team) : (s.setTeam r f).power = s.power := rfl
@[simp] theorem setTeam_packagePower (r : TeamRef) (f : Team → Team) : (s.setTeam r f).packagePower = s.packagePower := rfl
@[simp] theorem setTeam_inletTemp (r : TeamRef) (f : Team → Team) : (s.setTeam r f).inletTemp = s.inletTemp := rfl
@[simp] theorem setTeam_dieTemp (r : TeamRef) (f : Team → Team) : (s.setTeam r f).dieTemp = s.dieTemp := rfl
@[simp] theorem setTeam_coolant (r : TeamRef) (f : Team → Team) : (s.setTeam r f).coolant = s.coolant := rfl
@[simp] theorem setTeam_dumpap (r : TeamRef) (f : Team → Team) : (s.setTeam r f).dumpap = s.dumpap := rfl
@[simp] theorem setTeam_devap (r : TeamRef) (f : Team → Team) : (s.setTeam r f).devap = s.devap := rfl
@[simp] theorem setTeam_cmdReg (r : TeamRef) (f : Team → Team) : (s.setTeam r f).cmdReg = s.cmdReg := rfl
@[simp] theorem setTeam_cstat (r : TeamRef) (f : Team → Team) : (s.setTeam r f).cstat = s.cstat := rfl
@[simp] theorem setTeam_cdone (r : TeamRef) (f : Team → Team) : (s.setTeam r f).cdone = s.cdone := rfl
@[simp] theorem setTeam_errcnt (r : TeamRef) (f : Team → Team) : (s.setTeam r f).errcnt = s.errcnt := rfl
@[simp] theorem setTeam_clock (r : TeamRef) (f : Team → Team) : (s.setTeam r f).clock = s.clock := rfl
@[simp] theorem setTeam_stopped (r : TeamRef) (f : Team → Team) : (s.setTeam r f).stopped = s.stopped := rfl
@[simp] theorem setTeam_stepDowns (r : TeamRef) (f : Team → Team) : (s.setTeam r f).stepDowns = s.stepDowns := rfl
@[simp] theorem setTeam_mmpImage (r : TeamRef) (f : Team → Team) : (s.setTeam r f).mmpImage = s.mmpImage := rfl
@[simp] theorem setTeam_trellisImage (r : TeamRef) (f : Team → Team) : (s.setTeam r f).trellisImage = s.trellisImage := rfl
@[simp] theorem setTeam_update (r : TeamRef) (f : Team → Team) : (s.setTeam r f).update = s.update := rfl
@[simp] theorem setTeam_dump (r : TeamRef) (f : Team → Team) : (s.setTeam r f).dump = s.dump := rfl
@[simp] theorem setTeam_messages (r : TeamRef) (f : Team → Team) : (s.setTeam r f).messages = s.messages := rfl

/-! ### haltTeam -/

@[simp] theorem haltTeam_agenda (r : TeamRef) : (s.haltTeam r).agenda = s.agenda := rfl
@[simp] theorem haltTeam_cur (r : TeamRef) : (s.haltTeam r).cur = s.cur := rfl
@[simp] theorem haltTeam_fresh (r : TeamRef) : (s.haltTeam r).fresh = s.fresh := rfl
@[simp] theorem haltTeam_crews (r : TeamRef) : (s.haltTeam r).crews = s.crews := rfl
@[simp] theorem haltTeam_launches (r : TeamRef) : (s.haltTeam r).launches = s.launches := rfl
@[simp] theorem haltTeam_graphs (r : TeamRef) : (s.haltTeam r).graphs = s.graphs := rfl
@[simp] theorem haltTeam_pool (r : TeamRef) : (s.haltTeam r).pool = s.pool := rfl
@[simp] theorem haltTeam_bins (r : TeamRef) : (s.haltTeam r).bins = s.bins := rfl
@[simp] theorem haltTeam_binSeq (r : TeamRef) : (s.haltTeam r).binSeq = s.binSeq := rfl
@[simp] theorem haltTeam_nextCid (r : TeamRef) : (s.haltTeam r).nextCid = s.nextCid := rfl
@[simp] theorem haltTeam_cmds (r : TeamRef) : (s.haltTeam r).cmds = s.cmds := rfl
@[simp] theorem haltTeam_nextCmd (r : TeamRef) : (s.haltTeam r).nextCmd = s.nextCmd := rfl
@[simp] theorem haltTeam_lxs (r : TeamRef) : (s.haltTeam r).lxs = s.lxs := rfl
@[simp] theorem haltTeam_plotMarks (r : TeamRef) : (s.haltTeam r).plotMarks = s.plotMarks := rfl
@[simp] theorem haltTeam_clocks (r : TeamRef) : (s.haltTeam r).clocks = s.clocks := rfl
@[simp] theorem haltTeam_strong (r : TeamRef) : (s.haltTeam r).strong = s.strong := rfl
@[simp] theorem haltTeam_heard (r : TeamRef) : (s.haltTeam r).heard = s.heard := rfl
@[simp] theorem haltTeam_fulls (r : TeamRef) : (s.haltTeam r).fulls = s.fulls := rfl
@[simp] theorem haltTeam_purges (r : TeamRef) : (s.haltTeam r).purges = s.purges := rfl
@[simp] theorem haltTeam_mem (r : TeamRef) : (s.haltTeam r).mem = s.mem := rfl
@[simp] theorem haltTeam_host (r : TeamRef) : (s.haltTeam r).host = s.host := rfl
@[simp] theorem haltTeam_peers (r : TeamRef) : (s.haltTeam r).peers = s.peers := rfl
@[simp] theorem haltTeam_shared (r : TeamRef) : (s.haltTeam r).shared = s.shared := rfl
@[simp] theorem haltTeam_l1 (r : TeamRef) : (s.haltTeam r).l1 = s.l1 := rfl
@[simp] theorem haltTeam_code (r : TeamRef) : (s.haltTeam r).code = s.code := rfl
@[simp] theorem haltTeam_shapes (r : TeamRef) : (s.haltTeam r).shapes = s.shapes := rfl
@[simp] theorem haltTeam_migrations (r : TeamRef) : (s.haltTeam r).migrations = s.migrations := rfl
@[simp] theorem haltTeam_retired (r : TeamRef) : (s.haltTeam r).retired = s.retired := rfl
@[simp] theorem haltTeam_coxWaits (r : TeamRef) : (s.haltTeam r).coxWaits = s.coxWaits := rfl
@[simp] theorem haltTeam_posts (r : TeamRef) : (s.haltTeam r).posts = s.posts := rfl
@[simp] theorem haltTeam_orphans (r : TeamRef) : (s.haltTeam r).orphans = s.orphans := rfl
@[simp] theorem haltTeam_beds (r : TeamRef) : (s.haltTeam r).beds = s.beds := rfl
@[simp] theorem haltTeam_ports (r : TeamRef) : (s.haltTeam r).ports = s.ports := rfl
@[simp] theorem haltTeam_links (r : TeamRef) : (s.haltTeam r).links = s.links := rfl
@[simp] theorem haltTeam_seqs (r : TeamRef) : (s.haltTeam r).seqs = s.seqs := rfl
@[simp] theorem haltTeam_peerFences (r : TeamRef) : (s.haltTeam r).peerFences = s.peerFences := rfl
@[simp] theorem haltTeam_sent (r : TeamRef) : (s.haltTeam r).sent = s.sent := rfl
@[simp] theorem haltTeam_modState (r : TeamRef) : (s.haltTeam r).modState = s.modState := rfl
@[simp] theorem haltTeam_power (r : TeamRef) : (s.haltTeam r).power = s.power := rfl
@[simp] theorem haltTeam_packagePower (r : TeamRef) : (s.haltTeam r).packagePower = s.packagePower := rfl
@[simp] theorem haltTeam_inletTemp (r : TeamRef) : (s.haltTeam r).inletTemp = s.inletTemp := rfl
@[simp] theorem haltTeam_dieTemp (r : TeamRef) : (s.haltTeam r).dieTemp = s.dieTemp := rfl
@[simp] theorem haltTeam_coolant (r : TeamRef) : (s.haltTeam r).coolant = s.coolant := rfl
@[simp] theorem haltTeam_dumpap (r : TeamRef) : (s.haltTeam r).dumpap = s.dumpap := rfl
@[simp] theorem haltTeam_devap (r : TeamRef) : (s.haltTeam r).devap = s.devap := rfl
@[simp] theorem haltTeam_cmdReg (r : TeamRef) : (s.haltTeam r).cmdReg = s.cmdReg := rfl
@[simp] theorem haltTeam_cstat (r : TeamRef) : (s.haltTeam r).cstat = s.cstat := rfl
@[simp] theorem haltTeam_cdone (r : TeamRef) : (s.haltTeam r).cdone = s.cdone := rfl
@[simp] theorem haltTeam_errcnt (r : TeamRef) : (s.haltTeam r).errcnt = s.errcnt := rfl
@[simp] theorem haltTeam_clock (r : TeamRef) : (s.haltTeam r).clock = s.clock := rfl
@[simp] theorem haltTeam_stopped (r : TeamRef) : (s.haltTeam r).stopped = s.stopped := rfl
@[simp] theorem haltTeam_stepDowns (r : TeamRef) : (s.haltTeam r).stepDowns = s.stepDowns := rfl
@[simp] theorem haltTeam_mmpImage (r : TeamRef) : (s.haltTeam r).mmpImage = s.mmpImage := rfl
@[simp] theorem haltTeam_trellisImage (r : TeamRef) : (s.haltTeam r).trellisImage = s.trellisImage := rfl
@[simp] theorem haltTeam_update (r : TeamRef) : (s.haltTeam r).update = s.update := rfl
@[simp] theorem haltTeam_dump (r : TeamRef) : (s.haltTeam r).dump = s.dump := rfl
@[simp] theorem haltTeam_messages (r : TeamRef) : (s.haltTeam r).messages = s.messages := rfl

/-! ### setBed -/

@[simp] theorem setBed_agenda (b : Nat) (f : Bed → Bed) : (s.setBed b f).agenda = s.agenda := rfl
@[simp] theorem setBed_cur (b : Nat) (f : Bed → Bed) : (s.setBed b f).cur = s.cur := rfl
@[simp] theorem setBed_fresh (b : Nat) (f : Bed → Bed) : (s.setBed b f).fresh = s.fresh := rfl
@[simp] theorem setBed_crews (b : Nat) (f : Bed → Bed) : (s.setBed b f).crews = s.crews := rfl
@[simp] theorem setBed_teams (b : Nat) (f : Bed → Bed) : (s.setBed b f).teams = s.teams := rfl
@[simp] theorem setBed_launches (b : Nat) (f : Bed → Bed) : (s.setBed b f).launches = s.launches := rfl
@[simp] theorem setBed_graphs (b : Nat) (f : Bed → Bed) : (s.setBed b f).graphs = s.graphs := rfl
@[simp] theorem setBed_pool (b : Nat) (f : Bed → Bed) : (s.setBed b f).pool = s.pool := rfl
@[simp] theorem setBed_bins (b : Nat) (f : Bed → Bed) : (s.setBed b f).bins = s.bins := rfl
@[simp] theorem setBed_binSeq (b : Nat) (f : Bed → Bed) : (s.setBed b f).binSeq = s.binSeq := rfl
@[simp] theorem setBed_nextCid (b : Nat) (f : Bed → Bed) : (s.setBed b f).nextCid = s.nextCid := rfl
@[simp] theorem setBed_cmds (b : Nat) (f : Bed → Bed) : (s.setBed b f).cmds = s.cmds := rfl
@[simp] theorem setBed_nextCmd (b : Nat) (f : Bed → Bed) : (s.setBed b f).nextCmd = s.nextCmd := rfl
@[simp] theorem setBed_lxs (b : Nat) (f : Bed → Bed) : (s.setBed b f).lxs = s.lxs := rfl
@[simp] theorem setBed_plotMarks (b : Nat) (f : Bed → Bed) : (s.setBed b f).plotMarks = s.plotMarks := rfl
@[simp] theorem setBed_clocks (b : Nat) (f : Bed → Bed) : (s.setBed b f).clocks = s.clocks := rfl
@[simp] theorem setBed_strong (b : Nat) (f : Bed → Bed) : (s.setBed b f).strong = s.strong := rfl
@[simp] theorem setBed_heard (b : Nat) (f : Bed → Bed) : (s.setBed b f).heard = s.heard := rfl
@[simp] theorem setBed_fulls (b : Nat) (f : Bed → Bed) : (s.setBed b f).fulls = s.fulls := rfl
@[simp] theorem setBed_purges (b : Nat) (f : Bed → Bed) : (s.setBed b f).purges = s.purges := rfl
@[simp] theorem setBed_mem (b : Nat) (f : Bed → Bed) : (s.setBed b f).mem = s.mem := rfl
@[simp] theorem setBed_host (b : Nat) (f : Bed → Bed) : (s.setBed b f).host = s.host := rfl
@[simp] theorem setBed_peers (b : Nat) (f : Bed → Bed) : (s.setBed b f).peers = s.peers := rfl
@[simp] theorem setBed_shared (b : Nat) (f : Bed → Bed) : (s.setBed b f).shared = s.shared := rfl
@[simp] theorem setBed_l1 (b : Nat) (f : Bed → Bed) : (s.setBed b f).l1 = s.l1 := rfl
@[simp] theorem setBed_code (b : Nat) (f : Bed → Bed) : (s.setBed b f).code = s.code := rfl
@[simp] theorem setBed_shapes (b : Nat) (f : Bed → Bed) : (s.setBed b f).shapes = s.shapes := rfl
@[simp] theorem setBed_migrations (b : Nat) (f : Bed → Bed) : (s.setBed b f).migrations = s.migrations := rfl
@[simp] theorem setBed_retired (b : Nat) (f : Bed → Bed) : (s.setBed b f).retired = s.retired := rfl
@[simp] theorem setBed_coxWaits (b : Nat) (f : Bed → Bed) : (s.setBed b f).coxWaits = s.coxWaits := rfl
@[simp] theorem setBed_posts (b : Nat) (f : Bed → Bed) : (s.setBed b f).posts = s.posts := rfl
@[simp] theorem setBed_orphans (b : Nat) (f : Bed → Bed) : (s.setBed b f).orphans = s.orphans := rfl
@[simp] theorem setBed_ports (b : Nat) (f : Bed → Bed) : (s.setBed b f).ports = s.ports := rfl
@[simp] theorem setBed_links (b : Nat) (f : Bed → Bed) : (s.setBed b f).links = s.links := rfl
@[simp] theorem setBed_seqs (b : Nat) (f : Bed → Bed) : (s.setBed b f).seqs = s.seqs := rfl
@[simp] theorem setBed_peerFences (b : Nat) (f : Bed → Bed) : (s.setBed b f).peerFences = s.peerFences := rfl
@[simp] theorem setBed_sent (b : Nat) (f : Bed → Bed) : (s.setBed b f).sent = s.sent := rfl
@[simp] theorem setBed_modState (b : Nat) (f : Bed → Bed) : (s.setBed b f).modState = s.modState := rfl
@[simp] theorem setBed_power (b : Nat) (f : Bed → Bed) : (s.setBed b f).power = s.power := rfl
@[simp] theorem setBed_packagePower (b : Nat) (f : Bed → Bed) : (s.setBed b f).packagePower = s.packagePower := rfl
@[simp] theorem setBed_inletTemp (b : Nat) (f : Bed → Bed) : (s.setBed b f).inletTemp = s.inletTemp := rfl
@[simp] theorem setBed_dieTemp (b : Nat) (f : Bed → Bed) : (s.setBed b f).dieTemp = s.dieTemp := rfl
@[simp] theorem setBed_coolant (b : Nat) (f : Bed → Bed) : (s.setBed b f).coolant = s.coolant := rfl
@[simp] theorem setBed_dumpap (b : Nat) (f : Bed → Bed) : (s.setBed b f).dumpap = s.dumpap := rfl
@[simp] theorem setBed_devap (b : Nat) (f : Bed → Bed) : (s.setBed b f).devap = s.devap := rfl
@[simp] theorem setBed_cmdReg (b : Nat) (f : Bed → Bed) : (s.setBed b f).cmdReg = s.cmdReg := rfl
@[simp] theorem setBed_cstat (b : Nat) (f : Bed → Bed) : (s.setBed b f).cstat = s.cstat := rfl
@[simp] theorem setBed_cdone (b : Nat) (f : Bed → Bed) : (s.setBed b f).cdone = s.cdone := rfl
@[simp] theorem setBed_errcnt (b : Nat) (f : Bed → Bed) : (s.setBed b f).errcnt = s.errcnt := rfl
@[simp] theorem setBed_clock (b : Nat) (f : Bed → Bed) : (s.setBed b f).clock = s.clock := rfl
@[simp] theorem setBed_stopped (b : Nat) (f : Bed → Bed) : (s.setBed b f).stopped = s.stopped := rfl
@[simp] theorem setBed_stepDowns (b : Nat) (f : Bed → Bed) : (s.setBed b f).stepDowns = s.stepDowns := rfl
@[simp] theorem setBed_mmpImage (b : Nat) (f : Bed → Bed) : (s.setBed b f).mmpImage = s.mmpImage := rfl
@[simp] theorem setBed_trellisImage (b : Nat) (f : Bed → Bed) : (s.setBed b f).trellisImage = s.trellisImage := rfl
@[simp] theorem setBed_update (b : Nat) (f : Bed → Bed) : (s.setBed b f).update = s.update := rfl
@[simp] theorem setBed_dump (b : Nat) (f : Bed → Bed) : (s.setBed b f).dump = s.dump := rfl
@[simp] theorem setBed_messages (b : Nat) (f : Bed → Bed) : (s.setBed b f).messages = s.messages := rfl

/-! ### report -/

@[simp] theorem report_agenda (b : Nat) (r : Report) : (s.report b r).agenda = s.agenda := rfl
@[simp] theorem report_cur (b : Nat) (r : Report) : (s.report b r).cur = s.cur := rfl
@[simp] theorem report_fresh (b : Nat) (r : Report) : (s.report b r).fresh = s.fresh := rfl
@[simp] theorem report_crews (b : Nat) (r : Report) : (s.report b r).crews = s.crews := rfl
@[simp] theorem report_teams (b : Nat) (r : Report) : (s.report b r).teams = s.teams := rfl
@[simp] theorem report_launches (b : Nat) (r : Report) : (s.report b r).launches = s.launches := rfl
@[simp] theorem report_graphs (b : Nat) (r : Report) : (s.report b r).graphs = s.graphs := rfl
@[simp] theorem report_pool (b : Nat) (r : Report) : (s.report b r).pool = s.pool := rfl
@[simp] theorem report_bins (b : Nat) (r : Report) : (s.report b r).bins = s.bins := rfl
@[simp] theorem report_binSeq (b : Nat) (r : Report) : (s.report b r).binSeq = s.binSeq := rfl
@[simp] theorem report_nextCid (b : Nat) (r : Report) : (s.report b r).nextCid = s.nextCid := rfl
@[simp] theorem report_cmds (b : Nat) (r : Report) : (s.report b r).cmds = s.cmds := rfl
@[simp] theorem report_nextCmd (b : Nat) (r : Report) : (s.report b r).nextCmd = s.nextCmd := rfl
@[simp] theorem report_lxs (b : Nat) (r : Report) : (s.report b r).lxs = s.lxs := rfl
@[simp] theorem report_plotMarks (b : Nat) (r : Report) : (s.report b r).plotMarks = s.plotMarks := rfl
@[simp] theorem report_clocks (b : Nat) (r : Report) : (s.report b r).clocks = s.clocks := rfl
@[simp] theorem report_strong (b : Nat) (r : Report) : (s.report b r).strong = s.strong := rfl
@[simp] theorem report_heard (b : Nat) (r : Report) : (s.report b r).heard = s.heard := rfl
@[simp] theorem report_fulls (b : Nat) (r : Report) : (s.report b r).fulls = s.fulls := rfl
@[simp] theorem report_purges (b : Nat) (r : Report) : (s.report b r).purges = s.purges := rfl
@[simp] theorem report_mem (b : Nat) (r : Report) : (s.report b r).mem = s.mem := rfl
@[simp] theorem report_host (b : Nat) (r : Report) : (s.report b r).host = s.host := rfl
@[simp] theorem report_peers (b : Nat) (r : Report) : (s.report b r).peers = s.peers := rfl
@[simp] theorem report_shared (b : Nat) (r : Report) : (s.report b r).shared = s.shared := rfl
@[simp] theorem report_l1 (b : Nat) (r : Report) : (s.report b r).l1 = s.l1 := rfl
@[simp] theorem report_code (b : Nat) (r : Report) : (s.report b r).code = s.code := rfl
@[simp] theorem report_shapes (b : Nat) (r : Report) : (s.report b r).shapes = s.shapes := rfl
@[simp] theorem report_migrations (b : Nat) (r : Report) : (s.report b r).migrations = s.migrations := rfl
@[simp] theorem report_retired (b : Nat) (r : Report) : (s.report b r).retired = s.retired := rfl
@[simp] theorem report_coxWaits (b : Nat) (r : Report) : (s.report b r).coxWaits = s.coxWaits := rfl
@[simp] theorem report_posts (b : Nat) (r : Report) : (s.report b r).posts = s.posts := rfl
@[simp] theorem report_orphans (b : Nat) (r : Report) : (s.report b r).orphans = s.orphans := rfl
@[simp] theorem report_ports (b : Nat) (r : Report) : (s.report b r).ports = s.ports := rfl
@[simp] theorem report_links (b : Nat) (r : Report) : (s.report b r).links = s.links := rfl
@[simp] theorem report_seqs (b : Nat) (r : Report) : (s.report b r).seqs = s.seqs := rfl
@[simp] theorem report_peerFences (b : Nat) (r : Report) : (s.report b r).peerFences = s.peerFences := rfl
@[simp] theorem report_sent (b : Nat) (r : Report) : (s.report b r).sent = s.sent := rfl
@[simp] theorem report_modState (b : Nat) (r : Report) : (s.report b r).modState = s.modState := rfl
@[simp] theorem report_power (b : Nat) (r : Report) : (s.report b r).power = s.power := rfl
@[simp] theorem report_packagePower (b : Nat) (r : Report) : (s.report b r).packagePower = s.packagePower := rfl
@[simp] theorem report_inletTemp (b : Nat) (r : Report) : (s.report b r).inletTemp = s.inletTemp := rfl
@[simp] theorem report_dieTemp (b : Nat) (r : Report) : (s.report b r).dieTemp = s.dieTemp := rfl
@[simp] theorem report_coolant (b : Nat) (r : Report) : (s.report b r).coolant = s.coolant := rfl
@[simp] theorem report_dumpap (b : Nat) (r : Report) : (s.report b r).dumpap = s.dumpap := rfl
@[simp] theorem report_devap (b : Nat) (r : Report) : (s.report b r).devap = s.devap := rfl
@[simp] theorem report_cmdReg (b : Nat) (r : Report) : (s.report b r).cmdReg = s.cmdReg := rfl
@[simp] theorem report_cstat (b : Nat) (r : Report) : (s.report b r).cstat = s.cstat := rfl
@[simp] theorem report_cdone (b : Nat) (r : Report) : (s.report b r).cdone = s.cdone := rfl
@[simp] theorem report_errcnt (b : Nat) (r : Report) : (s.report b r).errcnt = s.errcnt := rfl
@[simp] theorem report_clock (b : Nat) (r : Report) : (s.report b r).clock = s.clock := rfl
@[simp] theorem report_stopped (b : Nat) (r : Report) : (s.report b r).stopped = s.stopped := rfl
@[simp] theorem report_stepDowns (b : Nat) (r : Report) : (s.report b r).stepDowns = s.stepDowns := rfl
@[simp] theorem report_mmpImage (b : Nat) (r : Report) : (s.report b r).mmpImage = s.mmpImage := rfl
@[simp] theorem report_trellisImage (b : Nat) (r : Report) : (s.report b r).trellisImage = s.trellisImage := rfl
@[simp] theorem report_update (b : Nat) (r : Report) : (s.report b r).update = s.update := rfl
@[simp] theorem report_dump (b : Nat) (r : Report) : (s.report b r).dump = s.dump := rfl
@[simp] theorem report_messages (b : Nat) (r : Report) : (s.report b r).messages = s.messages := rfl

/-! ### setLaunch -/

@[simp] theorem setLaunch_agenda (b i : Nat) (f : Launch → Launch) : (s.setLaunch b i f).agenda = s.agenda := rfl
@[simp] theorem setLaunch_cur (b i : Nat) (f : Launch → Launch) : (s.setLaunch b i f).cur = s.cur := rfl
@[simp] theorem setLaunch_fresh (b i : Nat) (f : Launch → Launch) : (s.setLaunch b i f).fresh = s.fresh := rfl
@[simp] theorem setLaunch_crews (b i : Nat) (f : Launch → Launch) : (s.setLaunch b i f).crews = s.crews := rfl
@[simp] theorem setLaunch_teams (b i : Nat) (f : Launch → Launch) : (s.setLaunch b i f).teams = s.teams := rfl
@[simp] theorem setLaunch_graphs (b i : Nat) (f : Launch → Launch) : (s.setLaunch b i f).graphs = s.graphs := rfl
@[simp] theorem setLaunch_pool (b i : Nat) (f : Launch → Launch) : (s.setLaunch b i f).pool = s.pool := rfl
@[simp] theorem setLaunch_bins (b i : Nat) (f : Launch → Launch) : (s.setLaunch b i f).bins = s.bins := rfl
@[simp] theorem setLaunch_binSeq (b i : Nat) (f : Launch → Launch) : (s.setLaunch b i f).binSeq = s.binSeq := rfl
@[simp] theorem setLaunch_nextCid (b i : Nat) (f : Launch → Launch) : (s.setLaunch b i f).nextCid = s.nextCid := rfl
@[simp] theorem setLaunch_cmds (b i : Nat) (f : Launch → Launch) : (s.setLaunch b i f).cmds = s.cmds := rfl
@[simp] theorem setLaunch_nextCmd (b i : Nat) (f : Launch → Launch) : (s.setLaunch b i f).nextCmd = s.nextCmd := rfl
@[simp] theorem setLaunch_lxs (b i : Nat) (f : Launch → Launch) : (s.setLaunch b i f).lxs = s.lxs := rfl
@[simp] theorem setLaunch_plotMarks (b i : Nat) (f : Launch → Launch) : (s.setLaunch b i f).plotMarks = s.plotMarks := rfl
@[simp] theorem setLaunch_clocks (b i : Nat) (f : Launch → Launch) : (s.setLaunch b i f).clocks = s.clocks := rfl
@[simp] theorem setLaunch_strong (b i : Nat) (f : Launch → Launch) : (s.setLaunch b i f).strong = s.strong := rfl
@[simp] theorem setLaunch_heard (b i : Nat) (f : Launch → Launch) : (s.setLaunch b i f).heard = s.heard := rfl
@[simp] theorem setLaunch_fulls (b i : Nat) (f : Launch → Launch) : (s.setLaunch b i f).fulls = s.fulls := rfl
@[simp] theorem setLaunch_purges (b i : Nat) (f : Launch → Launch) : (s.setLaunch b i f).purges = s.purges := rfl
@[simp] theorem setLaunch_mem (b i : Nat) (f : Launch → Launch) : (s.setLaunch b i f).mem = s.mem := rfl
@[simp] theorem setLaunch_host (b i : Nat) (f : Launch → Launch) : (s.setLaunch b i f).host = s.host := rfl
@[simp] theorem setLaunch_peers (b i : Nat) (f : Launch → Launch) : (s.setLaunch b i f).peers = s.peers := rfl
@[simp] theorem setLaunch_shared (b i : Nat) (f : Launch → Launch) : (s.setLaunch b i f).shared = s.shared := rfl
@[simp] theorem setLaunch_l1 (b i : Nat) (f : Launch → Launch) : (s.setLaunch b i f).l1 = s.l1 := rfl
@[simp] theorem setLaunch_code (b i : Nat) (f : Launch → Launch) : (s.setLaunch b i f).code = s.code := rfl
@[simp] theorem setLaunch_shapes (b i : Nat) (f : Launch → Launch) : (s.setLaunch b i f).shapes = s.shapes := rfl
@[simp] theorem setLaunch_migrations (b i : Nat) (f : Launch → Launch) : (s.setLaunch b i f).migrations = s.migrations := rfl
@[simp] theorem setLaunch_retired (b i : Nat) (f : Launch → Launch) : (s.setLaunch b i f).retired = s.retired := rfl
@[simp] theorem setLaunch_coxWaits (b i : Nat) (f : Launch → Launch) : (s.setLaunch b i f).coxWaits = s.coxWaits := rfl
@[simp] theorem setLaunch_posts (b i : Nat) (f : Launch → Launch) : (s.setLaunch b i f).posts = s.posts := rfl
@[simp] theorem setLaunch_orphans (b i : Nat) (f : Launch → Launch) : (s.setLaunch b i f).orphans = s.orphans := rfl
@[simp] theorem setLaunch_beds (b i : Nat) (f : Launch → Launch) : (s.setLaunch b i f).beds = s.beds := rfl
@[simp] theorem setLaunch_ports (b i : Nat) (f : Launch → Launch) : (s.setLaunch b i f).ports = s.ports := rfl
@[simp] theorem setLaunch_links (b i : Nat) (f : Launch → Launch) : (s.setLaunch b i f).links = s.links := rfl
@[simp] theorem setLaunch_seqs (b i : Nat) (f : Launch → Launch) : (s.setLaunch b i f).seqs = s.seqs := rfl
@[simp] theorem setLaunch_peerFences (b i : Nat) (f : Launch → Launch) : (s.setLaunch b i f).peerFences = s.peerFences := rfl
@[simp] theorem setLaunch_sent (b i : Nat) (f : Launch → Launch) : (s.setLaunch b i f).sent = s.sent := rfl
@[simp] theorem setLaunch_modState (b i : Nat) (f : Launch → Launch) : (s.setLaunch b i f).modState = s.modState := rfl
@[simp] theorem setLaunch_power (b i : Nat) (f : Launch → Launch) : (s.setLaunch b i f).power = s.power := rfl
@[simp] theorem setLaunch_packagePower (b i : Nat) (f : Launch → Launch) : (s.setLaunch b i f).packagePower = s.packagePower := rfl
@[simp] theorem setLaunch_inletTemp (b i : Nat) (f : Launch → Launch) : (s.setLaunch b i f).inletTemp = s.inletTemp := rfl
@[simp] theorem setLaunch_dieTemp (b i : Nat) (f : Launch → Launch) : (s.setLaunch b i f).dieTemp = s.dieTemp := rfl
@[simp] theorem setLaunch_coolant (b i : Nat) (f : Launch → Launch) : (s.setLaunch b i f).coolant = s.coolant := rfl
@[simp] theorem setLaunch_dumpap (b i : Nat) (f : Launch → Launch) : (s.setLaunch b i f).dumpap = s.dumpap := rfl
@[simp] theorem setLaunch_devap (b i : Nat) (f : Launch → Launch) : (s.setLaunch b i f).devap = s.devap := rfl
@[simp] theorem setLaunch_cmdReg (b i : Nat) (f : Launch → Launch) : (s.setLaunch b i f).cmdReg = s.cmdReg := rfl
@[simp] theorem setLaunch_cstat (b i : Nat) (f : Launch → Launch) : (s.setLaunch b i f).cstat = s.cstat := rfl
@[simp] theorem setLaunch_cdone (b i : Nat) (f : Launch → Launch) : (s.setLaunch b i f).cdone = s.cdone := rfl
@[simp] theorem setLaunch_errcnt (b i : Nat) (f : Launch → Launch) : (s.setLaunch b i f).errcnt = s.errcnt := rfl
@[simp] theorem setLaunch_clock (b i : Nat) (f : Launch → Launch) : (s.setLaunch b i f).clock = s.clock := rfl
@[simp] theorem setLaunch_stopped (b i : Nat) (f : Launch → Launch) : (s.setLaunch b i f).stopped = s.stopped := rfl
@[simp] theorem setLaunch_stepDowns (b i : Nat) (f : Launch → Launch) : (s.setLaunch b i f).stepDowns = s.stepDowns := rfl
@[simp] theorem setLaunch_mmpImage (b i : Nat) (f : Launch → Launch) : (s.setLaunch b i f).mmpImage = s.mmpImage := rfl
@[simp] theorem setLaunch_trellisImage (b i : Nat) (f : Launch → Launch) : (s.setLaunch b i f).trellisImage = s.trellisImage := rfl
@[simp] theorem setLaunch_update (b i : Nat) (f : Launch → Launch) : (s.setLaunch b i f).update = s.update := rfl
@[simp] theorem setLaunch_dump (b i : Nat) (f : Launch → Launch) : (s.setLaunch b i f).dump = s.dump := rfl
@[simp] theorem setLaunch_messages (b i : Nat) (f : Launch → Launch) : (s.setLaunch b i f).messages = s.messages := rfl

/-! ### setPeerMem -/

@[simp] theorem setPeerMem_agenda (p : Nat) (m : Memory) : (s.setPeerMem p m).agenda = s.agenda := rfl
@[simp] theorem setPeerMem_cur (p : Nat) (m : Memory) : (s.setPeerMem p m).cur = s.cur := rfl
@[simp] theorem setPeerMem_fresh (p : Nat) (m : Memory) : (s.setPeerMem p m).fresh = s.fresh := rfl
@[simp] theorem setPeerMem_crews (p : Nat) (m : Memory) : (s.setPeerMem p m).crews = s.crews := rfl
@[simp] theorem setPeerMem_teams (p : Nat) (m : Memory) : (s.setPeerMem p m).teams = s.teams := rfl
@[simp] theorem setPeerMem_launches (p : Nat) (m : Memory) : (s.setPeerMem p m).launches = s.launches := rfl
@[simp] theorem setPeerMem_graphs (p : Nat) (m : Memory) : (s.setPeerMem p m).graphs = s.graphs := rfl
@[simp] theorem setPeerMem_pool (p : Nat) (m : Memory) : (s.setPeerMem p m).pool = s.pool := rfl
@[simp] theorem setPeerMem_bins (p : Nat) (m : Memory) : (s.setPeerMem p m).bins = s.bins := rfl
@[simp] theorem setPeerMem_binSeq (p : Nat) (m : Memory) : (s.setPeerMem p m).binSeq = s.binSeq := rfl
@[simp] theorem setPeerMem_nextCid (p : Nat) (m : Memory) : (s.setPeerMem p m).nextCid = s.nextCid := rfl
@[simp] theorem setPeerMem_cmds (p : Nat) (m : Memory) : (s.setPeerMem p m).cmds = s.cmds := rfl
@[simp] theorem setPeerMem_nextCmd (p : Nat) (m : Memory) : (s.setPeerMem p m).nextCmd = s.nextCmd := rfl
@[simp] theorem setPeerMem_lxs (p : Nat) (m : Memory) : (s.setPeerMem p m).lxs = s.lxs := rfl
@[simp] theorem setPeerMem_plotMarks (p : Nat) (m : Memory) : (s.setPeerMem p m).plotMarks = s.plotMarks := rfl
@[simp] theorem setPeerMem_clocks (p : Nat) (m : Memory) : (s.setPeerMem p m).clocks = s.clocks := rfl
@[simp] theorem setPeerMem_strong (p : Nat) (m : Memory) : (s.setPeerMem p m).strong = s.strong := rfl
@[simp] theorem setPeerMem_heard (p : Nat) (m : Memory) : (s.setPeerMem p m).heard = s.heard := rfl
@[simp] theorem setPeerMem_fulls (p : Nat) (m : Memory) : (s.setPeerMem p m).fulls = s.fulls := rfl
@[simp] theorem setPeerMem_purges (p : Nat) (m : Memory) : (s.setPeerMem p m).purges = s.purges := rfl
@[simp] theorem setPeerMem_mem (p : Nat) (m : Memory) : (s.setPeerMem p m).mem = s.mem := rfl
@[simp] theorem setPeerMem_host (p : Nat) (m : Memory) : (s.setPeerMem p m).host = s.host := rfl
@[simp] theorem setPeerMem_shared (p : Nat) (m : Memory) : (s.setPeerMem p m).shared = s.shared := rfl
@[simp] theorem setPeerMem_l1 (p : Nat) (m : Memory) : (s.setPeerMem p m).l1 = s.l1 := rfl
@[simp] theorem setPeerMem_code (p : Nat) (m : Memory) : (s.setPeerMem p m).code = s.code := rfl
@[simp] theorem setPeerMem_shapes (p : Nat) (m : Memory) : (s.setPeerMem p m).shapes = s.shapes := rfl
@[simp] theorem setPeerMem_migrations (p : Nat) (m : Memory) : (s.setPeerMem p m).migrations = s.migrations := rfl
@[simp] theorem setPeerMem_retired (p : Nat) (m : Memory) : (s.setPeerMem p m).retired = s.retired := rfl
@[simp] theorem setPeerMem_coxWaits (p : Nat) (m : Memory) : (s.setPeerMem p m).coxWaits = s.coxWaits := rfl
@[simp] theorem setPeerMem_posts (p : Nat) (m : Memory) : (s.setPeerMem p m).posts = s.posts := rfl
@[simp] theorem setPeerMem_orphans (p : Nat) (m : Memory) : (s.setPeerMem p m).orphans = s.orphans := rfl
@[simp] theorem setPeerMem_beds (p : Nat) (m : Memory) : (s.setPeerMem p m).beds = s.beds := rfl
@[simp] theorem setPeerMem_ports (p : Nat) (m : Memory) : (s.setPeerMem p m).ports = s.ports := rfl
@[simp] theorem setPeerMem_links (p : Nat) (m : Memory) : (s.setPeerMem p m).links = s.links := rfl
@[simp] theorem setPeerMem_seqs (p : Nat) (m : Memory) : (s.setPeerMem p m).seqs = s.seqs := rfl
@[simp] theorem setPeerMem_peerFences (p : Nat) (m : Memory) : (s.setPeerMem p m).peerFences = s.peerFences := rfl
@[simp] theorem setPeerMem_sent (p : Nat) (m : Memory) : (s.setPeerMem p m).sent = s.sent := rfl
@[simp] theorem setPeerMem_modState (p : Nat) (m : Memory) : (s.setPeerMem p m).modState = s.modState := rfl
@[simp] theorem setPeerMem_power (p : Nat) (m : Memory) : (s.setPeerMem p m).power = s.power := rfl
@[simp] theorem setPeerMem_packagePower (p : Nat) (m : Memory) : (s.setPeerMem p m).packagePower = s.packagePower := rfl
@[simp] theorem setPeerMem_inletTemp (p : Nat) (m : Memory) : (s.setPeerMem p m).inletTemp = s.inletTemp := rfl
@[simp] theorem setPeerMem_dieTemp (p : Nat) (m : Memory) : (s.setPeerMem p m).dieTemp = s.dieTemp := rfl
@[simp] theorem setPeerMem_coolant (p : Nat) (m : Memory) : (s.setPeerMem p m).coolant = s.coolant := rfl
@[simp] theorem setPeerMem_dumpap (p : Nat) (m : Memory) : (s.setPeerMem p m).dumpap = s.dumpap := rfl
@[simp] theorem setPeerMem_devap (p : Nat) (m : Memory) : (s.setPeerMem p m).devap = s.devap := rfl
@[simp] theorem setPeerMem_cmdReg (p : Nat) (m : Memory) : (s.setPeerMem p m).cmdReg = s.cmdReg := rfl
@[simp] theorem setPeerMem_cstat (p : Nat) (m : Memory) : (s.setPeerMem p m).cstat = s.cstat := rfl
@[simp] theorem setPeerMem_cdone (p : Nat) (m : Memory) : (s.setPeerMem p m).cdone = s.cdone := rfl
@[simp] theorem setPeerMem_errcnt (p : Nat) (m : Memory) : (s.setPeerMem p m).errcnt = s.errcnt := rfl
@[simp] theorem setPeerMem_clock (p : Nat) (m : Memory) : (s.setPeerMem p m).clock = s.clock := rfl
@[simp] theorem setPeerMem_stopped (p : Nat) (m : Memory) : (s.setPeerMem p m).stopped = s.stopped := rfl
@[simp] theorem setPeerMem_stepDowns (p : Nat) (m : Memory) : (s.setPeerMem p m).stepDowns = s.stepDowns := rfl
@[simp] theorem setPeerMem_mmpImage (p : Nat) (m : Memory) : (s.setPeerMem p m).mmpImage = s.mmpImage := rfl
@[simp] theorem setPeerMem_trellisImage (p : Nat) (m : Memory) : (s.setPeerMem p m).trellisImage = s.trellisImage := rfl
@[simp] theorem setPeerMem_update (p : Nat) (m : Memory) : (s.setPeerMem p m).update = s.update := rfl
@[simp] theorem setPeerMem_dump (p : Nat) (m : Memory) : (s.setPeerMem p m).dump = s.dump := rfl
@[simp] theorem setPeerMem_messages (p : Nat) (m : Memory) : (s.setPeerMem p m).messages = s.messages := rfl

/-! ### hold -/

@[simp] theorem hold_agenda (b va : Nat) (h : Write) (rp : Bool) : (s.hold b va h rp).agenda = s.agenda := rfl
@[simp] theorem hold_cur (b va : Nat) (h : Write) (rp : Bool) : (s.hold b va h rp).cur = s.cur := rfl
@[simp] theorem hold_fresh (b va : Nat) (h : Write) (rp : Bool) : (s.hold b va h rp).fresh = s.fresh := rfl
@[simp] theorem hold_crews (b va : Nat) (h : Write) (rp : Bool) : (s.hold b va h rp).crews = s.crews := rfl
@[simp] theorem hold_teams (b va : Nat) (h : Write) (rp : Bool) : (s.hold b va h rp).teams = s.teams := rfl
@[simp] theorem hold_launches (b va : Nat) (h : Write) (rp : Bool) : (s.hold b va h rp).launches = s.launches := rfl
@[simp] theorem hold_graphs (b va : Nat) (h : Write) (rp : Bool) : (s.hold b va h rp).graphs = s.graphs := rfl
@[simp] theorem hold_pool (b va : Nat) (h : Write) (rp : Bool) : (s.hold b va h rp).pool = s.pool := rfl
@[simp] theorem hold_bins (b va : Nat) (h : Write) (rp : Bool) : (s.hold b va h rp).bins = s.bins := rfl
@[simp] theorem hold_binSeq (b va : Nat) (h : Write) (rp : Bool) : (s.hold b va h rp).binSeq = s.binSeq := rfl
@[simp] theorem hold_nextCid (b va : Nat) (h : Write) (rp : Bool) : (s.hold b va h rp).nextCid = s.nextCid := rfl
@[simp] theorem hold_cmds (b va : Nat) (h : Write) (rp : Bool) : (s.hold b va h rp).cmds = s.cmds := rfl
@[simp] theorem hold_nextCmd (b va : Nat) (h : Write) (rp : Bool) : (s.hold b va h rp).nextCmd = s.nextCmd := rfl
@[simp] theorem hold_lxs (b va : Nat) (h : Write) (rp : Bool) : (s.hold b va h rp).lxs = s.lxs := rfl
@[simp] theorem hold_plotMarks (b va : Nat) (h : Write) (rp : Bool) : (s.hold b va h rp).plotMarks = s.plotMarks := rfl
@[simp] theorem hold_clocks (b va : Nat) (h : Write) (rp : Bool) : (s.hold b va h rp).clocks = s.clocks := rfl
@[simp] theorem hold_strong (b va : Nat) (h : Write) (rp : Bool) : (s.hold b va h rp).strong = s.strong := rfl
@[simp] theorem hold_heard (b va : Nat) (h : Write) (rp : Bool) : (s.hold b va h rp).heard = s.heard := rfl
@[simp] theorem hold_fulls (b va : Nat) (h : Write) (rp : Bool) : (s.hold b va h rp).fulls = s.fulls := rfl
@[simp] theorem hold_purges (b va : Nat) (h : Write) (rp : Bool) : (s.hold b va h rp).purges = s.purges := rfl
@[simp] theorem hold_mem (b va : Nat) (h : Write) (rp : Bool) : (s.hold b va h rp).mem = s.mem := rfl
@[simp] theorem hold_host (b va : Nat) (h : Write) (rp : Bool) : (s.hold b va h rp).host = s.host := rfl
@[simp] theorem hold_peers (b va : Nat) (h : Write) (rp : Bool) : (s.hold b va h rp).peers = s.peers := rfl
@[simp] theorem hold_shared (b va : Nat) (h : Write) (rp : Bool) : (s.hold b va h rp).shared = s.shared := rfl
@[simp] theorem hold_l1 (b va : Nat) (h : Write) (rp : Bool) : (s.hold b va h rp).l1 = s.l1 := rfl
@[simp] theorem hold_code (b va : Nat) (h : Write) (rp : Bool) : (s.hold b va h rp).code = s.code := rfl
@[simp] theorem hold_shapes (b va : Nat) (h : Write) (rp : Bool) : (s.hold b va h rp).shapes = s.shapes := rfl
@[simp] theorem hold_retired (b va : Nat) (h : Write) (rp : Bool) : (s.hold b va h rp).retired = s.retired := rfl
@[simp] theorem hold_coxWaits (b va : Nat) (h : Write) (rp : Bool) : (s.hold b va h rp).coxWaits = s.coxWaits := rfl
@[simp] theorem hold_posts (b va : Nat) (h : Write) (rp : Bool) : (s.hold b va h rp).posts = s.posts := rfl
@[simp] theorem hold_orphans (b va : Nat) (h : Write) (rp : Bool) : (s.hold b va h rp).orphans = s.orphans := rfl
@[simp] theorem hold_beds (b va : Nat) (h : Write) (rp : Bool) : (s.hold b va h rp).beds = s.beds := rfl
@[simp] theorem hold_ports (b va : Nat) (h : Write) (rp : Bool) : (s.hold b va h rp).ports = s.ports := rfl
@[simp] theorem hold_links (b va : Nat) (h : Write) (rp : Bool) : (s.hold b va h rp).links = s.links := rfl
@[simp] theorem hold_seqs (b va : Nat) (h : Write) (rp : Bool) : (s.hold b va h rp).seqs = s.seqs := rfl
@[simp] theorem hold_peerFences (b va : Nat) (h : Write) (rp : Bool) : (s.hold b va h rp).peerFences = s.peerFences := rfl
@[simp] theorem hold_sent (b va : Nat) (h : Write) (rp : Bool) : (s.hold b va h rp).sent = s.sent := rfl
@[simp] theorem hold_modState (b va : Nat) (h : Write) (rp : Bool) : (s.hold b va h rp).modState = s.modState := rfl
@[simp] theorem hold_power (b va : Nat) (h : Write) (rp : Bool) : (s.hold b va h rp).power = s.power := rfl
@[simp] theorem hold_packagePower (b va : Nat) (h : Write) (rp : Bool) : (s.hold b va h rp).packagePower = s.packagePower := rfl
@[simp] theorem hold_inletTemp (b va : Nat) (h : Write) (rp : Bool) : (s.hold b va h rp).inletTemp = s.inletTemp := rfl
@[simp] theorem hold_dieTemp (b va : Nat) (h : Write) (rp : Bool) : (s.hold b va h rp).dieTemp = s.dieTemp := rfl
@[simp] theorem hold_coolant (b va : Nat) (h : Write) (rp : Bool) : (s.hold b va h rp).coolant = s.coolant := rfl
@[simp] theorem hold_dumpap (b va : Nat) (h : Write) (rp : Bool) : (s.hold b va h rp).dumpap = s.dumpap := rfl
@[simp] theorem hold_devap (b va : Nat) (h : Write) (rp : Bool) : (s.hold b va h rp).devap = s.devap := rfl
@[simp] theorem hold_cmdReg (b va : Nat) (h : Write) (rp : Bool) : (s.hold b va h rp).cmdReg = s.cmdReg := rfl
@[simp] theorem hold_cstat (b va : Nat) (h : Write) (rp : Bool) : (s.hold b va h rp).cstat = s.cstat := rfl
@[simp] theorem hold_cdone (b va : Nat) (h : Write) (rp : Bool) : (s.hold b va h rp).cdone = s.cdone := rfl
@[simp] theorem hold_errcnt (b va : Nat) (h : Write) (rp : Bool) : (s.hold b va h rp).errcnt = s.errcnt := rfl
@[simp] theorem hold_clock (b va : Nat) (h : Write) (rp : Bool) : (s.hold b va h rp).clock = s.clock := rfl
@[simp] theorem hold_stopped (b va : Nat) (h : Write) (rp : Bool) : (s.hold b va h rp).stopped = s.stopped := rfl
@[simp] theorem hold_stepDowns (b va : Nat) (h : Write) (rp : Bool) : (s.hold b va h rp).stepDowns = s.stepDowns := rfl
@[simp] theorem hold_mmpImage (b va : Nat) (h : Write) (rp : Bool) : (s.hold b va h rp).mmpImage = s.mmpImage := rfl
@[simp] theorem hold_trellisImage (b va : Nat) (h : Write) (rp : Bool) : (s.hold b va h rp).trellisImage = s.trellisImage := rfl
@[simp] theorem hold_update (b va : Nat) (h : Write) (rp : Bool) : (s.hold b va h rp).update = s.update := rfl
@[simp] theorem hold_dump (b va : Nat) (h : Write) (rp : Bool) : (s.hold b va h rp).dump = s.dump := rfl
@[simp] theorem hold_messages (b va : Nat) (h : Write) (rp : Bool) : (s.hold b va h rp).messages = s.messages := rfl

/-! ### message -/

theorem message_eq (b k i x : Nat) (w : Word) : s.message b k i x w =
    { s with host := (s.message b k i x w).host, messages := (s.message b k i x w).messages, l1 := (s.message b k i x w).l1,
             strong := (s.message b k i x w).strong } := by
  unfold State.message
  dsimp only
  rw [perform_eq]
  rfl


@[simp] theorem message_agenda (b k i x : Nat) (w : Word) : (s.message b k i x w).agenda = s.agenda := by rw [message_eq]
@[simp] theorem message_cur (b k i x : Nat) (w : Word) : (s.message b k i x w).cur = s.cur := by rw [message_eq]
@[simp] theorem message_fresh (b k i x : Nat) (w : Word) : (s.message b k i x w).fresh = s.fresh := by rw [message_eq]
@[simp] theorem message_crews (b k i x : Nat) (w : Word) : (s.message b k i x w).crews = s.crews := by rw [message_eq]
@[simp] theorem message_teams (b k i x : Nat) (w : Word) : (s.message b k i x w).teams = s.teams := by rw [message_eq]
@[simp] theorem message_launches (b k i x : Nat) (w : Word) : (s.message b k i x w).launches = s.launches := by rw [message_eq]
@[simp] theorem message_graphs (b k i x : Nat) (w : Word) : (s.message b k i x w).graphs = s.graphs := by rw [message_eq]
@[simp] theorem message_pool (b k i x : Nat) (w : Word) : (s.message b k i x w).pool = s.pool := by rw [message_eq]
@[simp] theorem message_bins (b k i x : Nat) (w : Word) : (s.message b k i x w).bins = s.bins := by rw [message_eq]
@[simp] theorem message_binSeq (b k i x : Nat) (w : Word) : (s.message b k i x w).binSeq = s.binSeq := by rw [message_eq]
@[simp] theorem message_nextCid (b k i x : Nat) (w : Word) : (s.message b k i x w).nextCid = s.nextCid := by rw [message_eq]
@[simp] theorem message_cmds (b k i x : Nat) (w : Word) : (s.message b k i x w).cmds = s.cmds := by rw [message_eq]
@[simp] theorem message_nextCmd (b k i x : Nat) (w : Word) : (s.message b k i x w).nextCmd = s.nextCmd := by rw [message_eq]
@[simp] theorem message_lxs (b k i x : Nat) (w : Word) : (s.message b k i x w).lxs = s.lxs := by rw [message_eq]
@[simp] theorem message_plotMarks (b k i x : Nat) (w : Word) : (s.message b k i x w).plotMarks = s.plotMarks := by rw [message_eq]
@[simp] theorem message_clocks (b k i x : Nat) (w : Word) : (s.message b k i x w).clocks = s.clocks := by rw [message_eq]
@[simp] theorem message_heard (b k i x : Nat) (w : Word) : (s.message b k i x w).heard = s.heard := by rw [message_eq]
@[simp] theorem message_fulls (b k i x : Nat) (w : Word) : (s.message b k i x w).fulls = s.fulls := by rw [message_eq]
@[simp] theorem message_purges (b k i x : Nat) (w : Word) : (s.message b k i x w).purges = s.purges := by rw [message_eq]
@[simp] theorem message_mem (b k i x : Nat) (w : Word) : (s.message b k i x w).mem = s.mem := by rw [message_eq]
@[simp] theorem message_peers (b k i x : Nat) (w : Word) : (s.message b k i x w).peers = s.peers := by rw [message_eq]
@[simp] theorem message_shared (b k i x : Nat) (w : Word) : (s.message b k i x w).shared = s.shared := by rw [message_eq]
@[simp] theorem message_code (b k i x : Nat) (w : Word) : (s.message b k i x w).code = s.code := by rw [message_eq]
@[simp] theorem message_shapes (b k i x : Nat) (w : Word) : (s.message b k i x w).shapes = s.shapes := by rw [message_eq]
@[simp] theorem message_migrations (b k i x : Nat) (w : Word) : (s.message b k i x w).migrations = s.migrations := by rw [message_eq]
@[simp] theorem message_retired (b k i x : Nat) (w : Word) : (s.message b k i x w).retired = s.retired := by rw [message_eq]
@[simp] theorem message_coxWaits (b k i x : Nat) (w : Word) : (s.message b k i x w).coxWaits = s.coxWaits := by rw [message_eq]
@[simp] theorem message_posts (b k i x : Nat) (w : Word) : (s.message b k i x w).posts = s.posts := by rw [message_eq]
@[simp] theorem message_orphans (b k i x : Nat) (w : Word) : (s.message b k i x w).orphans = s.orphans := by rw [message_eq]
@[simp] theorem message_beds (b k i x : Nat) (w : Word) : (s.message b k i x w).beds = s.beds := by rw [message_eq]
@[simp] theorem message_ports (b k i x : Nat) (w : Word) : (s.message b k i x w).ports = s.ports := by rw [message_eq]
@[simp] theorem message_links (b k i x : Nat) (w : Word) : (s.message b k i x w).links = s.links := by rw [message_eq]
@[simp] theorem message_seqs (b k i x : Nat) (w : Word) : (s.message b k i x w).seqs = s.seqs := by rw [message_eq]
@[simp] theorem message_peerFences (b k i x : Nat) (w : Word) : (s.message b k i x w).peerFences = s.peerFences := by rw [message_eq]
@[simp] theorem message_sent (b k i x : Nat) (w : Word) : (s.message b k i x w).sent = s.sent := by rw [message_eq]
@[simp] theorem message_modState (b k i x : Nat) (w : Word) : (s.message b k i x w).modState = s.modState := by rw [message_eq]
@[simp] theorem message_power (b k i x : Nat) (w : Word) : (s.message b k i x w).power = s.power := by rw [message_eq]
@[simp] theorem message_packagePower (b k i x : Nat) (w : Word) : (s.message b k i x w).packagePower = s.packagePower := by rw [message_eq]
@[simp] theorem message_inletTemp (b k i x : Nat) (w : Word) : (s.message b k i x w).inletTemp = s.inletTemp := by rw [message_eq]
@[simp] theorem message_dieTemp (b k i x : Nat) (w : Word) : (s.message b k i x w).dieTemp = s.dieTemp := by rw [message_eq]
@[simp] theorem message_coolant (b k i x : Nat) (w : Word) : (s.message b k i x w).coolant = s.coolant := by rw [message_eq]
@[simp] theorem message_dumpap (b k i x : Nat) (w : Word) : (s.message b k i x w).dumpap = s.dumpap := by rw [message_eq]
@[simp] theorem message_devap (b k i x : Nat) (w : Word) : (s.message b k i x w).devap = s.devap := by rw [message_eq]
@[simp] theorem message_cmdReg (b k i x : Nat) (w : Word) : (s.message b k i x w).cmdReg = s.cmdReg := by rw [message_eq]
@[simp] theorem message_cstat (b k i x : Nat) (w : Word) : (s.message b k i x w).cstat = s.cstat := by rw [message_eq]
@[simp] theorem message_cdone (b k i x : Nat) (w : Word) : (s.message b k i x w).cdone = s.cdone := by rw [message_eq]
@[simp] theorem message_errcnt (b k i x : Nat) (w : Word) : (s.message b k i x w).errcnt = s.errcnt := by rw [message_eq]
@[simp] theorem message_clock (b k i x : Nat) (w : Word) : (s.message b k i x w).clock = s.clock := by rw [message_eq]
@[simp] theorem message_stopped (b k i x : Nat) (w : Word) : (s.message b k i x w).stopped = s.stopped := by rw [message_eq]
@[simp] theorem message_stepDowns (b k i x : Nat) (w : Word) : (s.message b k i x w).stepDowns = s.stepDowns := by rw [message_eq]
@[simp] theorem message_mmpImage (b k i x : Nat) (w : Word) : (s.message b k i x w).mmpImage = s.mmpImage := by rw [message_eq]
@[simp] theorem message_trellisImage (b k i x : Nat) (w : Word) : (s.message b k i x w).trellisImage = s.trellisImage := by rw [message_eq]
@[simp] theorem message_update (b k i x : Nat) (w : Word) : (s.message b k i x w).update = s.update := by rw [message_eq]
@[simp] theorem message_dump (b k i x : Nat) (w : Word) : (s.message b k i x w).dump = s.dump := by rw [message_eq]

/-! ### setCmd -/

@[simp] theorem setCmd_agenda (i : Nat) (f : Cmd → Cmd) : (s.setCmd i f).agenda = s.agenda := rfl
@[simp] theorem setCmd_cur (i : Nat) (f : Cmd → Cmd) : (s.setCmd i f).cur = s.cur := rfl
@[simp] theorem setCmd_fresh (i : Nat) (f : Cmd → Cmd) : (s.setCmd i f).fresh = s.fresh := rfl
@[simp] theorem setCmd_crews (i : Nat) (f : Cmd → Cmd) : (s.setCmd i f).crews = s.crews := rfl
@[simp] theorem setCmd_teams (i : Nat) (f : Cmd → Cmd) : (s.setCmd i f).teams = s.teams := rfl
@[simp] theorem setCmd_launches (i : Nat) (f : Cmd → Cmd) : (s.setCmd i f).launches = s.launches := rfl
@[simp] theorem setCmd_graphs (i : Nat) (f : Cmd → Cmd) : (s.setCmd i f).graphs = s.graphs := rfl
@[simp] theorem setCmd_pool (i : Nat) (f : Cmd → Cmd) : (s.setCmd i f).pool = s.pool := rfl
@[simp] theorem setCmd_bins (i : Nat) (f : Cmd → Cmd) : (s.setCmd i f).bins = s.bins := rfl
@[simp] theorem setCmd_binSeq (i : Nat) (f : Cmd → Cmd) : (s.setCmd i f).binSeq = s.binSeq := rfl
@[simp] theorem setCmd_nextCid (i : Nat) (f : Cmd → Cmd) : (s.setCmd i f).nextCid = s.nextCid := rfl
@[simp] theorem setCmd_nextCmd (i : Nat) (f : Cmd → Cmd) : (s.setCmd i f).nextCmd = s.nextCmd := rfl
@[simp] theorem setCmd_lxs (i : Nat) (f : Cmd → Cmd) : (s.setCmd i f).lxs = s.lxs := rfl
@[simp] theorem setCmd_plotMarks (i : Nat) (f : Cmd → Cmd) : (s.setCmd i f).plotMarks = s.plotMarks := rfl
@[simp] theorem setCmd_clocks (i : Nat) (f : Cmd → Cmd) : (s.setCmd i f).clocks = s.clocks := rfl
@[simp] theorem setCmd_strong (i : Nat) (f : Cmd → Cmd) : (s.setCmd i f).strong = s.strong := rfl
@[simp] theorem setCmd_heard (i : Nat) (f : Cmd → Cmd) : (s.setCmd i f).heard = s.heard := rfl
@[simp] theorem setCmd_fulls (i : Nat) (f : Cmd → Cmd) : (s.setCmd i f).fulls = s.fulls := rfl
@[simp] theorem setCmd_purges (i : Nat) (f : Cmd → Cmd) : (s.setCmd i f).purges = s.purges := rfl
@[simp] theorem setCmd_mem (i : Nat) (f : Cmd → Cmd) : (s.setCmd i f).mem = s.mem := rfl
@[simp] theorem setCmd_host (i : Nat) (f : Cmd → Cmd) : (s.setCmd i f).host = s.host := rfl
@[simp] theorem setCmd_peers (i : Nat) (f : Cmd → Cmd) : (s.setCmd i f).peers = s.peers := rfl
@[simp] theorem setCmd_shared (i : Nat) (f : Cmd → Cmd) : (s.setCmd i f).shared = s.shared := rfl
@[simp] theorem setCmd_l1 (i : Nat) (f : Cmd → Cmd) : (s.setCmd i f).l1 = s.l1 := rfl
@[simp] theorem setCmd_code (i : Nat) (f : Cmd → Cmd) : (s.setCmd i f).code = s.code := rfl
@[simp] theorem setCmd_shapes (i : Nat) (f : Cmd → Cmd) : (s.setCmd i f).shapes = s.shapes := rfl
@[simp] theorem setCmd_migrations (i : Nat) (f : Cmd → Cmd) : (s.setCmd i f).migrations = s.migrations := rfl
@[simp] theorem setCmd_retired (i : Nat) (f : Cmd → Cmd) : (s.setCmd i f).retired = s.retired := rfl
@[simp] theorem setCmd_coxWaits (i : Nat) (f : Cmd → Cmd) : (s.setCmd i f).coxWaits = s.coxWaits := rfl
@[simp] theorem setCmd_posts (i : Nat) (f : Cmd → Cmd) : (s.setCmd i f).posts = s.posts := rfl
@[simp] theorem setCmd_orphans (i : Nat) (f : Cmd → Cmd) : (s.setCmd i f).orphans = s.orphans := rfl
@[simp] theorem setCmd_beds (i : Nat) (f : Cmd → Cmd) : (s.setCmd i f).beds = s.beds := rfl
@[simp] theorem setCmd_ports (i : Nat) (f : Cmd → Cmd) : (s.setCmd i f).ports = s.ports := rfl
@[simp] theorem setCmd_links (i : Nat) (f : Cmd → Cmd) : (s.setCmd i f).links = s.links := rfl
@[simp] theorem setCmd_seqs (i : Nat) (f : Cmd → Cmd) : (s.setCmd i f).seqs = s.seqs := rfl
@[simp] theorem setCmd_peerFences (i : Nat) (f : Cmd → Cmd) : (s.setCmd i f).peerFences = s.peerFences := rfl
@[simp] theorem setCmd_sent (i : Nat) (f : Cmd → Cmd) : (s.setCmd i f).sent = s.sent := rfl
@[simp] theorem setCmd_modState (i : Nat) (f : Cmd → Cmd) : (s.setCmd i f).modState = s.modState := rfl
@[simp] theorem setCmd_power (i : Nat) (f : Cmd → Cmd) : (s.setCmd i f).power = s.power := rfl
@[simp] theorem setCmd_packagePower (i : Nat) (f : Cmd → Cmd) : (s.setCmd i f).packagePower = s.packagePower := rfl
@[simp] theorem setCmd_inletTemp (i : Nat) (f : Cmd → Cmd) : (s.setCmd i f).inletTemp = s.inletTemp := rfl
@[simp] theorem setCmd_dieTemp (i : Nat) (f : Cmd → Cmd) : (s.setCmd i f).dieTemp = s.dieTemp := rfl
@[simp] theorem setCmd_coolant (i : Nat) (f : Cmd → Cmd) : (s.setCmd i f).coolant = s.coolant := rfl
@[simp] theorem setCmd_dumpap (i : Nat) (f : Cmd → Cmd) : (s.setCmd i f).dumpap = s.dumpap := rfl
@[simp] theorem setCmd_devap (i : Nat) (f : Cmd → Cmd) : (s.setCmd i f).devap = s.devap := rfl
@[simp] theorem setCmd_cmdReg (i : Nat) (f : Cmd → Cmd) : (s.setCmd i f).cmdReg = s.cmdReg := rfl
@[simp] theorem setCmd_cstat (i : Nat) (f : Cmd → Cmd) : (s.setCmd i f).cstat = s.cstat := rfl
@[simp] theorem setCmd_cdone (i : Nat) (f : Cmd → Cmd) : (s.setCmd i f).cdone = s.cdone := rfl
@[simp] theorem setCmd_errcnt (i : Nat) (f : Cmd → Cmd) : (s.setCmd i f).errcnt = s.errcnt := rfl
@[simp] theorem setCmd_clock (i : Nat) (f : Cmd → Cmd) : (s.setCmd i f).clock = s.clock := rfl
@[simp] theorem setCmd_stopped (i : Nat) (f : Cmd → Cmd) : (s.setCmd i f).stopped = s.stopped := rfl
@[simp] theorem setCmd_stepDowns (i : Nat) (f : Cmd → Cmd) : (s.setCmd i f).stepDowns = s.stepDowns := rfl
@[simp] theorem setCmd_mmpImage (i : Nat) (f : Cmd → Cmd) : (s.setCmd i f).mmpImage = s.mmpImage := rfl
@[simp] theorem setCmd_trellisImage (i : Nat) (f : Cmd → Cmd) : (s.setCmd i f).trellisImage = s.trellisImage := rfl
@[simp] theorem setCmd_update (i : Nat) (f : Cmd → Cmd) : (s.setCmd i f).update = s.update := rfl
@[simp] theorem setCmd_dump (i : Nat) (f : Cmd → Cmd) : (s.setCmd i f).dump = s.dump := rfl
@[simp] theorem setCmd_messages (i : Nat) (f : Cmd → Cmd) : (s.setCmd i f).messages = s.messages := rfl

/-! ### setPort -/

@[simp] theorem setPort_agenda (i : Nat) (f : Port → Port) : (s.setPort i f).agenda = s.agenda := rfl
@[simp] theorem setPort_cur (i : Nat) (f : Port → Port) : (s.setPort i f).cur = s.cur := rfl
@[simp] theorem setPort_fresh (i : Nat) (f : Port → Port) : (s.setPort i f).fresh = s.fresh := rfl
@[simp] theorem setPort_crews (i : Nat) (f : Port → Port) : (s.setPort i f).crews = s.crews := rfl
@[simp] theorem setPort_teams (i : Nat) (f : Port → Port) : (s.setPort i f).teams = s.teams := rfl
@[simp] theorem setPort_launches (i : Nat) (f : Port → Port) : (s.setPort i f).launches = s.launches := rfl
@[simp] theorem setPort_graphs (i : Nat) (f : Port → Port) : (s.setPort i f).graphs = s.graphs := rfl
@[simp] theorem setPort_pool (i : Nat) (f : Port → Port) : (s.setPort i f).pool = s.pool := rfl
@[simp] theorem setPort_bins (i : Nat) (f : Port → Port) : (s.setPort i f).bins = s.bins := rfl
@[simp] theorem setPort_binSeq (i : Nat) (f : Port → Port) : (s.setPort i f).binSeq = s.binSeq := rfl
@[simp] theorem setPort_nextCid (i : Nat) (f : Port → Port) : (s.setPort i f).nextCid = s.nextCid := rfl
@[simp] theorem setPort_cmds (i : Nat) (f : Port → Port) : (s.setPort i f).cmds = s.cmds := rfl
@[simp] theorem setPort_nextCmd (i : Nat) (f : Port → Port) : (s.setPort i f).nextCmd = s.nextCmd := rfl
@[simp] theorem setPort_lxs (i : Nat) (f : Port → Port) : (s.setPort i f).lxs = s.lxs := rfl
@[simp] theorem setPort_plotMarks (i : Nat) (f : Port → Port) : (s.setPort i f).plotMarks = s.plotMarks := rfl
@[simp] theorem setPort_clocks (i : Nat) (f : Port → Port) : (s.setPort i f).clocks = s.clocks := rfl
@[simp] theorem setPort_strong (i : Nat) (f : Port → Port) : (s.setPort i f).strong = s.strong := rfl
@[simp] theorem setPort_heard (i : Nat) (f : Port → Port) : (s.setPort i f).heard = s.heard := rfl
@[simp] theorem setPort_fulls (i : Nat) (f : Port → Port) : (s.setPort i f).fulls = s.fulls := rfl
@[simp] theorem setPort_purges (i : Nat) (f : Port → Port) : (s.setPort i f).purges = s.purges := rfl
@[simp] theorem setPort_mem (i : Nat) (f : Port → Port) : (s.setPort i f).mem = s.mem := rfl
@[simp] theorem setPort_host (i : Nat) (f : Port → Port) : (s.setPort i f).host = s.host := rfl
@[simp] theorem setPort_peers (i : Nat) (f : Port → Port) : (s.setPort i f).peers = s.peers := rfl
@[simp] theorem setPort_shared (i : Nat) (f : Port → Port) : (s.setPort i f).shared = s.shared := rfl
@[simp] theorem setPort_l1 (i : Nat) (f : Port → Port) : (s.setPort i f).l1 = s.l1 := rfl
@[simp] theorem setPort_code (i : Nat) (f : Port → Port) : (s.setPort i f).code = s.code := rfl
@[simp] theorem setPort_shapes (i : Nat) (f : Port → Port) : (s.setPort i f).shapes = s.shapes := rfl
@[simp] theorem setPort_migrations (i : Nat) (f : Port → Port) : (s.setPort i f).migrations = s.migrations := rfl
@[simp] theorem setPort_retired (i : Nat) (f : Port → Port) : (s.setPort i f).retired = s.retired := rfl
@[simp] theorem setPort_coxWaits (i : Nat) (f : Port → Port) : (s.setPort i f).coxWaits = s.coxWaits := rfl
@[simp] theorem setPort_posts (i : Nat) (f : Port → Port) : (s.setPort i f).posts = s.posts := rfl
@[simp] theorem setPort_orphans (i : Nat) (f : Port → Port) : (s.setPort i f).orphans = s.orphans := rfl
@[simp] theorem setPort_beds (i : Nat) (f : Port → Port) : (s.setPort i f).beds = s.beds := rfl
@[simp] theorem setPort_links (i : Nat) (f : Port → Port) : (s.setPort i f).links = s.links := rfl
@[simp] theorem setPort_seqs (i : Nat) (f : Port → Port) : (s.setPort i f).seqs = s.seqs := rfl
@[simp] theorem setPort_peerFences (i : Nat) (f : Port → Port) : (s.setPort i f).peerFences = s.peerFences := rfl
@[simp] theorem setPort_sent (i : Nat) (f : Port → Port) : (s.setPort i f).sent = s.sent := rfl
@[simp] theorem setPort_modState (i : Nat) (f : Port → Port) : (s.setPort i f).modState = s.modState := rfl
@[simp] theorem setPort_power (i : Nat) (f : Port → Port) : (s.setPort i f).power = s.power := rfl
@[simp] theorem setPort_packagePower (i : Nat) (f : Port → Port) : (s.setPort i f).packagePower = s.packagePower := rfl
@[simp] theorem setPort_inletTemp (i : Nat) (f : Port → Port) : (s.setPort i f).inletTemp = s.inletTemp := rfl
@[simp] theorem setPort_dieTemp (i : Nat) (f : Port → Port) : (s.setPort i f).dieTemp = s.dieTemp := rfl
@[simp] theorem setPort_coolant (i : Nat) (f : Port → Port) : (s.setPort i f).coolant = s.coolant := rfl
@[simp] theorem setPort_dumpap (i : Nat) (f : Port → Port) : (s.setPort i f).dumpap = s.dumpap := rfl
@[simp] theorem setPort_devap (i : Nat) (f : Port → Port) : (s.setPort i f).devap = s.devap := rfl
@[simp] theorem setPort_cmdReg (i : Nat) (f : Port → Port) : (s.setPort i f).cmdReg = s.cmdReg := rfl
@[simp] theorem setPort_cstat (i : Nat) (f : Port → Port) : (s.setPort i f).cstat = s.cstat := rfl
@[simp] theorem setPort_cdone (i : Nat) (f : Port → Port) : (s.setPort i f).cdone = s.cdone := rfl
@[simp] theorem setPort_errcnt (i : Nat) (f : Port → Port) : (s.setPort i f).errcnt = s.errcnt := rfl
@[simp] theorem setPort_clock (i : Nat) (f : Port → Port) : (s.setPort i f).clock = s.clock := rfl
@[simp] theorem setPort_stopped (i : Nat) (f : Port → Port) : (s.setPort i f).stopped = s.stopped := rfl
@[simp] theorem setPort_stepDowns (i : Nat) (f : Port → Port) : (s.setPort i f).stepDowns = s.stepDowns := rfl
@[simp] theorem setPort_mmpImage (i : Nat) (f : Port → Port) : (s.setPort i f).mmpImage = s.mmpImage := rfl
@[simp] theorem setPort_trellisImage (i : Nat) (f : Port → Port) : (s.setPort i f).trellisImage = s.trellisImage := rfl
@[simp] theorem setPort_update (i : Nat) (f : Port → Port) : (s.setPort i f).update = s.update := rfl
@[simp] theorem setPort_dump (i : Nat) (f : Port → Port) : (s.setPort i f).dump = s.dump := rfl
@[simp] theorem setPort_messages (i : Nat) (f : Port → Port) : (s.setPort i f).messages = s.messages := rfl

/-! ### setGraph -/

@[simp] theorem setGraph_agenda (b i : Nat) (f : Graph → Graph) : (s.setGraph b i f).agenda = s.agenda := rfl
@[simp] theorem setGraph_cur (b i : Nat) (f : Graph → Graph) : (s.setGraph b i f).cur = s.cur := rfl
@[simp] theorem setGraph_fresh (b i : Nat) (f : Graph → Graph) : (s.setGraph b i f).fresh = s.fresh := rfl
@[simp] theorem setGraph_crews (b i : Nat) (f : Graph → Graph) : (s.setGraph b i f).crews = s.crews := rfl
@[simp] theorem setGraph_teams (b i : Nat) (f : Graph → Graph) : (s.setGraph b i f).teams = s.teams := rfl
@[simp] theorem setGraph_launches (b i : Nat) (f : Graph → Graph) : (s.setGraph b i f).launches = s.launches := rfl
@[simp] theorem setGraph_pool (b i : Nat) (f : Graph → Graph) : (s.setGraph b i f).pool = s.pool := rfl
@[simp] theorem setGraph_bins (b i : Nat) (f : Graph → Graph) : (s.setGraph b i f).bins = s.bins := rfl
@[simp] theorem setGraph_binSeq (b i : Nat) (f : Graph → Graph) : (s.setGraph b i f).binSeq = s.binSeq := rfl
@[simp] theorem setGraph_nextCid (b i : Nat) (f : Graph → Graph) : (s.setGraph b i f).nextCid = s.nextCid := rfl
@[simp] theorem setGraph_cmds (b i : Nat) (f : Graph → Graph) : (s.setGraph b i f).cmds = s.cmds := rfl
@[simp] theorem setGraph_nextCmd (b i : Nat) (f : Graph → Graph) : (s.setGraph b i f).nextCmd = s.nextCmd := rfl
@[simp] theorem setGraph_lxs (b i : Nat) (f : Graph → Graph) : (s.setGraph b i f).lxs = s.lxs := rfl
@[simp] theorem setGraph_plotMarks (b i : Nat) (f : Graph → Graph) : (s.setGraph b i f).plotMarks = s.plotMarks := rfl
@[simp] theorem setGraph_clocks (b i : Nat) (f : Graph → Graph) : (s.setGraph b i f).clocks = s.clocks := rfl
@[simp] theorem setGraph_strong (b i : Nat) (f : Graph → Graph) : (s.setGraph b i f).strong = s.strong := rfl
@[simp] theorem setGraph_heard (b i : Nat) (f : Graph → Graph) : (s.setGraph b i f).heard = s.heard := rfl
@[simp] theorem setGraph_fulls (b i : Nat) (f : Graph → Graph) : (s.setGraph b i f).fulls = s.fulls := rfl
@[simp] theorem setGraph_purges (b i : Nat) (f : Graph → Graph) : (s.setGraph b i f).purges = s.purges := rfl
@[simp] theorem setGraph_mem (b i : Nat) (f : Graph → Graph) : (s.setGraph b i f).mem = s.mem := rfl
@[simp] theorem setGraph_host (b i : Nat) (f : Graph → Graph) : (s.setGraph b i f).host = s.host := rfl
@[simp] theorem setGraph_peers (b i : Nat) (f : Graph → Graph) : (s.setGraph b i f).peers = s.peers := rfl
@[simp] theorem setGraph_shared (b i : Nat) (f : Graph → Graph) : (s.setGraph b i f).shared = s.shared := rfl
@[simp] theorem setGraph_l1 (b i : Nat) (f : Graph → Graph) : (s.setGraph b i f).l1 = s.l1 := rfl
@[simp] theorem setGraph_code (b i : Nat) (f : Graph → Graph) : (s.setGraph b i f).code = s.code := rfl
@[simp] theorem setGraph_shapes (b i : Nat) (f : Graph → Graph) : (s.setGraph b i f).shapes = s.shapes := rfl
@[simp] theorem setGraph_migrations (b i : Nat) (f : Graph → Graph) : (s.setGraph b i f).migrations = s.migrations := rfl
@[simp] theorem setGraph_retired (b i : Nat) (f : Graph → Graph) : (s.setGraph b i f).retired = s.retired := rfl
@[simp] theorem setGraph_coxWaits (b i : Nat) (f : Graph → Graph) : (s.setGraph b i f).coxWaits = s.coxWaits := rfl
@[simp] theorem setGraph_posts (b i : Nat) (f : Graph → Graph) : (s.setGraph b i f).posts = s.posts := rfl
@[simp] theorem setGraph_orphans (b i : Nat) (f : Graph → Graph) : (s.setGraph b i f).orphans = s.orphans := rfl
@[simp] theorem setGraph_beds (b i : Nat) (f : Graph → Graph) : (s.setGraph b i f).beds = s.beds := rfl
@[simp] theorem setGraph_ports (b i : Nat) (f : Graph → Graph) : (s.setGraph b i f).ports = s.ports := rfl
@[simp] theorem setGraph_links (b i : Nat) (f : Graph → Graph) : (s.setGraph b i f).links = s.links := rfl
@[simp] theorem setGraph_seqs (b i : Nat) (f : Graph → Graph) : (s.setGraph b i f).seqs = s.seqs := rfl
@[simp] theorem setGraph_peerFences (b i : Nat) (f : Graph → Graph) : (s.setGraph b i f).peerFences = s.peerFences := rfl
@[simp] theorem setGraph_sent (b i : Nat) (f : Graph → Graph) : (s.setGraph b i f).sent = s.sent := rfl
@[simp] theorem setGraph_modState (b i : Nat) (f : Graph → Graph) : (s.setGraph b i f).modState = s.modState := rfl
@[simp] theorem setGraph_power (b i : Nat) (f : Graph → Graph) : (s.setGraph b i f).power = s.power := rfl
@[simp] theorem setGraph_packagePower (b i : Nat) (f : Graph → Graph) : (s.setGraph b i f).packagePower = s.packagePower := rfl
@[simp] theorem setGraph_inletTemp (b i : Nat) (f : Graph → Graph) : (s.setGraph b i f).inletTemp = s.inletTemp := rfl
@[simp] theorem setGraph_dieTemp (b i : Nat) (f : Graph → Graph) : (s.setGraph b i f).dieTemp = s.dieTemp := rfl
@[simp] theorem setGraph_coolant (b i : Nat) (f : Graph → Graph) : (s.setGraph b i f).coolant = s.coolant := rfl
@[simp] theorem setGraph_dumpap (b i : Nat) (f : Graph → Graph) : (s.setGraph b i f).dumpap = s.dumpap := rfl
@[simp] theorem setGraph_devap (b i : Nat) (f : Graph → Graph) : (s.setGraph b i f).devap = s.devap := rfl
@[simp] theorem setGraph_cmdReg (b i : Nat) (f : Graph → Graph) : (s.setGraph b i f).cmdReg = s.cmdReg := rfl
@[simp] theorem setGraph_cstat (b i : Nat) (f : Graph → Graph) : (s.setGraph b i f).cstat = s.cstat := rfl
@[simp] theorem setGraph_cdone (b i : Nat) (f : Graph → Graph) : (s.setGraph b i f).cdone = s.cdone := rfl
@[simp] theorem setGraph_errcnt (b i : Nat) (f : Graph → Graph) : (s.setGraph b i f).errcnt = s.errcnt := rfl
@[simp] theorem setGraph_clock (b i : Nat) (f : Graph → Graph) : (s.setGraph b i f).clock = s.clock := rfl
@[simp] theorem setGraph_stopped (b i : Nat) (f : Graph → Graph) : (s.setGraph b i f).stopped = s.stopped := rfl
@[simp] theorem setGraph_stepDowns (b i : Nat) (f : Graph → Graph) : (s.setGraph b i f).stepDowns = s.stepDowns := rfl
@[simp] theorem setGraph_mmpImage (b i : Nat) (f : Graph → Graph) : (s.setGraph b i f).mmpImage = s.mmpImage := rfl
@[simp] theorem setGraph_trellisImage (b i : Nat) (f : Graph → Graph) : (s.setGraph b i f).trellisImage = s.trellisImage := rfl
@[simp] theorem setGraph_update (b i : Nat) (f : Graph → Graph) : (s.setGraph b i f).update = s.update := rfl
@[simp] theorem setGraph_dump (b i : Nat) (f : Graph → Graph) : (s.setGraph b i f).dump = s.dump := rfl
@[simp] theorem setGraph_messages (b i : Nat) (f : Graph → Graph) : (s.setGraph b i f).messages = s.messages := rfl

end Sys2Proof.Machine
end

