-- ==== Sys2Proof/Laws/Drive.lean ====
section
/-! SUPPORT. What an issue group does: the outcomes of its lanes, and the state after a group that only goes on. -/

namespace Sys2Proof.Machine

open Sys2Proof.Claim

/-! ## Crews by number -/

theorem crew?_cid {s : State} {cid : Nat} {c : Crew} (h : s.crew? cid = some c) : c.cid = cid := by
  have := List.find?_some h
  simpa using this

/-- The crew of a number after a change of that crew which keeps its number. -/
theorem crew?_setCrew {s : State} {cid : Nat} {c : Crew} (h : s.crew? cid = some c) (f : Crew → Crew)
    (hf : ∀ c, (f c).cid = c.cid) : (s.setCrew cid f).crew? cid = some (f c) := by
  unfold State.crew? State.setCrew
  rw [find_mapIf _ _ _ (by intro x hx; simpa [hf] using hx)]
  simp only [State.crew?] at h
  simp [h]

theorem put_cid (c : Crew) (st l : Nat) (p : Put) : (c.put st l p).cid = c.cid := by
  rw [Crew.put_eq]
  cases p <;> simp only [Put.onCrew, Crew.setS, Crew.setMask] <;> first | rfl | (split <;> rfl)

theorem puts_cid (c : Crew) (st l : Nat) (ps : List Put) : (c.puts st l ps).cid = c.cid := by
  unfold Crew.puts
  induction ps generalizing c with
  | nil => rfl
  | cons p t ih => simp only [List.foldl_cons]; rw [ih, put_cid]

theorem setThreads_cid (c : Crew) (ls : List Nat) (f : Thread → Thread) : (c.setThreads ls f).cid = c.cid := by
  rw [Crew.setThreads_eq]

theorem retireLane_cid (c : Crew) (k : Group) (st l : Nat) (o : LaneOut) : (c.retireLane k st l o).cid = c.cid := by
  cases o <;> simp only [Crew.retireLane] <;> first | rfl | (rw [puts_cid]; rfl) | skip
  rename_i n ps
  show ((c.setThread l (·.retire k.pc)).puts st l _).cid = c.cid
  rw [puts_cid]; rfl

/-! ## Groups that only go on -/

/-- The crew after its lanes' outcomes, each lane at the next word. -/
def advanced (c : Crew) (k : Group) (st : Nat) (outs : List (Nat × LaneOut)) : Crew :=
  (outs.foldl (fun c x => c.retireLane k st x.1 x.2) c).setThreads k.lanes fun t =>
    { t with pc := after k, wait := .none, answered := [], ret := none }

theorem foldl_retire_cid (k : Group) (st : Nat) (outs : List (Nat × LaneOut)) (c : Crew) :
    (outs.foldl (fun c x => c.retireLane k st x.1 x.2) c).cid = c.cid := by
  induction outs generalizing c with
  | nil => rfl
  | cons x t ih => simp only [List.foldl_cons]; rw [ih, retireLane_cid]

theorem advanced_cid (c : Crew) (k : Group) (st : Nat) (outs : List (Nat × LaneOut)) : (advanced c k st outs).cid = c.cid := by
  unfold advanced; rw [setThreads_cid, foldl_retire_cid]

/-- Where a crew stands. -/
def Crew.site (c : Crew) : Nat × Nat × Nat := (c.bed, c.launch, c.cluster)

theorem put_home (c : Crew) (st l : Nat) (p : Put) : (c.put st l p).site = c.site := by
  rw [Crew.put_eq]
  cases p <;> simp only [Put.onCrew, Crew.setS, Crew.setMask] <;> first | rfl | (split <;> rfl)

theorem puts_home (c : Crew) (st l : Nat) (ps : List Put) : (c.puts st l ps).site = c.site := by
  unfold Crew.puts
  induction ps generalizing c with
  | nil => rfl
  | cons p t ih => simp only [List.foldl_cons]; rw [ih, put_home]

theorem retireLane_home (c : Crew) (k : Group) (st l : Nat) (o : LaneOut) : (c.retireLane k st l o).site = c.site := by
  cases o <;> simp only [Crew.retireLane] <;> first | rfl | (rw [puts_home]; rfl) | skip
  rename_i n ps
  show ((c.setThread l (·.retire k.pc)).puts st l _).site = c.site
  rw [puts_home]; rfl

theorem advanced_home (c : Crew) (k : Group) (st : Nat) (outs : List (Nat × LaneOut)) : (advanced c k st outs).site = c.site := by
  unfold advanced
  rw [Crew.setThreads_eq]
  show (outs.foldl (fun c x => c.retireLane k st x.1 x.2) c).site = c.site
  induction outs generalizing c with
  | nil => rfl
  | cons x t ih => simp only [List.foldl_cons]; rw [ih, retireLane_home]

theorem advances_plain {o : LaneOut} (h : o.advances = true) :
    o.trap? = none ∧ o.target? = none ∧ o.rett? = none ∧ o.wait? = none ∧ o.commits = false := by
  cases o <;> simp_all [LaneOut.advances, LaneOut.trap?, LaneOut.target?, LaneOut.rett?, LaneOut.wait?, LaneOut.commits]

theorem jumpCheck_advances {o : LaneOut} (h : o.advances = true) (s : State) (c : Crew) (k : Group) (vr : Nat) :
    s.jumpCheck c k vr o = o := by
  cases o <;> simp_all [LaneOut.advances, State.jumpCheck]

theorem departLane_advances {o : LaneOut} (h : o.advances = true) (s : State) (cid l : Nat) : s.departLane cid l o = s := by
  cases o <;> simp_all [LaneOut.advances, State.departLane]

theorem byTarget_nil (outs : List (Nat × LaneOut)) (f : LaneOut → Option Dword) (h : ∀ x ∈ outs, f x.2 = none) :
    byTarget outs f = [] := by
  unfold byTarget
  have : ∀ acc : List (Dword × List Nat), outs.foldl (fun acc x => match f x.2 with
      | none => acc
      | some a => if acc.any (·.1 == a) then mapIf (·.1 == a) (fun y => (y.1, y.2 ++ [x.1])) acc else acc ++ [(a, [x.1])]) acc
      = acc := by
    induction outs with
    | nil => intro acc; rfl
    | cons x t ih =>
      intro acc
      simp only [List.foldl_cons, h x (by simp)]
      exact ih (fun y hy => h y (by simp [hy])) acc
  exact this []

theorem foldl_id {α β : Type} (l : List α) (f : β → α → β) (h : ∀ x ∈ l, ∀ b, f b x = b) (b : β) : l.foldl f b = b := by
  induction l generalizing b with
  | nil => rfl
  | cons x t ih =>
    simp only [List.foldl_cons, h x (by simp)]
    exact ih (fun y hy => h y (by simp [hy])) b

theorem lanesWhere_all (outs : List (Nat × LaneOut)) (p : LaneOut → Bool) (h : ∀ x ∈ outs, p x.2 = true) :
    lanesWhere outs p = outs.map (·.1) := by
  unfold lanesWhere
  rw [List.filter_eq_self.2 (fun x hx => by simpa using h x hx)]

theorem lanesWhere_none (outs : List (Nat × LaneOut)) (p : LaneOut → Bool) (h : ∀ x ∈ outs, p x.2 = false) :
    lanesWhere outs p = [] := by
  unfold lanesWhere
  rw [List.filter_eq_nil_iff.2 (fun x hx => by simp [h x hx])]
  rfl

theorem groupTrap_none (outs : List (Nat × LaneOut)) (h : ∀ x ∈ outs, x.2.trap? = none) : groupTrap outs = none := by
  have : outs.findSome? (fun x => x.2.trap?) = none := by
    rw [List.findSome?_eq_none_iff]; exact h
  simp [groupTrap, this]

/-! ### What settles -/

/-- A crew in which no thread waits for the tree unit or a mask settles as it is. -/
theorem settleCrew_quiet {s : State} {cid : Nat} {c : Crew} (hc : s.crew? cid = some c)
    (ht : ∀ l t, c.thread? l = some t → t.redl = none ∧ ∀ m n, t.wait ≠ .waitm m n)
    (hb : s.domain c.bed c.launch c.cluster = []) (only : ∀ x ∈ s.crews, x.cid = cid → x = c)
    (hst : ∀ t ∈ s.teams, t.stepping.contains cid = false) : s.settleCrew cid = s := by
  have hp : ∀ l k, c.laneIs l (·.pendingAt k) = false := by
    intro l k
    unfold Crew.laneIs
    cases h : c.thread? l with
    | none => rfl
    | some t => simp [Thread.pendingAt, (ht l t h).1]
  have hs : ∀ l k, c.laneIs l (·.stalledAt k) = false := by
    intro l k
    unfold Crew.laneIs
    cases h : c.thread? l with
    | none => rfl
    | some t =>
      have := (ht l t h).2
      simp only [Option.map_some, Option.getD_some, Thread.stalledAt]
  have hr : ∀ k, c.redlOver k = false := by intro k; simp [Crew.redlOver, hp]
  have hw : ∀ k, c.waitmOver k = false := by intro k; simp [Crew.waitmOver, hs]
  have h1 : s.releaseTrees cid = s := by
    unfold State.releaseTrees State.setCrew
    have : mapIf (fun c => c.cid == cid)
        (fun c => (List.range 12).foldl (fun c k => if c.redlOver k then c.releaseRedl s.fresh k else c) c) s.crews = s.crews := by
      apply mapIf_id
      intro x hx hcid
      have hxc : x = c := only x hx (by simpa using hcid)
      subst hxc
      apply foldl_id' x
      intro k
      simp [hr k]
    rw [this]
  have h2 : s.releaseMasks cid = s := by
    have hd : s.maskDue cid = false := by simp [State.maskDue, hc, hw]
    unfold State.releaseMasks
    cases ((s.crew? cid).map (·.width)).getD 0 <;> simp [State.releaseFrom, hd]
  have h3 : s.settleSteps cid = s := by
    unfold State.settleSteps
    rw [List.filter_eq_nil_iff.2 fun t ht => by simpa using hst t ht]
    rfl
  unfold State.settleCrew State.settleWaits
  rw [h1, h3, h2]
  simp only [hc, State.riddle]
  cases s.launch? c.bed c.launch with
  | none => rfl
  | some la => simp [hb]
where
  foldl_id' {β : Type} (b : β) {l : List Nat} {f : β → Nat → β} (h : ∀ k, f b k = b) : l.foldl f b = b := by
    induction l with
    | nil => rfl
    | cons x t ih => simp only [List.foldl_cons, h]; exact ih

/-! ### The conclusion of a group that only goes on -/

/-- Writes that leave the tree unit alone. -/
def LaneOut.noTree : LaneOut → Bool
  | .ok ps => ps.all fun p => match p with
    | .redl _ => false
    | _ => true
  | .late _ ps => ps.all fun p => match p with
    | .redl _ => false
    | _ => true
  | _ => true

theorem onThread_redl (st : Nat) (p : Put) (t : Thread) (h : (match p with
    | .redl _ => false
    | _ => true) = true) : (p.onThread st t).redl = t.redl := by
  cases p <;> simp_all [Put.onThread]

theorem putsThread_redl (st : Nat) (ps : List Put) (t : Thread) (h : ps.all (fun p => match p with
    | .redl _ => false
    | _ => true) = true) : (putsThread st ps t).redl = t.redl := by
  unfold putsThread
  induction ps generalizing t with
  | nil => rfl
  | cons p ps ih =>
    simp only [List.all_cons, Bool.and_eq_true] at h
    simp only [List.foldl_cons]
    rw [ih _ h.2, onThread_redl st p t h.1]

/-- The thread of a lane after its outcome, where the outcome goes on. -/
def outThread (k : Group) (st : Nat) (o : LaneOut) (t : Thread) : Thread :=
  match o with
  | .ok ps => putsThread st ps (t.retire k.pc)
  | .late n ps =>
    let t := putsThread st (ps.filter fun p => !p.isLate) (t.retire k.pc)
    { t with pend := t.pend ++ [pendOf st n k.hdr ps] }
  | _ => t

theorem retireLane_thread? {o : LaneOut} (h : o.advances = true) (c : Crew) (k : Group) (st l j : Nat) :
    (c.retireLane k st l o).thread? j = if j = l then (c.thread? l).map (outThread k st o) else c.thread? j := by
  cases o <;> simp only [LaneOut.advances, Bool.false_eq_true] at h
  · rename_i ps
    simp only [Crew.retireLane]
    rw [Crew.puts_thread?]
    by_cases hj : j = l
    · simp [hj, Function.comp_def]; rfl
    · simp [hj, Crew.thread?_setThread_ne c hj]
  · rename_i n ps
    simp only [Crew.retireLane]
    rw [Crew.thread?_setThread, Crew.puts_thread?, Crew.puts_thread?]
    by_cases hj : j = l
    · simp [hj, Function.comp_def]; rfl
    · simp [hj, Crew.thread?_setThread_ne c hj]

theorem foldl_retire_thread? (outs : List (Nat × LaneOut)) (hadv : ∀ x ∈ outs, x.2.advances = true)
    (hn : (outs.map (·.1)).Nodup) (c : Crew) (k : Group) (st j : Nat) :
    (outs.foldl (fun c x => c.retireLane k st x.1 x.2) c).thread? j =
      match outs.find? (fun x => x.1 == j) with
      | some x => (c.thread? j).map (outThread k st x.2)
      | none => c.thread? j := by
  induction outs generalizing c with
  | nil => rfl
  | cons x t ih =>
    simp only [List.map_cons, List.nodup_cons] at hn
    simp only [List.foldl_cons]
    rw [ih (fun y hy => hadv y (by simp [hy])) hn.2, retireLane_thread? (hadv x (by simp))]
    by_cases hj : x.1 = j
    · subst hj
      have : t.find? (fun y => y.1 == x.1) = none := by
        rw [List.find?_eq_none]
        intro y hy
        simp only [beq_iff_eq]
        intro hc
        exact hn.1 (List.mem_map.2 ⟨y, hy, hc⟩)
      simp [this]
    · have : (x.1 == j) = false := by simpa using hj
      simp only [List.find?_cons, this, Ne.symm hj, if_false]

/-- The outcome of a lane in a list of outcomes. -/
def outOf (outs : List (Nat × LaneOut)) (l : Nat) : LaneOut := ((outs.find? fun x => x.1 == l).map (·.2)).getD (.ok [])

theorem find_of_mem_map {outs : List (Nat × LaneOut)} {l : Nat} (h : l ∈ outs.map (·.1)) :
    outs.find? (fun x => x.1 == l) = some (l, outOf outs l) := by
  obtain ⟨x, hx, rfl⟩ := List.mem_map.1 h
  cases hf : outs.find? (fun y => y.1 == x.1) with
  | none => rw [List.find?_eq_none] at hf; exact absurd BEq.rfl (hf x hx)
  | some y =>
    have h1 := List.find?_some hf
    simp only [beq_iff_eq] at h1
    unfold outOf
    rw [hf]
    simp [← h1]

theorem advanced_thread? {outs : List (Nat × LaneOut)} (hadv : ∀ x ∈ outs, x.2.advances = true) (c : Crew) (k : Group)
    (hl : outs.map (·.1) = k.lanes) (hn : k.lanes.Nodup) (st j : Nat) :
    (advanced c k st outs).thread? j =
      if j ∈ k.lanes then (c.thread? j).map fun t =>
        { outThread k st (outOf outs j) t with pc := after k, wait := .none, answered := [], ret := none }
      else c.thread? j := by
  unfold advanced
  rw [Crew.thread?_setThreads _ _ _ hn, foldl_retire_thread? outs hadv (hl ▸ hn)]
  by_cases hj : j ∈ k.lanes
  · have := find_of_mem_map (outs := outs) (l := j) (hl ▸ hj)
    simp only [hj, if_true, this, Option.map_map, Function.comp_def]
  · have : outs.find? (fun x => x.1 == j) = none := by
      rw [List.find?_eq_none]
      intro x hx
      simp only [beq_iff_eq]
      intro hc
      exact hj (hl ▸ List.mem_map.2 ⟨x, hx, hc⟩)
    simp only [hj, if_false, this]

theorem outThread_redl {o : LaneOut} (ht : o.noTree = true) (k : Group) (st : Nat) (t : Thread) (h : t.redl = none) :
    (outThread k st o t).redl = none := by
  have hr : (t.retire k.pc).redl = none := by simp [Thread.retire, h]
  cases o <;> simp only [outThread] <;> try exact h
  · rw [putsThread_redl st _ _ ht]; exact hr
  · rename_i n ps
    show (putsThread st _ (t.retire k.pc)).redl = none
    rw [putsThread_redl]
    · exact hr
    · simp only [LaneOut.noTree, List.all_eq_true] at ht
      simp only [List.all_eq_true]
      intro p hp
      exact ht p (List.mem_filter.1 hp).1

/-- A group whose lanes all go on inside their block: the crew makes the writes of its lanes and stands at the next word; nothing
else changes. -/
theorem conclude_advances {s : State} {c c0 : Crew} {k : Group} (h : Calm s c k) (hc0 : c0.cid = c.cid)
    (hin : after k ≠ blockEnd k.hdr k.hdrW) {outs : List (Nat × LaneOut)}
    (hl : outs.map (·.1) = k.lanes) (hadv : ∀ x ∈ outs, x.2.advances = true) (ht : ∀ x ∈ outs, x.2.noTree = true) :
    s.conclude c0 k outs = swap s k (advanced c k s.fresh outs) := by
  have hcid : c.cid = k.cid := crew?_cid h.crew
  have e1 : ∀ vr, outs.map (fun x => (x.1, s.jumpCheck c0 k vr x.2)) = outs := by
    intro vr
    conv => rhs; rw [← List.map_id outs]
    apply List.map_congr_left
    intro x hx
    simp [jumpCheck_advances (hadv x hx)]
  have e2 : ∀ s' : State, outs.foldl (fun s x => s.departLane k.cid x.1 x.2) s' = s' :=
    foldl_id outs _ fun x hx s' => departLane_advances (hadv x hx) s' k.cid x.1
  have e3 : groupTrap outs = none := groupTrap_none outs fun x hx => (advances_plain (hadv x hx)).1
  have e4 : lanesWhere outs (·.advances) = k.lanes := by rw [lanesWhere_all outs _ hadv, hl]
  have e5 : lanesWhere outs (·.commits) = [] := lanesWhere_none outs _ fun x hx => (advances_plain (hadv x hx)).2.2.2.2
  have e6 : byTarget outs (·.target?) = [] := byTarget_nil outs _ fun x hx => (advances_plain (hadv x hx)).2.1
  have e7 : byTarget outs (·.rett?) = [] := byTarget_nil outs _ fun x hx => (advances_plain (hadv x hx)).2.2.1
  have e8 : ∀ s' : State, s'.beginWaits k.cid outs = s' := by
    intro s'
    unfold State.beginWaits
    exact foldl_id outs _ (fun x hx s' => by rw [(advances_plain (hadv x hx)).2.2.2.1]) s'
  have e9 : ∀ s' : State, s'.makeJumps k outs = s' := by intro s'; simp [State.makeJumps, e6]
  have e10 : ∀ (s' : State) (vr : Nat), s'.makeReturns c0 k vr outs = s' := by intro s' vr; simp [State.makeReturns, e7]
  have e11 : ∀ s' : State, s'.groupTraps k.cid outs = s' := by intro s'; simp [State.groupTraps, e3]
  let c' := advanced c k s.fresh outs
  have hc'cid : c'.cid = k.cid := by rw [← hcid]; exact advanced_cid c k s.fresh outs
  have hne : ((after k) == blockEnd k.hdr k.hdrW) = false := by simpa using hin
  have hlne : k.lanes.isEmpty = false := by simpa using h.some_
  have hcrews : mapIf (fun x => x.cid == k.cid) (fun c => c.setThreads k.lanes fun t =>
        { t with pc := after k, wait := .none, answered := [], ret := none })
      (mapIf (fun x => x.cid == k.cid) (fun c => outs.foldl (fun c x => c.retireLane k s.fresh x.1 x.2) c) s.crews)
      = mapIf (fun x => x.cid == k.cid) (fun _ => c') s.crews := by
    rw [mapIf_mapIf _ _ _ _ (by intro x hx; simpa [foldl_retire_cid] using hx)]
    apply mapIf_congr
    intro x hx hxc
    have : x = c := h.only x hx (by simpa using hxc)
    subst this
    rfl
  have hs1 : (s.setCrew k.cid fun c => outs.foldl (fun c x => c.retireLane k s.fresh x.1 x.2) c).setThreads k.cid k.lanes
      (fun t => { t with pc := after k, wait := .none, answered := [], ret := none })
      = { s with crews := mapIf (fun x => x.cid == k.cid) (fun _ => c') s.crews } := by
    simp only [State.setThreads, State.setCrew]
    rw [hcrews]
  have hthr : ∀ j, c'.thread? j = if j ∈ k.lanes then (c.thread? j).map fun t =>
      { outThread k s.fresh (outOf outs j) t with pc := after k, wait := .none, answered := [], ret := none } else c.thread? j :=
    fun j => advanced_thread? hadv c k hl h.lanes s.fresh j
  have hmanned : c'.lanes.any (·.isSome) = true := by
    obtain ⟨l, hlm⟩ := List.exists_mem_of_ne_nil _ h.some_
    obtain ⟨t, htl⟩ := Option.isSome_iff_exists.1 (h.live l hlm)
    have h1 := hthr l
    simp only [hlm, if_true, htl, Option.map_some] at h1
    unfold Crew.thread? at h1
    cases hget : c'.lanes[l]? with
    | none => simp [hget] at h1
    | some x =>
      rw [hget] at h1
      cases x with
      | none => simp at h1
      | some y => exact List.any_eq_true.2 ⟨some y, List.mem_of_getElem? hget, rfl⟩
  have hdrop : ∀ cur, ({ s with crews := mapIf (fun x => x.cid == k.cid) (fun _ => c') s.crews, cur := cur } : State).dropEmpty
      = { s with crews := mapIf (fun x => x.cid == k.cid) (fun _ => c') s.crews, cur := cur } := by
    intro cur
    unfold State.dropEmpty
    congr 1
    rw [List.filter_eq_self]
    intro x hx
    obtain ⟨y, hy, rfl⟩ := mem_mapIf hx
    by_cases hyc : y.cid == k.cid
    · simpa [hyc] using hmanned
    · simpa [hyc] using h.manned y hy
  have hfind : (swap s k c').crew? k.cid = some c' := by
    have := h.crew
    unfold State.crew? at this ⊢
    simp only [swap]
    rw [find_mapIf _ _ _ (by intro x _; simpa using hc'cid), this]
    rfl
  have hstep : s.teams.filter (fun t => t.stepping.contains c0.cid && k.lanes.any fun l => c0.laneIs l fun th => c0.ref th == t.ref)
      = [] := by
    rw [List.filter_eq_nil_iff]
    intro t htm
    rw [hc0, hcid, h.steps t htm]
    simp
  obtain ⟨hb, hla, hcl⟩ : c'.bed = c.bed ∧ c'.launch = c.launch ∧ c'.cluster = c.cluster := by
    have := advanced_home c k s.fresh outs
    simpa only [Crew.site, Prod.mk.injEq] using this
  have hsettle : (swap s k c').settleCrew k.cid = swap s k c' := by
    apply settleCrew_quiet hfind
    · intro l t htl
      rw [hthr l] at htl
      by_cases hlm : l ∈ k.lanes
      · simp only [hlm, if_true, Option.map_eq_some_iff] at htl
        obtain ⟨t0, ht0, rfl⟩ := htl
        refine ⟨?_, by intro m n hw; cases hw⟩
        show (outThread k s.fresh (outOf outs l) t0).redl = none
        apply outThread_redl
        · have := find_of_mem_map (outs := outs) (l := l) (hl ▸ hlm)
          exact ht _ (List.mem_of_find?_eq_some this)
        · exact h.tree l t0 ht0
      · simp only [hlm, if_false] at htl
        exact ⟨h.tree l t htl, fun m n => h.masks l t m n htl⟩
    · rw [hb, hla, hcl]; exact h.bins
    · intro x hx hxc
      obtain ⟨y, hy, rfl⟩ := mem_mapIf hx
      by_cases hyc : y.cid == k.cid
      · simp [hyc]
      · rw [if_neg hyc] at hxc
        exact absurd (by simpa using hxc) hyc
    · exact h.steps
  have e12 : ∀ s' : State, s'.continueAt k.cid [] k.hdr k.hdrW (blockEnd k.hdr k.hdrW) = s' := fun _ => rfl
  have e13 : ∀ s' : State, s'.continueAt k.cid k.lanes k.hdr k.hdrW (k.pc + BitVec.ofNat 64 (4 * k.len)) =
      s'.setThreads k.cid k.lanes fun t => { t with pc := after k, wait := .none, answered := [], ret := none } := by
    intro s'
    have : (k.pc + BitVec.ofNat 64 (4 * k.len) == blockEnd k.hdr k.hdrW) = false := hne
    unfold State.continueAt
    rw [hlne, this]
    rfl
  unfold State.conclude
  simp only [e1, e2, e4, e5, e8, e9, e10, e11, e12, e13, hs1]
  have e14 : ∀ b, ({ s with crews := mapIf (fun x => x.cid == k.cid) (fun _ => c') s.crews } : State).stepDone c0 k
      b = { s with crews := mapIf (fun x => x.cid == k.cid) (fun _ => c') s.crews } := by
    intro b
    unfold State.stepDone
    simp only [hstep]
    rfl
  rw [e14, hdrop s.cur]
  unfold State.endGroup
  have hsw : ({ s with crews := mapIf (fun x => x.cid == k.cid) (fun _ => c') s.crews, cur := none } : State) = swap s k c' := rfl
  simp only [hsw, hc0, hcid, hfind]
  exact hsettle

/-! ## What the writes of an instruction give -/

theorem onThread_v (st : Nat) (p : Put) (t : Thread) (r : Nat) :
    (p.onThread st t).v.get r = (putV p r).getD (t.v.get r) := by
  cases p <;> simp only [Put.onThread, putV, Option.getD_none]
  rename_i i w
  rw [VBank.get_set]
  by_cases h : r = i <;> simp [h]

theorem putsThread_v (st : Nat) (ps : List Put) (t : Thread) (r : Nat) :
    (putsThread st ps t).v.get r = (last putV ps r).getD (t.v.get r) := by
  unfold putsThread
  induction ps generalizing t with
  | nil => rfl
  | cons p ps ih =>
    simp only [List.foldl_cons, last]
    rw [ih, onThread_v]
    cases last putV ps r <;> rfl

theorem onThread_p (st : Nat) (p : Put) (t : Thread) (i : Nat) (hi : i < 7) :
    (p.onThread st t).p.getLsbD i = (putP p i).getD (t.p.getLsbD i) := by
  cases p <;> simp only [Put.onThread, putP, Option.getD_none]
  rename_i j b
  rw [putBit_get _ _ _ _ hi]
  by_cases h : i = j <;> simp [h]

theorem putsThread_p (st : Nat) (ps : List Put) (t : Thread) (i : Nat) (hi : i < 7) :
    (putsThread st ps t).p.getLsbD i = (last putP ps i).getD (t.p.getLsbD i) := by
  unfold putsThread
  induction ps generalizing t with
  | nil => rfl
  | cons p ps ih =>
    simp only [List.foldl_cons, last]
    rw [ih, onThread_p st p t i hi]
    cases last putP ps i <;> rfl

theorem onThread_ix (st : Nat) (p : Put) (t : Thread) :
    (p.onThread st t).ix.length = t.ix.length ∧
      ∀ i, i < t.ix.length → (p.onThread st t).ix[i]? = some ((putIx p i).getD ((t.ix[i]?).getD ⟨0, 0, 0⟩)) := by
  have old : t.ix.length = t.ix.length ∧
      ∀ i, i < t.ix.length → t.ix[i]? = some ((none : Option IxReg).getD ((t.ix[i]?).getD ⟨0, 0, 0⟩)) :=
    ⟨rfl, fun i hi => by simp [List.getElem?_eq_getElem hi]⟩
  cases p with
  | ix j x =>
    refine ⟨by simp [Put.onThread], ?_⟩
    intro i hi
    simp only [Put.onThread, putIx]
    rw [modifyAt_get]
    by_cases h : i = j
    · subst h; simp [List.getElem?_eq_getElem hi]
    · simp [h, List.getElem?_eq_getElem hi]
  | _ => exact old

theorem putsThread_ix (st : Nat) (ps : List Put) (t : Thread) (i : Nat) (hi : i < t.ix.length) :
    (putsThread st ps t).ix[i]? = some ((last putIx ps i).getD ((t.ix[i]?).getD ⟨0, 0, 0⟩)) := by
  unfold putsThread
  induction ps generalizing t with
  | nil => simp [last, List.getElem?_eq_getElem hi]
  | cons p ps ih =>
    simp only [List.foldl_cons, last]
    obtain ⟨hl, hx⟩ := onThread_ix st p t
    rw [ih _ (by rw [hl]; exact hi), hx i hi]
    cases last putIx ps i <;> rfl

/-- Writes change no other part of a thread. -/
theorem putsThread_rest (st : Nat) (ps : List Put) (hp : ∀ p ∈ ps, p.plain = true) (t : Thread) :
    { putsThread st ps t with v := t.v, p := t.p, ix := t.ix, fences := t.fences } = t := by
  unfold putsThread
  induction ps generalizing t with
  | nil => rfl
  | cons p ps ih =>
    simp only [List.foldl_cons]
    have h1 := ih (fun q hq => hp q (by simp [hq])) (p.onThread st t)
    have h2 := hp p (by simp)
    generalize ps.foldl (fun t p => p.onThread st t) (p.onThread st t) = u at h1
    have h3 : { p.onThread st t with v := t.v, p := t.p, ix := t.ix, fences := t.fences } = t := by
      cases p <;> first | rfl | (simp [Put.plain] at h2)
    rw [← h1] at h3
    exact h3

theorem onCrew_lane (l l' : Nat) (p : Put) (hp : p.plain = true) (c : Crew) : p.onCrew l c = p.onCrew l' c := by
  cases p <;> first | rfl | simp [Put.plain] at hp

/-- The crew part of plain writes does not depend on the lane. -/
theorem putsCrew_lane (l l' : Nat) (ps : List Put) (hp : ∀ p ∈ ps, p.plain = true) (c : Crew) :
    putsCrew l ps c = putsCrew l' ps c := by
  unfold putsCrew
  induction ps generalizing c with
  | nil => rfl
  | cons p ps ih =>
    simp only [List.foldl_cons]
    rw [onCrew_lane l l' p (hp p (by simp)), ih (fun q hq => hp q (by simp [hq]))]

/-- What one plain write does to the registers of the crew. -/
theorem onCrew_plain (l : Nat) (p : Put) (hp : p.plain = true) (c : Crew) :
    { p.onCrew l c with s := c.s, fflags := c.fflags, errs := c.errs, tokRegs := c.tokRegs } = c ∧
    (∀ r, (p.onCrew l c).s.get r = (putS p r).getD (c.s.get r)) ∧
    (∀ r, r ∈ (p.onCrew l c).errs ↔ r ∈ c.errs ∧ putS p r = none) ∧
    (p.onCrew l c).fflags = c.fflags ||| raised [p] := by
  cases p with
  | s i w =>
    refine ⟨rfl, fun r => ?_, fun r => ?_, by simp [raised, Put.onCrew, Crew.setS]⟩
    · simp only [Put.onCrew, Crew.setS, putS]
      rw [Bank.get_set]
      by_cases h : r = i <;> simp [h]
    · simp only [Put.onCrew, Crew.setS, putS, List.mem_filter, bne_iff_ne, ne_eq]
      by_cases h : r = i <;> simp [h]
  | flags w => exact ⟨rfl, fun r => rfl, fun r => by simp [Put.onCrew, putS], by simp [raised, Put.onCrew]⟩
  | v r w => exact ⟨rfl, fun r => rfl, fun r => by simp [Put.onCrew, putS], by simp [raised, Put.onCrew]⟩
  | p r w => exact ⟨rfl, fun r => rfl, fun r => by simp [Put.onCrew, putS], by simp [raised, Put.onCrew]⟩
  | ix r w => exact ⟨rfl, fun r => rfl, fun r => by simp [Put.onCrew, putS], by simp [raised, Put.onCrew]⟩
  | fence w => exact ⟨rfl, fun r => rfl, fun r => by simp [Put.onCrew, putS], by simp [raised, Put.onCrew]⟩
  | _ => simp [Put.plain] at hp

theorem raised_cons (p : Put) (ps : List Put) : raised (p :: ps) = raised [p] ||| raised ps := by
  cases p <;> simp [raised]

theorem raised_append (ps qs : List Put) : raised (ps ++ qs) = raised ps ||| raised qs := by
  induction ps with
  | nil => simp [raised]
  | cons p ps ih => rw [List.cons_append, raised_cons, ih, raised_cons p ps, BitVec.or_assoc]

theorem last_append {α : Type} (at_ : Put → Nat → Option α) (ps qs : List Put) (i : Nat) :
    last at_ (ps ++ qs) i = (last at_ qs i).or (last at_ ps i) := by
  induction ps with
  | nil => simp [last]
  | cons p ps ih => simp only [List.cons_append, last, ih, Option.or_assoc]

theorem putsCrew_plain (l : Nat) (ps : List Put) (hp : ∀ p ∈ ps, p.plain = true) (c : Crew) :
    { putsCrew l ps c with s := c.s, fflags := c.fflags, errs := c.errs, tokRegs := c.tokRegs } = c ∧
    (∀ r, (putsCrew l ps c).s.get r = (last putS ps r).getD (c.s.get r)) ∧
    (∀ r, r ∈ (putsCrew l ps c).errs ↔ r ∈ c.errs ∧ last putS ps r = none) ∧
    (putsCrew l ps c).fflags = c.fflags ||| raised ps := by
  unfold putsCrew
  induction ps generalizing c with
  | nil => exact ⟨rfl, fun r => rfl, fun r => by simp [last], by simp [raised]⟩
  | cons p ps ih =>
    simp only [List.foldl_cons, last]
    obtain ⟨h1, h2, h3, h4⟩ := ih (fun q hq => hp q (by simp [hq])) (p.onCrew l c)
    obtain ⟨g1, g2, g3, g4⟩ := onCrew_plain l p (hp p (by simp)) c
    refine ⟨?_, fun r => ?_, fun r => ?_, ?_⟩
    · generalize ps.foldl (fun c p => p.onCrew l c) (p.onCrew l c) = u at h1
      rw [← h1] at g1
      exact g1
    · rw [h2, g2]; cases last putS ps r <;> rfl
    · rw [h3, g3]; cases last putS ps r <;> simp
    · rw [h4, g4, raised_cons p ps, BitVec.or_assoc]

theorem onCrew_lanes (l : Nat) (p : Put) (c : Crew) (X : List (Option Thread)) :
    p.onCrew l { c with lanes := X } = { p.onCrew l c with lanes := X } := by
  cases p <;> first | rfl | skip
  · rename_i k m; simp only [Put.onCrew, Crew.setMask]; split <;> rfl
  · rename_i k b
    simp only [Put.onCrew, Crew.setMask]
    split
    · rfl
    · rename_i h; simp only [Crew.mask, h, if_false]

theorem puts_lanes (c : Crew) (st l : Nat) (ps : List Put) (X : List (Option Thread)) :
    { c.puts st l ps with lanes := X } = putsCrew l ps { c with lanes := X } := by
  unfold Crew.puts putsCrew
  induction ps generalizing c with
  | nil => rfl
  | cons p ps ih =>
    simp only [List.foldl_cons]
    rw [ih, onCrew_lanes, Crew.put_eq]

/-- The writes among an outcome. -/
def LaneOut.puts : LaneOut → List Put
  | .ok ps => ps
  | .late _ ps => ps.filter fun p => !p.isLate
  | _ => []

/-- The crew after its lanes' outcomes, but for the lanes. -/
theorem foldl_retire_lanes (k : Group) (st : Nat) (X : List (Option Thread)) (outs : List (Nat × LaneOut))
    (hadv : ∀ x ∈ outs, x.2.advances = true) (hp : ∀ x ∈ outs, ∀ p ∈ x.2.puts, p.plain = true) (c : Crew) :
    { outs.foldl (fun c x => c.retireLane k st x.1 x.2) c with lanes := X } =
      putsCrew 0 (outs.flatMap fun x => x.2.puts) { c with lanes := X } := by
  induction outs generalizing c with
  | nil => rfl
  | cons x t ih =>
    simp only [List.foldl_cons, List.flatMap_cons]
    rw [ih (fun y hy => hadv y (by simp [hy])) fun y hy => hp y (by simp [hy])]
    have e : ∀ ps qs (c : Crew), putsCrew 0 (ps ++ qs) c = putsCrew 0 qs (putsCrew 0 ps c) := by
      intro ps qs c; simp [putsCrew]
    rw [e]
    congr 1
    rw [putsCrew_lane 0 x.1 _ (hp x (by simp))]
    have ha := hadv x (by simp)
    obtain ⟨l, o⟩ := x
    cases o <;> simp only [LaneOut.advances, Bool.false_eq_true] at ha
    · exact puts_lanes _ st l _ X
    · exact puts_lanes _ st l _ X

end Sys2Proof.Machine
end

