-- ==== Sys2Proof/Laws/Enter.lean ====
section
/-! SUPPORT. Lanes that enter a block: what an entry reads, and the conclusion of a group at the end of its block. -/

namespace Sys2Proof.Machine

open Sys2Proof.Claim

/-! ## What a fetch and an entry read -/

/-- The thread in a lane. -/
def Crew.who (c : Crew) (l : Nat) : Option (Nat × Nat) := (c.thread? l).map fun t => (t.team, t.tid)

/-- Crews at one place of one launch, with the same threads in their lanes. -/
def Crew.near (c d : Crew) : Prop :=
  (c.bed = d.bed ∧ c.launch = d.launch ∧ c.cluster = d.cluster ∧ c.core = d.core) ∧ c.cid = d.cid ∧ ∀ l, c.who l = d.who l

/-- A thread of a crew by its lane. -/
theorem any_lanes {c : Crew} (p : Thread → Bool) :
    (c.lanes.any fun t => (t.map p).getD false) = true ↔ ∃ l t, c.thread? l = some t ∧ p t = true := by
  rw [List.any_eq_true]
  constructor
  · rintro ⟨x, hx, hp⟩
    obtain ⟨l, hl⟩ := List.mem_iff_getElem?.1 hx
    cases x with
    | none => simp at hp
    | some t => exact ⟨l, t, by simp [Crew.thread?, hl], by simpa using hp⟩
  · rintro ⟨l, t, ht, hp⟩
    unfold Crew.thread? at ht
    cases hg : c.lanes[l]? with
    | none => rw [hg] at ht; cases ht
    | some y =>
      rw [hg] at ht
      simp only [Option.join_some] at ht
      subst ht
      exact ⟨_, List.mem_of_getElem? hg, by simpa using hp⟩

theorem near_symm {c d : Crew} (h : c.near d) : d.near c := by
  obtain ⟨⟨h1, h2, h3, h4⟩, h5, h6⟩ := h
  exact ⟨⟨h1.symm, h2.symm, h3.symm, h4.symm⟩, h5.symm, fun l => (h6 l).symm⟩

theorem near_home {c d : Crew} (h : c.near d) {t u : Thread} (he : (t.team, t.tid) = (u.team, u.tid)) : d.home u = c.home t := by
  obtain ⟨⟨h1, h2, h3, -⟩, h5, -⟩ := h
  simp only [Prod.mk.injEq] at he
  simp only [Crew.home, ← h1, ← h2, ← h3, ← h5, he.1, he.2]

/-- States that agree on all that a fetch reads. -/
def State.near (s u : State) : Prop :=
  ∃ cur crews teams bins, u = { s with cur := cur, crews := crews, teams := teams, bins := bins }

theorem near_page {s u : State} (h : s.near u) (bed : Nat) (a : List PageAns) (r : Right) (va n : Nat) :
    u.page bed a r va n = s.page bed a r va n := by
  obtain ⟨_, _, _, _, rfl⟩ := h; rfl

theorem near_codePurged {s u : State} (h : s.near u) {c d : Crew} (hc : c.near d) (n : Nat) : u.codePurged d n = s.codePurged c n := by
  have hp : ∀ b h, u.purged b none n h = s.purged b none n h := by
    intro b h'
    obtain ⟨_, _, _, _, rfl⟩ := h
    rfl
  have he : u.purges = s.purges := by obtain ⟨_, _, _, _, rfl⟩ := h; rfl
  have key : ∀ {a b : Crew}, a.near b → (∃ l t, a.thread? l = some t ∧ s.purged c.bed none n (a.home t) = true) →
      ∃ l t, b.thread? l = some t ∧ s.purged c.bed none n (b.home t) = true := by
    rintro a b hab ⟨l, t, ht, hq⟩
    have hw := hab.2.2 l
    unfold Crew.who at hw
    rw [ht] at hw
    obtain ⟨t', ht', hx⟩ := Option.map_eq_some_iff.1 hw.symm
    exact ⟨l, t', ht', by rw [near_home hab hx.symm]; exact hq⟩
  have e : (d.lanes.any fun t => (t.map fun t => s.purged c.bed none n (d.home t)).getD false) =
      c.lanes.any fun t => (t.map fun t => s.purged c.bed none n (c.home t)).getD false := by
    rw [Bool.eq_iff_iff, any_lanes, any_lanes]
    exact ⟨key (near_symm hc), key hc⟩
  unfold State.codePurged
  rw [he, ← hc.1.1]
  simp only [hp]
  rw [e]

theorem page_loc {s : State} {bed : Nat} {a : List PageAns} {r : Right} {va n : Nat} {p : Part}
    (h : s.page bed a r va n = .part p) : (∃ l : Leaf, p.loc = l.loc va) ∧ p.len = n := by
  unfold State.page at h
  dsimp only at h
  split at h
  · split at h <;> cases h
  · split at h
    · cases h; exact ⟨⟨_, rfl⟩, rfl⟩
    · split at h <;> cases h

theorem leaf_read {s u : State} (h : s.near u) (l : Leaf) (va n : Nat) : u.read (l.loc va) n = s.read (l.loc va) n := by
  obtain ⟨_, _, _, _, rfl⟩ := h
  unfold Leaf.loc
  split <;> rfl

theorem near_fetchDw {s u : State} (h : s.near u) {c d : Crew} (hc : c.near d) (a : List PageAns) (x : Dword) :
    u.fetchDw d a x = s.fetchDw c a x := by
  have hcp := near_codePurged h hc
  obtain ⟨⟨h1, -, h3, h4⟩, -, -⟩ := hc
  unfold State.fetchDw
  simp only [hcp]
  rw [near_page h, ← h1, ← h3, ← h4]
  split
  · rfl
  · cases hp : s.page c.bed a .fetch (vaIndex x) 8 with
    | part p =>
      obtain ⟨⟨l, hl⟩, -⟩ := page_loc hp
      dsimp only
      rw [hl, leaf_read h]
      obtain ⟨_, _, _, _, rfl⟩ := h
      rfl
    | _ => rfl

theorem near_fetchWords {s u : State} (h : s.near u) {c d : Crew} (hc : c.near d) (a : List PageAns) (n : Nat) (x : Dword) :
    u.fetchWords d a n x = s.fetchWords c a n x := by
  induction n generalizing x with
  | zero => rfl
  | succ n ih => unfold State.fetchWords; rw [near_fetchDw h hc, ih]

theorem near_enterCheck {s u : State} (h : s.near u) {c d : Crew} (hc : c.near d) (vr : Nat) (a : List PageAns) (x : Dword)
    (e : Enter) : u.enterCheck d vr a x e = s.enterCheck c vr a x e := by
  unfold State.enterCheck
  rw [near_fetchWords h hc, near_fetchWords h hc]

theorem near_keepDw {s u : State} (h : s.near u) {c d : Crew} (hc : c.near d) (x : Dword) :
    u.keepDw d x = { u with code := (s.keepDw c x).code } ∧ s.keepDw c x = { s with code := (s.keepDw c x).code } := by
  obtain ⟨⟨h1, -, h3, h4⟩, -, -⟩ := hc
  have hcode : u.code = s.code := by obtain ⟨_, _, _, _, rfl⟩ := h; rfl
  unfold State.keepDw State.keepDwAt
  rw [near_page h, ← h1, ← h3, ← h4]
  cases hp : s.page c.bed [] .fetch (vaIndex x) 8 with
  | part p =>
    obtain ⟨⟨l, hl⟩, -⟩ := page_loc hp
    dsimp only
    rw [hl, leaf_read h]
    obtain ⟨_, _, _, _, rfl⟩ := h
    dsimp only
    split <;> exact ⟨rfl, rfl⟩
  | _ => exact ⟨by rw [← hcode], rfl⟩

theorem near_keepWords {s u : State} (h : s.near u) {c d : Crew} (hc : c.near d) (n : Nat) (x : Dword) :
    u.keepWords d n x = { u with code := (s.keepWords c n x).code } := by
  induction n generalizing s u x with
  | zero =>
    have hcode : u.code = s.code := by obtain ⟨_, _, _, _, rfl⟩ := h; rfl
    show u = { u with code := s.code }
    rw [← hcode]
  | succ n ih =>
    obtain ⟨k1, k2⟩ := near_keepDw h hc (dwOf x)
    have hn : (s.keepDw c (dwOf x)).near (u.keepDw d (dwOf x)) := by
      rw [k1, k2]
      obtain ⟨_, _, _, _, rfl⟩ := h
      exact ⟨_, _, _, _, rfl⟩
    have := ih hn (x + 4)
    unfold State.keepWords
    rw [this]
    rw [k1]

/-! ## What an entry keeps of a crew -/

/-- What names a crew and its place. -/
def Crew.name (c : Crew) : Nat × Nat × Nat × Nat × Nat := (c.cid, c.bed, c.launch, c.cluster, c.core)

/-- What a lane waits for. -/
def Crew.waits (c : Crew) (l : Nat) : Option (Option RedPend × Wait) := (c.thread? l).map fun t => (t.redl, t.wait)

/-- A crew under a name and with threads that another has. -/
structure Crew.same (d c : Crew) : Prop where
  name : d.name = c.name
  who : ∀ j, d.who j = c.who j

theorem Crew.same.trans {a b c : Crew} (h : a.same b) (g : b.same c) : a.same c := ⟨h.1.trans g.1, fun j => (h.2 j).trans (g.2 j)⟩

theorem near_of_same {c d : Crew} (h : d.same c) : c.near d := by
  obtain ⟨h1, h2⟩ := h
  simp only [Crew.name, Prod.mk.injEq] at h1
  obtain ⟨n1, n2, n3, n4, n5⟩ := h1
  exact ⟨⟨n2.symm, n3.symm, n4.symm, n5.symm⟩, n1.symm, fun l => (h2 l).symm⟩

theorem setThread_same (c : Crew) (l : Nat) (f : Thread → Thread) (hf : ∀ t, (f t).team = t.team ∧ (f t).tid = t.tid) :
    (c.setThread l f).same c := by
  refine ⟨rfl, fun j => ?_⟩
  unfold Crew.who
  rw [Crew.thread?_setThread]
  by_cases h : j = l
  · subst h; cases c.thread? j <;> simp [hf]
  · simp [h]

theorem setThreads_same (c : Crew) (ls : List Nat) (f : Thread → Thread) (hf : ∀ t, (f t).team = t.team ∧ (f t).tid = t.tid) :
    (c.setThreads ls f).same c := by
  unfold Crew.setThreads
  induction ls generalizing c with
  | nil => exact ⟨rfl, fun _ => rfl⟩
  | cons l t ih => exact (ih (c.setThread l f)).trans (setThread_same c l f hf)

theorem putsThread_same (st : Nat) (ps : List Put) (t : Thread) :
    (putsThread st ps t).team = t.team ∧ (putsThread st ps t).tid = t.tid := by
  unfold putsThread
  induction ps generalizing t with
  | nil => exact ⟨rfl, rfl⟩
  | cons p ps ih =>
    obtain ⟨h1, h2⟩ := ih (p.onThread st t)
    simp only [List.foldl_cons]
    rw [h1, h2]
    cases p <;> exact ⟨rfl, rfl⟩

theorem setThread_name (c : Crew) (l : Nat) (f : Thread → Thread) : (c.setThread l f).name = c.name := rfl

theorem setThreads_name (c : Crew) (ls : List Nat) (f : Thread → Thread) : (c.setThreads ls f).name = c.name := by
  rw [Crew.setThreads_eq]; rfl

theorem puts_name (c : Crew) (st l : Nat) (ps : List Put) : (c.puts st l ps).name = c.name := by
  unfold Crew.puts
  induction ps generalizing c with
  | nil => rfl
  | cons p t ih =>
    simp only [List.foldl_cons]
    rw [ih, Crew.put_eq]
    cases p <;> simp only [Put.onCrew, Crew.setS, Crew.setMask] <;> first | rfl | (split <;> rfl)

theorem puts_same (c : Crew) (st l : Nat) (ps : List Put) : (c.puts st l ps).same c := by
  refine ⟨puts_name c st l ps, fun j => ?_⟩
  unfold Crew.who
  rw [Crew.puts_thread?]
  by_cases h : j = l
  · subst h; cases c.thread? j <;> simp [putsThread_same]
  · simp [h]

theorem setThread_waits (c : Crew) (l : Nat) (f : Thread → Thread) (hf : ∀ t, (f t).redl = t.redl ∧ (f t).wait = t.wait) (j : Nat) :
    (c.setThread l f).waits j = c.waits j := by
  unfold Crew.waits
  rw [Crew.thread?_setThread]
  by_cases h : j = l
  · subst h; cases c.thread? j <;> simp [hf]
  · simp [h]

theorem puts_waits (c : Crew) (st l : Nat) (ps : List Put) (hp : ∀ p ∈ ps, ∀ r, p ≠ .redl r) (j : Nat) :
    (c.puts st l ps).waits j = c.waits j := by
  unfold Crew.waits
  rw [Crew.puts_thread?]
  have key : ∀ t, (putsThread st ps t).redl = t.redl ∧ (putsThread st ps t).wait = t.wait := by
    intro t
    unfold putsThread
    induction ps generalizing t with
    | nil => exact ⟨rfl, rfl⟩
    | cons p t ih =>
      simp only [List.foldl_cons]
      obtain ⟨h1, h2⟩ := ih (fun q hq => hp q (by simp [hq])) (p.onThread st ‹_›)
      rw [h1, h2]
      have := hp p (by simp)
      cases p <;> first | exact ⟨rfl, rfl⟩ | (exact absurd rfl (this _))
  by_cases h : j = l
  · subst h; cases c.thread? j <;> simp [key]
  · simp [h]

theorem setS_fold_eq (ws : List (Nat × Word)) (c : Crew) :
    (ws.foldl (fun c w => c.setS w.1 w.2) c).name = c.name ∧ ∀ j, (ws.foldl (fun c w => c.setS w.1 w.2) c).thread? j = c.thread? j := by
  induction ws generalizing c with
  | nil => exact ⟨rfl, fun _ => rfl⟩
  | cons w t ih =>
    simp only [List.foldl_cons]
    obtain ⟨h1, h2⟩ := ih (c.setS w.1 w.2)
    exact ⟨h1, h2⟩

/-- Results written keep the crew's name and what its lanes wait for. -/
theorem flush_keeps (c : Crew) (st l : Nat) (which : Pend → Bool) :
    (c.flush st l which).same c ∧ ∀ j, (c.flush st l which).waits j = c.waits j := by
  unfold Crew.flush
  cases hl : c.thread? l with
  | none => exact ⟨⟨rfl, fun _ => rfl⟩, fun _ => rfl⟩
  | some t =>
    dsimp only
    have key : ∀ (ps : List Pend) (c : Crew),
        (ps.foldl (fun c p => (p.s.foldl (fun c w => c.setS w.1 w.2) c).puts st l
          (.flags p.fl :: (p.v.filter fun w => !lateStays st l t.v p.id w.1).map fun w => .v w.1 w.2)) c).same c ∧
        ∀ j, (ps.foldl (fun c p => (p.s.foldl (fun c w => c.setS w.1 w.2) c).puts st l
          (.flags p.fl :: (p.v.filter fun w => !lateStays st l t.v p.id w.1).map fun w => .v w.1 w.2)) c).waits j = c.waits j := by
      intro ps
      induction ps with
      | nil => exact fun c => ⟨⟨rfl, fun _ => rfl⟩, fun _ => rfl⟩
      | cons p ps ih =>
        intro c
        simp only [List.foldl_cons]
        obtain ⟨h1, h2⟩ := ih ((p.s.foldl (fun c w => c.setS w.1 w.2) c).puts st l
          (.flags p.fl :: (p.v.filter fun w => !lateStays st l t.v p.id w.1).map fun w => .v w.1 w.2))
        obtain ⟨k1, k2⟩ := setS_fold_eq p.s c
        refine ⟨(h1.trans (puts_same _ _ _ _)).trans ⟨k1, fun j => by unfold Crew.who; rw [k2]⟩, fun j => ?_⟩
        rw [h2, puts_waits]
        · unfold Crew.waits; rw [k2]
        · intro q hq r hr
          subst hr
          simp at hq
    obtain ⟨h1, h2⟩ := key (t.pend.filter which) (c.setThread l fun t => { t with pend := t.pend.filter fun p => !which p })
    exact ⟨h1.trans (setThread_same c l (fun t => { t with pend := t.pend.filter fun p => !which p }) fun _ => ⟨rfl, rfl⟩),
      fun j => (h2 j).trans (setThread_waits c l (fun t => { t with pend := t.pend.filter fun p => !which p }) (fun _ => ⟨rfl, rfl⟩) j)⟩

/-- Results passed on keep the crew's name and what its lanes wait for. -/
theorem passOn_keeps (c : Crew) (l : Nat) : (c.passOn l).name = c.name ∧ ∀ j, (c.passOn l).waits j = c.waits j := by
  unfold Crew.passOn
  cases c.thread? l with
  | none => exact ⟨rfl, fun _ => rfl⟩
  | some t =>
    dsimp only
    generalize t.pend = ps
    induction ps generalizing c with
    | nil => exact ⟨rfl, fun _ => rfl⟩
    | cons p ps ih =>
      simp only [List.foldl_cons]
      obtain ⟨h1, h2⟩ := ih (match c.live.find? fun j => j != l && (((c.thread? j).map (·.pend)).getD []).any (·.id == p.id) with
        | none => c
        | some j => c.setThread j fun u => { u with pend := mapIf (·.id == p.id) (fun q => { q with s := q.s ++ p.s }) u.pend })
      refine ⟨h1.trans ?_, fun j => (h2 j).trans ?_⟩
      · split <;> rfl
      · split
        · rfl
        · rename_i i _
          exact setThread_waits c i (fun u => { u with pend := mapIf (·.id == p.id) (fun q => { q with s := q.s ++ p.s }) u.pend })
            (fun _ => ⟨rfl, rfl⟩) j

/-- Long-latency instructions that complete keep the crew's name and threads and what its lanes wait for. -/
theorem complete_keeps (c : Crew) (st : Nat) (ids : List Nat) :
    (c.complete st ids).same c ∧ ∀ j, (c.complete st ids).waits j = c.waits j := by
  unfold Crew.complete
  split
  · exact ⟨⟨rfl, fun _ => rfl⟩, fun _ => rfl⟩
  · generalize c.live = ls
    induction ls generalizing c with
    | nil => exact ⟨⟨rfl, fun _ => rfl⟩, fun _ => rfl⟩
    | cons l t ih =>
      simp only [List.foldl_cons]
      obtain ⟨h1, h2⟩ := ih (c.flush st l fun p => ids.contains p.id)
      obtain ⟨k1, k2⟩ := flush_keeps c st l fun p => ids.contains p.id
      exact ⟨h1.trans k1, fun j => (h2 j).trans (k2 j)⟩

theorem entered_same (st : Nat) (ls : List Nat) (addr h : Dword) (region : Bool) (c : Crew) :
    (entered st ls addr h region c).same c := by
  have e : ∀ (b : Bool) (d : Crew) (n : Nat), (if b then d.checkpoint n else d).same d := by
    intro b d n; cases b <;> exact ⟨rfl, fun _ => rfl⟩
  unfold entered
  dsimp only
  refine (e _ _ _).trans (Crew.same.trans ?_ (complete_keeps c st (c.inFlight ls)).1)
  apply setThreads_same
  intro t
  cases hdrRh h || region <;> exact ⟨rfl, rfl⟩

/-- A lane that enters waits for nothing but the tree unit; the others wait as before. -/
theorem entered_waits (st : Nat) (ls : List Nat) (hn : ls.Nodup) (addr h : Dword) (region : Bool) (c : Crew) (j : Nat) :
    (entered st ls addr h region c).waits j =
      if j ∈ ls then (c.waits j).map fun x => (x.1, Wait.none) else c.waits j := by
  have e : ∀ (b : Bool) (d : Crew) (n : Nat), (if b then d.checkpoint n else d).waits j = d.waits j := by
    intro b d n; cases b <;> rfl
  unfold entered
  dsimp only
  rw [e]
  have k2 := (complete_keeps c st (c.inFlight ls)).2 j
  rw [← k2]
  unfold Crew.waits
  rw [Crew.thread?_setThreads _ _ _ hn]
  by_cases hj : j ∈ ls
  · simp only [hj, if_true, Option.map_map]
    congr 1
    funext t
    simp only [Function.comp_apply]
    split <;> rfl
  · simp only [hj, if_false]

/-! ## Block entry -/

theorem commitEntry_eq {s u : State} {c d : Crew} {cid : Nat} (h : s.near u) (hc : c.near d) (hd : u.crew? cid = some d)
    (only : ∀ x ∈ u.crews, x.cid = cid → x = d) (ls : List Nat) (addr hw : Dword) (region : Bool)
    (hcid : (entered u.fresh ls addr hw region d).cid = cid) (hnear : d.near (entered u.fresh ls addr hw region d)) :
    u.commitEntry cid ls addr hw region =
      { u with crews := mapIf (fun x => x.cid == cid) (fun _ => entered u.fresh ls addr hw region d) u.crews,
               code := (s.keepWords c 2 addr).code } := by
  have hm : mapIf (fun c => c.cid == cid) (fun c => entered u.fresh ls addr hw region c) u.crews =
      mapIf (fun x => x.cid == cid) (fun _ => entered u.fresh ls addr hw region d) u.crews := by
    apply mapIf_congr
    intro x hx hxc
    rw [only x hx (by simpa using hxc)]
  have e1 : (u.setCrew cid fun c => entered u.fresh ls addr hw region c) =
      { u with crews := mapIf (fun x => x.cid == cid) (fun _ => entered u.fresh ls addr hw region d) u.crews } := by
    unfold State.setCrew
    rw [hm]
  have e2 : ({ u with crews := mapIf (fun x => x.cid == cid) (fun _ => entered u.fresh ls addr hw region d) u.crews } : State).crew? cid
      = some (entered u.fresh ls addr hw region d) := by
    unfold State.crew? at hd ⊢
    rw [find_mapIf _ _ _ (by intro x _; simpa using hcid), hd]
    rfl
  have e3 : u.commitEntry cid ls addr hw region = match (u.setCrew cid fun c => entered u.fresh ls addr hw region c).crew? cid with
      | some c => (u.setCrew cid fun c => entered u.fresh ls addr hw region c).keepWords c 2 addr
      | none => u.setCrew cid fun c => entered u.fresh ls addr hw region c := rfl
  rw [e3, e1, e2]
  dsimp only
  have hn : s.near { u with crews := mapIf (fun x => x.cid == cid) (fun _ => entered u.fresh ls addr hw region d) u.crews } := by
    obtain ⟨_, _, _, _, rfl⟩ := h
    exact ⟨_, _, _, _, rfl⟩
  obtain ⟨⟨a1, a2, a3, a4⟩, a5, a6⟩ := hc
  obtain ⟨⟨b1, b2, b3, b4⟩, b5, b6⟩ := hnear
  rw [near_keepWords hn (c := c) ⟨⟨a1.trans b1, a2.trans b2, a3.trans b3, a4.trans b4⟩, a5.trans b5, fun l => (a6 l).trans (b6 l)⟩]

/-- An entry that every check passes. -/
theorem enterBlock_ok {s u : State} {c d : Crew} {cid : Nat} (h : s.near u) (hc : c.near d) (hd : u.crew? cid = some d)
    (ls : List Nat) (addr hw : Dword) (e : Enter) (region : Bool)
    (hans : (((ls.head?).bind d.thread?).map (·.answered)).getD [] = [])
    (hok : s.enterCheck c (vregs s c) [] addr e = .ok hw) :
    u.enterBlock cid ls addr e region = u.commitEntry cid ls addr hw region := by
  have hk : ((u.kernel? d.bed d.launch).map (·.vregs)).getD 512 = vregs s c := by
    obtain ⟨⟨h1, h2, -, -⟩, -, -⟩ := hc
    rw [← h1, ← h2]
    obtain ⟨_, _, _, _, rfl⟩ := h
    rfl
  unfold State.enterBlock
  rw [hd]
  dsimp only
  rw [hans, hk, near_enterCheck h hc, hok]

/-! ## The end of an issue -/

/-- A crew in which no thread waits for the tree unit or a mask. -/
def Crew.quiet (c : Crew) : Prop := ∀ l x, c.waits l = some x → x.1 = none ∧ ∀ m n, x.2 ≠ .waitm m n

/-- A group's issue ends with nothing to settle. -/
theorem dropEmpty_endGroup {s u : State} {c c0 d : Crew} {k : Group} (h : Calm s c k) (hc0 : c0.cid = c.cid)
    (hcrews : u.crews = mapIf (fun x => x.cid == k.cid) (fun _ => d) s.crews) (hbins : u.bins = s.bins) (hteams : u.teams = s.teams)
    (hname : d.name = c.name)
    (hman : d.lanes.any (·.isSome) = true) (hq : d.quiet) : u.dropEmpty.endGroup c0 = { u with cur := none } := by
  have hcid : c.cid = k.cid := crew?_cid h.crew
  simp only [Crew.name, Prod.mk.injEq] at hname
  obtain ⟨n1, n2, n3, n4, n5⟩ := hname
  have hdrop : u.dropEmpty = u := by
    unfold State.dropEmpty
    have : u.crews.filter (fun c => c.lanes.any (·.isSome)) = u.crews := by
      rw [List.filter_eq_self, hcrews]
      intro x hx
      obtain ⟨y, hy, rfl⟩ := mem_mapIf hx
      by_cases hyc : y.cid == k.cid
      · simpa [hyc] using hman
      · simpa [hyc] using h.manned y hy
    rw [this]
  have hfind : ({ u with cur := none } : State).crew? k.cid = some d := by
    have hc := h.crew
    unfold State.crew? at hc ⊢
    simp only [hcrews]
    rw [find_mapIf _ _ _ (by intro x _; simpa using n1.trans hcid), hc]
    rfl
  have hset : ({ u with cur := none } : State).settleCrew k.cid = { u with cur := none } := by
    apply settleCrew_quiet hfind
    · intro l t htl
      exact hq l (t.redl, t.wait) (by unfold Crew.waits; rw [htl]; rfl)
    · have hb := h.bins
      unfold State.domain at hb ⊢
      simp only [hbins, n2, n3, n4]
      exact hb
    · intro x hx hxc
      simp only [hcrews] at hx
      obtain ⟨y, hy, rfl⟩ := mem_mapIf hx
      by_cases hyc : y.cid == k.cid
      · simp [hyc]
      · rw [if_neg hyc] at hxc
        exact absurd (by simpa using hxc) hyc
    · rw [hteams]; exact h.steps
  rw [hdrop]
  unfold State.endGroup
  dsimp only
  rw [hc0, hcid, hfind]
  exact hset

theorem stepDone_none {u : State} {c : Crew} {k : Group} (b : Bool) (h : ∀ t ∈ u.teams, t.stepping.contains c.cid = false) :
    u.stepDone c k b = u := by
  have : u.teams.filter (fun t => t.stepping.contains c.cid && k.lanes.any fun l => c.laneIs l fun th => c.ref th == t.ref) = [] := by
    rw [List.filter_eq_nil_iff]
    intro t ht
    rw [h t ht]
    simp
  unfold State.stepDone
  rw [this]
  rfl

/-! ## Groups that go on -/

/-- The crew after its lanes' outcomes. -/
def retired (c : Crew) (k : Group) (st : Nat) (outs : List (Nat × LaneOut)) : Crew :=
  outs.foldl (fun c x => c.retireLane k st x.1 x.2) c

theorem retireLane_same (c : Crew) (k : Group) (st l : Nat) (o : LaneOut) : (c.retireLane k st l o).same c := by
  have plain : ∀ (f : Thread → Thread) ps, (∀ t, (f t).team = t.team ∧ (f t).tid = t.tid) → ((c.setThread l f).puts st l ps).same c :=
    fun f ps hf => (puts_same _ _ _ _).trans (setThread_same c l f hf)
  cases o <;> simp only [Crew.retireLane] <;>
    first
    | exact ⟨rfl, fun _ => rfl⟩
    | exact plain _ _ fun _ => ⟨rfl, rfl⟩
    | exact setThread_same _ _ _ fun _ => ⟨rfl, rfl⟩
    | skip
  exact Crew.same.trans (by apply setThread_same; exact fun _ => ⟨rfl, rfl⟩) (plain (·.retire k.pc) _ fun _ => ⟨rfl, rfl⟩)

theorem retireLane_name (c : Crew) (k : Group) (st l : Nat) (o : LaneOut) : (c.retireLane k st l o).name = c.name := by
  cases o <;> simp only [Crew.retireLane] <;> first | rfl | (rw [puts_name]; rfl) | skip
  rename_i n ps
  show ((c.setThread l (·.retire k.pc)).puts st l _).name = c.name
  rw [puts_name]; rfl

theorem retired_name (c : Crew) (k : Group) (st : Nat) (outs : List (Nat × LaneOut)) : (retired c k st outs).name = c.name := by
  unfold retired
  induction outs generalizing c with
  | nil => rfl
  | cons x t ih => simp only [List.foldl_cons]; rw [ih, retireLane_name]

theorem retired_same (c : Crew) (k : Group) (st : Nat) (outs : List (Nat × LaneOut)) : (retired c k st outs).same c := by
  unfold retired
  induction outs generalizing c with
  | nil => exact ⟨rfl, fun _ => rfl⟩
  | cons x t ih => exact (ih (c.retireLane k st x.1 x.2)).trans (retireLane_same c k st x.1 x.2)

/-- A lane that goes on at the next word or, after a commit, at the header that follows. -/
def LaneOut.onward : LaneOut → Bool
  | .ok _ => true
  | .late _ _ => true
  | .okCommit _ => true
  | _ => false

/-- A commit writes what the plain instruction writes. -/
def LaneOut.uncommit : LaneOut → LaneOut
  | .okCommit ps => .ok ps
  | o => o

theorem uncommit_retire (c : Crew) (k : Group) (st l : Nat) (o : LaneOut) :
    c.retireLane k st l o.uncommit = c.retireLane k st l o := by cases o <;> rfl

theorem onward_plain {o : LaneOut} (h : o.onward = true) :
    o.trap? = none ∧ o.target? = none ∧ o.rett? = none ∧ o.wait? = none ∧ o.uncommit.advances = true ∧
      (∀ s : State, ∀ c k vr, s.jumpCheck c k vr o = o) ∧ ∀ s : State, ∀ cid l, s.departLane cid l o = s := by
  cases o <;> simp_all [LaneOut.onward, LaneOut.trap?, LaneOut.target?, LaneOut.rett?, LaneOut.wait?, LaneOut.uncommit,
    LaneOut.advances, State.jumpCheck, State.departLane]

theorem retired_thread? {outs : List (Nat × LaneOut)} (hon : ∀ x ∈ outs, x.2.onward = true) (c : Crew) (k : Group)
    (hl : outs.map (·.1) = k.lanes) (hn : k.lanes.Nodup) (st j : Nat) :
    (retired c k st outs).thread? j =
      if j ∈ k.lanes then (c.thread? j).map (outThread k st (outOf outs j).uncommit) else c.thread? j := by
  have e : retired c k st outs = retired c k st (outs.map fun x => (x.1, x.2.uncommit)) := by
    unfold retired
    rw [List.foldl_map]
    simp only [uncommit_retire]
  rw [e]
  unfold retired
  have hadv : ∀ x ∈ outs.map (fun x => (x.1, x.2.uncommit)), x.2.advances = true := by
    intro x hx
    obtain ⟨y, hy, rfl⟩ := List.mem_map.1 hx
    exact (onward_plain (hon y hy)).2.2.2.2.1
  have hfst : (outs.map fun x => (x.1, x.2.uncommit)).map (·.1) = k.lanes := by
    rw [List.map_map]; exact hl
  rw [foldl_retire_thread? _ hadv (hfst ▸ hn)]
  have hfind : (outs.map fun x => (x.1, x.2.uncommit)).find? (fun x => x.1 == j) =
      (outs.find? fun x => x.1 == j).map fun x => (x.1, x.2.uncommit) := by
    rw [List.find?_map]; rfl
  rw [hfind]
  by_cases hj : j ∈ k.lanes
  · have := find_of_mem_map (outs := outs) (l := j) (hl ▸ hj)
    simp only [hj, if_true, this, Option.map_some]
  · have : outs.find? (fun x => x.1 == j) = none := by
      rw [List.find?_eq_none]
      intro x hx
      simp only [beq_iff_eq]
      intro hc
      exact hj (hl ▸ List.mem_map.2 ⟨x, hx, hc⟩)
    simp only [hj, if_false, this, Option.map_none]

/-- The lanes of the group stand at an address. -/
theorem stood_thread? (c : Crew) (ls : List Nat) (a : Dword) (hn : ls.Nodup) (j : Nat) :
    (stood ls a c).thread? j = if j ∈ ls then (c.thread? j).map fun t => { t with pc := a, wait := .none, answered := [], ret := none }
      else c.thread? j := Crew.thread?_setThreads _ _ _ hn j

/-- The lanes of a group that goes on wait for nothing. -/
theorem retired_quiet {s : State} {c : Crew} {k : Group} (h : Calm s c k) {outs : List (Nat × LaneOut)}
    (hon : ∀ x ∈ outs, x.2.onward = true) (hl : outs.map (·.1) = k.lanes) (ht : ∀ x ∈ outs, x.2.uncommit.noTree = true) (st : Nat) :
    (∀ l t, (retired c k st outs).thread? l = some t → t.redl = none ∧ (l ∉ k.lanes → ∀ m n, t.wait ≠ .waitm m n)) ∧
      (retired c k st outs).lanes.any (·.isSome) = true := by
  refine ⟨?_, ?_⟩
  · intro l t htl
    rw [retired_thread? hon c k hl h.lanes] at htl
    by_cases hlm : l ∈ k.lanes
    · simp only [hlm, if_true] at htl
      obtain ⟨t0, ht0, rfl⟩ := Option.map_eq_some_iff.1 htl
      refine ⟨?_, fun hc => absurd hlm hc⟩
      have := find_of_mem_map (outs := outs) (l := l) (hl ▸ hlm)
      exact outThread_redl (ht _ (List.mem_of_find?_eq_some this)) k st t0 (h.tree l t0 ht0)
    · simp only [hlm, if_false] at htl
      exact ⟨h.tree l t htl, fun _ m n => h.masks l t m n htl⟩
  · obtain ⟨l, hlm⟩ := List.exists_mem_of_ne_nil _ h.some_
    obtain ⟨t, htl⟩ := Option.isSome_iff_exists.1 (h.live l hlm)
    have h1 := retired_thread? hon c k hl h.lanes st l
    simp only [hlm, if_true, htl, Option.map_some] at h1
    unfold Crew.thread? at h1
    cases hget : (retired c k st outs).lanes[l]? with
    | none => simp [hget] at h1
    | some x =>
      rw [hget] at h1
      cases x with
      | none => simp at h1
      | some y => exact List.any_eq_true.2 ⟨some y, List.mem_of_getElem? hget, rfl⟩

/-- Lanes moved keep a crew manned. -/
theorem manned_of_waits {c d : Crew} (h : c.lanes.any (·.isSome) = true) (hw : ∀ j, (d.waits j).isSome = (c.waits j).isSome) :
    d.lanes.any (·.isSome) = true := by
  obtain ⟨x, hx, hs⟩ := List.any_eq_true.1 h
  obtain ⟨l, hl⟩ := List.mem_iff_getElem?.1 hx
  obtain ⟨t, rfl⟩ := Option.isSome_iff_exists.1 hs
  have h1 : (c.waits l).isSome = true := by simp [Crew.waits, Crew.thread?, hl]
  rw [← hw l] at h1
  unfold Crew.waits Crew.thread? at h1
  cases hget : d.lanes[l]? with
  | none => simp [hget] at h1
  | some y =>
    cases y with
    | none => simp [hget] at h1
    | some z => exact List.any_eq_true.2 ⟨some z, List.mem_of_getElem? hget, rfl⟩

/-- A group whose lanes all go on, to the next word or at the end of their block to the header after it. -/
theorem conclude_onward {s : State} {c c0 : Crew} {k : Group} (h : Calm s c k) (hc0 : c0.cid = c.cid) {outs : List (Nat × LaneOut)} {hd : Dword}
    (hl : outs.map (·.1) = k.lanes) (hon : ∀ x ∈ outs, x.2.onward = true) (ht : ∀ x ∈ outs, x.2.uncommit.noTree = true)
    (hend : (∀ x ∈ outs, x.2.commits = true) ∨ ((∀ x ∈ outs, x.2.advances = true) ∧ after k = blockEnd k.hdr k.hdrW))
    (hok : s.enterCheck c (vregs s c) [] (blockEnd k.hdr k.hdrW) (.fall k.hdr) = .ok hd) :
    s.conclude c0 k outs = landed s c k (blockEnd k.hdr k.hdrW)
      (entered s.fresh k.lanes (blockEnd k.hdr k.hdrW) hd false (retired c k s.fresh outs)) := by
  have hcid : c.cid = k.cid := crew?_cid h.crew
  have e1 : ∀ vr, outs.map (fun x => (x.1, s.jumpCheck c0 k vr x.2)) = outs := by
    intro vr
    conv => rhs; rw [← List.map_id outs]
    apply List.map_congr_left
    intro x hx
    rw [(onward_plain (hon x hx)).2.2.2.2.2.1]
    rfl
  have e2 : ∀ s' : State, outs.foldl (fun s x => s.departLane k.cid x.1 x.2) s' = s' :=
    foldl_id outs _ fun x hx s' => (onward_plain (hon x hx)).2.2.2.2.2.2 s' k.cid x.1
  have e3 : groupTrap outs = none := groupTrap_none outs fun x hx => (onward_plain (hon x hx)).1
  have e6 : byTarget outs (·.target?) = [] := byTarget_nil outs _ fun x hx => (onward_plain (hon x hx)).2.1
  have e7 : byTarget outs (·.rett?) = [] := byTarget_nil outs _ fun x hx => (onward_plain (hon x hx)).2.2.1
  have e8 : ∀ s' : State, s'.beginWaits k.cid outs = s' := by
    intro s'
    unfold State.beginWaits
    exact foldl_id outs _ (fun x hx s' => by rw [(onward_plain (hon x hx)).2.2.2.1]) s'
  have e9 : ∀ s' : State, s'.makeJumps k outs = s' := by intro s'; simp [State.makeJumps, e6]
  have e10 : ∀ (s' : State) (vr : Nat), s'.makeReturns c0 k vr outs = s' := by intro s' vr; simp [State.makeReturns, e7]
  have e11 : ∀ s' : State, s'.groupTraps k.cid outs = s' := by intro s'; simp [State.groupTraps, e3]
  have hlne : k.lanes.isEmpty = false := by simpa using h.some_
  generalize hd0 : retired c k s.fresh outs = d
  have hdsame : d.same c := by rw [← hd0]; exact retired_same c k s.fresh outs
  have hdname : d.name = c.name := hdsame.1
  obtain ⟨hq, hman⟩ := retired_quiet h hon hl ht s.fresh
  rw [hd0] at hq hman
  have hthr := retired_thread? hon c k hl h.lanes s.fresh
  rw [hd0] at hthr
  have hdcid : d.cid = k.cid := by rw [← hcid]; exact congrArg Prod.fst hdname
  -- the state once the outcomes are in
  let u : State := { s with crews := mapIf (fun x => x.cid == k.cid) (fun _ => d) s.crews }
  have hu : (s.setCrew k.cid fun c => outs.foldl (fun c x => c.retireLane k s.fresh x.1 x.2) c) = u := by
    unfold State.setCrew
    show _ = { s with crews := mapIf (fun x => x.cid == k.cid) (fun _ => d) s.crews }
    congr 1
    apply mapIf_congr
    intro x hx hxc
    rw [h.only x hx (by simpa using hxc), ← hd0]
    rfl
  have hnear : s.near u := ⟨_, _, _, _, rfl⟩
  have hufind : u.crew? k.cid = some d := by
    have hc := h.crew
    unfold State.crew? at hc ⊢
    show (mapIf (fun x => x.cid == k.cid) (fun _ => d) s.crews).find? _ = _
    rw [find_mapIf _ _ _ (by intro x _; simpa using hdcid), hc]
    rfl
  have huonly : ∀ x ∈ u.crews, x.cid = k.cid → x = d := by
    intro x hx hxc
    obtain ⟨y, hy, rfl⟩ := mem_mapIf hx
    by_cases hyc : y.cid == k.cid
    · simp [hyc]
    · rw [if_neg hyc] at hxc
      exact absurd (by simpa using hxc) hyc
  have hcd : c.near d := near_of_same hdsame
  have hesame := entered_same u.fresh k.lanes (blockEnd k.hdr k.hdrW) hd false d
  have hename := hesame.1
  have hans : (((k.lanes.head?).bind d.thread?).map (·.answered)).getD [] = [] := by
    cases hh : k.lanes.head? with
    | none => rfl
    | some l =>
      have hlm : l ∈ k.lanes := List.mem_of_mem_head? hh
      simp only [Option.bind_some]
      rw [hthr l, if_pos hlm]
      cases c.thread? l with
      | none => rfl
      | some t =>
        have hx := find_of_mem_map (outs := outs) (l := l) (hl ▸ hlm)
        have ho := hon _ (List.mem_of_find?_eq_some hx)
        simp only [Option.map_some, Option.getD_some]
        have hput : ∀ ps, (putsThread s.fresh ps (t.retire k.pc)).answered = [] := by
          intro ps
          have : ∀ (ps : List Put) (t : Thread), (putsThread s.fresh ps t).answered = t.answered := by
            intro ps
            unfold putsThread
            induction ps with
            | nil => exact fun _ => rfl
            | cons p ps ih =>
              intro t
              simp only [List.foldl_cons]
              rw [ih]
              cases p <;> rfl
          rw [this]; rfl
        revert ho
        generalize outOf outs l = o
        intro ho
        cases o <;> simp only [LaneOut.onward, Bool.false_eq_true] at ho
        · exact hput _
        · exact hput _
        · exact hput _
  have henter : u.enterBlock k.cid k.lanes (blockEnd k.hdr k.hdrW) (.fall k.hdr) false =
      { u with
        crews := mapIf (fun x => x.cid == k.cid)
          (fun _ => entered s.fresh k.lanes (blockEnd k.hdr k.hdrW) hd false d) u.crews
        code := (s.keepWords c 2 (blockEnd k.hdr k.hdrW)).code } := by
    rw [enterBlock_ok hnear hcd hufind k.lanes _ hd _ false hans hok]
    exact commitEntry_eq hnear hcd hufind huonly k.lanes _ hd false ((congrArg Prod.fst hename).trans hdcid) (near_of_same hesame)
  have hcont : ∀ next, next = blockEnd k.hdr k.hdrW → u.continueAt k.cid k.lanes k.hdr k.hdrW next =
      u.enterBlock k.cid k.lanes (blockEnd k.hdr k.hdrW) (.fall k.hdr) false := by
    intro next hn
    unfold State.continueAt
    rw [hlne, hn]
    simp
  have hnil : ∀ (s' : State) next, s'.continueAt k.cid [] k.hdr k.hdrW next = s' := fun _ _ => rfl
  have hboth : (u.continueAt k.cid (lanesWhere outs (·.advances)) k.hdr k.hdrW (k.pc + BitVec.ofNat 64 (4 * k.len))).continueAt
      k.cid (lanesWhere outs (·.commits)) k.hdr k.hdrW (blockEnd k.hdr k.hdrW) =
      u.enterBlock k.cid k.lanes (blockEnd k.hdr k.hdrW) (.fall k.hdr) false := by
    rcases hend with hc | ⟨ha, hafter⟩
    · have n1 : lanesWhere outs (·.advances) = [] := lanesWhere_none outs _ fun x hx => by
        have := hc x hx
        cases hx2 : x.2 <;> rw [hx2] at this <;> simp_all [LaneOut.commits, LaneOut.advances]
      rw [n1, hnil, lanesWhere_all outs _ hc, hl]
      exact hcont _ rfl
    · have n1 : lanesWhere outs (·.commits) = [] := lanesWhere_none outs _ fun x hx => (advances_plain (ha x hx)).2.2.2.2
      rw [n1, hnil, lanesWhere_all outs _ ha, hl]
      exact hcont _ hafter
  unfold State.conclude
  simp only [e1]
  rw [hu, e2, e11, hboth, e8, e9, e10, henter]
  rw [stepDone_none _ (by
    intro t htm
    rw [hc0, hcid]
    exact h.steps t htm)]
  have hcomp : mapIf (fun x => x.cid == k.cid) (fun _ => entered s.fresh k.lanes (blockEnd k.hdr k.hdrW) hd false d) u.crews =
      mapIf (fun x => x.cid == k.cid) (fun _ => entered s.fresh k.lanes (blockEnd k.hdr k.hdrW) hd false d) s.crews := by
    show mapIf _ _ (mapIf (fun x => x.cid == k.cid) (fun _ => d) s.crews) = _
    rw [mapIf_mapIf _ _ _ _ (by intro x _; simpa using hdcid)]
    rfl
  rw [hcomp]
  refine (dropEmpty_endGroup h hc0 (d := entered s.fresh k.lanes (blockEnd k.hdr k.hdrW) hd false d) rfl rfl rfl (hename.trans hdname) ?_ ?_)
  · apply manned_of_waits hman
    intro j
    rw [entered_waits _ _ h.lanes]
    split <;> simp
  · intro l x hx
    rw [entered_waits _ _ h.lanes] at hx
    by_cases hlm : l ∈ k.lanes
    · simp only [hlm, if_true] at hx
      obtain ⟨y, hy, rfl⟩ := Option.map_eq_some_iff.1 hx
      unfold Crew.waits at hy
      obtain ⟨t, htl, rfl⟩ := Option.map_eq_some_iff.1 hy
      exact ⟨(hq l t htl).1, fun m n hc => by cases hc⟩
    · simp only [hlm, if_false] at hx
      unfold Crew.waits at hx
      obtain ⟨t, htl, rfl⟩ := Option.map_eq_some_iff.1 hx
      exact ⟨(hq l t htl).1, (hq l t htl).2 hlm⟩

/-- A group of no commit whose lanes go on. -/
theorem conclude_goes {s : State} {c c0 : Crew} {k : Group} {hd : Dword} (h : Calm s c k) (hc0 : c0.cid = c.cid) (hon : Onward s c k hd)
    {outs : List (Nat × LaneOut)} (hl : outs.map (·.1) = k.lanes) (hadv : ∀ x ∈ outs, x.2.advances = true)
    (ht : ∀ x ∈ outs, x.2.noTree = true) : s.conclude c0 k outs = goes s c k hd (retired c k s.fresh outs) := by
  have same : ∀ o : LaneOut, o.advances = true → o.onward = true ∧ o.uncommit = o := by
    intro o ho
    cases o <;> simp_all [LaneOut.advances, LaneOut.onward, LaneOut.uncommit]
  unfold goes
  split
  · rename_i hafter
    have := conclude_onward h hc0 hl (fun x hx => (same _ (hadv x hx)).1) (fun x hx => by rw [(same _ (hadv x hx)).2]; exact ht x hx)
      (.inr ⟨hadv, hafter⟩) (hd := hd) (hafter ▸ hon hafter)
    rw [this, hafter]
  · rename_i hafter
    exact conclude_advances h hc0 hafter hl hadv ht

end Sys2Proof.Machine
end

