-- ==== Sys2Proof/Laws/Alu.lean ====
section
/-! SUPPORT. What an instruction that only writes registers does: at once, or as results in flight. -/

namespace Sys2Proof.Machine

open Sys2Proof.Claim

/-! ## The outcomes of a group -/

/-- The lanes of a group whose outcomes do not depend on the state. -/
theorem runLanes_pure (s : State) (c : Crew) (k : Group) (o : Ctx → LaneOut) (ls : List Nat) :
    runLanes c k s.fresh (fun s x => (s, o x)) ls s = (s, ls.filterMap fun l => (c.thread? l).map fun t => (l, o (view s c k l t))) := by
  have key : ∀ s' : State, runLanes c k s.fresh (fun s x => (s, o x)) ls s'
      = (s', ls.filterMap fun l => (c.thread? l).map fun t => (l, o (view s c k l t))) := by
    induction ls with
    | nil => intro s'; rfl
    | cons l t ih =>
      intro s'
      unfold runLanes
      cases h : c.thread? l with
      | none => simp [ih, h]
      | some th => simp [ih, h, view]
  exact key s

/-- The outcome of each lane of a group. -/
def outAt (uniform : Bool) (s : State) (c : Crew) (k : Group) (g : Guard) (o : Ctx → LaneOut) (l : Nat) : LaneOut :=
  match c.thread? l, lead c k g with
  | some t, some l0 =>
    if guardTrue g t then
      if uniform && l0 != l then (match c.thread? l0 with
        | some t0 => (o (view s c k l0 t0)).share
        | none => .ok [])
      else o (view s c k l t)
    else .ok []
  | _, _ => .ok []

theorem mem_actives {c : Crew} {k : Group} {g : Guard} {l : Nat} :
    l ∈ actives c k g ↔ l ∈ k.lanes ∧ ∃ t, c.thread? l = some t ∧ guardTrue g t = true := by
  unfold actives Crew.laneIs
  rw [List.mem_filter]
  cases c.thread? l <;> simp

theorem lead_none {c : Crew} {k : Group} {g : Guard} (h : lead c k g = none) : actives c k g = [] := List.head?_eq_none_iff.1 h

theorem allOuts_pure {s : State} {c : Crew} {k : Group} (uniform : Bool) (g : Guard) (o : Ctx → LaneOut) :
    allOuts k false (guardTrueOuts uniform c k s (fun s x => (s, o x)) (actives c k g)).2 =
      k.lanes.map fun l => (l, outAt uniform s c k g o l) := by
  have live : ∀ l ∈ actives c k g, ∃ t, c.thread? l = some t := fun l hl => by
    obtain ⟨-, t, ht, -⟩ := mem_actives.1 hl; exact ⟨t, ht⟩
  have fm : ∀ ls : List Nat, (∀ l ∈ ls, ∃ t, c.thread? l = some t) → ∀ l,
      (ls.filterMap fun l => (c.thread? l).map fun t => (l, o (view s c k l t))).find? (fun x => x.1 == l) =
        if l ∈ ls then (c.thread? l).map fun t => (l, o (view s c k l t)) else none := by
    intro ls hls l
    induction ls with
    | nil => rfl
    | cons j t ih =>
      obtain ⟨tj, htj⟩ := hls j (by simp)
      have ih := ih fun i hi => hls i (by simp [hi])
      simp only [List.filterMap_cons, htj, Option.map_some, List.find?_cons]
      by_cases hj : j = l
      · subst hj; simp [htj]
      · have : (j == l) = false := by simpa using hj
        simp only [this]
        rw [ih]
        simp [Ne.symm hj]
  have hact : ∀ l ∈ k.lanes, ∀ x, (if l ∈ actives c k g then (c.thread? l).map fun t => (l, o (view s c k l t)) else none) = x →
      (match x with
        | some x => (l, x.2)
        | none => (l, LaneOut.ok [])) = (l, match c.thread? l with
        | some t => if guardTrue g t then o (view s c k l t) else .ok []
        | none => .ok []) := by
    intro l hl x hx
    subst hx
    cases ht : c.thread? l with
    | none => simp
    | some t =>
      by_cases hg : guardTrue g t = true
      · have : l ∈ actives c k g := mem_actives.2 ⟨hl, t, ht, hg⟩
        simp [this, hg]
      · have : l ∉ actives c k g := fun h => by
          obtain ⟨-, t', ht', hg'⟩ := mem_actives.1 h
          rw [ht] at ht'
          cases ht'
          exact hg hg'
        simp [this, hg]
  unfold allOuts
  apply List.map_congr_left
  intro l hl
  simp only [Bool.false_and, Bool.false_eq_true, if_false]
  cases uniform with
  | false =>
    simp only [guardTrueOuts, Bool.false_eq_true, if_false]
    rw [runLanes_pure, fm _ live]
    refine (hact l hl _ rfl).trans ?_
    unfold outAt
    cases ht : c.thread? l with
    | none => rfl
    | some t =>
      cases hlead : lead c k g with
      | none =>
        have := lead_none hlead
        have hg : guardTrue g t = false := by
          cases hg : guardTrue g t with
          | false => rfl
          | true =>
            have : l ∈ actives c k g := mem_actives.2 ⟨hl, t, ht, hg⟩
            rw [lead_none hlead] at this
            simp at this
        simp [hg]
      | some l0 => simp
  | true =>
    simp only [guardTrueOuts, if_true]
    rw [runLanes_pure]
    cases hact' : actives c k g with
    | nil =>
      have hlead : lead c k g = none := by simp [lead, hact']
      simp [outAt, hlead]
    | cons l0 rest =>
      have hlead : lead c k g = some l0 := by simp [lead, hact']
      obtain ⟨t0, ht0⟩ := live l0 (by rw [hact']; simp)
      have hg0 : guardTrue g t0 = true := by
        obtain ⟨-, t, ht, hg⟩ := mem_actives.1 (show l0 ∈ actives c k g by rw [hact']; simp)
        rw [ht0] at ht; cases ht; exact hg
      simp only [List.take_succ_cons, List.take_zero, List.filterMap_cons, ht0, Option.map_some, List.filterMap_nil,
        List.drop_succ_cons, List.drop_zero, List.find?_cons]
      by_cases hj : l0 = l
      · subst hj
        simp [outAt, hlead, ht0, hg0]
      · have : (l0 == l) = false := by simpa using hj
        simp only [this]
        have hne : (l0 != l) = true := by simpa using hj
        have fr : (rest.map fun l => (l, (o (view s c k l0 t0)).share)).find? (fun x => x.1 == l) =
            if l ∈ rest then some (l, (o (view s c k l0 t0)).share) else none := by
          clear hact'
          induction rest with
          | nil => rfl
          | cons j t ih =>
            simp only [List.map_cons, List.find?_cons]
            by_cases hjl : j = l
            · subst hjl; simp
            · have : (j == l) = false := by simpa using hjl
              simp only [this]
              rw [ih]
              simp [Ne.symm hjl]
        rw [fr]
        unfold outAt
        cases ht : c.thread? l with
        | none =>
          have : l ∉ rest := fun h => by
            obtain ⟨t, h'⟩ := live l (by rw [hact']; simp [h])
            rw [ht] at h'; cases h'
          simp [this]
        | some t =>
          by_cases hg : guardTrue g t = true
          · have hm : l ∈ actives c k g := mem_actives.2 ⟨hl, t, ht, hg⟩
            rw [hact'] at hm
            have : l ∈ rest := by simpa [Ne.symm hj] using hm
            simp [this, hlead, hg, ht0, hne]
          · have : l ∉ rest := fun h => by
              obtain ⟨-, t', ht', hg'⟩ := mem_actives.1 (show l ∈ actives c k g by rw [hact']; simp [h])
              rw [ht] at ht'; cases ht'; exact hg hg'
            simp [this, hlead, hg]

/-- A group whose lanes' outcomes do not depend on the state and which is no commit concludes with them. -/
theorem drive_pure {s : State} {c : Crew} {k : Group} (h : Calm s c k) (uniform : Bool) (g : Guard) (o : Ctx → LaneOut) :
    drive false uniform g s (fun s x => (s, o x)) = .next (s.conclude c k (k.lanes.map fun l => (l, outAt uniform s c k g o l))) := by
  have key := allOuts_pure (s := s) (c := c) (k := k) uniform g o
  have hs : (guardTrueOuts uniform c k s (fun s x => (s, o x)) (actives c k g)).1 = s := by
    unfold guardTrueOuts
    cases uniform with
    | false => simp [runLanes_pure]
    | true =>
      simp only [if_true]
      rw [runLanes_pure]
      cases (List.filterMap (fun l => (c.thread? l).map fun t => (l, o (view s c k l t))) ((actives c k g).take 1)) <;> rfl
  unfold drive withGroup
  simp only [h.cur, h.crew, Bool.false_and, Bool.false_eq_true, if_false]
  rw [← key]
  generalize guardTrueOuts uniform c k s (fun s x => (s, o x)) (actives c k g) = r at hs ⊢
  obtain ⟨s', outs⟩ := r
  simp only at hs
  subst hs
  rfl

/-- The lanes' outcomes alone count, where they leave the state as it is. -/
theorem runLanes_still {s : State} {c : Crew} {k : Group} (F : State → Ctx → State × LaneOut) (o : Ctx → LaneOut) (ls : List Nat)
    (hF : ∀ l ∈ ls, ∀ t, c.thread? l = some t → F s (view s c k l t) = (s, o (view s c k l t))) :
    runLanes c k s.fresh F ls s = runLanes c k s.fresh (fun s x => (s, o x)) ls s := by
  induction ls with
  | nil => rfl
  | cons l t ih =>
    unfold runLanes
    cases hl : c.thread? l with
    | none => exact ih fun j hj => hF j (by simp [hj])
    | some th =>
      have h1 := hF l (by simp) th hl
      have h2 := ih fun j hj => hF j (by simp [hj])
      dsimp only
      unfold view at h1
      rw [h1]
      dsimp only
      rw [h2]

/-- An instruction that leaves the state as it is, by the outcomes of its guard-true lanes. -/
theorem drive_still {s : State} {c : Crew} {k : Group} (h : Calm s c k) (uniform : Bool) (g : Guard)
    (F : State → Ctx → State × LaneOut) (o : Ctx → LaneOut)
    (hF : ∀ l ∈ actives c k g, ∀ t, c.thread? l = some t → F s (view s c k l t) = (s, o (view s c k l t))) :
    drive false uniform g s F = drive false uniform g s fun s x => (s, o x) := by
  unfold drive withGroup
  simp only [h.cur, h.crew, Bool.false_and, Bool.false_eq_true, if_false]
  have e : guardTrueOuts uniform c k s F (actives c k g) = guardTrueOuts uniform c k s (fun s x => (s, o x)) (actives c k g) := by
    unfold guardTrueOuts
    rw [runLanes_still F o _ hF, runLanes_still F o _ fun l hl => hF l (List.mem_of_mem_take hl)]
  rw [e]

/-! ## Registers written -/

theorem swap_read (s : State) (k : Group) (c' : Crew) (a : Loc) (n : Nat) : (swap s k c').read a n = s.read a n := by
  cases a <;> rfl

theorem goes_read (s : State) (c : Crew) (k : Group) (h : Dword) (c' : Crew) (a : Loc) (n : Nat) :
    (goes s c k h c').read a n = s.read a n := by
  unfold goes
  split
  · cases a <;> rfl
  · exact swap_read s k c' a n

theorem putsThread_other (st : Nat) (ps : List Put) (t : Thread) :
    (putsThread st ps t).pend = t.pend ∧ (putsThread st ps t).fences = fencesAfter ps t.fences ∧
      (putsThread st ps t).ix.length = t.ix.length := by
  unfold putsThread
  induction ps generalizing t with
  | nil => exact ⟨rfl, rfl, rfl⟩
  | cons p ps ih =>
    simp only [List.foldl_cons]
    obtain ⟨h1, h2, h3⟩ := ih (p.onThread st t)
    refine ⟨?_, ?_, ?_⟩
    · rw [h1]; cases p <;> rfl
    · rw [h2]
      cases p <;> first | rfl | skip
      rename_i sc
      simp only [Put.onThread, fencesAfter, addFence]
      congr 2
      apply List.filter_congr
      intro g _
      by_cases h1 : g.mark = sc.mark <;> by_cases h2 : g.opnd = sc.opnd <;> simp [h1, h2]
    · rw [h3]; exact (onThread_ix st p t).1

/-- A list of outcomes by lane gives each lane its own. -/
theorem outOf_map (ls : List Nat) (f : Nat → LaneOut) {l : Nat} (h : l ∈ ls) : outOf (ls.map fun l => (l, f l)) l = f l := by
  unfold outOf
  induction ls with
  | nil => simp at h
  | cons j t ih =>
    simp only [List.map_cons, List.find?_cons]
    by_cases hj : j = l
    · subst hj; simp
    · have : (j == l) = false := by simpa using hj
      simp only [this]
      exact ih (by simpa [Ne.symm hj] using h)

/-- The results an outcome leaves in flight. -/
def LaneOut.flight (st : Nat) (hdr : Dword) : LaneOut → List Pend
  | .late n ps => [pendOf st n hdr ps]
  | _ => []

theorem plain_noTree {o : LaneOut} (hadv : o.advances = true) (hp : ∀ p ∈ o.puts, p.plain = true)
    (hl : ∀ n ps, o = .late n ps → ∀ p ∈ ps, p.plain = true) : o.noTree = true := by
  have e : ∀ ps : List Put, (∀ p ∈ ps, p.plain = true) → ps.all (fun p => match p with
      | .redl _ => false
      | _ => true) = true := by
    intro ps h
    rw [List.all_eq_true]
    intro p hp
    have := h p hp
    cases p <;> simp_all [Put.plain]
  cases o <;> simp only [LaneOut.advances, Bool.false_eq_true] at hadv
  · exact e _ hp
  · exact e _ (hl _ _ rfl)

/-- The crew of a group whose lanes go on, having made plain writes. -/
theorem retired_did {s : State} {c : Crew} {k : Group} (h : Calm s c k) (o : Nat → LaneOut)
    (hadv : ∀ l ∈ k.lanes, (o l).advances = true) (hp : ∀ l ∈ k.lanes, ∀ p ∈ (o l).puts, p.plain = true)
    (_hl : ∀ l ∈ k.lanes, ∀ n ps, o l = .late n ps → ∀ p ∈ ps, p.plain = true) :
    Did c (retired c k s.fresh (k.lanes.map fun l => (l, o l))) k (fun l => (o l).puts)
      (fun l => (o l).flight s.fresh k.hdr) := by
  have hmap : (k.lanes.map fun l => (l, o l)).map (·.1) = k.lanes := by simp [Function.comp_def]
  have hadv' : ∀ x ∈ k.lanes.map (fun l => (l, o l)), x.2.advances = true := by
    intro x hx; obtain ⟨l, hlm, rfl⟩ := List.mem_map.1 hx; exact hadv l hlm
  have hp' : ∀ x ∈ k.lanes.map (fun l => (l, o l)), ∀ p ∈ x.2.puts, p.plain = true := by
    intro x hx; obtain ⟨l, hlm, rfl⟩ := List.mem_map.1 hx; exact hp l hlm
  have hthr : ∀ j, (retired c k s.fresh (k.lanes.map fun l => (l, o l))).thread? j =
      if j ∈ k.lanes then (c.thread? j).map (outThread k s.fresh (o j)) else c.thread? j := by
    intro j
    unfold retired
    rw [foldl_retire_thread? _ hadv' (by rw [hmap]; exact h.lanes)]
    by_cases hj : j ∈ k.lanes
    · have := find_of_mem_map (outs := k.lanes.map fun l => (l, o l)) (l := j) (by rw [hmap]; exact hj)
      simp only [hj, if_true, this, outOf_map k.lanes o hj]
    · have : (k.lanes.map fun l => (l, o l)).find? (fun x => x.1 == j) = none := by
        rw [List.find?_eq_none]
        intro x hx
        obtain ⟨l, hlm, rfl⟩ := List.mem_map.1 hx
        simp only [beq_iff_eq]
        rintro rfl
        exact hj hlm
      simp only [hj, if_false, this]
  have hcrew : ∀ X, { retired c k s.fresh (k.lanes.map fun l => (l, o l)) with lanes := X } =
      putsCrew 0 (k.lanes.flatMap fun l => (o l).puts) { c with lanes := X } := by
    intro X
    have := foldl_retire_lanes k s.fresh X _ hadv' hp' c
    rw [List.flatMap_map] at this
    rw [← this]
    rfl
  have hpl : ∀ p ∈ k.lanes.flatMap (fun l => (o l).puts), p.plain = true := by
    intro p hpm; obtain ⟨l, hlm, hq⟩ := List.mem_flatMap.1 hpm; exact hp l hlm p hq
  generalize hc' : retired c k s.fresh (k.lanes.map fun l => (l, o l)) = c' at hthr hcrew
  obtain ⟨q1, q2, q3, q4⟩ := putsCrew_plain 0 _ hpl c
  have hc := hcrew c.lanes
  refine ⟨?_, ?_, ?_, ?_, ?_, ?_, ?_⟩
  · have : { c' with lanes := c.lanes, s := c.s, fflags := c.fflags, errs := c.errs, tokRegs := c.tokRegs } =
        { ({ c' with lanes := c.lanes } : Crew) with s := c.s, fflags := c.fflags, errs := c.errs, tokRegs := c.tokRegs } := rfl
    rw [this, hc]
    exact q1
  · rw [← hc']
    unfold retired
    have e2 : ∀ (outs : List (Nat × LaneOut)), (∀ x ∈ outs, x.2.advances = true) → ∀ c : Crew,
        (outs.foldl (fun c x => c.retireLane k s.fresh x.1 x.2) c).lanes.length = c.lanes.length := by
      intro outs
      induction outs with
      | nil => intro _ c; rfl
      | cons x t ih =>
        intro hx c
        simp only [List.foldl_cons]
        rw [ih (fun y hy => hx y (by simp [hy]))]
        have ha := hx x (by simp)
        obtain ⟨l, o'⟩ := x
        cases o' <;> simp only [LaneOut.advances, Bool.false_eq_true] at ha
        · simp only [Crew.retireLane]; rw [Crew.puts_lanes_length]; simp [Crew.setThread]
        · simp only [Crew.retireLane]
          show ((Crew.puts _ _ _ _).setThread _ _).lanes.length = _
          simp only [Crew.setThread, modifyAt_length]
          rw [Crew.puts_lanes_length]; simp
    exact e2 _ hadv' c
  · intro l hlm
    rw [hthr l, if_neg hlm]
  · intro l hlm t ht
    rw [hthr l, if_pos hlm, ht]
    refine ⟨_, rfl, ?_⟩
    have hred := h.tree l t ht
    have body : ∀ ps : List Put, (∀ p ∈ ps, p.plain = true) →
        (∀ r, (putsThread s.fresh ps (t.retire k.pc)).v.get r = (last putV ps r).getD (t.v.get r)) ∧
        (∀ i, i < 7 → (putsThread s.fresh ps (t.retire k.pc)).p.getLsbD i = (last putP ps i).getD (t.p.getLsbD i)) ∧
        (∀ i, i < t.ix.length → (putsThread s.fresh ps (t.retire k.pc)).ix[i]? =
          some ((last putIx ps i).getD ((t.ix[i]?).getD ⟨0, 0, 0⟩))) ∧
        (putsThread s.fresh ps (t.retire k.pc)).fences = fencesAfter ps t.fences ∧
        (putsThread s.fresh ps (t.retire k.pc)).pend = t.pend.map (fun p => { p with left := p.left - 1 }) ∧
        { putsThread s.fresh ps (t.retire k.pc) with
          v := t.v, p := t.p, ix := t.ix, wait := t.wait, pend := t.pend, exempt := t.exempt
          answered := t.answered, ret := t.ret, fences := t.fences } = t := by
      intro ps hps
      obtain ⟨o1, o2, o3⟩ := putsThread_other s.fresh ps (t.retire k.pc)
      refine ⟨fun r => putsThread_v _ _ _ r, fun i hi => putsThread_p _ _ _ i hi, fun i hi => putsThread_ix _ _ _ i hi, o2, o1, ?_⟩
      have h1 := putsThread_rest s.fresh ps hps (t.retire k.pc)
      generalize putsThread s.fresh ps (t.retire k.pc) = u at h1 ⊢
      have h2 : { u with v := t.v, p := t.p, ix := t.ix, wait := t.wait, pend := t.pend, exempt := t.exempt,
                         answered := t.answered, ret := t.ret, fences := t.fences } =
          { ({ u with v := (t.retire k.pc).v, p := (t.retire k.pc).p, ix := (t.retire k.pc).ix,
                      fences := (t.retire k.pc).fences } : Thread) with
            wait := t.wait, pend := t.pend, exempt := t.exempt, answered := t.answered, ret := t.ret } := rfl
      rw [h2, h1]
      cases t
      simp only at hred
      subst hred
      rfl
    cases ho : o l with
    | ok ps =>
      obtain ⟨b1, b2, b3, b4, b5, b6⟩ := body ps (by have := hp l hlm; rw [ho] at this; exact this)
      exact ⟨b1, b2, b3, b4, by rw [show LaneOut.flight s.fresh k.hdr (.ok ps) = [] from rfl, List.append_nil]; exact b5, b6⟩
    | late n ps =>
      have hps : ∀ p ∈ ps.filter (fun p => !p.isLate), p.plain = true := by
        have := hp l hlm; rw [ho] at this; exact this
      obtain ⟨b1, b2, b3, b4, b5, b6⟩ := body _ hps
      exact ⟨b1, b2, b3, b4, by show _ ++ [pendOf s.fresh n k.hdr ps] = _; rw [b5]; rfl, b6⟩
    | _ => have := hadv l hlm; rw [ho] at this; simp [LaneOut.advances] at this
  · intro r
    have e := congrArg Crew.s hc
    exact (congrArg (fun b : Bank => b.get r) e).trans (q2 r)
  · intro r
    have e := congrArg Crew.errs hc
    have e' : c'.errs = (putsCrew 0 (k.lanes.flatMap fun l => (o l).puts) c).errs := e
    rw [e']; exact q3 r
  · have e := congrArg Crew.fflags hc
    exact e.trans q4

/-- `Did` looks at the lanes of the group alone. -/
theorem did_congr {c c' : Crew} {k : Group} {ws ws' : Nat → List Put} {late late' : Nat → List Pend}
    (h : Did c c' k ws late) (hw : ∀ l ∈ k.lanes, ws l = ws' l) (hl : ∀ l ∈ k.lanes, late l = late' l) :
    Did c c' k ws' late' := by
  have e : k.lanes.flatMap ws = k.lanes.flatMap ws' := by
    rw [List.flatMap_def, List.flatMap_def, List.map_congr_left hw]
  exact ⟨h.rest, h.width, h.other, fun l hlm => by rw [← hw l hlm, ← hl l hlm]; exact h.lane l hlm, by rw [← e]; exact h.sreg,
    by rw [← e]; exact h.errs, by rw [← e]; exact h.flags⟩

/-- A group whose lanes go on, having made plain writes. -/
theorem conclude_did {s : State} {c c0 : Crew} {k : Group} {hd : Dword} (h : Calm s c k) (hc0 : c0.cid = c.cid)
    (hon : Onward s c k hd) (o : Nat → LaneOut)
    (hadv : ∀ l ∈ k.lanes, (o l).advances = true) (hp : ∀ l ∈ k.lanes, ∀ p ∈ (o l).puts, p.plain = true)
    (hl : ∀ l ∈ k.lanes, ∀ n ps, o l = .late n ps → ∀ p ∈ ps, p.plain = true) :
    ∃ c', s.conclude c0 k (k.lanes.map fun l => (l, o l)) = goes s c k hd c' ∧
      Did c c' k (fun l => (o l).puts) (fun l => (o l).flight s.fresh k.hdr) := by
  refine ⟨retired c k s.fresh (k.lanes.map fun l => (l, o l)), conclude_goes h hc0 hon (by simp [Function.comp_def]) ?_ ?_,
    retired_did h o hadv hp hl⟩
  · intro x hx; obtain ⟨l, hlm, rfl⟩ := List.mem_map.1 hx; exact hadv l hlm
  · intro x hx; obtain ⟨l, hlm, rfl⟩ := List.mem_map.1 hx; exact plain_noTree (hadv l hlm) (hp l hlm) (hl l hlm)

/-! ## The two shapes -/

theorem given_ok (uniform : Bool) (s : State) (c : Crew) (k : Group) (g : Guard) (f : Ctx → List Put) (l : Nat) :
    outAt uniform s c k g (fun x => .ok (f x)) l = .ok (given uniform s c k g f l) := by
  unfold outAt given
  cases c.thread? l with
  | none => rfl
  | some t =>
    cases lead c k g with
    | none => rfl
    | some l0 =>
      simp only
      split
      · split
        · cases c.thread? l0 <;> rfl
        · rfl
      · rfl

theorem given_plain (uniform : Bool) (s : State) (c : Crew) (k : Group) (g : Guard) (f : Ctx → List Put)
    (hf : ∀ x, ∀ p ∈ f x, p.plain = true) (l : Nat) : ∀ p ∈ given uniform s c k g f l, p.plain = true := by
  unfold given
  cases c.thread? l with
  | none => simp
  | some t =>
    cases lead c k g with
    | none => simp
    | some l0 =>
      simp only
      split
      · split
        · cases c.thread? l0 with
          | none => simp
          | some t0 => intro p hp; exact hf _ p (List.mem_filter.1 hp).1
        · exact hf _
      · simp

/-- An instruction whose lanes make plain writes at once. -/
theorem drive_writes {s : State} {c : Crew} {k : Group} {hd : Dword} (h : Calm s c k) (hon : Onward s c k hd) (uniform : Bool)
    (g : Guard) (f : Ctx → List Put) (hf : ∀ x, ∀ p ∈ f x, p.plain = true) :
    ∃ c', drive false uniform g s (fun s x => (s, .ok (f x))) = .next (goes s c k hd c') ∧
      Did c c' k (given uniform s c k g f) (fun _ => []) ∧ ∀ a n, (goes s c k hd c').read a n = s.read a n := by
  rw [drive_pure h]
  simp only [given_ok]
  obtain ⟨c', h1, h2⟩ := conclude_did h rfl hon (fun l => .ok (given uniform s c k g f l)) (fun _ _ => rfl)
    (fun l _ => given_plain uniform s c k g f hf l) (by intro _ _ _ _ h; cases h)
  exact ⟨c', by rw [h1], h2, goes_read s c k hd c'⟩

/-- The writes of a long-latency instruction: registers and flags alone. -/
def Put.late : Put → Bool
  | .v _ _ => true
  | .s _ _ => true
  | .flags _ => true
  | _ => false

/-- A long-latency instruction leaves its results in flight. -/
theorem drive_late {s : State} {c : Crew} {k : Group} {hd : Dword} (h : Calm s c k) (hon : Onward s c k hd) (uniform : Bool)
    (g : Guard) (n : Nat) (f : Ctx → List Put) (hf : ∀ x, ∀ p ∈ f x, p.late = true) :
    ∃ c', drive false uniform g s (fun s x => (s, .late n (f x))) = .next (goes s c k hd c') ∧
      Did c c' k (fun _ => []) (inFlight n uniform s c k g f) ∧
        ∀ a n, (goes s c k hd c').read a n = s.read a n := by
  have plain : ∀ p : Put, p.late = true → p.plain = true := by intro p hp; cases p <;> simp_all [Put.late, Put.plain]
  have nopred : ∀ x, predPuts (f x) = [] := by
    intro x
    unfold predPuts
    rw [List.filter_eq_nil_iff]
    intro p hp
    have := hf x p hp
    cases p <;> simp_all [Put.late]
  have noearly : ∀ x, (f x).filter (fun p => !p.isLate) = [] := by
    intro x
    rw [List.filter_eq_nil_iff]
    intro p hp
    have := hf x p hp
    cases p <;> simp_all [Put.late, Put.isLate]
  have shape : ∀ l ∈ k.lanes, let o := outAt uniform s c k g (fun x => .late n (f x)) l
      o.advances = true ∧ o.puts = [] ∧ o.flight s.fresh k.hdr = inFlight n uniform s c k g f l ∧
        ∀ m ps, o = .late m ps → ∀ p ∈ ps, p.plain = true := by
    intro l hlm
    have go : ∀ ps, (∀ p ∈ ps, p.late = true) → ps.filter (fun p => !p.isLate) = [] →
        (LaneOut.late n ps).advances = true ∧ (LaneOut.late n ps).puts = [] ∧
        (LaneOut.late n ps).flight s.fresh k.hdr = [pendOf s.fresh n k.hdr ps] ∧
        ∀ m qs, LaneOut.late n ps = .late m qs → ∀ p ∈ qs, p.plain = true :=
      fun ps h1 h2 => ⟨rfl, h2, rfl, by intro m qs h; cases h; exact fun p hp => plain p (h1 p hp)⟩
    unfold outAt inFlight given
    cases hth : c.thread? l with
    | none => exact ⟨rfl, rfl, rfl, by intro _ _ h; cases h⟩
    | some t =>
      cases hg : guardTrue g t with
      | false =>
        cases lead c k g <;> simp only [hg, Bool.false_eq_true, if_false] <;> exact ⟨rfl, rfl, rfl, by intro _ _ h; cases h⟩
      | true =>
        have hmem : l ∈ actives c k g := mem_actives.2 ⟨hlm, t, hth, hg⟩
        cases hld : lead c k g with
        | none =>
          have : actives c k g = [] := List.head?_eq_none_iff.1 hld
          rw [this] at hmem
          cases hmem
        | some l0 =>
          simp only [hg, if_true]
          obtain ⟨-, t0, ht0, -⟩ := mem_actives.1 (List.mem_of_mem_head? hld)
          simp only [ht0]
          by_cases hu : (uniform && l0 != l) = true
          · simp only [hu, if_true, LaneOut.share, nopred]
            exact go [] (by simp) rfl
          · simp only [hu, if_false, Bool.false_eq_true]
            exact go _ (hf _) (noearly _)
  rw [drive_pure h]
  obtain ⟨c', h1, h2⟩ := conclude_did h rfl hon (outAt uniform s c k g fun x => .late n (f x)) (fun l hlm => (shape l hlm).1)
    (fun l hlm => by rw [(shape l hlm).2.1]; simp) (fun l hlm m ps => (shape l hlm).2.2.2 m ps)
  exact ⟨c', by rw [h1], did_congr h2 (fun l hlm => (shape l hlm).2.1) fun l hlm => (shape l hlm).2.2.1, goes_read s c k hd c'⟩

end Sys2Proof.Machine
end

