-- ==== Sys2Proof/Laws/Integer.lean ====
section
/-! SUPPORT. The integer operations of the machine are those of the statements' vocabulary: values, clamps, results (R94, R95, R120). -/

namespace Sys2Proof.Machine

open Sys2Proof.Claim

theorem ofNat_wrapNat (n : Nat) (v : Int) : BitVec.ofNat n (wrapNat v n) = BitVec.ofInt n v := by
  apply BitVec.eq_of_toNat_eq
  simp only [BitVec.toNat_ofNat, BitVec.toNat_ofInt, wrapNat]
  apply Nat.mod_eq_of_lt
  have h : (0 : Int) < (2 ^ n : Nat) := by exact_mod_cast Nat.two_pow_pos n
  have h1 := Int.emod_lt_of_pos v h
  have h2 := Int.emod_nonneg v (Int.ne_of_gt h)
  omega

theorem putN_wrapNat (d : Reg) (w64 : Bool) (v : Int) : Reg.putN d w64 (wrapNat v (bitsOf w64)) = result d w64 v := by
  unfold Reg.putN result bitsOf
  cases w64
  · simp only [Bool.false_eq_true, if_false, ofNat_wrapNat]
  · simp only [if_true, ofNat_wrapNat]

theorem putN_ofNat (d : Reg) (w64 : Bool) (n : Nat) : Reg.putN d w64 n = result d w64 (n : Int) := by
  unfold Reg.putN result
  cases w64 <;> simp only [Bool.false_eq_true, if_false, if_true] <;> rfl

/-- The destination of an integer operation (R94, R120). -/
theorem putInt_result (d : Reg) (w64 sgn sat : Bool) (v : Int) :
    putInt d w64 sgn sat v = result d w64 (clamp w64 sgn sat v) := by
  unfold putInt narrow clamp
  cases sat
  · simp only [Bool.false_eq_true, if_false, Bool.not_false, if_true]
    exact putN_wrapNat d w64 v
  · simp only [if_true, Bool.not_true, Bool.false_eq_true, if_false]
    unfold satNat
    rw [putN_wrapNat]
    cases w64 <;> cases sgn <;> rfl

theorem toInt_bitVec (sgn : Bool) {n : Nat} (hn : 0 < n) (w : BitVec n) :
    toInt sgn n w.toNat = if sgn then w.toInt else (w.toNat : Int) := by
  unfold toInt bit
  cases sgn
  · rfl
  · simp only [Bool.true_and, if_true, BitVec.toInt]
    obtain ⟨m, rfl⟩ : ∃ m, n = m + 1 := ⟨n - 1, by omega⟩
    have h := w.isLt
    simp only [Nat.add_sub_cancel, beq_iff_eq]
    have hp : 0 < 2 ^ m := Nat.two_pow_pos m
    have h2 : 2 ^ (m + 1) = 2 * 2 ^ m := by rw [Nat.pow_succ, Nat.mul_comm]
    have h3 : w.toNat / 2 ^ m < 2 := by rw [Nat.div_lt_iff_lt_mul hp]; omega
    have h5 : 1 ≤ w.toNat / 2 ^ m ↔ 2 ^ m ≤ w.toNat := by rw [Nat.le_div_iff_mul_le hp, Nat.one_mul]
    have key : w.toNat / 2 ^ m % 2 = 1 ↔ ¬ 2 * w.toNat < 2 ^ (m + 1) := by
      generalize w.toNat / 2 ^ m = q at h3 h5 ⊢
      rw [h2]
      have h6 : q % 2 = 1 ↔ 1 ≤ q := by omega
      rw [h6, h5]
      omega
    by_cases hc : 2 * w.toNat < 2 ^ (m + 1)
    · rw [if_pos hc, if_neg (fun h4 => key.1 h4 hc)]
    · rw [if_neg hc, if_pos (key.2 hc)]
      push_cast
      rfl

/-- A source as an integer (R120). -/
theorem int_value (x : Ctx) (w64 sgn : Bool) (a : Src) : x.int w64 sgn a = value x w64 sgn a := by
  unfold Ctx.int Ctx.nat bitsOf value
  cases w64
  · simp only [Bool.false_eq_true, if_false]
    rw [toInt_bitVec sgn (by decide)]
    cases sgn <;> rfl
  · simp only [if_true]
    rw [toInt_bitVec sgn (by decide)]
    cases sgn <;> rfl

theorem nat_value (x : Ctx) (w64 : Bool) (a : Src) : (x.nat w64 a : Int) = value x w64 false a := by
  unfold Ctx.nat value
  cases w64 <;> rfl

theorem nat_lt (x : Ctx) (w64 : Bool) (a : Src) : x.nat w64 a < 2 ^ bitsOf w64 := by
  unfold Ctx.nat bitsOf
  cases w64
  · exact (x.w32 a).isLt
  · exact (x.w64 a).isLt

theorem binInt_two (op : Int → Int → Int) (f : IBin) : binInt op f.d f.a f.b f.w64 f.sgn f.sat = two op f := by
  funext x
  unfold binInt two
  rw [putInt_result, int_value, int_value]

theorem binInt_compact (op : Int → Int → Int) (f : CInt) :
    binInt op (.v f.d) (compactSrc f.d) (compactSrc f.a) f.w64 false false = twoCompact op f := by
  funext x
  unfold binInt twoCompact compactSrc
  rw [putInt_result, int_value, int_value]
  rfl

theorem predOf_pred (t : Thread) (p : BitVec 3) : predOf t p = pred t p := by
  unfold predOf pred
  rw [Bool.beq_eq_decide_eq]

/-! ## Writes that the group's registers take (Put.plain) -/

theorem put_plain (d : Reg) (i : Nat) (w : Word) : (Reg.put d i w).plain = true ∧ (Reg.put d i w).late = true := by
  cases d <;> exact ⟨rfl, rfl⟩

theorem putsFrom_plain (d : Reg) (i : Nat) (ws : List Word) : ∀ p ∈ putsFrom d i ws, p.plain = true ∧ p.late = true := by
  induction ws generalizing i with
  | nil => intro p hp; cases hp
  | cons w t ih =>
    intro p hp
    rcases List.mem_cons.1 hp with rfl | h
    · exact put_plain d i w
    · exact ih (i + 1) p h

theorem result_plain (d : Reg) (w64 : Bool) (v : Int) : ∀ p ∈ result d w64 v, p.plain = true ∧ p.late = true := by
  unfold result
  cases w64
  · intro p hp
    rw [if_neg (by decide)] at hp
    rw [List.mem_singleton.1 hp]
    exact put_plain d 0 _
  · exact putsFrom_plain d 0 _

end Sys2Proof.Machine
end

