-- ==== Sys2Proof/Laws/Solo.lean ====
section
/-! SUPPORT. What an instruction does on one guard-true lane: a plain instruction that changes more than registers, and a
commit. -/

namespace Sys2Proof.Claim

open Sys2Proof.Machine

/-- A change that leaves crews, bins and debugger's steps alone leaves the group's calm. -/
theorem Calm.change {s s1 : State} {c : Crew} {k : Group} (h : Calm s c k) (hcur : s1.cur = s.cur) (hcrews : s1.crews = s.crews)
    (hbins : s1.bins = s.bins) (hteams : ∀ t ∈ s1.teams, t.stepping.contains k.cid = false) : Calm s1 c k where
  cur := hcur ▸ h.cur
  crew := by have := h.crew; unfold State.crew? at this ⊢; rw [hcrews]; exact this
  only := hcrews ▸ h.only
  manned := hcrews ▸ h.manned
  lanes := h.lanes
  some_ := h.some_
  live := h.live
  tree := h.tree
  masks := h.masks
  bins := by have := h.bins; unfold State.domain at this ⊢; rw [hbins]; exact this
  steps := hteams

theorem Calm.setTeam {s : State} {c : Crew} {k : Group} (h : Calm s c k) (r : TeamRef) (f : Team → Team)
    (hf : ∀ t, (f t).stepping = t.stepping) : Calm (s.setTeam r f) c k :=
  h.change rfl rfl rfl fun t ht => by
    obtain ⟨y, hy, rfl⟩ := mem_mapIf ht
    split
    · rw [hf]; exact h.steps y hy
    · exact h.steps y hy

theorem Calm.setBed {s : State} {c : Crew} {k : Group} (h : Calm s c k) (b : Nat) (f : Bed → Bed) : Calm (s.setBed b f) c k :=
  h.change rfl rfl rfl h.steps

theorem Calm.write {s : State} {c : Crew} {k : Group} (h : Calm s c k) (a : Loc) (bs : List Byte) : Calm (s.write a bs) c k := by
  cases a with
  | plot t o => exact h.setTeam t _ fun _ => rfl
  | _ => exact h.change rfl rfl rfl h.steps

theorem Calm.hold {s : State} {c : Crew} {k : Group} (h : Calm s c k) (bed va : Nat) (w : Write) (rp : Bool) :
    Calm (s.hold bed va w rp) c k := h.change rfl rfl rfl h.steps

/-- What the order of accesses and the L1s hold has no part in it. -/
theorem Calm.order {s : State} {c : Crew} {k : Group} (h : Calm s c k) (clocks : List (Point × Clock)) (strong : List StrongLoc)
    (heard : List Heard) (l1 : List L1Sector) : Calm { s with clocks := clocks, strong := strong, heard := heard, l1 := l1 } c k :=
  h.change rfl rfl rfl h.steps

theorem Calm.perform {s : State} {c : Crew} {k : Group} (h : Calm s c k) (a : Agent) (l : Loc) (bs : List Byte) :
    Calm (s.perform a l bs) c k := by
  rw [perform_eq]; exact (h.write l bs).order _ _ _ _

theorem Calm.make {s : State} {c : Crew} {k : Group} (h : Calm s c k) (l : Loc) (w : Write) : Calm (s.make l w).1 c k := by
  rw [make_eq]; exact (h.write l _).order _ _ _ _

theorem Calm.writeParts {s : State} {c : Crew} {k : Group} (h : Calm s c k) (a : Agent) (ps : List Part) (bs : List Byte) :
    Calm (s.writeParts a ps bs) c k := by
  induction ps generalizing s bs with
  | nil => exact h
  | cons p t ih =>
    unfold State.writeParts
    apply ih
    unfold State.writePart
    cases p.mig with
    | none => exact h.perform _ _ _
    | some m => exact h.hold _ _ _ _

end Sys2Proof.Claim

namespace Sys2Proof.Machine

open Sys2Proof.Claim

/-- The outcomes of a group with one guard-true lane. -/
theorem solo_outs {s s1 : State} {c : Crew} {k : Group} {g : Guard} {l : Nat} {t : Thread} {o : LaneOut} (uniform : Bool)
    (hs : Solo c k g l t) (F : State → Ctx → State × LaneOut) (hF : F s (view s c k l t) = (s1, o)) :
    (guardTrueOuts uniform c k s F (actives c k g)).1 = s1 ∧
      (guardTrueOuts uniform c k s F (actives c k g)).2 = [(l, o)] := by
  obtain ⟨ha, ht⟩ := hs
  have hr : runLanes c k s.fresh F [l] s = (s1, [(l, o)]) := by
    unfold runLanes
    rw [ht]
    dsimp only
    unfold view at hF
    rw [hF]
    rfl
  rw [ha]
  unfold guardTrueOuts
  cases uniform with
  | false => simp [hr]
  | true => simp [hr]

theorem solo_all {k : Group} {l : Nat} {o : LaneOut} (commit : Bool) (h : commit = true → (match o with
    | .ok _ => true
    | .late _ _ => true
    | .okCommit _ => true
    | .wait _ _ => true
    | _ => false) = true) :
    allOuts k commit [(l, o)] = k.lanes.map fun j => (j, if j = l then (if commit then o.asCommit else o)
      else if commit then .okCommit [] else .ok []) := by
  unfold allOuts
  apply List.map_congr_left
  intro j _
  by_cases hj : l = j
  · subst hj; simp
  · have h1 : (l == j) = false := by simpa using hj
    simp only [List.find?_cons, h1, List.find?_nil, Ne.symm hj, if_false]
    cases commit with
    | false => rfl
    | true =>
      have := h rfl
      cases o <;> simp_all

theorem only_plain {l : Nat} {ps : List Put} (hp : ∀ p ∈ ps, p.plain = true) (j : Nat) : ∀ p ∈ only l ps j, p.plain = true := by
  unfold only
  split
  · exact hp
  · simp

/-- A plain instruction on one guard-true lane, which may have changed its crew, to `c1`. -/
theorem drive_solo {s s1 : State} {c c1 : Crew} {k : Group} {hd : Dword} {uniform : Bool} {g : Guard} {l : Nat} {t : Thread}
    {ps : List Put} (h : Calm s c k) (h1 : Calm s1 c1 k) (hcid : c.cid = c1.cid)
    (hfresh : s1.fresh = s.fresh) (hon : Onward s1 c1 k hd) (hs : Solo c k g l t)
    (F : State → Ctx → State × LaneOut) (hF : F s (view s c k l t) = (s1, .ok ps)) (hp : ∀ p ∈ ps, p.plain = true) :
    ∃ c', drive false uniform g s F = .next (goes s1 c1 k hd c') ∧ Did c1 c' k (only l ps) (fun _ => []) := by
  obtain ⟨e1, e2⟩ := solo_outs uniform hs F hF
  have e : (k.lanes.map fun j => (j, if j = l then LaneOut.ok ps else .ok [])) = k.lanes.map fun j => (j, .ok (only l ps j)) := by
    apply List.map_congr_left
    intro j _
    unfold only
    split <;> rfl
  unfold drive withGroup
  simp only [h.cur, h.crew, Bool.false_and, Bool.false_eq_true, if_false]
  rw [e1, e2, solo_all false (by simp)]
  simp only [Bool.false_eq_true, if_false]
  rw [e]
  obtain ⟨c', k1, k2⟩ := conclude_did h1 hcid hon (fun j => .ok (only l ps j)) (fun _ _ => rfl) (fun j _ => only_plain hp j)
    (by intro _ _ _ _ h; cases h)
  refine ⟨c', by rw [k1], ?_⟩
  rw [hfresh] at k2
  exact k2

/-- A commit on one guard-true lane. -/
theorem drive_commit {s s1 : State} {c : Crew} {k : Group} {hd : Dword} {uniform : Bool} {g : Guard} {l : Nat} {t : Thread}
    {ps : List Put} (h : Calm s c k) (h1 : Calm s1 c k) (hfresh : s1.fresh = s.fresh) (hm : MayCommit s s1 c k t hd)
    (hs : Solo c k g l t) (F : State → Ctx → State × LaneOut) (hF : F s (view s c k l t) = (s1, .ok ps))
    (hp : ∀ p ∈ ps, p.plain = true) :
    ∃ c', drive true uniform g s F = .next (landed s1 c k (blockEnd k.hdr k.hdrW)
        (entered s1.fresh k.lanes (blockEnd k.hdr k.hdrW) hd false c')) ∧ Did c c' k (only l ps) (fun _ => []) := by
  obtain ⟨e1, e2⟩ := solo_outs uniform hs F hF
  obtain ⟨m1, m2⟩ := hm
  have e : (k.lanes.map fun j => (j, if j = l then (LaneOut.ok ps).asCommit else .okCommit [])) =
      k.lanes.map fun j => (j, .okCommit (only l ps j)) := by
    apply List.map_congr_left
    intro j _
    unfold only
    split <;> rfl
  have hne : (actives c k g).isEmpty = false := by rw [hs.1]; rfl
  have hans : ((((actives c k g).head?).bind c.thread?).map (·.answered)).getD [] = t.answered := by rw [hs.1]; simp [hs.2]
  unfold drive withGroup
  simp only [h.cur, h.crew, hne, hans, Bool.not_false, Bool.and_self, if_true, m1]
  rw [e1, e2, solo_all true (by simp)]
  simp only [if_true]
  rw [e]
  have hmap : (k.lanes.map fun j => (j, LaneOut.okCommit (only l ps j))).map (·.1) = k.lanes := by simp [Function.comp_def]
  have hre : retired c k s1.fresh (k.lanes.map fun j => (j, LaneOut.okCommit (only l ps j))) =
      retired c k s1.fresh (k.lanes.map fun j => (j, LaneOut.ok (only l ps j))) := by
    unfold retired
    rw [List.foldl_map, List.foldl_map]
    rfl
  refine ⟨retired c k s1.fresh (k.lanes.map fun j => (j, LaneOut.ok (only l ps j))), ?_, ?_⟩
  · rw [conclude_onward h1 rfl hmap (hd := hd) ?_ ?_ (.inl ?_) m2, hre]
    · intro x hx; obtain ⟨j, _, rfl⟩ := List.mem_map.1 hx; rfl
    · intro x hx
      obtain ⟨j, _, rfl⟩ := List.mem_map.1 hx
      exact plain_noTree (o := .ok (only l ps j)) rfl (only_plain hp j) (by intro _ _ h; cases h)
    · intro x hx; obtain ⟨j, _, rfl⟩ := List.mem_map.1 hx; rfl
  · have := retired_did h1 (fun j => .ok (only l ps j)) (fun _ _ => rfl) (fun j _ => only_plain hp j) (by intro _ _ _ _ h; cases h)
    rw [hfresh] at this ⊢
    exact this

end Sys2Proof.Machine
end

