-- ==== Sys2Proof/Laws/Jump.lean ====
section
/-! SUPPORT. What a group does whose lanes jump to one target, trap, or return from a trap. -/

namespace Sys2Proof.Machine

open Sys2Proof.Claim

/-! ## The state of a group whose crew has changed -/

/-- The state with crew d in the place of the crew of k. -/
def State.with_ (s : State) (k : Group) (d : Crew) : State :=
  { s with crews := mapIf (fun x => x.cid == k.cid) (fun _ => d) s.crews }

theorem with_crew? {s : State} {c d : Crew} {k : Group} (h : Calm s c k) (hd : d.cid = k.cid) :
    (s.with_ k d).crew? k.cid = some d := by
  have hc := h.crew
  unfold State.crew? at hc ⊢
  show (mapIf (fun x => x.cid == k.cid) (fun _ => d) s.crews).find? _ = _
  rw [find_mapIf _ _ _ (by intro x _; simpa using hd), hc]
  rfl

theorem with_only {s : State} {d : Crew} {k : Group} : ∀ x ∈ (s.with_ k d).crews, x.cid = k.cid → x = d := by
  intro x hx hxc
  obtain ⟨y, hy, rfl⟩ := mem_mapIf hx
  by_cases hyc : y.cid == k.cid
  · simp [hyc]
  · rw [if_neg hyc] at hxc
    exact absurd (by simpa using hxc) hyc

theorem with_near (s : State) (k : Group) (d : Crew) : s.near (s.with_ k d) := ⟨_, _, _, _, rfl⟩

/-- A change of the group's crew. -/
theorem setCrew_with {s : State} {c : Crew} {k : Group} (h : Calm s c k) (f : Crew → Crew) :
    s.setCrew k.cid f = s.with_ k (f c) := by
  unfold State.setCrew State.with_
  congr 1
  apply mapIf_congr
  intro x hx hxc
  rw [h.only x hx (by simpa using hxc)]

theorem with_setCrew {s : State} {d : Crew} {k : Group} (hd : d.cid = k.cid) (f : Crew → Crew) :
    (s.with_ k d).setCrew k.cid f = s.with_ k (f d) := by
  unfold State.setCrew State.with_
  congr 1
  rw [mapIf_mapIf _ _ _ _ (by intro x _; simpa using hd)]
  rfl

theorem with_with {s : State} {d e : Crew} {k : Group} (hd : d.cid = k.cid) : (s.with_ k d).with_ k e = s.with_ k e := by
  unfold State.with_
  congr 1
  exact mapIf_mapIf _ _ _ _ (by intro x _; simpa using hd)

/-- The lanes of a group enter a block that every check lets them enter. -/
theorem commitEntry_with {s : State} {c d : Crew} {k : Group} (h : Calm s c k) (hs : d.same c) (ls : List Nat)
    (addr hw : Dword) (region : Bool) :
    (s.with_ k d).commitEntry k.cid ls addr hw region =
      { s.with_ k (entered s.fresh ls addr hw region d) with code := (s.keepWords c 2 addr).code } := by
  have hdcid : d.cid = k.cid := (congrArg Prod.fst hs.name).trans (crew?_cid h.crew)
  have hen := entered_same s.fresh ls addr hw region d
  rw [commitEntry_eq (with_near s k d) (near_of_same hs) (with_crew? h hdcid) with_only ls addr hw region
    ((congrArg Prod.fst hen.name).trans hdcid) (near_of_same hen)]
  exact congrArg (fun u : State => { u with code := (s.keepWords c 2 addr).code })
    (with_with (s := s) (e := entered s.fresh ls addr hw region d) hdcid)

/-- The issue of a group ends with its lanes at the header of a block. -/
theorem end_landed {s : State} {c d : Crew} {k : Group} (h : Calm s c k) (hname : d.name = c.name) (addr : Dword)
    (hman : d.lanes.any (·.isSome) = true) (hq : d.quiet) :
    (State.dropEmpty { s.with_ k d with code := (s.keepWords c 2 addr).code }).endGroup c = landed s c k addr d :=
  dropEmpty_endGroup h rfl rfl rfl rfl hname hman hq

theorem stepDone_calm {s : State} {c : Crew} {k : Group} (h : Calm s c k) (d : Crew) (code : List CodeCopy) (b : Bool) :
    ({ s.with_ k d with code := code } : State).stepDone c k b = { s.with_ k d with code := code } :=
  stepDone_none b fun t ht => by rw [crew?_cid h.crew]; exact h.steps t ht

/-- Lanes that enter and lanes that wait for nothing leave the crew quiet. -/
theorem entered_quiet {d : Crew} {ls : List Nat} (hn : ls.Nodup) (st : Nat) (addr h : Dword) (region : Bool)
    (hr : ∀ l x, d.waits l = some x → x.1 = none) (hw : ∀ l x, l ∉ ls → d.waits l = some x → ∀ m n, x.2 ≠ .waitm m n) :
    (entered st ls addr h region d).quiet := by
  intro l x hx
  rw [entered_waits _ _ hn] at hx
  by_cases hlm : l ∈ ls
  · simp only [hlm, if_true] at hx
    obtain ⟨y, hy, rfl⟩ := Option.map_eq_some_iff.1 hx
    exact ⟨hr l y hy, fun m n hc => by cases hc⟩
  · simp only [hlm, if_false] at hx
    exact ⟨hr l x hx, hw l x hlm hx⟩

/-! ## Jumps (R58, R121) -/

theorem byTarget_one (outs : List (Nat × LaneOut)) (f : LaneOut → Option Dword) (a : Dword)
    (h : ∀ x ∈ outs, f x.2 = none ∨ f x.2 = some a) :
    byTarget outs f = if lanesWhere outs (fun o => (f o).isSome) = [] then [] else [(a, lanesWhere outs fun o => (f o).isSome)] := by
  have key : ∀ (outs : List (Nat × LaneOut)), (∀ x ∈ outs, f x.2 = none ∨ f x.2 = some a) →
      (∀ ls, outs.foldl (fun acc x => match f x.2 with
        | none => acc
        | some a => if acc.any (·.1 == a) then mapIf (·.1 == a) (fun y => (y.1, y.2 ++ [x.1])) acc else acc ++ [(a, [x.1])])
        [(a, ls)] = [(a, ls ++ lanesWhere outs fun o => (f o).isSome)]) ∧
      outs.foldl (fun acc x => match f x.2 with
        | none => acc
        | some a => if acc.any (·.1 == a) then mapIf (·.1 == a) (fun y => (y.1, y.2 ++ [x.1])) acc else acc ++ [(a, [x.1])])
        [] = if lanesWhere outs (fun o => (f o).isSome) = [] then [] else [(a, lanesWhere outs fun o => (f o).isSome)] := by
    intro outs
    induction outs with
    | nil => exact fun _ => ⟨fun ls => by simp [lanesWhere], rfl⟩
    | cons x t ih =>
      intro h
      obtain ⟨i1, i2⟩ := ih fun y hy => h y (by simp [hy])
      rcases h x (by simp) with hx | hx
      · have e : lanesWhere (x :: t) (fun o => (f o).isSome) = lanesWhere t fun o => (f o).isSome := by simp [lanesWhere, hx]
        simp only [List.foldl_cons, hx, e]
        exact ⟨i1, i2⟩
      · have e : lanesWhere (x :: t) (fun o => (f o).isSome) = x.1 :: lanesWhere t fun o => (f o).isSome := by
          simp [lanesWhere, hx]
        simp only [List.foldl_cons, hx, e]
        refine ⟨fun ls => ?_, ?_⟩
        · have : ([(a, ls)] : List (Dword × List Nat)).any (·.1 == a) = true := by simp
          simp only [this, if_true]
          have e2 : mapIf (fun y : Dword × List Nat => y.1 == a) (fun y => (y.1, y.2 ++ [x.1])) [(a, ls)] = [(a, ls ++ [x.1])] := by
            simp [mapIf]
          rw [e2, i1]
          simp
        · simp only [List.any_nil, Bool.false_eq_true, if_false, List.nil_append]
          rw [i1]
          simp
  exact (key outs h).2

/-- What a lane that may jump does. -/
def jumpOut (J : Nat → Bool) (ps : Nat → List Put) (a : Dword) (l : Nat) : LaneOut := if J l then .jump (ps l) a else .ok []

theorem retired_jump (c : Crew) (k : Group) (st : Nat) (J : Nat → Bool) (ps : Nat → List Put) (a : Dword) (ls : List Nat) :
    retired c k st (ls.map fun l => (l, jumpOut J ps a l)) =
      retired c k st (ls.map fun l => (l, .ok (if J l then ps l else []))) := by
  unfold retired
  induction ls generalizing c with
  | nil => rfl
  | cons l t ih =>
    simp only [List.map_cons, List.foldl_cons]
    rw [ih]
    congr 1
    unfold jumpOut
    cases J l <;> rfl

theorem ok_waits {s : State} {c : Crew} {k : Group} (h : Calm s c k) (f : Nat → List Put)
    (hp : ∀ l, ∀ p ∈ f l, p.plain = true) :
    (∀ l x, (retired c k s.fresh (k.lanes.map fun l => (l, .ok (f l)))).waits l = some x → x.1 = none ∧
      (l ∉ k.lanes → ∀ m n, x.2 ≠ .waitm m n)) ∧
      (retired c k s.fresh (k.lanes.map fun l => (l, .ok (f l)))).lanes.any (·.isSome) = true := by
  have := retired_quiet h (outs := k.lanes.map fun l => (l, LaneOut.ok (f l)))
    (by intro x hx; obtain ⟨j, _, rfl⟩ := List.mem_map.1 hx; rfl) (by simp [Function.comp_def])
    (by
      intro x hx
      obtain ⟨j, _, rfl⟩ := List.mem_map.1 hx
      exact plain_noTree (o := .ok (f j)) rfl (hp j) (by intro _ _ h; cases h)) s.fresh
  refine ⟨?_, this.2⟩
  intro l x hx
  unfold Crew.waits at hx
  obtain ⟨t, ht, rfl⟩ := Option.map_eq_some_iff.1 hx
  exact this.1 l t ht

/-- A group some of whose lanes jump to one block while the others go on inside theirs. -/
theorem conclude_jumps {s : State} {c : Crew} {k : Group} (h : Calm s c k) (J : Nat → Bool) (ps : Nat → List Put) (a hd : Dword)
    (hJ : k.lanes.filter J ≠ []) (hp : ∀ l, ∀ p ∈ ps l, p.plain = true)
    (hin : after k ≠ blockEnd k.hdr k.hdrW ∨ k.lanes.filter (fun l => !J l) = [])
    (hok : s.enterCheck c (vregs s c) [] a (.branch k.pc) = .ok hd) :
    s.conclude c k (k.lanes.map fun l => (l, jumpOut J ps a l)) = landed s c k a
      (entered s.fresh (k.lanes.filter J) a hd false (stood (k.lanes.filter fun l => !J l) (after k)
        (retired c k s.fresh (k.lanes.map fun l => (l, .ok (if J l then ps l else [])))))) := by
  have hcid : c.cid = k.cid := crew?_cid h.crew
  generalize houts : (k.lanes.map fun l => (l, jumpOut J ps a l)) = outs
  have hmem : ∀ x ∈ outs, x.1 ∈ k.lanes ∧ x.2 = jumpOut J ps a x.1 := by
    rw [← houts]; intro x hx; obtain ⟨j, hj, rfl⟩ := List.mem_map.1 hx; exact ⟨hj, rfl⟩
  have e1 : outs.map (fun x => (x.1, s.jumpCheck c k (((s.kernel? c.bed c.launch).map (·.vregs)).getD 512) x.2)) = outs := by
    conv => rhs; rw [← List.map_id outs]
    apply List.map_congr_left
    intro x hx
    obtain ⟨h1, h2⟩ := hmem x hx
    obtain ⟨l, o⟩ := x
    simp only at h1 h2
    subst h2
    simp only [id_eq, Prod.mk.injEq, true_and]
    unfold jumpOut
    cases hj : J l with
    | false => rfl
    | true =>
      simp only [if_true, State.jumpCheck]
      have : s.enterCheck c (((s.kernel? c.bed c.launch).map (·.vregs)).getD 512) [] a (.branch k.pc) = .ok hd := hok
      rw [this]
  have cases_ : ∀ l, jumpOut J ps a l = .jump (ps l) a ∧ J l = true ∨ jumpOut J ps a l = .ok [] ∧ J l = false := by
    intro l; unfold jumpOut; cases hj : J l <;> simp
  have e2 : ∀ s' : State, outs.foldl (fun s x => s.departLane k.cid x.1 x.2) s' = s' :=
    foldl_id outs _ fun x hx s' => by
      rw [(hmem x hx).2]
      rcases cases_ x.1 with ⟨h1, -⟩ | ⟨h1, -⟩ <;> rw [h1] <;> simp [State.departLane]
  have e3 : groupTrap outs = none := groupTrap_none outs fun x hx => by
    rw [(hmem x hx).2]
    rcases cases_ x.1 with ⟨h1, -⟩ | ⟨h1, -⟩ <;> rw [h1] <;> rfl
  have lw : ∀ p : LaneOut → Bool, lanesWhere outs p = k.lanes.filter fun l => p (jumpOut J ps a l) := by
    intro p
    rw [← houts]
    unfold lanesWhere
    rw [List.filter_map, List.map_map]
    simp [Function.comp_def]
  have e4 : lanesWhere outs (·.advances) = k.lanes.filter fun l => !J l := by
    rw [lw]
    congr 1
    funext l
    rcases cases_ l with ⟨h1, h2⟩ | ⟨h1, h2⟩ <;> rw [h1, h2] <;> rfl
  have e5 : lanesWhere outs (·.commits) = [] := lanesWhere_none outs _ fun x hx => by
    rw [(hmem x hx).2]
    rcases cases_ x.1 with ⟨h1, -⟩ | ⟨h1, -⟩ <;> rw [h1] <;> rfl
  have e6 : byTarget outs (·.target?) = [(a, k.lanes.filter J)] := by
    rw [byTarget_one outs _ a]
    · have : lanesWhere outs (fun o => o.target?.isSome) = k.lanes.filter J := by
        rw [lw]
        congr 1
        funext l
        rcases cases_ l with ⟨h1, h2⟩ | ⟨h1, h2⟩ <;> rw [h1, h2] <;> rfl
      rw [this, if_neg hJ]
    · intro x hx
      rw [(hmem x hx).2]
      rcases cases_ x.1 with ⟨h1, -⟩ | ⟨h1, -⟩ <;> rw [h1]
      · exact .inr rfl
      · exact .inl rfl
  have e7 : byTarget outs (·.rett?) = [] := byTarget_nil outs _ fun x hx => by
    rw [(hmem x hx).2]
    rcases cases_ x.1 with ⟨h1, -⟩ | ⟨h1, -⟩ <;> rw [h1] <;> rfl
  have e8 : ∀ s' : State, s'.beginWaits k.cid outs = s' := by
    intro s'
    unfold State.beginWaits
    refine foldl_id outs _ (fun x hx s' => ?_) s'
    rw [(hmem x hx).2]
    rcases cases_ x.1 with ⟨h1, -⟩ | ⟨h1, -⟩ <;> rw [h1] <;> rfl
  have e10 : ∀ (s' : State) (vr : Nat), s'.makeReturns c k vr outs = s' := by intro s' vr; simp [State.makeReturns, e7]
  have e11 : ∀ s' : State, s'.groupTraps k.cid outs = s' := by intro s'; simp [State.groupTraps, e3]
  -- the crew after its writes
  have hret : outs.foldl (fun c x => c.retireLane k s.fresh x.1 x.2) c =
      retired c k s.fresh (k.lanes.map fun l => (l, .ok (if J l then ps l else []))) := by
    rw [← retired_jump, houts]; rfl
  have hpl : ∀ l, ∀ p ∈ (if J l then ps l else []), p.plain = true := by
    intro l; split
    · exact hp l
    · simp
  obtain ⟨hq, hman⟩ := ok_waits h (fun l => if J l then ps l else []) hpl
  have hdsame := retired_same c k s.fresh (k.lanes.map fun l => (l, LaneOut.ok (if J l then ps l else [])))
  have hthr := retired_thread? (outs := k.lanes.map fun l => (l, LaneOut.ok (if J l then ps l else [])))
    (by intro x hx; obtain ⟨j, _, rfl⟩ := List.mem_map.1 hx; rfl) c k (by simp [Function.comp_def]) h.lanes s.fresh
  generalize retired c k s.fresh (k.lanes.map fun l => (l, LaneOut.ok (if J l then ps l else []))) = d at hret hq hman hdsame hthr ⊢
  have hdcid : d.cid = k.cid := (congrArg Prod.fst hdsame.name).trans hcid
  generalize hrest : k.lanes.filter (fun l => !J l) = rest at e4 hin ⊢
  have hrn : rest.Nodup := hrest ▸ h.lanes.filter _
  have hjn : (k.lanes.filter J).Nodup := h.lanes.filter _
  -- those that go on
  have hstood : (stood rest (after k) d).same c := by
    refine Crew.same.trans ?_ hdsame
    unfold stood
    exact setThreads_same _ _ _ fun _ => ⟨rfl, rfl⟩
  have hcont : (s.with_ k d).continueAt k.cid rest k.hdr k.hdrW (k.pc + BitVec.ofNat 64 (4 * k.len)) =
      s.with_ k (stood rest (after k) d) := by
    unfold State.continueAt
    by_cases hr : rest = []
    · subst hr; rfl
    · have h1 : rest.isEmpty = false := by simpa using hr
      have h2 : (k.pc + BitVec.ofNat 64 (4 * k.len) == blockEnd k.hdr k.hdrW) = false := by
        rcases hin with h | h
        · simpa [after] using h
        · exact absurd h hr
      rw [h1, h2]
      exact with_setCrew hdcid _
  have hnil : ∀ (s' : State) next, s'.continueAt k.cid [] k.hdr k.hdrW next = s' := fun _ _ => rfl
  have hst? : ∀ j, (stood rest (after k) d).thread? j =
      if j ∈ rest then (d.thread? j).map fun t => { t with pc := after k, wait := .none, answered := [], ret := none } else d.thread? j :=
    stood_thread? d rest (after k) hrn
  have hhead : (((k.lanes.filter J).head?.bind (stood rest (after k) d).thread?).map (·.answered)).getD [] = [] := by
    cases hh : (k.lanes.filter J).head? with
    | none => rfl
    | some l =>
      have hlm := List.mem_of_mem_head? hh
      obtain ⟨hl1, hl2⟩ := List.mem_filter.1 hlm
      have hnr : l ∉ rest := by
        rw [← hrest]
        intro hc
        have := (List.mem_filter.1 hc).2
        simp [hl2] at this
      simp only [Option.bind_some]
      rw [hst?, if_neg hnr, hthr l, if_pos hl1]
      cases c.thread? l with
      | none => rfl
      | some t =>
        simp only [Option.map_some, Option.getD_some]
        rw [outOf_map k.lanes (fun l => LaneOut.ok (if J l then ps l else [])) hl1]
        show (putsThread s.fresh _ (t.retire k.pc)).answered = []
        have : ∀ (ps : List Put) (t : Thread), (putsThread s.fresh ps t).answered = t.answered := by
          intro ps
          unfold putsThread
          induction ps with
          | nil => exact fun _ => rfl
          | cons p ps ih =>
            intro t
            simp only [List.foldl_cons]
            rw [ih]
            cases p <;> rfl
        rw [this]; rfl
  have hjump : (s.with_ k (stood rest (after k) d)).makeJumps k outs =
      { s.with_ k (entered s.fresh (k.lanes.filter J) a hd false (stood rest (after k) d)) with code := (s.keepWords c 2 a).code } := by
    unfold State.makeJumps
    rw [e6]
    simp only [List.foldl_cons, List.foldl_nil]
    rw [enterBlock_ok (with_near s k _) (near_of_same hstood) (with_crew? h ((congrArg Prod.fst hstood.name).trans hcid)) _ a hd _ false
      hhead hok]
    exact commitEntry_with h hstood _ a hd false
  unfold State.conclude
  dsimp only
  rw [e1]
  rw [setCrew_with h, hret, e2, e11, e4, hcont, e5, hnil, e8, hjump, e10, stepDone_calm h]
  apply end_landed h
  · exact (entered_same _ _ _ _ _ _).name.trans hstood.name
  · apply manned_of_waits hman
    intro j
    rw [entered_waits _ _ hjn]
    have : ((stood rest (after k) d).waits j).isSome = (d.waits j).isSome := by
      unfold Crew.waits; rw [hst?]; split <;> simp
    split
    · simpa using this
    · exact this
  · apply entered_quiet hjn
    · intro l x hx
      unfold Crew.waits at hx
      rw [hst?] at hx
      obtain ⟨t, ht, rfl⟩ := Option.map_eq_some_iff.1 hx
      split at ht
      · obtain ⟨t0, ht0, rfl⟩ := Option.map_eq_some_iff.1 ht
        exact (hq l (t0.redl, t0.wait) (by unfold Crew.waits; rw [ht0]; rfl)).1
      · exact (hq l (t.redl, t.wait) (by unfold Crew.waits; rw [ht]; rfl)).1
    · intro l x hl hx
      unfold Crew.waits at hx
      rw [hst?] at hx
      obtain ⟨t, ht, rfl⟩ := Option.map_eq_some_iff.1 hx
      split at ht
      · obtain ⟨t0, ht0, rfl⟩ := Option.map_eq_some_iff.1 ht
        intro m n hc
        cases hc
      · rename_i hlr
        have hnl : l ∉ k.lanes := by
          intro hc
          cases hjl : J l with
          | true => exact hl (List.mem_filter.2 ⟨hc, hjl⟩)
          | false => exact hlr (hrest ▸ List.mem_filter.2 ⟨hc, by simp [hjl]⟩)
        exact (hq l (t.redl, t.wait) (by unfold Crew.waits; rw [ht]; rfl)).2 hnl

/-! ## Traps (R369 to R371) -/

/-- Each of distinct lanes is changed by both. -/
theorem setThreads_setThreads (c : Crew) (ls : List Nat) (hn : ls.Nodup) (f g : Thread → Thread) :
    (c.setThreads ls f).setThreads ls g = c.setThreads ls (g ∘ f) := by
  have key : ∀ (ls : List Nat), ls.Nodup → ∀ (c : Crew) (f : Thread → Thread) (j : Nat),
      (c.setThreads ls f).lanes[j]? = if j ∈ ls then (c.lanes[j]?).map (·.map f) else c.lanes[j]? := by
    intro ls
    induction ls with
    | nil => intro _ c f j; simp [Crew.setThreads]
    | cons l t ih =>
      intro hn c f j
      obtain ⟨hl, ht⟩ := List.nodup_cons.1 hn
      have := ih ht (c.setThread l f) f j
      unfold Crew.setThreads at this ⊢
      simp only [List.foldl_cons]
      rw [this]
      simp only [Crew.setThread, modifyAt_get]
      by_cases hj : j = l
      · subst hj; simp [hl]
      · simp [hj]
  rw [Crew.setThreads_eq (c.setThreads ls f), Crew.setThreads_eq c ls f, Crew.setThreads_eq c ls (g ∘ f)]
  congr 1
  apply List.ext_getElem?
  intro j
  have e : ({ c with lanes := (c.setThreads ls f).lanes } : Crew) = c.setThreads ls f := (Crew.setThreads_eq c ls f).symm
  rw [e, key ls hn, key ls hn, key ls hn]
  by_cases hj : j ∈ ls
  · simp only [hj, if_true, Option.map_map]
    congr 1
    funext x
    cases x <;> rfl
  · simp [hj]

theorem retire_trap (c : Crew) (k : Group) (st : Nat) (tr : Nat → Trap) (ls : List Nat) :
    (ls.map fun l => (l, LaneOut.trap (tr l))).foldl (fun c x => c.retireLane k st x.1 x.2) c =
      c.setThreads ls fun t => { t with wait := .none } := by
  unfold Crew.setThreads
  induction ls generalizing c with
  | nil => rfl
  | cons l t ih => simp only [List.map_cons, List.foldl_cons]; rw [ih]; rfl

/-- The lanes of a group take a trap they share. -/
theorem conclude_traps {s : State} {c : Crew} {k : Group} {kn : Kernel} {hd : Dword} {tr : Nat → Trap} {l0 : Nat} (h : Calm s c k)
    (hl0 : k.lanes.head? = some l0) (hcause : ∀ l ∈ k.lanes, (tr l).cause = (tr l0).cause) (hclear : (tr l0).clearErr = none)
    (hd_ : Deliverable s c k (tr l0).cause kn hd) :
    s.conclude c k (k.lanes.map fun l => (l, .trap (tr l))) = landed s c k kn.handler
      (entered s.fresh k.lanes kn.handler hd true (trapped (tr l0) k.lanes c)) := by
  have hcid : c.cid = k.cid := crew?_cid h.crew
  have hlne : k.lanes.isEmpty = false := by simpa using h.some_
  generalize houts : (k.lanes.map fun l => (l, LaneOut.trap (tr l))) = outs
  have hmem : ∀ x ∈ outs, x.2 = .trap (tr x.1) ∧ x.1 ∈ k.lanes := by
    rw [← houts]; intro x hx; obtain ⟨j, hj, rfl⟩ := List.mem_map.1 hx; exact ⟨rfl, hj⟩
  have e1 : outs.map (fun x => (x.1, s.jumpCheck c k (((s.kernel? c.bed c.launch).map (·.vregs)).getD 512) x.2)) = outs := by
    conv => rhs; rw [← List.map_id outs]
    apply List.map_congr_left
    intro x hx
    obtain ⟨l, o⟩ := x
    have := (hmem _ hx).1
    simp only at this
    subst this
    rfl
  have e2 : ∀ s' : State, outs.foldl (fun s x => s.departLane k.cid x.1 x.2) s' = s' :=
    foldl_id outs _ fun x hx s' => by rw [(hmem x hx).1]; simp [State.departLane]
  have none_ : ∀ p : LaneOut → Bool, (∀ t, p (.trap t) = false) → lanesWhere outs p = [] := fun p hp =>
    lanesWhere_none outs _ fun x hx => by rw [(hmem x hx).1]; exact hp _
  have e3 : groupTrap outs = some (k.lanes, tr l0) := by
    have hfirst : outs.findSome? (fun x => x.2.trap?) = some (tr l0) := by
      rw [← houts]
      cases hk : k.lanes with
      | nil => rw [hk] at hl0; cases hl0
      | cons l t =>
        rw [hk] at hl0
        simp only [List.head?_cons, Option.some.injEq] at hl0
        subst hl0
        rfl
    unfold groupTrap
    rw [hfirst]
    simp only [Option.some.injEq, Prod.mk.injEq, and_true]
    rw [lanesWhere_all]
    · rw [← houts]; simp [Function.comp_def]
    · intro x hx
      obtain ⟨h1, h2⟩ := hmem x hx
      rw [h1]
      simp [LaneOut.trap?, hcause _ h2]
  have e6 : byTarget outs (·.target?) = [] := byTarget_nil outs _ fun x hx => by rw [(hmem x hx).1]; rfl
  have e7 : byTarget outs (·.rett?) = [] := byTarget_nil outs _ fun x hx => by rw [(hmem x hx).1]; rfl
  have e8 : ∀ s' : State, s'.beginWaits k.cid outs = s' := by
    intro s'
    unfold State.beginWaits
    exact foldl_id outs _ (fun x hx s' => by rw [(hmem x hx).1]; rfl) s'
  have e9 : ∀ s' : State, s'.makeJumps k outs = s' := by intro s'; simp [State.makeJumps, e6]
  have e10 : ∀ (s' : State) (vr : Nat), s'.makeReturns c k vr outs = s' := by intro s' vr; simp [State.makeReturns, e7]
  have hnil : ∀ (s' : State) a b next, s'.continueAt k.cid [] a b next = s' := fun _ _ _ _ => rfl
  have hret : outs.foldl (fun c x => c.retireLane k s.fresh x.1 x.2) c = c.setThreads k.lanes fun t => { t with wait := .none } := by
    rw [← houts]; exact retire_trap c k s.fresh tr k.lanes
  generalize hdd : c.setThreads k.lanes (fun t => { t with wait := .none }) = d at hret
  have hdname : d.name = c.name := by rw [← hdd, setThreads_name]
  have hdcid : d.cid = k.cid := (congrArg Prod.fst hdname).trans hcid
  have hthr : ∀ j, d.thread? j = if j ∈ k.lanes then (c.thread? j).map (fun t => { t with wait := .none }) else c.thread? j := by
    intro j; rw [← hdd]; exact Crew.thread?_setThreads _ _ _ h.lanes j
  have hsame : ∀ {α : Type} (f : Thread → α) (j : Nat), (∀ t, f { t with wait := .none } = f t) →
      (d.thread? j).map f = (c.thread? j).map f := by
    intro α f j hf
    rw [hthr]
    split
    · rw [Option.map_map]
      congr 1
      funext t
      exact hf t
    · rfl
  -- no lane is in handler mode or meets a debugger
  have hinh : d.inHandler = false := by
    have hq := hd_.quiet
    unfold Crew.inHandler at hq ⊢
    rw [List.any_eq_false] at hq ⊢
    intro x hx
    obtain ⟨j, hj⟩ := List.mem_iff_getElem?.1 hx
    cases x with
    | none => simp
    | some t =>
      have ht : d.thread? j = some t := by unfold Crew.thread?; rw [hj]; rfl
      have hm := hsame (·.handler) j fun _ => rfl
      rw [ht] at hm
      obtain ⟨t', ht', he⟩ := Option.map_eq_some_iff.1 hm.symm
      have : (some t') ∈ c.lanes := by
        unfold Crew.thread? at ht'
        cases hg : c.lanes[j]? with
        | none => rw [hg] at ht'; cases ht'
        | some y => rw [hg] at ht'; simp only [Option.join_some] at ht'; subst ht'; exact List.mem_of_getElem? hg
      have := hq _ this
      simpa [he] using this
  have hlaneH : ∀ l, ((d.thread? l).map (·.handler)).getD false = false := by
    intro l
    cases ht : d.thread? l with
    | none => rfl
    | some t =>
      unfold Crew.inHandler at hinh
      rw [List.any_eq_false] at hinh
      unfold Crew.thread? at ht
      cases hg : d.lanes[l]? with
      | none => rw [hg] at ht; cases ht
      | some y =>
        rw [hg] at ht
        simp only [Option.join_some] at ht
        subst ht
        simpa using hinh _ (List.mem_of_getElem? hg)
  have hatt : ∀ l, (s.with_ k d).attachedLane d l = s.attachedLane c l := by
    intro l
    unfold State.attachedLane
    have hm := hsame (fun t => d.ref t) l fun _ => rfl
    have hr : ∀ t, d.ref t = c.ref t := by
      intro t
      simp only [Crew.name, Prod.mk.injEq] at hdname
      unfold Crew.ref
      rw [hdname.2.1, hdname.2.2.1]
    cases hd1 : d.thread? l with
    | none =>
      rw [hd1] at hm
      cases hc1 : c.thread? l with
      | none => rfl
      | some t => rw [hc1] at hm; cases hm
    | some t =>
      rw [hd1] at hm
      cases hc1 : c.thread? l with
      | none => rw [hc1] at hm; cases hm
      | some t' =>
        rw [hc1] at hm
        simp only [Option.map_some, Option.some.injEq] at hm
        dsimp only
        rw [hm, hr]
        rfl
  have htrap : (s.with_ k d).groupTraps k.cid outs = (s.with_ k d).takeTrap k.cid k.lanes kn (tr l0) := by
    have e4 : lanesWhere outs (fun o => (o.trap?.map (·.cause != (tr l0).cause)).getD false) = [] := by
      apply lanesWhere_none
      intro x hx
      obtain ⟨h1, h2⟩ := hmem x hx
      rw [h1]
      simp [LaneOut.trap?, hcause _ h2]
    unfold State.groupTraps
    rw [e3]
    dsimp only
    rw [e4]
    simp only [List.isEmpty_nil, if_true]
    unfold State.trap
    dsimp only
    rw [with_crew? h hdcid]
    dsimp only
    have f1 : k.lanes.filter (fun l => ((tr l0).cause == 0x0F || (tr l0).cause == 0x10) && (s.with_ k d).attachedLane d l) = [] := by
      rw [List.filter_eq_nil_iff]
      intro l hl
      rw [hatt]
      by_cases hcs : (tr l0).cause = 0x0F ∨ (tr l0).cause = 0x10
      · rw [hd_.loose hcs l hl]; simp
      · simp only [not_or] at hcs
        simp [hcs.1, hcs.2]
    have f2 : k.lanes.filter (fun l => !(((tr l0).cause == 0x0F || (tr l0).cause == 0x10) && (s.with_ k d).attachedLane d l) &&
        ((d.thread? l).map (·.handler)).getD false) = [] := by
      rw [List.filter_eq_nil_iff]
      intro l _
      rw [hlaneH]; simp
    have f3 : k.lanes.filter (fun l => !(((tr l0).cause == 0x0F || (tr l0).cause == 0x10) && (s.with_ k d).attachedLane d l) &&
        !((d.thread? l).map (·.handler)).getD false) = k.lanes := by
      rw [List.filter_eq_self]
      intro l hl
      rw [hlaneH, hatt]
      by_cases hcs : (tr l0).cause = 0x0F ∨ (tr l0).cause = 0x10
      · rw [hd_.loose hcs l hl]; simp
      · simp only [not_or] at hcs
        simp [hcs.1, hcs.2]
    rw [f1, f2, f3]
    have hkern : (s.with_ k d).kernel? d.bed d.launch = some kn := by
      simp only [Crew.name, Prod.mk.injEq] at hdname
      rw [hdname.2.1, hdname.2.2.1]
      exact hd_.kernel
    have hh : (kn.handler == 0) = false := by simpa using hd_.handler
    have hl0m : l0 ∈ k.lanes := List.mem_of_mem_head? hl0
    have hhd : k.lanes.headD 0 = l0 := by rw [List.headD_eq_head?_getD, hl0]; rfl
    have hown : ((outs.find? fun x => x.1 == l0).bind fun x => x.2.trap?) = some (tr l0) := by
      have hmap : l0 ∈ outs.map (·.1) := by rw [← houts]; simpa [Function.comp_def] using hl0m
      rw [find_of_mem_map hmap, ← houts, outOf_map k.lanes (fun l => LaneOut.trap (tr l)) hl0m]
      rfl
    simp only [List.isEmpty_nil, if_true, hlne, Bool.false_eq_true, if_false, hkern, hh, hinh, hhd, hown, Option.map_some,
      Option.getD_some]
  -- the delivery
  have hcrewtr : ({ d with tcause := BitVec.ofNat 32 (tr l0).cause, tpc := (tr l0).tpc, tval := (tr l0).tval, tmask := maskOf k.lanes
                           errs := d.errs.filter fun r => (tr l0).clearErr != some r } : Crew).setThreads k.lanes (fun t =>
        { t with handler := true, wait := .none, entry := none, ret := none, exempt := (tr l0).spares t.exempt }) = trapped (tr l0) k.lanes c := by
    rw [hclear]
    have he : d.errs.filter (fun r => (none : Option Nat) != some r) = d.errs := by
      rw [List.filter_eq_self]; intro r _; rfl
    rw [he, ← hdd]
    have hcomm : ∀ (c : Crew) (a : Word) (b : Dword) (v : Word) (m : LaneMask) (f : Thread → Thread) (ls : List Nat),
        ({ c.setThreads ls f with tcause := a, tpc := b, tval := v, tmask := m } : Crew) =
          ({ c with tcause := a, tpc := b, tval := v, tmask := m } : Crew).setThreads ls f := by
      intro c a b v m f ls
      unfold Crew.setThreads
      induction ls generalizing c with
      | nil => rfl
      | cons l t ih => simp only [List.foldl_cons]; rw [ih]; rfl
    have h2 := hcomm c (BitVec.ofNat 32 (tr l0).cause) (tr l0).tpc (tr l0).tval (maskOf k.lanes) (fun t => { t with wait := .none }) k.lanes
    have h3 : ({ c.setThreads k.lanes (fun t => { t with wait := .none }) with
        tcause := BitVec.ofNat 32 (tr l0).cause, tpc := (tr l0).tpc, tval := (tr l0).tval, tmask := maskOf k.lanes
        errs := (c.setThreads k.lanes fun t => { t with wait := .none }).errs } : Crew) =
        ({ c with tcause := BitVec.ofNat 32 (tr l0).cause, tpc := (tr l0).tpc, tval := (tr l0).tval, tmask := maskOf k.lanes } : Crew).setThreads
          k.lanes (fun t => { t with wait := .none }) := h2
    rw [h3, setThreads_setThreads _ _ h.lanes]
    unfold trapped
    rfl
  have htsame : (trapped (tr l0) k.lanes c).same c := by
    unfold trapped
    refine Crew.same.trans (setThreads_same _ _ _ fun _ => ⟨rfl, rfl⟩) ⟨rfl, fun _ => rfl⟩
  have htake : (s.with_ k d).takeTrap k.cid k.lanes kn (tr l0) =
      { s.with_ k (entered s.fresh k.lanes kn.handler hd true (trapped (tr l0) k.lanes c)) with
        code := (s.keepWords c 2 kn.handler).code } := by
    unfold State.takeTrap
    dsimp only
    rw [with_setCrew hdcid, hcrewtr, with_crew? h ((congrArg Prod.fst htsame.name).trans hcid)]
    dsimp only
    rw [near_enterCheck (with_near s k _) (near_of_same htsame), hd_.entry]
    exact commitEntry_with h htsame k.lanes kn.handler hd true
  have a1 : lanesWhere outs (·.advances) = [] := none_ _ fun _ => rfl
  have a2 : lanesWhere outs (·.commits) = [] := none_ _ fun _ => rfl
  unfold State.conclude
  dsimp only
  rw [e1]
  rw [setCrew_with h, hret, e2, htrap, htake, a1, a2, hnil, hnil, e8, e9, e10, stepDone_calm h]
  have htthr : ∀ j, (trapped (tr l0) k.lanes c).thread? j = if j ∈ k.lanes then (c.thread? j).map (fun t =>
      { t with handler := true, wait := .none, entry := none, ret := none, exempt := (tr l0).spares t.exempt })
      else c.thread? j := by
    intro j; unfold trapped; exact Crew.thread?_setThreads _ _ _ h.lanes j
  apply end_landed h
  · exact (entered_same _ _ _ _ _ _).name.trans htsame.name
  · obtain ⟨l, hl⟩ := List.exists_mem_of_ne_nil _ h.some_
    obtain ⟨t, ht⟩ := Option.isSome_iff_exists.1 (h.live l hl)
    have hm : c.lanes.any (·.isSome) = true := by
      unfold Crew.thread? at ht
      cases hg : c.lanes[l]? with
      | none => rw [hg] at ht; cases ht
      | some y => rw [hg] at ht; simp only [Option.join_some] at ht; subst ht; exact List.any_eq_true.2 ⟨_, List.mem_of_getElem? hg, rfl⟩
    apply manned_of_waits hm
    intro j
    rw [entered_waits _ _ h.lanes]
    have : ((trapped (tr l0) k.lanes c).waits j).isSome = (c.waits j).isSome := by
      unfold Crew.waits; rw [htthr]; split <;> simp
    split
    · simpa using this
    · exact this
  · apply entered_quiet h.lanes
    · intro l x hx
      unfold Crew.waits at hx
      rw [htthr] at hx
      obtain ⟨t, ht, rfl⟩ := Option.map_eq_some_iff.1 hx
      split at ht
      · obtain ⟨t0, ht0, rfl⟩ := Option.map_eq_some_iff.1 ht
        exact h.tree l t0 ht0
      · exact h.tree l t ht
    · intro l x hl hx
      unfold Crew.waits at hx
      rw [htthr, if_neg hl] at hx
      obtain ⟨t, ht, rfl⟩ := Option.map_eq_some_iff.1 hx
      exact fun m n => h.masks l t m n ht

/-- The lanes of a group that all trap: a commit's Region check has passed. -/
theorem drive_traps {s : State} {c : Crew} {k : Group} {kn : Kernel} {hd : Dword} {g : Guard} {tr : Nat → Trap} {l0 : Nat}
    (h : Calm s c k) (hact : actives c k g = k.lanes) (hl0 : k.lanes.head? = some l0)
    (hcause : ∀ l ∈ k.lanes, (tr l).cause = (tr l0).cause) (hclear : (tr l0).clearErr = none)
    (hd_ : Deliverable s c k (tr l0).cause kn hd) (F : State → Ctx → State × LaneOut)
    (hF : ∀ l ∈ k.lanes, ∀ t, c.thread? l = some t → F s (view s c k l t) = (s, .trap (tr l))) :
    drive false false g s F =
      .next (landed s c k kn.handler (entered s.fresh k.lanes kn.handler hd true (trapped (tr l0) k.lanes c))) := by
  rw [drive_still h false g F (fun x => .trap (tr x.lane)) (by
    intro l hl t ht
    exact hF l (hact ▸ hl) t ht)]
  rw [drive_pure h]
  have e : (k.lanes.map fun l => (l, outAt false s c k g (fun x => .trap (tr x.lane)) l)) = k.lanes.map fun l => (l, .trap (tr l)) := by
    apply List.map_congr_left
    intro l hl
    have hg : l ∈ actives c k g := by rw [hact]; exact hl
    obtain ⟨-, t, ht, hgt⟩ := mem_actives.1 hg
    unfold outAt
    have hlead : lead c k g = some l0 := by unfold lead; rw [hact]; exact hl0
    rw [ht, hlead]
    simp [hgt, view]
  rw [e, conclude_traps h hl0 hcause hclear hd_]

/-! ## Returns from a trap (R128) -/

theorem retire_rett (c : Crew) (k : Group) (st : Nat) (a : Dword) (ls : List Nat) :
    (ls.map fun l => (l, LaneOut.rett a)).foldl (fun c x => c.retireLane k st x.1 x.2) c = c.setThreads ls (·.retire k.pc) := by
  unfold Crew.setThreads
  induction ls generalizing c with
  | nil => rfl
  | cons l t ih => simp only [List.map_cons, List.foldl_cons]; rw [ih]; rfl

/-- The lanes of a group return from a trap. -/
theorem conclude_retts {s : State} {c : Crew} {k : Group} {a hd : Dword} (h : Calm s c k)
    (hok : s.enterCheck c (vregs s c) [] a (.branch k.pc) = .ok hd) :
    s.conclude c k (k.lanes.map fun l => (l, .rett a)) = landed s c k a
      (entered s.fresh k.lanes a hd true (released k.lanes (c.setThreads k.lanes (·.retire k.pc)))) := by
  have hcid : c.cid = k.cid := crew?_cid h.crew
  generalize houts : (k.lanes.map fun l => (l, LaneOut.rett a)) = outs
  have hmem : ∀ x ∈ outs, x.2 = .rett a ∧ x.1 ∈ k.lanes := by
    rw [← houts]; intro x hx; obtain ⟨j, hj, rfl⟩ := List.mem_map.1 hx; exact ⟨rfl, hj⟩
  have e1 : outs.map (fun x => (x.1, s.jumpCheck c k (((s.kernel? c.bed c.launch).map (·.vregs)).getD 512) x.2)) = outs := by
    conv => rhs; rw [← List.map_id outs]
    apply List.map_congr_left
    intro x hx
    obtain ⟨l, o⟩ := x
    obtain ⟨h1, h2⟩ := hmem _ hx
    simp only at h1 h2
    subst h1
    simp only [id_eq, Prod.mk.injEq, true_and, State.jumpCheck]
    have : s.enterCheck c (((s.kernel? c.bed c.launch).map (·.vregs)).getD 512) [] a (.branch k.pc) = .ok hd := hok
    rw [this]
  have e2 : ∀ s' : State, outs.foldl (fun s x => s.departLane k.cid x.1 x.2) s' = s' :=
    foldl_id outs _ fun x hx s' => by rw [(hmem x hx).1]; simp [State.departLane]
  have none_ : ∀ p : LaneOut → Bool, p (.rett a) = false → lanesWhere outs p = [] := fun p hp =>
    lanesWhere_none outs _ fun x hx => by rw [(hmem x hx).1]; exact hp
  have e3 : groupTrap outs = none := groupTrap_none outs fun x hx => by rw [(hmem x hx).1]; rfl
  have e6 : byTarget outs (·.target?) = [] := byTarget_nil outs _ fun x hx => by rw [(hmem x hx).1]; rfl
  have e7 : byTarget outs (·.rett?) = [(a, k.lanes)] := by
    rw [byTarget_one outs _ a fun x hx => by rw [(hmem x hx).1]; exact .inr rfl]
    have : lanesWhere outs (fun o => o.rett?.isSome) = k.lanes := by
      rw [lanesWhere_all outs _ fun x hx => by rw [(hmem x hx).1]; rfl, ← houts]
      simp [Function.comp_def]
    rw [this, if_neg h.some_]
  have e8 : ∀ s' : State, s'.beginWaits k.cid outs = s' := by
    intro s'
    unfold State.beginWaits
    exact foldl_id outs _ (fun x hx s' => by rw [(hmem x hx).1]; rfl) s'
  have e9 : ∀ s' : State, s'.makeJumps k outs = s' := by intro s'; simp [State.makeJumps, e6]
  have e11 : ∀ s' : State, s'.groupTraps k.cid outs = s' := by intro s'; simp [State.groupTraps, e3]
  have hnil : ∀ (s' : State) a b next, s'.continueAt k.cid [] a b next = s' := fun _ _ _ _ => rfl
  have hret : outs.foldl (fun c x => c.retireLane k s.fresh x.1 x.2) c = c.setThreads k.lanes (·.retire k.pc) := by
    rw [← houts]; exact retire_rett c k s.fresh a k.lanes
  have hdname : (c.setThreads k.lanes (·.retire k.pc)).name = c.name := setThreads_name _ _ _
  have hdcid : (c.setThreads k.lanes (·.retire k.pc)).cid = k.cid := (congrArg Prod.fst hdname).trans hcid
  have hrsame : (released k.lanes (c.setThreads k.lanes (·.retire k.pc))).same c := by
    unfold released
    exact Crew.same.trans (setThreads_same _ _ _ fun _ => ⟨rfl, rfl⟩) (setThreads_same _ _ _ fun _ => ⟨rfl, rfl⟩)
  have hreturns : (s.with_ k (c.setThreads k.lanes (·.retire k.pc))).makeReturns c k
      (((s.kernel? c.bed c.launch).map (·.vregs)).getD 512) outs =
      { s.with_ k (entered s.fresh k.lanes a hd true (released k.lanes (c.setThreads k.lanes (·.retire k.pc)))) with
        code := (s.keepWords c 2 a).code } := by
    unfold State.makeReturns
    rw [e7]
    simp only [List.foldl_cons, List.foldl_nil]
    have : s.enterCheck c (((s.kernel? c.bed c.launch).map (·.vregs)).getD 512) [] a (.branch k.pc) = .ok hd := hok
    rw [near_enterCheck (with_near s k _) (c := c) (d := c) ⟨⟨rfl, rfl, rfl, rfl⟩, rfl, fun _ => rfl⟩, this]
    unfold State.returnFromTrap State.setThreads
    dsimp only
    rw [with_setCrew hdcid]
    exact commitEntry_with h hrsame k.lanes a hd true
  unfold State.conclude
  dsimp only
  rw [e1]
  rw [setCrew_with h, hret, e2, e11, none_ _ rfl, hnil, none_ _ rfl, hnil, e8, e9, hreturns, stepDone_calm h]
  have hthr : ∀ j, (released k.lanes (c.setThreads k.lanes (·.retire k.pc))).thread? j = if j ∈ k.lanes then
      (c.thread? j).map (fun t => { t.retire k.pc with handler := false }) else c.thread? j := by
    intro j
    unfold released
    rw [setThreads_setThreads _ _ h.lanes, Crew.thread?_setThreads _ _ _ h.lanes]
    rfl
  apply end_landed h
  · exact (entered_same _ _ _ _ _ _).name.trans hrsame.name
  · obtain ⟨l, hl⟩ := List.exists_mem_of_ne_nil _ h.some_
    obtain ⟨t, ht⟩ := Option.isSome_iff_exists.1 (h.live l hl)
    have hm : c.lanes.any (·.isSome) = true := by
      unfold Crew.thread? at ht
      cases hg : c.lanes[l]? with
      | none => rw [hg] at ht; cases ht
      | some y => rw [hg] at ht; simp only [Option.join_some] at ht; subst ht; exact List.any_eq_true.2 ⟨_, List.mem_of_getElem? hg, rfl⟩
    apply manned_of_waits hm
    intro j
    rw [entered_waits _ _ h.lanes]
    have : ((released k.lanes (c.setThreads k.lanes (·.retire k.pc))).waits j).isSome = (c.waits j).isSome := by
      unfold Crew.waits; rw [hthr]; split <;> simp
    split
    · simpa using this
    · exact this
  · apply entered_quiet h.lanes
    · intro l x hx
      unfold Crew.waits at hx
      rw [hthr] at hx
      obtain ⟨t, ht, rfl⟩ := Option.map_eq_some_iff.1 hx
      split at ht
      · obtain ⟨t0, ht0, rfl⟩ := Option.map_eq_some_iff.1 ht
        show ({ t0.retire k.pc with handler := false } : Thread).redl = none
        have := h.tree l t0 ht0
        simp [Thread.retire, this]
      · exact h.tree l t ht
    · intro l x hl hx
      unfold Crew.waits at hx
      rw [hthr, if_neg hl] at hx
      obtain ⟨t, ht, rfl⟩ := Option.map_eq_some_iff.1 hx
      exact fun m n => h.masks l t m n ht

/-! ## Exits (R125) -/

/-- The registers that a crew's commands keep are all that a departure changes beside the crew. -/
theorem leaveRegs_eq (s : State) (cid : Nat) (ls : List Nat) : s.leaveRegs cid ls = { s with cmds := (s.leaveRegs cid ls).cmds } := by
  unfold State.leaveRegs
  split
  · rfl
  · split <;> rfl

/-- A group of one lane exits. -/
theorem drive_exit {s : State} {c : Crew} {k : Group} {g : Guard} {l : Nat} {t : Thread} (h : Calm s c k) (hk : k.lanes = [l])
    (ht : c.thread? l = some t) (hg : guardTrue g t = true) :
    drive false false g s (fun s _ => (s, .exit)) = .next (gone s c k l t) := by
  have hcid : c.cid = k.cid := crew?_cid h.crew
  have hact : actives c k g = [l] := by unfold actives Crew.laneIs; rw [hk]; simp [ht, hg]
  obtain ⟨e1, e2⟩ := solo_outs (s1 := s) (o := .exit) false ⟨hact, ht⟩ (fun s _ => (s, .exit)) rfl
  unfold drive withGroup
  simp only [h.cur, h.crew, Bool.false_and, Bool.false_eq_true, if_false]
  rw [e1, e2, solo_all false (by simp), hk]
  simp only [List.map_cons, List.map_nil, if_true, Bool.false_eq_true, if_false]
  congr 1
  have hone : s.with_ k c = s := by
    unfold State.with_
    rw [mapIf_id _ _ _ fun x hx hxc => (h.only x hx (by simpa using hxc)).symm]
  have hname : (exited s.fresh l c).name = c.name := by
    show (Crew.flush _ s.fresh l fun _ => true).name = c.name
    rw [(flush_keeps _ _ _ _).1.name]
    exact (passOn_keeps c l).1
  have hdcid : (exited s.fresh l c).cid = k.cid := (congrArg Prod.fst hname).trans hcid
  obtain ⟨q, hq⟩ : ∃ q, s.leaveRegs k.cid [l] = { s with cmds := q } := ⟨_, leaveRegs_eq s k.cid [l]⟩
  have hcalm : Calm { s with cmds := q } c k := h.change rfl rfl rfl h.steps
  have hdepart : s.departLane k.cid l .exit =
      (({ s with cmds := q } : State).with_ k (exited s.fresh l c)).exitThread (c.ref t) := by
    have hcrew := h.crew
    unfold State.departLane
    simp only [hcrew, Option.bind_some, ht, Option.map_some]
    rw [hq, setCrew_with hcalm]
    rfl
  have hexit : ∀ (X : List Crew) (r : TeamRef), ({ s with cmds := q, crews := X } : State).exitThread r =
      { ({ s with cmds := q } : State).exitThread r with crews := X } := fun _ _ => rfl
  have hsteps : ∀ u ∈ (({ s with cmds := q } : State).exitThread (c.ref t)).teams, u.stepping.contains k.cid = false := by
    intro u hu
    unfold State.exitThread State.setTeam at hu
    have keep : ∀ (f : Team → Team) (ts : List Team), (∀ x, (f x).stepping = x.stepping) →
        (∀ x ∈ ts, x.stepping.contains k.cid = false) → ∀ x ∈ mapIf (fun x => x.ref == c.ref t) f ts, x.stepping.contains k.cid = false := by
      intro f ts hf hts x hx
      obtain ⟨y, hy, rfl⟩ := mem_mapIf hx
      split
      · rw [hf]; exact hts y hy
      · exact hts y hy
    exact keep _ _ (by intro x; rfl) (keep _ _ (by intro x; rfl) h.steps) u hu
  have hnil : ∀ (s' : State) a b next, s'.continueAt k.cid [] a b next = s' := fun _ _ _ _ => rfl
  unfold State.conclude
  dsimp only
  have e0 : ([(l, LaneOut.exit)] : List (Nat × LaneOut)).map (fun x =>
      (x.1, s.jumpCheck c k (((s.kernel? c.bed c.launch).map (·.vregs)).getD 512) x.2)) = [(l, .exit)] := rfl
  have e3 : s.setCrew k.cid (fun c => ([(l, LaneOut.exit)] : List (Nat × LaneOut)).foldl
      (fun c x => c.retireLane k s.fresh x.1 x.2) c) = s := by
    rw [setCrew_with h]; exact hone
  rw [e0, e3]
  simp only [List.foldl_cons, List.foldl_nil, hdepart]
  have a1 : lanesWhere [(l, LaneOut.exit)] (·.advances) = [] := rfl
  have a2 : lanesWhere [(l, LaneOut.exit)] (·.commits) = [] := rfl
  have a3 : groupTrap [(l, LaneOut.exit)] = none := rfl
  rw [a1, a2, hnil, hnil]
  have b1 : ∀ u : State, u.groupTraps k.cid [(l, .exit)] = u := fun u => by unfold State.groupTraps; rw [a3]
  have b2 : ∀ u : State, u.beginWaits k.cid [(l, .exit)] = u := fun _ => rfl
  have b3 : ∀ u : State, u.makeJumps k [(l, .exit)] = u := fun _ => rfl
  have b4 : ∀ (u : State) vr, u.makeReturns c k vr [(l, .exit)] = u := fun _ _ => rfl
  rw [b1, b2, b3, b4]
  unfold State.with_
  rw [hexit, stepDone_none _ (by rw [hcid]; exact hsteps)]
  -- the end of the issue
  have hwaits : ∀ j, (exited s.fresh l c).waits j = if j = l then none else c.waits j := by
    intro j
    have hrm : ∀ (d : Crew) (j : Nat), (d.remove l).thread? j = if j = l then none else d.thread? j := by
      intro d j
      unfold Crew.remove Crew.thread?
      simp only [modifyAt_get]
      by_cases hj : j = l
      · subst hj
        simp only [if_true]
        cases d.lanes[j]? <;> rfl
      · simp [hj]
    unfold exited Crew.waits
    rw [hrm]
    by_cases hj : j = l
    · simp [hj]
    · simp only [hj, if_false]
      have h1 := (flush_keeps ((c.passOn l).setThread l fun t => { t with pend := t.pend.map fun p => { p with v := [], s := [] } })
        s.fresh l fun _ => true).2 j
      have h2 := (passOn_keeps c l).2 j
      unfold Crew.waits at h1 h2
      rw [h1, Crew.thread?_setThread_ne _ hj, h2]
  have hquiet : (exited s.fresh l c).quiet := by
    intro j x hx
    rw [hwaits] at hx
    split at hx
    · cases hx
    · unfold Crew.waits at hx
      obtain ⟨t', ht', rfl⟩ := Option.map_eq_some_iff.1 hx
      exact ⟨h.tree j t' ht', fun m n => h.masks j t' m n ht'⟩
  simp only [Crew.name, Prod.mk.injEq] at hname
  obtain ⟨n1, n2, n3, n4, n5⟩ := hname
  have hbins : (s.exitThread (c.ref t)).bins = s.bins := rfl
  show State.endGroup _ c = gone s c k l t
  unfold State.dropEmpty State.endGroup
  dsimp only
  have hgone : ({ ({ s with cmds := q } : State).exitThread (c.ref t) with
      crews := (mapIf (fun x => x.cid == k.cid) (fun _ => exited s.fresh l c) s.crews).filter fun c => c.lanes.any (·.isSome)
      cur := none } : State) = gone s c k l t := by unfold gone; rw [hq]
  rw [hgone]
  have hdom : ∀ b la cl, (gone s c k l t).domain b la cl = s.domain b la cl := fun _ _ _ => by rw [← hgone]; rfl
  have hgsteps : ∀ u ∈ (gone s c k l t).teams, u.stepping.contains c.cid = false := by rw [← hgone, hcid]; exact hsteps
  cases hf : (gone s c k l t).crew? c.cid with
  | some d =>
    dsimp only
    have hmem := List.mem_of_find?_eq_some hf
    have hdk : d.cid = c.cid := crew?_cid hf
    have hcr : (gone s c k l t).crews = (mapIf (fun x => x.cid == k.cid) (fun _ => exited s.fresh l c) s.crews).filter fun c =>
      c.lanes.any (·.isSome) := by rw [← hgone]
    have honly : ∀ x ∈ (gone s c k l t).crews, x.cid = c.cid → x = exited s.fresh l c := by
      intro x hx hxc
      rw [hcr] at hx
      obtain ⟨y, hy, rfl⟩ := mem_mapIf (List.mem_filter.1 hx).1
      by_cases hyc : y.cid == k.cid
      · simp [hyc]
      · rw [if_neg hyc] at hxc
        exact absurd (by simpa [hcid] using hxc) hyc
    have hde := honly d hmem hdk
    subst hde
    apply settleCrew_quiet hf
    · intro j t' ht'
      exact hquiet j (t'.redl, t'.wait) (by unfold Crew.waits; rw [ht']; rfl)
    · rw [hdom, n2, n3, n4]; exact h.bins
    · exact honly
    · exact hgsteps
  | none =>
    dsimp only
    unfold State.riddle
    cases (gone s c k l t).launch? c.bed c.launch with
    | none => rfl
    | some la =>
      dsimp only
      rw [hdom, h.bins]
      rfl

end Sys2Proof.Machine
end

