-- ==== Sys2Proof/Laws/PerInstr.lean ====
section
/-! SUPPORT. The encoding of each instruction: at most three words, none exactly for the steps of other agents (R51). -/

namespace Sys2Proof.Laws.Encoded

/-- An instruction has at most three words, and none exactly when it is a step of another agent. -/
def Statement (i : Instr) : Prop := (encode i).length ≤ 3 ∧ (encode i = [] ↔ Claim.family i = .event)

theorem length_of_fields (x : Fields) : x.words.length ≤ 3 ∧ x.words ≠ [] := by
  unfold Fields.words
  cases x.lit <;> simp

theorem of_word {i : Instr} {w : Word} (h : i.compactWord = some w) (e : Claim.family i ≠ .event) : Statement i := by
  simp [Statement, encode, h, e]

theorem of_fields {i : Instr} {x : Fields} (h : i.compactWord = none) (hx : i.fields = some x) (e : Claim.family i ≠ .event) :
    Statement i := by
  have hl := length_of_fields x
  simp [Statement, encode, h, hx, e, hl.1, hl.2]

theorem of_event {i : Instr} (h : i.compactWord = none) (hx : i.fields = none) (e : Claim.family i = .event) : Statement i := by
  simp [Statement, encode, h, hx, e]

theorem nopCompact : Statement .nopCompact := of_word rfl nofun

theorem nop (g : Guard) : Statement (.nop g) := of_fields rfl rfl nofun

theorem bra (g : Guard) (off : Off) : Statement (.bra g off) := of_fields rfl rfl nofun

theorem brx (g : Guard) (a : Reg) : Statement (.brx g a) := of_fields rfl rfl nofun

theorem call (g : Guard) (d : BitVec 9) (off : Off) : Statement (.call g d off) := of_fields rfl rfl nofun

theorem ret (g : Guard) (a : Reg) : Statement (.ret g a) := of_fields rfl rfl nofun

theorem exit (g : Guard) : Statement (.exit g) := of_fields rfl rfl nofun

theorem yield (g : Guard) : Statement (.yield g) := of_fields rfl rfl nofun

theorem trap (g : Guard) (a : Src) : Statement (.trap g a) := of_fields rfl rfl nofun

theorem brk (g : Guard) (a : Src) : Statement (.brk g a) := of_fields rfl rfl nofun

theorem rett (g : Guard) : Statement (.rett g) := of_fields rfl rfl nofun

theorem join (g : Guard) (m : BitVec 4) : Statement (.join g m) := of_fields rfl rfl nofun

theorem leave (g : Guard) (m : BitVec 4) : Statement (.leave g m) := of_fields rfl rfl nofun

theorem waitm (g : Guard) (m : BitVec 4) : Statement (.waitm g m) := of_fields rfl rfl nofun

theorem mlop (g : Guard) (d a b tt : BitVec 4) : Statement (.mlop g d a b tt) := of_fields rfl rfl nofun

theorem mmov (g : Guard) (f : MmovForm) : Statement (.mmov g f) := by
  cases f <;> exact of_fields rfl rfl nofun

theorem vote (g : Guard) (f : VoteForm) (pa : BitVec 3) (mb : BitVec 4) : Statement (.vote g f pa mb) := by
  cases f <;> exact of_fields rfl rfl nofun

theorem elect (g : Guard) (pd : BitVec 3) (ma : BitVec 4) : Statement (.elect g pd ma) := of_fields rfl rfl nofun

theorem plop (g : Guard) (pd pa pb : BitVec 3) (tt : BitVec 4) : Statement (.plop g pd pa pb tt) := of_fields rfl rfl nofun

theorem pmov (g : Guard) (f : PmovForm) : Statement (.pmov g f) := by
  cases f <;> exact of_fields rfl rfl nofun

theorem iaddCompact (f : CInt) : Statement (.iaddCompact f) := of_word rfl nofun

theorem iadd (f : IBin) : Statement (.iadd f) := of_fields rfl rfl nofun

theorem iadd3 (f : ITri) : Statement (.iadd3 f) := of_fields rfl rfl nofun

theorem isubCompact (f : CInt) : Statement (.isubCompact f) := of_word rfl nofun

theorem isub (f : IBin) : Statement (.isub f) := of_fields rfl rfl nofun

theorem iaddc (f : IAddcF) : Statement (.iaddc f) := of_fields rfl rfl nofun

theorem imulCompact (f : CInt) : Statement (.imulCompact f) := of_word rfl nofun

theorem imul (f : IBin) : Statement (.imul f) := of_fields rfl rfl nofun

theorem imulh (f : IBin) : Statement (.imulh f) := of_fields rfl rfl nofun

theorem imad (f : ITri) : Statement (.imad f) := of_fields rfl rfl nofun

theorem imadw (f : ITri) : Statement (.imadw f) := of_fields rfl rfl nofun

theorem idiv (f : IDivF) : Statement (.idiv f) := of_fields rfl rfl nofun

theorem irem (f : IDivF) : Statement (.irem f) := of_fields rfl rfl nofun

theorem iminCompact (f : CInt) : Statement (.iminCompact f) := of_word rfl nofun

theorem imin (f : IBin) : Statement (.imin f) := of_fields rfl rfl nofun

theorem imaxCompact (f : CInt) : Statement (.imaxCompact f) := of_word rfl nofun

theorem imax (f : IBin) : Statement (.imax f) := of_fields rfl rfl nofun

theorem iabs (f : IUn) : Statement (.iabs f) := of_fields rfl rfl nofun

theorem ineg (f : IUn) : Statement (.ineg f) := of_fields rfl rfl nofun

theorem iset (f : ISetF) : Statement (.iset f) := of_fields rfl rfl nofun

theorem sel (f : SelF) : Statement (.sel f) := of_fields rfl rfl nofun

theorem lop3 (f : Lop3F) : Statement (.lop3 f) := of_fields rfl rfl nofun

theorem shlCompact (f : CInt) : Statement (.shlCompact f) := of_word rfl nofun

theorem shl (f : IBin) : Statement (.shl f) := of_fields rfl rfl nofun

theorem shrCompact (f : CInt) : Statement (.shrCompact f) := of_word rfl nofun

theorem shr (f : IBin) : Statement (.shr f) := of_fields rfl rfl nofun

theorem shaCompact (f : CInt) : Statement (.shaCompact f) := of_word rfl nofun

theorem sha (f : IBin) : Statement (.sha f) := of_fields rfl rfl nofun

theorem shf (f : ShfF) : Statement (.shf f) := of_fields rfl rfl nofun

theorem bfe (f : IBin) : Statement (.bfe f) := of_fields rfl rfl nofun

theorem bfi (f : BfiF) : Statement (.bfi f) := of_fields rfl rfl nofun

theorem popc (f : IUn) : Statement (.popc f) := of_fields rfl rfl nofun

theorem clz (f : IUn) : Statement (.clz f) := of_fields rfl rfl nofun

theorem brev (f : IUn) : Statement (.brev f) := of_fields rfl rfl nofun

theorem lea (f : LeaF) : Statement (.lea f) := of_fields rfl rfl nofun

theorem idp4 (f : Idp4F) : Statement (.idp4 f) := of_fields rfl rfl nofun

theorem movCompact (f : CTwo) : Statement (.movCompact f) := of_word rfl nofun

theorem mov (f : MovF) : Statement (.mov f) := of_fields rfl rfl nofun

theorem movl (f : MovlF) : Statement (.movl f) := of_fields rfl rfl nofun

theorem bcast (f : BcastF) : Statement (.bcast f) := of_fields rfl rfl nofun

theorem rdlane (f : RdlaneF) : Statement (.rdlane f) := of_fields rfl rfl nofun

theorem perm (f : PermF) : Statement (.perm f) := of_fields rfl rfl nofun

theorem ixset (g : Guard) (ix : BitVec 2) (f : IxsetForm) : Statement (.ixset g ix f) := by
  cases f <;> exact of_fields rfl rfl nofun

theorem ixld (f : IxldF) : Statement (.ixld f) := of_fields rfl rfl nofun

theorem ixst (f : IxstF) : Statement (.ixst f) := of_fields rfl rfl nofun

theorem getsr (f : GetsrF) : Statement (.getsr f) := of_fields rfl rfl nofun

theorem setsr (f : SetsrF) : Statement (.setsr f) := of_fields rfl rfl nofun

theorem faddCompact (f : CFlt) : Statement (.faddCompact f) := of_word rfl nofun

theorem fadd (f : FBin) : Statement (.fadd f) := of_fields rfl rfl nofun

theorem fmulCompact (f : CFlt) : Statement (.fmulCompact f) := of_word rfl nofun

theorem fmul (f : FBin) : Statement (.fmul f) := of_fields rfl rfl nofun

theorem ffma (f : FTri) : Statement (.ffma f) := of_fields rfl rfl nofun

theorem fminCompact (f : CTwo) : Statement (.fminCompact f) := of_word rfl nofun

theorem fmin (f : FTwo) : Statement (.fmin f) := of_fields rfl rfl nofun

theorem fmaxCompact (f : CTwo) : Statement (.fmaxCompact f) := of_word rfl nofun

theorem fmax (f : FTwo) : Statement (.fmax f) := of_fields rfl rfl nofun

theorem fset (f : FSetF) : Statement (.fset f) := of_fields rfl rfl nofun

theorem fclass (f : FClassF) : Statement (.fclass f) := of_fields rfl rfl nofun

theorem fscl (f : FTwo) : Statement (.fscl f) := of_fields rfl rfl nofun

theorem ffrx (f : FFrxF) : Statement (.ffrx f) := of_fields rfl rfl nofun

theorem fceilx (f : FCeilxF) : Statement (.fceilx f) := of_fields rfl rfl nofun

theorem frcp (f : FSpecial) : Statement (.frcp f) := of_fields rfl rfl nofun

theorem frsq (f : FSpecial) : Statement (.frsq f) := of_fields rfl rfl nofun

theorem fsqrt (f : FSpecial) : Statement (.fsqrt f) := of_fields rfl rfl nofun

theorem fdiv (f : FSpecial2) : Statement (.fdiv f) := of_fields rfl rfl nofun

theorem fex2 (f : FSpecial) : Statement (.fex2 f) := of_fields rfl rfl nofun

theorem flg2 (f : FSpecial) : Statement (.flg2 f) := of_fields rfl rfl nofun

theorem fsin (f : FSpecial) : Statement (.fsin f) := of_fields rfl rfl nofun

theorem fcos (f : FSpecial) : Statement (.fcos f) := of_fields rfl rfl nofun

theorem ftanh (f : FSpecial) : Statement (.ftanh f) := of_fields rfl rfl nofun

theorem fex2m (f : FSpecial2) : Statement (.fex2m f) := of_fields rfl rfl nofun

theorem dadd (f : FBin) : Statement (.dadd f) := of_fields rfl rfl nofun

theorem dmul (f : FBin) : Statement (.dmul f) := of_fields rfl rfl nofun

theorem dfma (f : FTri) : Statement (.dfma f) := of_fields rfl rfl nofun

theorem dset (f : FSetF) : Statement (.dset f) := of_fields rfl rfl nofun

theorem hadd2Compact (f : CHalf) : Statement (.hadd2Compact f) := of_word rfl nofun

theorem hadd2 (f : HBin) : Statement (.hadd2 f) := of_fields rfl rfl nofun

theorem hmul2Compact (f : CHalf) : Statement (.hmul2Compact f) := of_word rfl nofun

theorem hmul2 (f : HBin) : Statement (.hmul2 f) := of_fields rfl rfl nofun

theorem hfma2 (f : HTri) : Statement (.hfma2 f) := of_fields rfl rfl nofun

theorem cvt (f : CvtF) : Statement (.cvt f) := of_fields rfl rfl nofun

theorem qnt (f : QntF) : Statement (.qnt f) := of_fields rfl rfl nofun

theorem dqnt (f : DqntF) : Statement (.dqnt f) := of_fields rfl rfl nofun

theorem redl (f : RedlF) : Statement (.redl f) := of_fields rfl rfl nofun

theorem scanl (f : ScanlF) : Statement (.scanl f) := of_fields rfl rfl nofun

theorem ld (f : LdStF) : Statement (.ld f) := of_fields rfl rfl nofun

theorem st (f : LdStF) : Statement (.st f) := of_fields rfl rfl nofun

theorem lds (f : LdStF) : Statement (.lds f) := of_fields rfl rfl nofun

theorem sts (f : LdStF) : Statement (.sts f) := of_fields rfl rfl nofun

theorem ldt (f : LdStTF) : Statement (.ldt f) := of_fields rfl rfl nofun

theorem stt (f : LdStTF) : Statement (.stt f) := of_fields rfl rfl nofun

theorem ldp (f : LdStPF) : Statement (.ldp f) := of_fields rfl rfl nofun

theorem stp (f : LdStPF) : Statement (.stp f) := of_fields rfl rfl nofun

theorem pf (f : PfF) : Statement (.pf f) := of_fields rfl rfl nofun

theorem cctlIinv (g : Guard) (scope : Scope) : Statement (.cctlIinv g scope) := of_fields rfl rfl nofun

theorem cctlShinv (g : Guard) (b : Src) (scope : Scope) : Statement (.cctlShinv g b scope) := of_fields rfl rfl nofun

theorem cctlL1inv (g : Guard) (scope : Scope) : Statement (.cctlL1inv g scope) := of_fields rfl rfl nofun

theorem atom (f : AtomF) : Statement (.atom f) := of_fields rfl rfl nofun

theorem atomp (f : AtompF) : Statement (.atomp f) := of_fields rfl rfl nofun

theorem red (f : RedF) : Statement (.red f) := of_fields rfl rfl nofun

theorem fence (g : Guard) (ord : Ord) (scope : Scope) : Statement (.fence g ord scope) := of_fields rfl rfl nofun

theorem bar (f : BarF) : Statement (.bar f) := of_fields rfl rfl nofun

theorem bari (f : BarSF) : Statement (.bari f) := of_fields rfl rfl nofun

theorem bara (f : BaraF) : Statement (.bara f) := of_fields rfl rfl nofun

theorem barw (f : BarwF) : Statement (.barw f) := of_fields rfl rfl nofun

theorem bart (f : BarSF) : Statement (.bart f) := of_fields rfl rfl nofun

theorem pqput (f : PqputF) : Statement (.pqput f) := of_fields rfl rfl nofun

theorem pqtake (f : PqtakeF) : Statement (.pqtake f) := of_fields rfl rfl nofun

theorem push (f : PushF) : Statement (.push f) := of_fields rfl rfl nofun

theorem mard (f : MardF) : Statement (.mard f) := of_fields rfl rfl nofun

theorem rpop (f : RpopF) : Statement (.rpop f) := of_fields rfl rfl nofun

theorem rrel (f : TwoSrcF) : Statement (.rrel f) := of_fields rfl rfl nofun

theorem rpub (f : TwoSrcF) : Statement (.rpub f) := of_fields rfl rfl nofun

theorem rtinc (f : TwoSrcF) : Statement (.rtinc f) := of_fields rfl rfl nofun

theorem rcsnap (f : RcsnapF) : Statement (.rcsnap f) := of_fields rfl rfl nofun

theorem expf (f : TwoSrcF) : Statement (.expf f) := of_fields rfl rfl nofun

theorem emit (f : EmitF) : Statement (.emit f) := of_fields rfl rfl nofun

theorem launch (f : LaunchF) : Statement (.launch f) := of_fields rfl rfl nofun

theorem signal (f : SignalF) : Statement (.signal f) := of_fields rfl rfl nofun

theorem waitev (f : WaitevF) : Statement (.waitev f) := of_fields rfl rfl nofun

theorem ordrel (g : Guard) : Statement (.ordrel g) := of_fields rfl rfl nofun

theorem parkYield (g : Guard) : Statement (.parkYield g) := of_fields rfl rfl nofun

theorem parkEv (f : ParkEvF) : Statement (.parkEv f) := of_fields rfl rfl nofun

theorem reorder (f : ReorderF) : Statement (.reorder f) := of_fields rfl rfl nofun

theorem sysc (f : SyscF) : Statement (.sysc f) := of_fields rfl rfl nofun

theorem dbgHalt (f : DbgF) : Statement (.dbgHalt f) := of_fields rfl rfl nofun

theorem dbgResume (f : DbgF) : Statement (.dbgResume f) := of_fields rfl rfl nofun

theorem dbgStep (f : DbgF) : Statement (.dbgStep f) := of_fields rfl rfl nofun

theorem dbgRdreg (f : DbgF) : Statement (.dbgRdreg f) := of_fields rfl rfl nofun

theorem dbgWrreg (f : DbgF) : Statement (.dbgWrreg f) := of_fields rfl rfl nofun

theorem dbgSetwp (f : DbgF) : Statement (.dbgSetwp f) := of_fields rfl rfl nofun

theorem dbgGetmask (f : DbgF) : Statement (.dbgGetmask f) := of_fields rfl rfl nofun

theorem riddleAgeFlush (bin : BinRef) (pick : Nat) : Statement (.riddleAgeFlush bin pick) := of_event rfl rfl rfl

theorem riddleDeferredFlush (bin : BinRef) (pick : Nat) : Statement (.riddleDeferredFlush bin pick) := of_event rfl rfl rfl

theorem mmaDense (cmd rows : Nat) : Statement (.mmaDense cmd rows) := of_event rfl rfl rfl

theorem mmaGrouped (cmd rows : Nat) : Statement (.mmaGrouped cmd rows) := of_event rfl rfl rfl

theorem mmaExpand (cmd rows : Nat) : Statement (.mmaExpand cmd rows) := of_event rfl rfl rfl

theorem mmaAbsorb (cmd rows : Nat) : Statement (.mmaAbsorb cmd rows) := of_event rfl rfl rfl

theorem spanGroupTimeout (cmd : Nat) : Statement (.spanGroupTimeout cmd) := of_event rfl rfl rfl

theorem mast (cmd : Nat) : Statement (.mast cmd) := of_event rfl rfl rfl

theorem mald (cmd : Nat) : Statement (.mald cmd) := of_event rfl rfl rfl

theorem maz (cmd : Nat) : Statement (.maz cmd) := of_event rfl rfl rfl

theorem cpy (cmd : Nat) : Statement (.cpy cmd) := of_event rfl rfl rfl

theorem gath (cmd : Nat) : Statement (.gath cmd) := of_event rfl rfl rfl

theorem scat (cmd : Nat) : Statement (.scat cmd) := of_event rfl rfl rfl

theorem rake (cmd : Nat) : Statement (.rake cmd) := of_event rfl rfl rfl

theorem rsub (cmd : Nat) : Statement (.rsub cmd) := of_event rfl rfl rfl

theorem lxw (cmd : Nat) : Statement (.lxw cmd) := of_event rfl rfl rfl

theorem qcast (cmd : Nat) : Statement (.qcast cmd) := of_event rfl rfl rfl

theorem cmrg (cmd : Nat) : Statement (.cmrg cmd) := of_event rfl rfl rfl

theorem mergeGroupTimeout (cmd : Nat) : Statement (.mergeGroupTimeout cmd) := of_event rfl rfl rfl

theorem patx (cmd : Nat) : Statement (.patx cmd) := of_event rfl rfl rfl

theorem engineTokenWrite (cmd : Nat) : Statement (.engineTokenWrite cmd) := of_event rfl rfl rfl

theorem feederFillStart (cmd : Nat) : Statement (.feederFillStart cmd) := of_event rfl rfl rfl

theorem feederFillComplete (cmd : Nat) : Statement (.feederFillComplete cmd) := of_event rfl rfl rfl

theorem storerDrainStart (cmd : Nat) : Statement (.storerDrainStart cmd) := of_event rfl rfl rfl

theorem storerDrainComplete (cmd : Nat) : Statement (.storerDrainComplete cmd) := of_event rfl rfl rfl

theorem kernelLaunch (bed inlet : Nat) : Statement (.kernelLaunch bed inlet) := of_event rfl rfl rfl

theorem graphStart (bed inlet : Nat) : Statement (.graphStart bed inlet) := of_event rfl rfl rfl

theorem closeRecord (bed inlet : Nat) : Statement (.closeRecord bed inlet) := of_event rfl rfl rfl

theorem trayFlush (bed inst node : Nat) (key : Word) : Statement (.trayFlush bed inst node key) := of_event rfl rfl rfl

theorem dispatch (bed pick : Nat) : Statement (.dispatch bed pick) := of_event rfl rfl rfl

theorem sliceExpiry (t : TeamRef) : Statement (.sliceExpiry t) := of_event rfl rfl rfl

theorem parkThresholdExpiry (t : TeamRef) : Statement (.parkThresholdExpiry t) := of_event rfl rfl rfl

theorem teamWake (t : TeamRef) : Statement (.teamWake t) := of_event rfl rfl rfl

theorem teamRetire (t : TeamRef) : Statement (.teamRetire t) := of_event rfl rfl rfl

theorem frameReceive (port : Nat) (frame : List Byte) (fcsGood : Bool) : Statement (.frameReceive port frame fcsGood) := of_event rfl rfl rfl

theorem heldRecordDelivery (port bed inst node : Nat) : Statement (.heldRecordDelivery port bed inst node) := of_event rfl rfl rfl

theorem ptpMessage (port : Nat) (offset : Int) : Statement (.ptpMessage port offset) := of_event rfl rfl rfl

theorem mmpFaultService (bed page : Nat) (answer : FaultAnswer) : Statement (.mmpFaultService bed page answer) := of_event rfl rfl rfl

theorem map (src : ReqSource) (pick : Nat) : Statement (.map src pick) := of_event rfl rfl rfl

theorem free (src : ReqSource) : Statement (.free src) := of_event rfl rfl rfl

theorem share (src : ReqSource) : Statement (.share src) := of_event rfl rfl rfl

theorem protect (src : ReqSource) : Statement (.protect src) := of_event rfl rfl rfl

theorem migrate (src : ReqSource) (pick : Nat) : Statement (.migrate src pick) := of_event rfl rfl rfl

theorem lookup (src : ReqSource) : Statement (.lookup src) := of_event rfl rfl rfl

theorem migrationCommit (bed page : Nat) : Statement (.migrationCommit bed page) := of_event rfl rfl rfl

theorem expertPrefetch (bed expert : Nat) (pick : Nat) : Statement (.expertPrefetch bed expert pick) := of_event rfl rfl rfl

theorem peerRequest (link peer seq : Nat) (op : PeerOp) : Statement (.peerRequest link peer seq op) := of_event rfl rfl rfl

theorem hyfinLinkFailure (link : Nat) : Statement (.hyfinLinkFailure link) := of_event rfl rfl rfl

theorem apertureAccess (op : ApertureOp) : Statement (.apertureAccess op) := of_event rfl rfl rfl

theorem mailboxReport (bed : Nat) : Statement (.mailboxReport bed) := of_event rfl rfl rfl

theorem uncorrectableError (site : ErrSite) : Statement (.uncorrectableError site) := of_event rfl rfl rfl

theorem linkReplayExhausted (link : FatalLink) : Statement (.linkReplayExhausted link) := of_event rfl rfl rfl

theorem watchdogExpiry : Statement .watchdogExpiry := of_event rfl rfl rfl

theorem thermalTrip : Statement .thermalTrip := of_event rfl rfl rfl

theorem throttleStep : Statement .throttleStep := of_event rfl rfl rfl

theorem bedIdle (bed : Nat) : Statement (.bedIdle bed) := of_event rfl rfl rfl

theorem configure : Statement .configure := of_event rfl rfl rfl

theorem bedOn : Statement .bedOn := of_event rfl rfl rfl

theorem bedOff : Statement .bedOff := of_event rfl rfl rfl

theorem attest : Statement .attest := of_event rfl rfl rfl

theorem update (image : FwImage) : Statement (.update image) := of_event rfl rfl rfl

theorem updateComplete : Statement .updateComplete := of_event rfl rfl rfl

theorem reset : Statement .reset := of_event rfl rfl rfl

theorem registerExpert : Statement .registerExpert := of_event rfl rfl rfl

theorem steer : Statement .steer := of_event rfl rfl rfl

theorem mmpRequest : Statement .mmpRequest := of_event rfl rfl rfl

theorem registerWrite (offset size : Nat) (data : Nat) : Statement (.registerWrite offset size data) := of_event rfl rfl rfl

theorem powerOn (trellis mmp : FwImage) : Statement (.powerOn trellis mmp) := of_event rfl rfl rfl

theorem longLatencyResultWrite (crew lane index : Nat) : Statement (.longLatencyResultWrite crew lane index) := of_event rfl rfl rfl

theorem mmpFirmwareFault (die : Nat) : Statement (.mmpFirmwareFault die) := of_event rfl rfl rfl

theorem powerLoss : Statement .powerLoss := of_event rfl rfl rfl

end Sys2Proof.Laws.Encoded
end

