-- ==== Sys2Proof/Tests/Slice0.lean ====
section
/-! SUPPORT. Tests: words written out from the encoding tables of the spec, with what they decode to; an ill-formed term for each
kind of check; and, for the statements with hypotheses, states and operands that meet them. -/

namespace Sys2Proof.Tests

open Sys2Proof Sys2Proof.Machine Sys2Proof.Claim

/-! ## Words (R51, R59 to R76 and the tables of the instructions) -/

/-- Each word's fields stand as the tables give them: [1:0] form, [9:2] OP, [19:10] D, [29:20] A, [39:30] B, [49:40] C, [53:50] G,
[57:54] K, [59:58] NA, [61:60] NB, [63:62] F. -/
abbrev lim : Limits := ⟨512, 4, true⟩

/-- The guard @p7, which every lane meets. -/
abbrev g7 : Guard := ⟨false, 7⟩

theorem test_decode_compact : decodeWords lim [0x00281080] = .instr (.iaddCompact ⟨4, 5, false⟩) 1 := by decide

theorem test_decode_nop_compact : decodeWords lim [0] = .instr .nopCompact 1 := by decide

theorem test_decode_bra : decodeWords lim [0x00000005, 0x001FFFFA] = .instr (.bra g7 (.near 0xFFFE8)) 2 := by decide

theorem test_decode_exit : decodeWords lim [0x00000015, 0x001C0000] = .instr (.exit g7) 2 := by decide

/-- The spec's own example of BRK. -/
theorem test_decode_brk : decodeWords lim [0x31700021, 0x001C0000] = .instr (.brk g7 (.int 23)) 2 := by decide

/-- NA and NB stand in [59:58] and [61:60]. -/
theorem test_decode_neighbours : decodeWords lim [0x40100885, 0x241C0100] =
    .instr (.iadd3 ⟨g7, .v 2, .v 1 .left, .v 1 .right, .v 1 .self, false, false, false⟩) 2 := by decide

theorem test_decode_iaddc : decodeWords lim [0x0000208D, 0x001C1F01] =
    .instr (.iaddc ⟨g7, .v 8, .v 0 .self, .v 4 .self, 7, true, 1, false⟩) 2 := by decide

/-- An integer constant: code 0x342 is 66 above the first, the value 50. -/
theorem test_decode_iset : decodeWords lim [0x801004B9, 0x011C00D0] =
    .instr (.iset ⟨g7, 1, .v 1 .self, .int 66, .gt, false, false⟩) 2 := by decide

theorem test_decode_iadd_literal : decodeWords lim [0x00401C82, 0x001C00E0, 0x000003E8] =
    .instr (.iadd ⟨g7, .v 7, .v 4 .self, .lit 0x3E8, false, false, false⟩) 3 := by decide

theorem test_decode_mov : decodeWords lim [0x00902101, 0x001C0000] = .instr (.mov ⟨g7, .v 8, .v 9 .self⟩) 2 := by decide

theorem test_decode_ffma : decodeWords lim [0x80101949, 0x001C0300] =
    .instr (.ffma ⟨g7, .v 6, .v 1 .self, .v 2 .self, .v 3 .self, .rn, false, false⟩) 2 := by decide

theorem test_decode_fex2m : decodeWords lim [0x00B029A5, 0x009C0103] =
    .instr (.fex2m ⟨g7, .v 10, .v 11 .self, .v 12 .self, .rz, 2, false, false⟩) 2 := by decide

theorem test_decode_cvt : decodeWords lim [0x00301E01, 0x021E5000] =
    .instr (.cvt ⟨g7, .v 7, .v 3 .self, .e4m3, .f32, .rn, none, true, 2, false, false⟩) 2 := by decide

theorem test_decode_lds : decodeWords lim [0x00403249, 0x045C13C8] =
    .instr (.lds ⟨g7, .v 12, .v 4, .int 32, .b64, ⟨false, .dflt, .acq, .device⟩, 1⟩) 2 := by decide

theorem test_decode_lds_remote : decodeWords lim [0x00202A49, 0x001D13C4] =
    .instr (.lds ⟨g7, .v 10, .v 2, .int 16, .b32, ⟨true, .dflt, .acq, .device⟩, 0⟩) 2 := by decide

theorem test_decode_atom_or : decodeWords lim [0x41206A81, 0x181C0B06] =
    .instr (.atom ⟨g7, .v 26, .v 18, .v 25 .self, .or, .b32, ⟨false, .dflt, .rlx, .device⟩, 0⟩) 2 := by decide

theorem test_decode_pqtake : decodeWords lim [0x208052A9, 0x000C0001] =
    .instr (.pqtake ⟨⟨false, 3⟩, .v 20, 4, .s 8, 0, 0⟩) 2 := by decide

/-- The spec's own example of PUSH. -/
theorem test_decode_push : decodeWords lim [0x001006C1, 0x001C0088] = .instr (.push ⟨g7, 1, 2, 1⟩) 2 := by decide

/-- The spec's own example of MARD (R315). -/
theorem test_decode_mard : decodeWords lim [0x000022C5, 0x001C0381] =
    .instr (.mard ⟨g7, 8, 0, .s 4, 3, false, 0⟩) 2 := by decide

/-- The spec's own example of EMIT (R360). -/
theorem test_decode_emit : decodeWords lim [0x02800F01, 0x001C0F02] =
    .instr (.emit ⟨g7, 3, .v 40 .self, .v 8, 15⟩) 2 := by decide

/-- The spec's own example of SIGNAL (R362). -/
theorem test_decode_signal : decodeWords lim [0x40200309, 0x001C00C4] = .instr (.signal ⟨g7, .v 2, .int 17⟩) 2 := by decide

theorem test_decode_ordrel : decodeWords lim [0x00000311, 0x001C0000] = .instr (.ordrel g7) 2 := by decide

theorem test_decode_reorder : decodeWords lim [0x00100319, 0x001C0200] =
    .instr (.reorder ⟨g7, .v 1 .self, 0, 2, false⟩) 2 := by decide

theorem test_decode_dbg_setwp : decodeWords lim [0x20000B45, 0x015F64D4] =
    .instr (.dbgSetwp ⟨g7, .v 2, .s 0, .int 80, .int 100⟩) 2 := by decide

theorem test_decode_header : decodeWords lim [0x000000FF] = .header := by decide

/-! ## Terms that are no words -/

/-- The limits of a kernel with 64 registers, no accumulator slot, outside handler mode. -/
abbrev low : Limits := ⟨64, 0, false⟩

/-- A plain two-source integer form. -/
abbrev bin (d : Reg) (a b : Src) (w64 : Bool) : IBin := ⟨g7, d, a, b, w64, false, false⟩

/-- A weak access. -/
abbrev weak : MemMod := ⟨false, .dflt, .none, .crew⟩

theorem smoke_register_past_the_allocation : (Instr.iadd (bin (.v 64) (.s 0) (.s 1) false)).wf low = false := by decide

theorem smoke_odd_pair : (Instr.iadd (bin (.v 3) (.s 0) (.s 2) true)).wf low = false := by decide

theorem smoke_source_pair : (Instr.iadd (bin (.v 2) (.s 1) (.s 2) true)).wf low = false := by decide

theorem smoke_uniform_with_lane_source : (Instr.iadd (bin (.s 3) (.v 0 .self) (.s 2) false)).wf low = false := by decide

theorem smoke_two_literals : (Instr.iadd (bin (.v 3) (.lit 1) (.lit 2) false)).wf low = false := by decide

theorem smoke_saturating_minimum : (Instr.imin ⟨g7, .v 3, .s 0, .s 1, false, false, true⟩).wf low = false := by decide

theorem smoke_neighbour_of_c : (Instr.imad ⟨g7, .v 3, .s 0, .s 1, .v 1 .left, false, false, false⟩).wf low = false := by decide

theorem smoke_write_of_p7 : (Instr.plop g7 7 0 0 6).wf low = false := by decide

theorem smoke_join_of_m0 : (Instr.join g7 0).wf low = false := by decide

theorem smoke_mask_twelve : (Instr.waitm g7 12).wf low = false := by decide

theorem smoke_trap_of_lane_source : (Instr.trap g7 (.v 1 .self)).wf low = false := by decide

theorem smoke_trap_register_outside_handler : (Instr.setsr ⟨g7, .tpc, .s 0, false⟩).wf low = false := by decide

theorem smoke_read_only_special : (Instr.setsr ⟨g7, .tid, .s 0, false⟩).wf lim = false := by decide

theorem smoke_group_of_four : (Instr.ld ⟨g7, .v 2, .v 4, .int 16, .b128, weak, 0⟩).wf low = false := by decide

theorem smoke_size_512_of_a_virtual_load : (Instr.ld ⟨g7, .v 0, .v 4, .int 16, .b512, weak, 0⟩).wf lim = false := by decide

theorem smoke_remote_relaxed :
    (Instr.lds ⟨g7, .v 2, .v 4, .int 16, .b32, ⟨true, .dflt, .rlx, .device⟩, 0⟩).wf low = false := by decide

theorem smoke_signed_store : (Instr.st ⟨g7, .v 2, .v 4, .int 16, .s8, weak, 0⟩).wf low = false := by decide

theorem smoke_wide_and : (Instr.atom ⟨g7, .v 4, .v 8, .v 12 .self, .and, .b128, ⟨false, .dflt, .rlx, .device⟩, 0⟩).wf low = false :=
  by decide

theorem smoke_plot_atomic_at_device :
    (Instr.atomp ⟨g7, .v 4, .v 8 .self, .v 12 .self, .add, .b32, ⟨false, .dflt, .rlx, .device⟩, 0⟩).wf low = false := by decide

theorem smoke_slot_past_the_kernel : (Instr.mard ⟨g7, 8, 0, .s 4, 3, false, 0⟩).wf low = false := by decide

theorem smoke_payload_past_the_allocation : (Instr.reorder ⟨g7, .s 1, 40, 32, false⟩).wf low = false := by decide

theorem smoke_element_past_the_word :
    (Instr.cvt ⟨g7, .v 7, .v 3 .self, .f16, .f32, .rn, none, true, 2, false, false⟩).wf low = false := by decide

theorem smoke_stochastic_to_fp32 :
    (Instr.cvt ⟨g7, .v 7, .v 3 .self, .f32, .f64, .rn, some (.s 3), false, 0, false, false⟩).wf low = false := by decide

theorem smoke_event : (Instr.configure).wf lim = false := by decide

/-! ## A scene: a group about to execute -/

/-- What makes a group calm, decided. -/
def calmB (s : State) (c : Crew) (k : Group) : Bool :=
  s.cur == some k && s.crew? k.cid == some c && (s.crews.all fun x => x.cid != k.cid || x == c) &&
    (s.crews.all fun x => x.lanes.any (·.isSome)) && decide k.lanes.Nodup && k.lanes != [] &&
    (k.lanes.all fun l => (c.thread? l).isSome) &&
    (c.lanes.all fun t => match t with
      | some t => t.redl == none && (match t.wait with
        | .waitm _ _ => false
        | _ => true)
      | none => true) &&
    s.domain c.bed c.launch c.cluster == [] && s.teams.all fun t => !t.stepping.contains k.cid

theorem thread_mem {c : Crew} {l : Nat} {t : Thread} (h : c.thread? l = some t) : some t ∈ c.lanes := by
  unfold Crew.thread? at h
  cases e : c.lanes[l]? with
  | none => simp [e] at h
  | some o =>
    rw [e] at h
    have : o = some t := h
    exact this ▸ List.mem_of_getElem? e

theorem calm_of {s : State} {c : Crew} {k : Group} (h : calmB s c k = true) : Calm s c k := by
  simp only [calmB, Bool.and_eq_true, beq_iff_eq, List.all_eq_true, decide_eq_true_eq, bne_iff_ne, ne_eq, Bool.or_eq_true] at h
  obtain ⟨⟨⟨⟨⟨⟨⟨⟨⟨h1, h2⟩, h3⟩, h4⟩, h5⟩, h6⟩, h7⟩, h8⟩, h9⟩, h10⟩ := h
  refine ⟨h1, h2, fun x hx e => ?_, h4, h5, h6, h7, fun l t e => ?_, fun l t m n e w => ?_, h9, fun t ht => ?_⟩
  · rcases h3 x hx with a | a
    · exact absurd e a
    · exact a
  · have := h8 _ (thread_mem e)
    simp only [Bool.and_eq_true, beq_iff_eq] at this
    exact this.1
  · have := h8 _ (thread_mem e)
    simp [w] at this
  · simpa using h10 t ht

/-- A condition on the threads of some lanes, decided. -/
theorem each {c : Crew} {ls : List Nat} {p : Nat → Thread → Prop} (h : ∀ l ∈ ls, ∀ t ∈ c.thread? l, p l t) :
    ∀ l ∈ ls, ∀ t, c.thread? l = some t → p l t := h

/-- The header of the block at 0x10000, six words with its own two, and of the region block after it, which is the handler too. -/
abbrev head1 : Dword := BitVec.ofNat 64 (sceneHeader 6)
abbrev head2 : Dword := BitVec.ofNat 64 (sceneHeader 2)

/-- The kernel of the scene, with a handler; its launch. -/
abbrev kern : Kernel := { sceneKernel with handler := 0x10018 }
def launch : Launch := { sceneLaunch with kernel := kern, teams := 3 }

/-- A thread at the first instruction: the address 0x18000 in v4, index register 1 over v8 to v15. -/
def thread (tid : Nat) : Thread :=
  { sceneThread with
    pc := 0x10008, tid := tid, p := if tid = 0 then 1 else 0, v := VBank.zero.set 0 4 0x18000
    ix := [⟨0, 512, 0⟩, ⟨8, 16, 0⟩, ⟨0, 0, 0⟩, ⟨0, 0, 0⟩] }

/-- A crew with two threads, both at it; m1 holds both lanes. In s-registers: 0x18000 in s4, the region block in s6, an address in
host memory in s8, one that is not canonical in s10, coordinates from s12, an object in s16, teams 0, 1
and 3 of the launch in s18, s20 and s22, a launch record in s24, a node's handle in s26. -/
def crew : Crew :=
  { sceneCrew with
    lanes := some (thread 0) :: some (thread 1) :: List.replicate 14 none
    s := Bank.zero.setList 4 [0x18000, 0, 0x10018, 0, 0x20000, 0, 0, 0x00800000, 3, 0, 0, 0, 0x18020, 0, 1, 0, 1, 1, 1, 3, 0x18040, 0, 0x9000]
    masks := 3 :: List.replicate 10 0 }

/-- The group of some lanes, its instruction n words long. -/
def group (ls : List Nat) (n : Nat) : Group := ⟨0, ls, 0x10008, 0x10000, head1, n⟩

/-- Module memory: the page tables, whose leaf for 0x10000 names frame 2 and that for 0x20000 frame 5 of host memory; the two
headers; barrier objects at 0x18000 and 0x18020, the second with no arrival left; a shape record of four FP32 elements at
0x18000; at 0x18040 a record that closes graph instance 9; at 0x18100 a cache
descriptor: its records from 0x10000, a window of two; at 0x18180 a table
descriptor, at 0x18240 a pattern record. -/
def memory : Memory :=
  [(0x10000, 1), (0x10001, 0x20), (0x10002, 1), (0x12000, 1), (0x12001, 0x40), (0x12002, 1), (0x14000, 1), (0x14001, 0x60),
    (0x14002, 1), (0x16008, 0x79), (0x1600A, 2), (0x16010, 0x79), (0x16011, 4), (0x16012, 5), (0x20000, 27), (0x20003, 0x80),
    (0x20018, 11), (0x2001B, 0x80), (0x28004, 1), (0x2800C, 1), (0x28020, 5), (0x28028, 4), (0x2802C, 1), (0x2804D, 0x92), (0x2805C, 9), (0x28102, 1), (0x2810C, 2), (0x28190, 32), (0x28240, 1), (0x29041, 0x80),
    (0x29042, 1), (0x29050, 4), (0x29079, 4)]

/-- The state as it executes, with another crew or launch in the place of the scene's. -/
def here (c : Crew) (la : Launch) (ls : List Nat) (n : Nat) : State :=
  let s := scene State.reset 0
  { s with
    agenda := [], cur := some (group ls n), fresh := 1, crews := [c], launches := [la], mem := memory
    beds := modifyAt s.beds 0 fun b =>
      { b with block := { b.block with shape := 0x19000 }
               pqs := [⟨[], 0⟩, ⟨[(2, 7, 0), (1, 8, 1)], 2⟩, ⟨(List.range 16).map fun i => (1, 0, i), 16⟩] } }

/-- The group of both lanes; that of lane 0 alone. -/
abbrev both (n : Nat) : State := here crew launch [0, 1] n
abbrev one (n : Nat) : State := here crew launch [0] n

/-- The guard @p0, true on lane 0 alone. -/
abbrev g0 : Guard := ⟨false, 0⟩

/-- What a statement about a plain instruction asks of the state. -/
def Ready (n : Nat) : Prop := Calm (both n) crew (group [0, 1] n) ∧ Onward (both n) crew (group [0, 1] n) head2

/-- An instruction in the block, and one at its end. -/
theorem ready : Ready 2 ∧ Ready 4 := by
  refine ⟨⟨calm_of ?_, ?_⟩, calm_of ?_, ?_⟩ <;> (try unfold Onward) <;> decide +kernel

theorem wit_IntegerArithmetic : Ready 2 ∧ Ready 4 ∧ (bin (.v 3) (.s 0) (.s 1) true).sat = false := ⟨ready.1, ready.2, rfl⟩

theorem wit_CarryAndDivision : Ready 2 ∧ Ready 4 := ready

theorem wit_LogicAndCompare : Ready 2 ∧ Ready 4 := ready

theorem wit_Shifts : Ready 2 ∧ Ready 4 := ready

theorem wit_BitFields : Ready 2 ∧ Ready 4 := ready

theorem wit_Predicates : Ready 2 ∧ Ready 4 := ready

/-- Lane 1 holds a thread with nothing in flight, lane 2 none. -/
theorem wit_CrossLane : Ready 2 ∧ Ready 4 ∧ crew.thread? 0 = some (thread 0) ∧ crew.thread? 2 = none ∧
    crew.thread? 1 = some (thread 1) ∧ (thread 1).pend = [] := ⟨ready.1, ready.2, by decide +kernel⟩

/-- Base 0 and limit 512, the kernel's registers; offsets 0 and 511 of index register 0. -/
theorem wit_IndexRegisters : Ready 2 ∧
    (∀ l ∈ actives crew (group [0, 1] 2) g7, ∀ t, crew.thread? l = some t → let x := view (both 2) crew (group [0, 1] 2) l t
      pattern x false (.int 16) ≤ pattern x false (.lit 512) ∧ pattern x false (.lit 512) ≤ vregs (both 2) crew) ∧
    ∀ b ∈ [Src.int 16, .lit 511], ∀ l ∈ actives crew (group [0, 1] 2) g7, ∀ t, crew.thread? l = some t →
      t.pend = [] ∧ Inside (both 2) crew 0 b (view (both 2) crew (group [0, 1] 2) l t) := by
  refine ⟨ready.1, each ?_, fun b hb => each ?_⟩
  · decide +kernel
  · unfold Inside
    revert b
    decide +kernel

/-- The lowest lane of the group. -/
theorem leads : Leads crew (group [0, 1] 2) g7 0 (thread 0) := by unfold Leads; exact ⟨rfl, rfl, rfl⟩

/-- A trap of any cause may be delivered. -/
theorem deliverable (cause : Nat) : Deliverable (both 2) crew (group [0, 1] 2) cause kern head2 where
  kernel := by decide +kernel
  handler := by decide +kernel
  quiet := by decide +kernel
  loose _ := by show ∀ l ∈ [0, 1], _; decide +kernel
  entry := by decide +kernel

/-- A base above the limit, a limit above the kernel's registers; v16, just past the limit of index register 1, and v7, just below
its base. -/
theorem wit_IndexBounds : Calm (both 2) crew (group [0, 1] 2) ∧ Deliverable (both 2) crew (group [0, 1] 2) 5 kern head2 ∧
    Leads crew (group [0, 1] 2) g7 0 (thread 0) ∧
    (∀ p ∈ [(Src.lit 2, Src.lit 1), (.lit 0, .lit 513)], ∀ l ∈ [0, 1], ∀ t, crew.thread? l = some t →
      let x := view (both 2) crew (group [0, 1] 2) l t
      ¬ (pattern x false p.1 ≤ pattern x false p.2 ∧ pattern x false p.2 ≤ vregs (both 2) crew)) ∧
    ∀ l ∈ [0, 1], ∀ t, crew.thread? l = some t → let x := view (both 2) crew (group [0, 1] 2) l t
      ((x.ix 1).limit.toNat : Int) ≤ named 1 (.lit 8) x ∧ named 1 (.lit 0xFFFFFFFF) x < (x.ix 1).base.toNat := by
  refine ⟨ready.1.1, deliverable 5, leads, fun p hp => each ?_, each ?_⟩
  · revert p; decide +kernel
  · decide +kernel

/-- Nothing is in flight. -/
theorem wit_SpecialRegisters : Ready 2 ∧ Ready 4 ∧ Idle crew (group [0, 1] 2) :=
  ⟨ready.1, ready.2, each (by decide +kernel)⟩

/-- m1 holds lane 1, whose guard @p0 is false; m0 both lanes, all guard-true under @p7; m2 no lane. -/
theorem wit_Masks : (Instr.join g7 1).wf low = true ∧ (Instr.leave g7 11).wf low = true ∧ Ready 2 ∧ Ready 4 ∧
    Together crew (group [0, 1] 2) ∧ Idle crew (group [0, 1] 2) ∧ (11 : BitVec 4).toNat < 12 ∧
    (∃ j ∈ members crew 1, j ∉ actives crew (group [0, 1] 2) g0) ∧ after (group [0, 1] 2) ≠ blockEnd 0x10000 head1 ∧
    (∀ m ∈ [(0 : BitVec 4), 2], ∀ j ∈ members crew m, j ∈ actives crew (group [0, 1] 2) g7) ∧
    actives crew (group [0, 1] 2) g7 = [0, 1] ∧ others crew (group [0, 1] 2) g7 = [] := by
  refine ⟨by decide, by decide, ready.1, ready.2, each ?_, each ?_, ?_⟩
  · decide +kernel
  · decide +kernel
  · decide +kernel

/-- One guard-true lane of two; a lane alone. -/
theorem solo : Solo crew (group [0, 1] 2) g0 0 (thread 0) ∧ Solo crew (group [0] 2) g7 0 (thread 0) := by
  unfold Solo; exact ⟨⟨rfl, rfl⟩, rfl, rfl⟩

/-- The group of lane 0 alone is calm. -/
theorem calm_one : Calm (one 2) crew (group [0] 2) := calm_of (by decide +kernel)

/-- A move of page 1 to frame 9; the scene of lane 0 while page 1 moves, with the writes held. -/
def moving : Migration :=
  { bed := 0, va := 0x10000, psz := 16, kind := 0, newPa := 0x90000, held := [], reply := none }
def migrating (held : List Held) : State :=
  { one 2 with mem := memory.write 0x16009 [0x10], migrations := [{ moving with held := held }] }

/-- The thread of lane 0, and a byte that it wrote, held for the page. -/
abbrev agent0 : Agent := .thread ⟨0, 1, 0⟩ 0
def heldByte : Held := { off := 0xFFFF, write := { op := .bytes [1], who := agent0, strong := none }, reply := false }

/-- Nothing moves; a write of the lane is held. -/
theorem wit_NoEffect : let x := view (both 2) crew (group [0, 1] 2) 0 (thread 0)
    Ready 2 ∧ Ready 4 ∧ Solo crew (group [0, 1] 2) g0 0 (thread 0) ∧ (both 2).migrations = [] ∧
    (∀ sc ∈ [Scope.crew, .system], let m : Mark := { scope := sc, home := x.home }
      Onward ((both 2).fenceAcquire m) crew (group [0, 1] 2) head2 ∧
        Onward (((both 2).fenceAcquire m).fenceFull m) crew (group [0, 1] 2) head2) ∧
    (let s := migrating [heldByte];
      Calm s crew (group [0] 2) ∧ Solo crew (group [0] 2) g7 0 (thread 0) ∧
        (s.migrations.find? fun m => m.held.any fun w => w.write.who == (view s crew (group [0] 2) 0 (thread 0)).agent) =
          some { moving with held := [heldByte] }) ∧
    (∀ sc ∈ [Scope.crew, .system],
      Onward (({ both 2 with code := (both 2).code.filter fun q => !((both 2).coreInScope x sc q.cluster q.core) } : State).purge x
        none sc) crew (group [0, 1] 2) head2 ∧
      Onward { both 2 with l1 := (both 2).l1.filter fun q => !((both 2).coreInScope x sc q.cluster q.core) } crew (group [0, 1] 2) head2 ∧
      pattern x false (.int 16) % 65536 = 0 ∧ pattern x false (.int 17) % 65536 = 1 ∧
      Onward (({ both 2 with
        shapes := (both 2).shapes.filter fun q => !(q.bed == 0 && q.id == 1 &&
          (sc == .system || (both 2).crews.any fun y => y.cluster == q.cluster && x.inScope sc y))
        l1 := (both 2).l1.filter fun q => !(q.bed == 0 && q.id == 1 && (both 2).coreInScope x sc q.cluster q.core) } : State).purge x
          (some 1) sc) crew (group [0, 1] 2) head2) :=
  ⟨ready.1, ready.2, solo.1, rfl, by unfold Onward; decide +kernel, ⟨calm_of (by decide +kernel), solo.2, by decide +kernel⟩,
    by unfold Onward; decide +kernel⟩

/-- FP16: numbers, zeros of both signs, a subnormal flushed, the infinities. -/
theorem wit_FloatArithmetic : Ready 2 ∧ Ready 4 ∧ f16 ∈ [f64, f32, f16, bf16] ∧
    source f16 false 0x7BFF = .num ⟨false, 2047, 5, false⟩ ∧ source f16 false 0x8001 = .num ⟨true, 1, -24, false⟩ ∧
    source f16 false 0x0000 = .num ⟨false, 0, -24, false⟩ ∧ source f16 true 0x83FF = .num ⟨true, 0, -24, false⟩ ∧
    flushes f16 true 0x83FF = 0x20 ∧ source f16 false 0x7C00 = .inf false ∧ source f16 true 0xFC00 = .inf true := by
  refine ⟨ready.1, ready.2, by simp, ?_⟩; decide +kernel

/-- In multiples of 2^-25 of FP16: half its least number, its largest, and what is half a step beyond; the neighbours of the first;
an exact number with something dropped below, of the least precision and a bit more; in E4M3 what is beyond a largest number where there
are no infinities; a negative one for UE5M3. -/
theorem wit_Rounding : let e : Extent := ⟨f16, 2047, 5, -14, true⟩
    let e8 : Extent := ⟨e4m3, 14, 5, -6, false⟩
    e ∈ extents ∧ e8 ∈ extents ∧ (-25 : Int) ≤ e.least - 1 - e.fmt.t ∧
    (∀ m ∈ [1, 2047 * 2 ^ 30, 4095 * 2 ^ 29], ((⟨true, m, -25, false⟩ : Exact).st = false ∧ (-25 : Int) ≤ (⟨true, m, -25, false⟩ : Exact).e)) ∧
    (let top := e.n * 2 ^ (e.q - (-25 : Int)).toNat;
      (scaled (-25) ⟨true, 1, -25, false⟩).natAbs ≤ top ∧ (scaled (-25) ⟨true, 2047 * 2 ^ 30, -25, false⟩).natAbs = top ∧
      top < (scaled (-25) ⟨true, 4095 * 2 ^ 29, -25, false⟩).natAbs ∧ e.infinities = true) ∧
    (∀ rm ∈ [Rm.rn, .rz, .ru, .rd], ∃ y ∈ [(⟨true, 0, -24, false⟩ : Exact), ⟨true, 1, -24, false⟩],
      f16.decode (f16.round rm false ⟨true, 1, -25, false⟩).bits = .num y) ∧
    (0x8001 < 2 ^ f16.width ∧ f16.decode 0x8001 = .num ⟨true, 1, -24, false⟩) ∧
    (∀ y ∈ [(⟨false, 2 ^ 13, -25, true⟩ : Exact), ⟨true, 2 ^ 80 + 1, -25, true⟩], y.st = true ∧ 2 ^ (f16.t + 3) ≤ y.m) ∧ 0 < 1 ∧ 1 < 2 ^ 1 ∧
    (∀ q16 ∈ [0, 65535], q16 < 65536) ∧
    f16.decode (f16.round .rz false ⟨true, 1, -25, false⟩).bits = .num ⟨true, 0, -24, false⟩ ∧
    f16.decode (f16.round .rd false ⟨true, 1, -25, false⟩).bits = .num ⟨true, 1, -24, false⟩ ∧
    e8.n * 2 ^ (e8.q - (-10 : Int)).toNat < (scaled (-10) ⟨false, 2 ^ 20, -10, false⟩).natAbs ∧
    (∃ e ∈ extents, e.fmt = ue5m3 ∧ e.q = 13 ∧ (-30 : Int) ≤ e.least - 1 - e.fmt.t) ∧
    (⟨true, 1, -30, false⟩ : Exact).m ≠ 0 ∧ (⟨true, 1, -30, false⟩ : Exact).neg = true := by
  refine ⟨by simp [extents], by simp [extents], ?_⟩; decide +kernel

/-- A quiet and a signalling NaN of FP32, the zeros, one of them a flushed number, a number, the infinities. -/
theorem wit_NanResults : f32 ∈ [f64, f32, f16, bf16] ∧ source f32 false 0x7FC00000 = .nan false ∧ source f32 true 0xFF800001 = .nan true ∧
    (∃ x, source f32 false 0x80000000 = .num x ∧ x.m = 0) ∧ (∃ x, source f32 true 0x00000001 = .num x ∧ x.m = 0) ∧
    (∃ y, source f32 false 0x80000001 = .num y ∧ y.m ≠ 0 ∧ y.neg = true) ∧
    source f32 false 0x7F800000 = .inf false ∧ source f32 false 0xFF800000 = .inf true := by
  refine ⟨by simp, ?_, ?_, ⟨_, rfl, ?_⟩, ⟨_, rfl, ?_⟩, ⟨_, rfl, ?_⟩, ?_⟩ <;> decide +kernel

theorem wit_FloatCompare : Ready 2 ∧ Ready 4 := ready

/-- NaN, infinities, zeros and numbers of both signs; a power of two, a quarter turn, a number between; 4.5 and 5, whose difference
lies between two integers, 128 and -152. -/
theorem wit_SpecialFunctions : Ready 2 ∧ Ready 4 ∧ (∃ t ∈ specialRows, ∃ r, t.special (source f32 true 0x80000001) = some r) ∧
    source f32 false 0x7F800001 = .nan true ∧ source f32 false 0xFF800000 = .inf true ∧
    (∃ x, source f32 false 0xBF400000 = .num x ∧ x.m ≠ 0 ∧ x.neg = true ∧ 4 * (ratio x).1 = -3 * (ratio x).2) ∧
    (∃ x, source f32 false 0x3F800000 = .num x ∧ x.neg = false ∧ x.m = 2 ^ Nat.log2 x.m) ∧
    (∃ x, source f32 false 0x3DCCCCCD = .num x ∧ x.m ≠ 2 ^ Nat.log2 x.m ∧ 0 < 4 * (ratio x).1 ∧ 4 * (ratio x).1 < (ratio x).2) ∧
    (∃ x, source f32 false 0x40900000 = .num x ∧ -1 * ((ratio x).2 : Int) < (ratio x).1 - 5 * (ratio x).2 ∧
      (ratio x).1 - 5 * (ratio x).2 < (-1 + 1) * (ratio x).2) ∧
    (∃ x, source f32 false 0x43000000 = .num x ∧ 128 * ((ratio x).2 : Int) ≤ (ratio x).1 - 0 * (ratio x).2 ∧
      (ratio x).1 - 0 * (ratio x).2 = 128 * (ratio x).2) ∧
    (∃ x, source f32 false 0xC3180000 = .num x ∧ (ratio x).1 - 0 * (ratio x).2 < -151 * (ratio x).2) := by
  refine ⟨ready.1, ready.2, ⟨specialRows[4], by simp, _, rfl⟩, ?_, ?_, ⟨_, rfl, ?_⟩, ⟨_, rfl, ?_⟩, ⟨_, rfl, ?_⟩, ⟨_, rfl, ?_⟩,
    ⟨_, rfl, ?_⟩, ⟨_, rfl, ?_⟩⟩ <;> decide +kernel

theorem wit_PackedHalves : Ready 2 ∧ Ready 4 := ready

/-- Blocks with an infinity, of zeros, with a largest number, of no lane; the tensor scales 0 and 1; the codes of a block's scale at
their ends, and UE5M3's zero. -/
theorem wit_Conversions : Ready 2 ∧ Ready 4 ∧ bad [.num ⟨false, 1, 0, false⟩, .inf true] ∧
    (∀ x : Exact, .num x ∈ [Val.num ⟨true, 7, -2, false⟩, .num ⟨false, 3, -3, false⟩] ∨ Val.num ⟨false, 1, 0, false⟩ = .num x → x.st = false) ∧
    ¬ bad [.num ⟨true, 7, -2, false⟩, .num ⟨false, 3, -3, false⟩] ∧ ¬ bad [.num ⟨true, 0, 0, false⟩] ∧
    Largest [.num ⟨true, 7, -2, false⟩] ⟨false, 7, -2, false⟩ ∧
    (∀ y, Val.num ⟨true, 1, 0, false⟩ = .num y → y.m = 0 ∨ y.neg = true) ∧ BlockFmt.sb4 ≠ .nb4 ∧ 0xFF < 256 ∧ 0 ≠ 0xFF ∧
    ue5m3.decode 0 = .num ⟨false, 0, -17, false⟩ ∧ ue5m3.decode 0xFE = .num ⟨false, 14, 13, false⟩ := by
  refine ⟨ready.1, ready.2, .inr ⟨true, by simp⟩, ?_, ?_, ?_, ⟨rfl, rfl, ?_, .inr ⟨_, List.mem_singleton.2 rfl, rfl⟩⟩, ?_, ?_⟩
  · intro x h
    simp only [List.mem_cons, Val.num.injEq, List.not_mem_nil, or_false] at h
    rcases h with (h | h) | h <;> subst h <;> rfl
  · rintro (⟨_, h⟩ | ⟨_, h⟩) <;> simp at h
  · rintro (⟨_, h⟩ | ⟨_, h⟩) <;> simp at h
  · intro x q h
    simp only [List.mem_singleton, Val.num.injEq] at h
    subst h
    intro h1 _
    simp [Claim.scaled]
  · intro y h
    simp only [Val.num.injEq] at h
    subst h
    exact .inr rfl
  · decide +kernel

/-! ## Control transfer and traps -/

/-- The group may go to the region block; without a guard-true lane it goes on. At 0x10008 stands an instruction, 1 is no multiple of 8. -/
theorem wit_Branches : Ready 2 ∧ MayJump (both 2) crew (group [0, 1] 2) g7 0x10018 head2 ∧
    MayJump (both 2) crew (group [0, 1] 2) g0 0x10018 head2 ∧ (0x10000 : Dword) + (3 : BitVec 20).signExtend 64 * 8 = 0x10018 ∧
    (0x10000 : Dword) + (3 : BitVec 32).signExtend 64 * 8 = 0x10018 ∧
    (∀ l ∈ actives crew (group [0, 1] 2) g7, ∀ t, crew.thread? l = some t →
      (view (both 2) crew (group [0, 1] 2) l t).reg64 (.s 6) = 0x10018) ∧
    actives crew (group [0, 1] 2) ⟨true, 7⟩ = [] ∧ Leads crew (group [0, 1] 2) g7 0 (thread 0) ∧
    Deliverable (both 2) crew (group [0, 1] 2) 3 kern head2 ∧
    (∀ j ∈ [0, 1], ∀ x, crew.thread? j = some x → NoHeader (both 2) crew [] (0x10000 + (1 : BitVec 20).signExtend 64 * 8)) ∧
    ∀ j ∈ [0, 1], ∀ x, crew.thread? j = some x →
      NoHeader (both 2) crew [] ((view (both 2) crew (group [0, 1] 2) j x).reg64 (.s 18)) := by
  have h : ∀ j ∈ [0, 1], ∀ x ∈ crew.thread? j, (both 2).fetchWords crew [] 1 0x10008 = .ok [0] := by decide +kernel
  refine ⟨ready.1, ⟨?_, ?_, ?_⟩, ⟨?_, ?_, ?_⟩, ?_, ?_, each ?_, ?_, leads, deliverable _,
    fun j hj x hx => .inr ⟨0, h j hj x hx, by decide⟩, each fun j hj x hx => .inl ?_⟩
  rotate_right 1
  · revert j x
    decide +kernel
  all_goals decide +kernel

theorem wit_Exit : Calm (one 2) crew (group [0] 2) ∧ (group [0] 2).lanes = [0] ∧ crew.thread? 0 = some (thread 0) ∧
    guardTrue g7 (thread 0) = true ∧ guardTrue g0 (thread 0) = true ∧ 10 < crew.masks.length ∧
    (∃ tm, (one 2).team? (crew.ref (thread 0)) = some tm) :=
  ⟨calm_one, rfl, rfl, rfl, rfl, by decide, _, rfl⟩

/-- The crew in handler mode, its %tpc at the region block. -/
def handling : Crew :=
  { crew with
    tpc := 0x10018
    lanes := some { thread 0 with handler := true } :: some { thread 1 with handler := true } :: List.replicate 14 none }

/-- Lane 1 alone in handler mode. -/
def half_ : Crew := { crew with lanes := some (thread 0) :: some { thread 1 with handler := true } :: List.replicate 14 none }

/-- What the halts and the waits of TRAP and BRK ask of a state. -/
structure Halting (s : State) (c : Crew) (k : Group) (kn : Kernel) (t : Thread) : Prop where
  calm : Calm s c k
  leads : Leads c k g7 0 t
  kernel : s.kernel? c.bed c.launch = some kn
  team : OneTeam s c k t
  together : Together c k

/-- The same, decided. -/
def haltingB (s : State) (c : Crew) (k : Group) (kn : Kernel) (t : Thread) : Bool :=
  calmB s c k && actives c k g7 == k.lanes && k.lanes.head? == some 0 && c.thread? 0 == some t &&
    s.kernel? c.bed c.launch == some kn && (s.team? (c.ref t)).isSome && decide (c.bed < s.beds.length) &&
    k.lanes.all fun l => match c.thread? l with
      | some x => x.team == t.team && x.iaddr == k.pc && x.hdr == k.hdr && x.hdrW == k.hdrW && !x.wait.isParked
      | none => true

theorem halting_of {s : State} {c : Crew} {k : Group} {kn : Kernel} {t : Thread} (h : haltingB s c k kn t = true) :
    Halting s c k kn t := by
  simp only [haltingB, Bool.and_eq_true, beq_iff_eq, decide_eq_true_eq, List.all_eq_true] at h
  obtain ⟨⟨⟨⟨⟨⟨⟨h1, h2⟩, h3⟩, h4⟩, h5⟩, h6⟩, h7⟩, h8⟩ := h
  have hx : ∀ l ∈ k.lanes, ∀ x, c.thread? l = some x →
      x.team = t.team ∧ x.iaddr = k.pc ∧ x.hdr = k.hdr ∧ x.hdrW = k.hdrW ∧ x.wait.isParked = false := by
    intro l hl x e
    have := h8 l hl
    simp only [e, Bool.and_eq_true, beq_iff_eq, Bool.not_eq_true'] at this
    obtain ⟨⟨⟨⟨a, b⟩, c⟩, d⟩, e⟩ := this
    exact ⟨a, b, c, d, e⟩
  exact ⟨calm_of h1, ⟨h2, h3, h4⟩, h5, ⟨fun l hl x e => (hx l hl x e).1, h6, h7⟩, fun l hl x e => (hx l hl x e).2⟩

/-- Lanes of an attached team; in handler mode; of a kernel without handler; beside a thread in handler mode. -/
theorem wit_TrapInstructions : Calm (both 2) crew (group [0, 1] 2) ∧ Leads crew (group [0, 1] 2) g7 0 (thread 0) ∧
    Deliverable (both 2) crew (group [0, 1] 2) 0x0E kern head2 ∧ Deliverable (both 2) crew (group [0, 1] 2) 0x0F kern head2 ∧
    (let s := { both 2 with teams := [{ sceneTeam with attached := true }] };
      Halting s crew (group [0, 1] 2) kern (thread 0) ∧ ∀ j ∈ [0, 1], s.attachedLane crew j = true) ∧
    (let s := here handling launch [0, 1] 2;
      Halting s handling (group [0, 1] 2) kern { thread 0 with handler := true } ∧
        (∀ j ∈ [0, 1], ∀ x, handling.thread? j = some x → x.handler = true) ∧ ∀ j ∈ [0, 1], s.attachedLane handling j = false) ∧
    (let s := here crew { launch with kernel := sceneKernel } [0, 1] 2;
      Halting s crew (group [0, 1] 2) sceneKernel (thread 0) ∧ (∀ j ∈ [0, 1], ∀ x, crew.thread? j = some x → x.handler = false) ∧
        sceneKernel.handler = 0 ∧ ∀ j ∈ [0, 1], s.attachedLane crew j = false) ∧
    (let s := here half_ launch [0] 2;
      Halting s half_ (group [0] 2) kern (thread 0) ∧
        (∀ j ∈ [0], ∀ x, half_.thread? j = some x → x.handler = false) ∧ kern.handler ≠ 0 ∧ half_.inHandler = true ∧
        (∀ j ∈ [0], ∀ x, half_.thread? j = some x → x.entry = none) ∧ ∀ j ∈ [0], s.attachedLane half_ j = false) ∧
    { thread 0 with wait := .trap }.wait = .trap := by
  refine ⟨ready.1.1, leads, deliverable _, deliverable _, ⟨halting_of ?_, ?_⟩, ⟨halting_of ?_, each ?_, ?_⟩,
    ⟨halting_of ?_, each ?_, ?_, ?_⟩, ⟨halting_of ?_, each ?_, ?_, ?_, each ?_, ?_⟩, rfl⟩ <;> decide +kernel

/-- A kernel whose handler is the block itself; the scene with it and with some bytes in the block. -/
abbrev kern0 : Kernel := { sceneKernel with handler := 0x10000 }
def patched (c : Crew) (ls : List Nat) (n at_ : Nat) (bs : List Byte) : State :=
  { here c { launch with kernel := kern0 } ls n with mem := memory.write at_ bs }

theorem deliverable0 (n at_ : Nat) (bs : List Byte) (cause : Nat)
    (h : (patched crew [0, 1] n at_ bs).enterCheck crew 512 [] 0x10000 .enter = .ok head1) :
    Deliverable (patched crew [0, 1] n at_ bs) crew (group [0, 1] n) cause kern0 head1 where
  kernel := rfl
  handler := by decide
  quiet := by decide +kernel
  loose _ := by show ∀ l ∈ [0, 1], (both 2).attachedLane crew l = false; decide +kernel
  entry := h

/-- The lanes at the last word of their block. -/
def ending : Crew := { crew with lanes := some { thread 0 with pc := 0x10014 } :: List.replicate 15 none }

/-- The scene with its group's issue next. -/
def issuing (s : State) (pc : Dword) : State := { s with agenda := [.issue 0 pc], cur := none, fresh := 0 }

/-- What the decode traps ask of it. -/
structure Decoding (s : State) (c c1 : Crew) (k : Group) (t : Thread) (kn : Kernel) (h : Dword) (causes : List Nat) : Prop where
  agenda : s.agenda = [.issue k.cid t.pc]
  running : s.modState ≠ 3
  fetching : Fetching { s with fresh := s.fresh + 1, cur := none, agenda := [] } c k t
  inside : k.pc ≠ blockEnd k.hdr k.hdrW
  crew : (noted { s with fresh := s.fresh + 1, cur := none, agenda := [] } c k).crew? k.cid = some c1
  calm : Calm { noted { s with fresh := s.fresh + 1, cur := none, agenda := [] } c k with cur := some k } c1 k
  deliverable : ∀ n ∈ causes, Deliverable (noted { s with fresh := s.fresh + 1, cur := none, agenda := [] } c k) c1 k n kn h

/-- The trap of TRAP and of BRK. A header, a word longer than what is left of its block, and an unassigned OP where an instruction
stands; no header after the block, and one whose LEN is 0. -/
theorem wit_TrapEntry : Calm (both 2) crew (group [0, 1] 2) ∧ Leads crew (group [0, 1] 2) g7 0 (thread 0) ∧ Idle crew (group [0, 1] 2) ∧
    Deliverable (both 2) crew (group [0, 1] 2) 0x0E kern head2 ∧ Deliverable (both 2) crew (group [0, 1] 2) 0x0F kern head2 ∧
    (let s := issuing (patched crew [0, 1] 2 0x20008 [3]) 0x10008;
      let v := noted { s with fresh := 1, cur := none, agenda := [] } crew (group [0, 1] 2);
      Decoding s crew crew (group [0, 1] 2) (thread 0) kern0 head1 [2] ∧ v.fetchWords crew [] 1 0x10008 = .ok [3]) ∧
    (let s := issuing (patched ending [0] 2 0x20014 [1]) 0x10014;
      let k : Group := ⟨0, [0], 0x10014, 0x10000, head1, 2⟩;
      let v := noted { s with fresh := 1, cur := none, agenda := [] } ending k;
      Decoding s ending ending k { thread 0 with pc := 0x10014 } kern0 head1 [4] ∧ v.fetchWords ending [] 1 0x10014 = .ok [1] ∧
        (blockEnd k.hdr k.hdrW - k.pc).toNat < 4 * formLen 1) ∧
    (let s := issuing (patched crew [0, 1] 2 0x20008 [0xFD, 0x03]) 0x10008;
      let v := noted { s with fresh := 1, cur := none, agenda := [] } crew (group [0, 1] 2);
      let x := v.keepWords crew 2 0x10008;
      Decoding s crew crew (group [0, 1] 2) (thread 0) kern0 head1 [1] ∧ v.fetchWords crew [] 1 0x10008 = .ok [0x3FD] ∧
        formLen 0x3FD = 2 ∧ v.fetchWords crew [] 2 0x10008 = .ok [0x3FD, 0] ∧
        (∃ m, decodeWords (x.limits crew [0, 1]) [0x3FD, 0] = .illegal m) ∧
        Deliverable x crew (group [0, 1] 2) 1 kern0 head1) ∧
    (let s := patched crew [0, 1] 4 0x20018 [0, 0, 0, 0];
      Calm s crew (group [0, 1] 4) ∧ after (group [0, 1] 4) = blockEnd 0x10000 head1 ∧ s.fetchWords crew [] 1 0x10018 = .ok [0] ∧
        Deliverable s crew (group [0, 1] 4) 4 kern0 head1) ∧
    (let s := patched crew [0, 1] 4 0x20018 [3, 0, 0, 0];
      Calm s crew (group [0, 1] 4) ∧ s.fetchWords crew [] 1 0x10018 = .ok [3] ∧ s.fetchWords crew [] 2 0x10018 = .ok [3, 0] ∧
        headerFault ((0 : Word) ++ (3 : Word)) 0x10018 (vregs s crew) = some 2 ∧ Deliverable s crew (group [0, 1] 4) 2 kern0 head1) := by
  refine ⟨ready.1.1, leads, each ?_, deliverable _, deliverable _,
    ⟨⟨?_, ?_, ⟨?_, ?_, ?_, ?_, ?_, ?_, ?_, ?_⟩, ?_, ?_, calm_of ?_, fun n hn => ⟨?_, ?_, ?_, fun _ => ?_, ?_⟩⟩, ?_⟩,
    ⟨⟨?_, ?_, ⟨?_, ?_, ?_, ?_, ?_, ?_, ?_, ?_⟩, ?_, ?_, calm_of ?_, fun n hn => ⟨?_, ?_, ?_, fun _ => ?_, ?_⟩⟩, ?_, ?_⟩,
    ⟨⟨?_, ?_, ⟨?_, ?_, ?_, ?_, ?_, ?_, ?_, ?_⟩, ?_, ?_, calm_of ?_, fun n hn => ⟨?_, ?_, ?_, fun _ => ?_, ?_⟩⟩, ?_, ?_, ?_, ?_,
      ⟨?_, ?_, ?_, fun _ => ?_, ?_⟩⟩,
    ⟨calm_of ?_, ?_, ?_, deliverable0 _ _ _ _ ?_⟩, ⟨calm_of ?_, ?_, ?_, ?_, deliverable0 _ _ _ _ ?_⟩⟩
  all_goals first | decide +kernel | exact ⟨_, rfl⟩

theorem wit_Rett : Calm (here handling launch [0, 1] 2) handling (group [0, 1] 2) ∧
    Leads handling (group [0, 1] 2) g7 0 { thread 0 with handler := true } ∧
    (∀ l ∈ [0, 1], ∀ t, handling.thread? l = some t → t.handler = true ∧ t.answered = []) ∧
    (here handling launch [0, 1] 2).enterCheck handling 512 [] handling.tpc (.branch 0x10008) = .ok head2 ∧
    Calm (both 2) crew (group [0, 1] 2) ∧ Leads crew (group [0, 1] 2) g7 0 (thread 0) ∧
    (∀ l ∈ [0, 1], ∀ t, crew.thread? l = some t → t.handler = false) ∧
    Deliverable (both 2) crew (group [0, 1] 2) 8 kern head2 :=
  ⟨calm_of (by decide +kernel), ⟨rfl, rfl, rfl⟩, each (by decide +kernel), by decide +kernel, ready.1.1, leads,
    each (by decide +kernel), deliverable _⟩

/-! ## Memory -/

/-- A sector of the scene's L1, with its address, whose bytes memory no longer holds: `stale` says by whom they were overwritten. -/
def sector (va : Nat) (stale : List (Agent × Nat)) : L1Sector :=
  { cluster := 0, core := 0, bed := 0, id := 0, tile := [va / 256], sector := va / 32 % 8, va := va, loc := .mod (va + 0x10000)
    data := List.replicate 32 9, stale := stale }

/-- A word at the address in v4; one on a page that is not mapped, which a line of the core's L1 holds; the last word of plot memory. -/
theorem wit_Loads : Ready 2 ∧ Ready 4 ∧
    (∀ l ∈ [0, 1], ∀ t, crew.thread? l = some t → let x := view (both 2) crew (group [0, 1] 2) l t
      let a := x.reg64 (.v 4) + (x.w32 (.int 16)).signExtend 64
      (both 2).access x .read a 4 = .inr [⟨.mod 0x28000, 4, 0, none⟩] ∧
        (both 2).migrWait [⟨.mod 0x28000, 4, 0, none⟩] = none ∧ (both 2).watch x false true false a.toNat 4 = none) ∧
    (let s := { both 2 with l1 := [sector 0x30000 []] };
      Calm s crew (group [0, 1] 2) ∧ Onward s crew (group [0, 1] 2) head2 ∧
        ∀ l ∈ [0, 1], ∀ t, crew.thread? l = some t → let x := view s crew (group [0, 1] 2) l t
          let a := x.reg64 (.v 4) + (x.w32 (.lit 0x18008)).signExtend 64
          (∀ strong, s.l1Hit x.crew x.agent strong (linearPieces a.toNat 4) = some [9, 9, 9, 9]) ∧
            s.translate 0 t.answered .read a 4 = .fault [⟨3, .read, false⟩] ∧ s.watch x false true false a.toNat 4 = none) ∧
    ∀ l ∈ [0, 1], ∀ t, crew.thread? l = some t → let x := view (both 2) crew (group [0, 1] 2) l t
      let o := x.w32 (.lit 0xFFC) + x.w32 (.int 16)
      (both 2).plotAccess x o 4 = .inr (.plot ⟨0, 1, 0⟩ 0xFFC) ∧ (both 2).watch x true true false o.toNat 4 = none :=
  ⟨ready.1, ready.2, each (by decide +kernel),
    ⟨calm_of (by decide +kernel), by unfold Onward; decide +kernel, each (by decide +kernel)⟩, each (by decide +kernel)⟩

/-- The scene's memories are canonical. -/
theorem canonical_both : Canonical (both 2) ∧ Canonical (one 2) := by unfold Canonical; decide +kernel

/-- Eight bytes from element 3 of a tensor of four: four are in bounds. From element 4 on, none is. -/
theorem wit_TensorAccess : let x := view (both 2) crew (group [0, 1] 2) 0 (thread 0)
    let s1 := (both 2).keepShape 0 0 1
    let p : List Part := [⟨.mod 0x2800C, 4, 0, none⟩]
    let e := ((both 2).tensor x 1 (x.regs 4 (.s 12)) 8).getRight?
    let e0 := ((both 2).tensor x 1 [4, 0, 0, 0] 8).getRight?
    let pieces := (e.map (·.view.pieces)).getD []
    Calm (both 2) crew (group [0, 1] 2) ∧ Solo crew (group [0, 1] 2) g0 0 (thread 0) ∧ Canonical (both 2) ∧
    pattern x false (.int 17) % 65536 = 1 ∧ e.map (·.a) = some 0x1800C ∧ e.map (·.m) = some 4 ∧ e0.map (·.m) = some 0 ∧
    (both 2).tensorParts x .read 0x1800C 4 = .inr p ∧
    (both 2).migrWait p = none ∧ (both 2).watch x false true false 0x1800C 4 = none ∧
    Onward (both 2) crew (group [0, 1] 2) head2 ∧
    s1.tensorParts x .write 0x1800C 4 = .inr p ∧ hostParts p = false ∧
    s1.watch x false false true 0x1800C 4 = none ∧
    (∀ hint ∈ [Hint.dflt, .nol1], Onward (followed s1 (s1.writeParts x.agent p [0, 0, 0, 0]) crew hint p pieces [0, 0, 0, 0]) crew
      (group [0, 1] 2) head2) ∧
    e0.map (·.a) = some 0x18010 ∧ (both 2).tensorParts x .read 0x18010 0 = .inr [] := by
  refine ⟨ready.1.1, solo.1, canonical_both.1, ?_, ?_, ?_, ?_, ?_, ?_, ?_, ?_, ?_, ?_, ?_, ?_, ?_, ?_⟩ <;>
    (try unfold Onward) <;> decide +kernel

/-- A store to module memory; one to host memory, a commit; one to plot memory. -/
theorem wit_Stores : let x := view (both 2) crew (group [0, 1] 2) 0 (thread 0)
    let y := view (one 2) crew (group [0] 2) 0 (thread 0)
    let p : List Part := [⟨.mod 0x28000, 4, 0, none⟩]
    let q : List Part := [⟨.host 0x50000, 4, 2, none⟩]
    let b : List Byte := [1, 0, 0, 0]
    Calm (both 2) crew (group [0, 1] 2) ∧ Canonical (both 2) ∧ Solo crew (group [0, 1] 2) g0 0 (thread 0) ∧
    (both 2).access x .write (x.reg64 (.s 4)) 4 = .inr p ∧ (both 2).watch x false false true 0x18000 4 = none ∧ hostParts p = false ∧
    (∀ hint ∈ [Hint.dflt, .nol1], let m : MemMod := ⟨false, hint, .rel, .device⟩
      Onward (followed (both 2) ((both 2).writeParts x.agent p b) crew hint p (linearPieces 0x18000 4) b) crew (group [0, 1] 2) head2 ∧
        Onward (followed (both 2) ((both 2).strongParts x m p b) crew hint p (linearPieces 0x18000 4) b) crew (group [0, 1] 2) head2) ∧
    Calm (one 2) crew (group [0] 2) ∧ Canonical (one 2) ∧ Solo crew (group [0] 2) g7 0 (thread 0) ∧
    (one 2).access y .write (y.reg64 (.s 8)) 4 = .inr q ∧ (one 2).watch y false false true 0x20000 4 = none ∧ hostParts q = true ∧
    MayCommit (one 2) (followed (one 2) ((one 2).writeParts y.agent q b) crew .dflt q (linearPieces 0x20000 4) b) crew (group [0] 2)
      (thread 0) head2 ∧
    MayCommit (one 2) (followed (one 2) ((one 2).strongParts y ⟨false, .dflt, .rel, .system⟩ q b) crew .dflt q (linearPieces 0x20000 4) b)
      crew (group [0] 2) (thread 0) head2 ∧
    (both 2).plotAccess x 0xFFC 4 = .inr (.plot ⟨0, 1, 0⟩ 0xFFC) ∧ (both 2).watch x true false true 0xFFC 4 = none ∧
    Onward (((both 2).perform x.agent (.plot ⟨0, 1, 0⟩ 0xFFC) b).markPlot x 0xFFC 4) crew (group [0, 1] 2) head2 := by
  refine ⟨ready.1.1, canonical_both.1, solo.1, ?_, ?_, ?_, ?_, calm_one, canonical_both.2, solo.2, ?_, ?_, ?_, ?_, ?_, ?_, ?_, ?_⟩ <;>
    (try unfold Onward) <;> (try unfold MayCommit) <;> decide +kernel

theorem wit_ReadAfterWrite : Canonical (both 2) ∧
    ∀ i, i < [1#8, 0, 2, 3].length → windowRo (0x28000 + i) = false ∧ noMemory (0x28000 + i) = false ∧ slotMask (0x28000 + i) = 0xFF :=
  ⟨canonical_both.1, by decide +kernel⟩

/-- The two failures of a commit's check. -/
theorem fault_one {s : State} {c : Crew} {k : Group} {an : List PageAns} {ws : List Word}
    (h : s.fetchWords c an ((blockEnd k.hdr k.hdrW - after k).toNat / 4) (after k) = .ok ws) (hw : ∃ w ∈ ws, w ≠ 0) :
    CommitFault s c k an 1 := ⟨ws, h, hw⟩

theorem fault_two {s : State} {c : Crew} {k : Group} {an : List PageAns} {ws : List Word} {w : Word}
    (h : s.fetchWords c an ((blockEnd k.hdr k.hdrW - after k).toNat / 4) (after k) = .ok ws) (hw : ∀ w ∈ ws, w = 0)
    (hr : s.fetchWords c an 1 (blockEnd k.hdr k.hdrW) = .ok [w]) (hb : w.getLsbD 31 = false) : CommitFault s c k an 2 :=
  ⟨ws, h, rfl, hw, .inr ⟨w, hr, hb⟩⟩

/-- An address that is not canonical; one on no page; the first plot offset whose word ends past the allocation; a word after a commit
that is no NOP; a header after it whose RH is 0. -/
theorem wit_AccessChecks : Calm (both 2) crew (group [0, 1] 2) ∧ Leads crew (group [0, 1] 2) g7 0 (thread 0) ∧
    (Reg.v 16).isS = false ∧ Deliverable (both 2) crew (group [0, 1] 2) 8 kern head2 ∧
    Deliverable (both 2) crew (group [0, 1] 2) 9 kern head2 ∧
    (∀ l ∈ [0, 1], ∀ t, crew.thread? l = some t → let x := view (both 2) crew (group [0, 1] 2) l t
      canonical (x.reg64 (.s 10) + (x.w32 (.int 16)).signExtend 64) = false ∧
      (both 2).translate 0 t.answered .read (x.reg64 (.s 4) + (x.w32 (.lit 0x18000)).signExtend 64) 4 = .fault [⟨3, .read, false⟩] ∧
      (both 2).l1Hit crew x.agent false (linearPieces 0x30000 4) = none ∧
      (let o := x.w32 (.lit 0xFFD) + x.w32 (.int 16); o.getLsbD 31 = false ∧ kern.plot < o.toNat + 4)) ∧
    (∃ g f, commitOf (.ordrel g7) = some (g, f) ∧ Leads crew (group [0, 1] 2) g 0 (thread 0)) ∧
    (let s := patched crew [0, 1] 2 0x20010 [1];
      Calm s crew (group [0, 1] 2) ∧ CommitFault s crew (group [0, 1] 2) (thread 0).answered 1 ∧
        Deliverable s crew (group [0, 1] 2) 6 kern0 head1) ∧
    (let s := patched crew [0, 1] 2 0x2001B [0];
      Calm s crew (group [0, 1] 2) ∧ CommitFault s crew (group [0, 1] 2) (thread 0).answered 2 ∧
        Deliverable s crew (group [0, 1] 2) 6 kern0 head1) := by
  refine ⟨ready.1.1, leads, rfl, deliverable _, deliverable _, each ?_, ⟨_, _, rfl, leads⟩,
    ⟨calm_of ?_, fault_one (ws := [1, 0]) ?_ ⟨1, List.mem_cons_self, ?_⟩, deliverable0 _ _ _ _ ?_⟩,
    ⟨calm_of ?_, fault_two (ws := [0, 0]) (w := 11) ?_ (by simp) ?_ ?_, deliverable0 _ _ _ _ ?_⟩⟩ <;> decide +kernel

/-- The value of a held atomic that the page's commit has returned to lane 0. -/
def answered0 (v : Nat) : Crew := { crew with lanes := some { thread 0 with ret := some v } :: some (thread 1) :: List.replicate 14 none }

/-- An atomic in module memory, in plot memory, a reduction; on a page that moves, held, and when its value has returned. -/
theorem wit_Atomics : let x := view (one 2) crew (group [0] 2) 0 (thread 0)
    let p : Part := ⟨.mod 0x28000, 4, 0, none⟩
    let m : MemMod := ⟨false, .dflt, .ar, .device⟩
    let w := (one 2).atomicWrite x p.loc m .add .b32 1
    Calm (one 2) crew (group [0] 2) ∧ Solo crew (group [0] 2) g7 0 (thread 0) ∧ x.returned (.v 9) = none ∧
    (one 2).atomicAccess x .atomic (x.reg64 (.s 4)) 2 = .inr [p] ∧ (one 2).watch x false true true 0x18000 4 = none ∧ p.mig = none ∧
    MayCommit (one 2) (((one 2).make p.loc w).1.lineAfter (one 2) x p .dflt 0x18000 4) crew (group [0] 2) (thread 0) head2 ∧
    (let s := migrating [];
      let y := view s crew (group [0] 2) 0 (thread 0);
      let q : Part := { p with mig := some (0, 0x18000) };
      Calm s crew (group [0] 2) ∧ s.atomicAccess y .atomic (x.reg64 (.s 4)) 2 = .inr [q] ∧
        s.commitCheck crew (group [0] 2) (thread 0).answered = .ok ∧ (s.watch y false true true 0x18000 4 = none) ∧
        s.atomicAccess y .write (x.reg64 (.s 4)) 2 = .inr [q] ∧
        MayCommit s (heldOr s q (s.atomicWrite y q.loc m .add .b32 1) s) crew (group [0] 2) (thread 0) head2) ∧
    (let c := answered0 7;
      let s := here c launch [0] 2;
      let t : Thread := { thread 0 with ret := some 7 };
      Calm s c (group [0] 2) ∧ Solo c (group [0] 2) g7 0 t ∧ (view s c (group [0] 2) 0 t).returned (.v 9) = some 7 ∧
        (view s c (group [0] 2) 0 t).returned (.s 9) = some 7 ∧ MayCommit s s c (group [0] 2) t head2) ∧
    (one 2).plotAccess x 0xFFC 4 = .inr (.plot ⟨0, 1, 0⟩ 0xFFC) ∧ pattern x false (.lit 0xFFC) % 4 = 0 ∧
    (one 2).watch x true true true 0xFFC 4 = none ∧
    MayCommit (one 2) (((one 2).make (.plot ⟨0, 1, 0⟩ 0xFFC) ((one 2).atomicWrite x (.plot ⟨0, 1, 0⟩ 0xFFC) m .cas .b32 (2 ^ 32))).1.markPlot
      x 0xFFC 4) crew (group [0] 2) (thread 0) head2 ∧
    (one 2).atomicAccess x .write (x.reg64 (.s 4) + (x.w32 (.int 16)).signExtend 64) 2 = .inr [p] := by
  refine ⟨calm_one, solo.2, ?_, ?_, ?_, ?_, ?_, ⟨calm_of ?_, ?_, ?_, ?_, ?_, ?_⟩, ⟨calm_of ?_, ⟨?_, ?_⟩, ?_, ?_, ?_⟩, ?_, ?_, ?_, ?_, ?_⟩ <;>
    (try unfold MayCommit) <;> decide +kernel

/-- The last barrier; with a count of 2 and with every live thread. -/
theorem wit_TeamBarriers : ∃ tm, (one 2).team? (crew.ref (thread 0)) = some tm ∧ tm.bars[(15 : BitVec 4).toNat]? = some ⟨0, 0, 0⟩ ∧
    Calm (one 2) crew (group [0] 2) ∧ Solo crew (group [0] 2) g7 0 (thread 0) ∧
    ∀ n ∈ [0, 2], MayCommit (one 2) (((one 2).give agent0 (.bar ⟨0, 1, 0⟩ 15 0)).setTeam ⟨0, 1, 0⟩ fun x =>
      { x with bars := modifyAt x.bars 15 fun b => arrived b n 48 }) crew (group [0] 2) (thread 0) head2 := by
  refine ⟨_, rfl, rfl, calm_one, solo.2, ?_⟩
  unfold MayCommit
  decide +kernel

/-- The object at 0x18000, with one arrival left, ends its phase; that at 0x18020 has none left. While their page moves the writes
without an answer are held, and the arrival stalls for its answer, which then has returned. -/
theorem wit_BarrierObjects : let x := view (one 2) crew (group [0] 2) 0 (thread 0)
    let p : Part := ⟨.mod 0x28000, 16, 0, none⟩
    let q : Part := ⟨.mod 0x28020, 16, 0, none⟩
    let told (s s1 : State) (p : Part) (o : BarObj) : State := (s1.objectLine s x o .dflt p).markObject x o
    let mo := Machine.modOf .rlx .device
    Calm (one 2) crew (group [0] 2) ∧ Solo crew (group [0] 2) g7 0 (thread 0) ∧
    (one 2).barObject x .atomic true (.va (.s 4)) = .inr p ∧ p.mig = none ∧ x.returned (.v 9) = none ∧
    (let s := migrating [];
      let y := view s crew (group [0] 2) 0 (thread 0);
      let p : Part := { p with mig := some (0, 0x18000) };
      Calm s crew (group [0] 2) ∧ s.barObject y .atomic true (.va (.s 4)) = .inr p ∧
        Onward (told s (s.makePart p (s.objectWrite y p.loc mo (.bytes (object 0 2 0 2)))) p (.va (.s 4))) crew (group [0] 2) head2 ∧
        s.commitCheck crew (group [0] 2) (thread 0).answered = .ok ∧
        MayCommit s (told s (s.makePart p (s.objectWrite y p.loc mo (.transfer (x.w32 (.int 17))))) p (.va (.s 4))) crew (group [0] 2)
          (thread 0) head2) ∧
    (let c := answered0 7;
      let s := here c launch [0] 2;
      let t : Thread := { thread 0 with ret := some 7 };
      Calm s c (group [0] 2) ∧ Solo c (group [0] 2) g7 0 t ∧ (view s c (group [0] 2) 0 t).returned (.v 9) = some 7 ∧
        MayCommit s s c (group [0] 2) t head2) ∧
    Onward (told (one 2) ((one 2).makePart p ((one 2).objectWrite x p.loc mo (.bytes (object 0 2 0 2)))) p (.va (.s 4))) crew
      (group [0] 2) head2 ∧
    (one 2).read (.mod 0x28000) 16 = object 0 1 0 1 ∧ 0 < (1 : Word).toInt ∧
    MayCommit (one 2) (told (one 2) ((one 2).make p.loc ((one 2).objectWrite x p.loc (Machine.modOf .rel .device) .arrive)).1 p (.va (.s 4))) crew
      (group [0] 2) (thread 0) head2 ∧
    (one 2).barObject x .atomic true (.va (.s 16)) = .inr q ∧ (one 2).read (.mod 0x28020) 16 = object 5 0 4 1 ∧
    0 ≤ (0 : Word).toInt ∧ (4 : Word) + x.w32 (.lit 0xFFFFFFFC) = 0 ∧
    MayCommit (one 2) (told (one 2) ((one 2).makePart q ((one 2).objectWrite x q.loc mo (.transfer (x.w32 (.lit 0xFFFFFFFC))))) q
      (.va (.s 16))) crew (group [0] 2) (thread 0) head2 ∧
    (one 2).barObject x .read false (.va (.s 4)) = .inr p ∧ (one 2).migrWait [p] = none ∧ BitVec.ofNat 32 (leNat ((one 2).read (.mod 0x28000) 4)) = 0 ∧
    x.w32 (.int 16) = 0 ∧ x.w32 (.int 17) ≠ 0 ∧ Onward (one 2) crew (group [0] 2) head2 := by
  refine ⟨calm_one, solo.2, ?_, ?_, ?_, ⟨calm_of ?_, ?_, ?_, ?_, ?_⟩, ⟨calm_of ?_, ⟨?_, ?_⟩, ?_, ?_⟩, ?_, ?_, ?_, ?_, ?_, ?_, ?_, ?_, ?_,
    ?_, ?_, ?_, ?_, ?_, ?_⟩ <;>
    (try unfold MayCommit) <;> (try unfold Onward) <;> decide +kernel

/-- An empty queue, one of two elements, a full one. -/
theorem wit_PriorityQueues : let b := (one 2).bed 0
    Calm (one 2) crew (group [0] 2) ∧ Solo crew (group [0] 2) g7 0 (thread 0) ∧
    b.pqs[0]? = some ⟨[], 0⟩ ∧ b.pqs[1]? = some ⟨[(2, 7, 0), (1, 8, 1)], 2⟩ ∧ ((b.pqs[2]?).map (·.elems.length)) = some b.pqCapacity ∧
    2 < b.pqCapacity ∧ MayCommit (one 2) (one 2) crew (group [0] 2) (thread 0) head2 ∧
    MayCommit (one 2) (((one 2).give agent0 (.element 0 1 2)).setBed 0 fun b => b.setPq 1 ⟨[(2, 7, 0), (1, 8, 1), (0, 0, 2)], 3⟩) crew
      (group [0] 2) (thread 0) head2 ∧
    MayCommit (one 2) ((((one 2).take agent0 (.element 0 1 1)).forgetPoints (· == .element 0 1 1)).setBed 0 fun b =>
      b.setPq 1 ⟨[(2, 7, 0)], 2⟩) crew (group [0] 2) (thread 0) head2 := by
  refine ⟨calm_one, solo.2, ?_, ?_, ?_, ?_, ?_, ?_, ?_⟩ <;> (try unfold MayCommit) <;> decide +kernel

/-! ## Engines -/

/-- Another crew, launch or team in the scene of lane 0. -/
abbrev with_ (c : Crew) : State := here c launch [0] 2

/-- The 16 words from s16. -/
def pushed : List Word := (List.range 16).map fun i => crew.s.get (16 + i)

/-- The crew whose s4 is an error-marked token. -/
def marked : Crew := { crew with errs := [4] }

/-- Its group about to issue MOV v8, s4 takes the Engine Error trap. -/
theorem wit_Commands_error : let s := issuing (patched marked [0, 1] 2 0x20008 (natBytes 8 0x001C000020402101)) 0x10008
    let u := { s with fresh := 1, cur := none, agenda := [] }
    let k := group [0, 1] 2
    let v := (noted u marked k).keepWords marked 2 k.pc
    let ws : List Word := [0x20402101, 0x001C0000]
    let i : Instr := .mov ⟨g7, .v 8, .s 4⟩
    s.agenda = [.issue 0 (thread 0).pc] ∧ s.modState ≠ 3 ∧ Issuing u marked k (thread 0) ws ∧
      decodeWords (v.limits marked k.lanes) ws = .instr i 2 ∧ i.isCommit = false ∧ scoreboard marked k i (guardIn 2 ws) i.touch = [] ∧
      i.touch.rd = [(true, 4)] ∧ v.crew? 0 = some marked ∧ Calm { v with cur := some k } marked k ∧
      actives marked k (guardIn 2 ws) = k.lanes ∧ (∀ l x, marked.thread? l = some x → x.pend = []) ∧
      Deliverable v marked k 0x0D kern0 head1 := by
  refine ⟨?_, ?_, ⟨⟨?_, ?_, ?_, ?_, ?_, ?_, ?_, ?_⟩, ?_, ⟨0x20402101, ?_⟩, ?_, ?_⟩, ?_, ?_, ?_, ?_, ?_, calm_of ?_, ?_, fun l x hx => ?_,
    ⟨?_, ?_, ?_, fun _ => ?_, ?_⟩⟩
  rotate_left 21
  · have h : ∀ o ∈ marked.lanes, ∀ t ∈ o, t.pend = [] := by decide +kernel
    exact h _ (thread_mem hx) x rfl
  all_goals decide +kernel

/-- A queue with room, a full one, a pending token register. The core holds the team's claim, and slot 3 is no pending
command's. -/
theorem wit_Commands : let x := view (one 2) crew (group [0] 2) 0 (thread 0)
    let c := (one 2).newCmd x 1 pushed
    let full := { one 2 with cmds := List.replicate 32 c }
    let waiting := { crew with tokens := [0] }
    let mixed := { crew with lanes := some (thread 0) :: some { thread 1 with team := 1 } :: List.replicate 14 none }
    Calm (one 2) crew (group [0] 2) ∧ Solo crew (group [0] 2) g7 0 (thread 0) ∧ (crew.s.get 31).toNat % 256 = 0 ∧ 0 ∉ crew.tokens ∧
    (one 2).mixedTeam x = none ∧ (one 2).queued crew 1 < queueDepth 1 ∧
    MayCommit (one 2) { (one 2).learn (.agent c.agent) ((one 2).upTo x.agent) with cmds := [c], nextCmd := 1 } crew (group [0] 2)
      (thread 0) head2 ∧
    Calm full crew (group [0] 2) ∧ queueDepth 1 ≤ full.queued crew 1 ∧ MayCommit full full crew (group [0] 2) (thread 0) head2 ∧
    Calm (with_ waiting) waiting (group [0] 2) ∧ Solo waiting (group [0] 2) g7 0 (thread 0) ∧ 0 ∈ waiting.tokens ∧
    (with_ waiting).commitCheck waiting (group [0] 2) [] = .ok ∧
    Ready 2 ∧ (∀ l ∈ [0, 1], ∀ t, crew.thread? l = some t → (both 2).mixedTeam (view (both 2) crew (group [0, 1] 2) l t) = none ∧
      (both 2).slotPending (crew.ref t) 0 3 = false) ∧
    Calm (with_ mixed) mixed (group [0] 2) ∧ Leads mixed (group [0] 2) g7 0 (thread 0) ∧ 0 ∈ members mixed 0 ∧
    (∃ j ∈ members mixed 0, mixed.thread? j = some { thread 1 with team := 1 } ∧ 1 ≠ (thread 0).team) ∧
    Deliverable (with_ mixed) mixed (group [0] 2) 0x0B kern head2 := by
  refine ⟨calm_one, solo.2, ?_, ?_, ?_, ?_, ?_, calm_of ?_, ?_, ?_, calm_of ?_, ⟨rfl, rfl⟩, ?_, ?_, ready.1, each ?_, calm_of ?_,
    ⟨rfl, rfl, rfl⟩, ?_, ⟨1, ?_⟩, ⟨?_, ?_, ?_, fun _ => ?_, ?_⟩⟩ <;> (try unfold MayCommit) <;> (try show ∀ l ∈ [0], _) <;> decide +kernel

/-- The last counter and the first number past it; the last counter read to memory. -/
theorem wit_RoutingCounters : let x := view (one 2) crew (group [0] 2) 0 (thread 0)
    let p : List Part := [⟨.mod 0x28000, 4, 0, none⟩]
    Calm (one 2) crew (group [0] 2) ∧ Solo crew (group [0] 2) g7 0 (thread 0) ∧ pattern x false (.lit 4095) < 4096 ∧
    MayCommit (one 2) ((one 2).setBed 0 fun b => { b with counters := b.counters.set 4095 7 }) crew (group [0] 2) (thread 0) head2 ∧
    Onward (one 2) crew (group [0] 2) head2 ∧
    Calm (both 2) crew (group [0, 1] 2) ∧ Leads crew (group [0, 1] 2) g7 0 (thread 0) ∧
    (both 2).commitCheck crew (group [0, 1] 2) [] = .ok ∧ Deliverable (both 2) crew (group [0, 1] 2) 8 kern head2 ∧
    (∀ l ∈ [0, 1], ∀ t, crew.thread? l = some t → 4096 ≤ pattern (view (both 2) crew (group [0, 1] 2) l t) false (.lit 4096)) ∧
    x.pairN .self (.s 4) = 0x18000 ∧ pattern x false (.int 17) = 1 ∧ canonical 0x18000 = true ∧
    (one 2).access x .write 0x18000 4 = .inr p ∧ (one 2).watch x false false true 0x18000 4 = none ∧
    MayCommit (one 2) ((followed (one 2) ((one 2).writeParts x.agent p [0, 0, 0, 0]) crew .dflt p (linearPieces 0x18000 4)
      [0, 0, 0, 0]).setBed 0 fun b => { b with counters := b.counters.setList 4095 [0] }) crew (group [0] 2) (thread 0) head2 ∧ crew.bed < (one 2).beds.length := by
  refine ⟨calm_one, solo.2, ?_, ?_, ?_, ready.1.1, leads, ?_, deliverable _, each ?_, ?_, ?_, ?_, ?_, ?_, ?_, ?_⟩ <;>
    (try unfold MayCommit) <;> (try unfold Onward) <;> decide +kernel

/-- The scene with a ring of two stages of one tile at plot offset 0x100, and perhaps the walk of an output ring. -/
def ringed (hdr : Nat) (cmds : List Cmd) : State :=
  { one 2 with cmds := cmds, teams := [{ sceneTeam with plot := Memory.write [] 0x100 (natBytes 64 (hdr + 2 ^ 48 + 2 ^ 64)) }] }

/-- A command of the scene's team. -/
def cmd (type queue : Nat) (x : Nat) : Cmd :=
  { id := 0, bed := 0, launch := 1, team := 0, tid := 0, cid := 0, cluster := 0, core := 0, queue := queue
    words := (List.range 16).map fun i => BitVec.ofNat 32 ((x + type * 2 ^ 488) / 2 ^ (32 * i)), stamp := 0, m0 := 3, fences := []
    rows := none, rp := 0, entry := 0, status := none, count := 0, update := none, cycles := 0, arrived := false, group := [], desc := []
    partial_ := [], walk := none, waits := [], answered := [], resume := false, issue := 0, left := [], away := none }

/-- The walk of a ring at 0x100. -/
def walk (out : Bool) (cursor : Nat) : Walk :=
  { hdr := 0x100, out := out, nstg := 2, stsz := 1, list := none, shape := 1, start := [0, 0, 0, 0], steps := [], counts := [9, 1, 1]
    tiles := 9, cursor := cursor }

/-- A FULL stage of an input ring and an EMPTY one of an output ring whose walk goes on; an error; the end; nothing yet; stages HELD. -/
theorem wit_RingStages : let out := [{ cmd 9 4 0 with walk := some (walk true 0) }]
    (∀ s ∈ [ringed 2 [], ringed (2 ^ 52) out, ringed (2 ^ 54) [], ringed (2 ^ 53) [], ringed 0 [], ringed 3 [], ringed (2 ^ 52 + 3) out],
      s.cur = some (group [0] 2) ∧ calmB s crew (group [0] 2) = true ∧ s.kernel? 0 1 = some kern ∧
      field (s.ringHeader ⟨0, 1, 0⟩ 0x100) 48 4 ≠ 0 ∧
      MayCommit s ((s.take agent0 (.stage ⟨0, 1, 0⟩ 0x100 0)).write (.plot ⟨0, 1, 0⟩ 0x100) (natBytes 64 1)) crew (group [0] 2)
        (thread 0) head2 ∧
      MayCommit s ((s.give agent0 (.stage ⟨0, 1, 0⟩ 0x100 0)).write (.plot ⟨0, 1, 0⟩ 0x100) (natBytes 64 1)) crew (group [0] 2)
        (thread 0) head2 ∧
      MayCommit s s crew (group [0] 2) (thread 0) head2) ∧
    Solo crew (group [0] 2) g7 0 (thread 0) ∧ 0x100 % 256 = 0 ∧ 0x100 + 256 ≤ kern.plot ∧
    (∀ s ∈ [ringed 2 [], ringed (2 ^ 52) out], let h := s.ringHeader ⟨0, 1, 0⟩ 0x100
      ringErr h = false ∧ s.ringCovered ⟨0, 1, 0⟩ 0x100 h = false ∧ ringStage h (ringTail h) = if ringOut h then 0 else 2) ∧
    ringErr ((ringed (2 ^ 54) []).ringHeader ⟨0, 1, 0⟩ 0x100) = true ∧
    (let s := ringed (2 ^ 53) []
      let h := s.ringHeader ⟨0, 1, 0⟩ 0x100
      ringErr h = false ∧ ringStage h (ringTail h) ≠ 2 ∧ ringDone h = true) ∧
    (let s := ringed 0 []
      let h := s.ringHeader ⟨0, 1, 0⟩ 0x100
      ringErr h = false ∧ s.ringCovered ⟨0, 1, 0⟩ 0x100 h = false ∧ ringStage h (ringTail h) ≠ 2 ∧ ringDone h = false) ∧
    ∀ s ∈ [ringed 3 [], ringed (2 ^ 52 + 3) out], let h := s.ringHeader ⟨0, 1, 0⟩ 0x100
      ringStage h 0 = 3 ∧ 0 < ringStages h ∧ 0 < ringSize h ∧
        pattern (view s crew (group [0] 2) 0 (thread 0)) false (.lit 0x200) = 0x100 + 256 + 256 * ringSize h * 0 := by
  refine ⟨?_, solo.2, ?_⟩ <;> (try unfold MayCommit) <;> decide +kernel

/-! ## Scheduling, exchange and debugging -/

/-- What the Cox has done, where it did not have to wait. -/
def coxDone {α : Type} : Cox α → Option α
  | .ok a => some a
  | .waits _ _ => none
  | .held _ => none

theorem cox_done {α : Type} {x : Cox α} {a : α} (h : coxDone x = some a) : x = .ok a := by
  cases x with
  | ok b => simp only [coxDone, Option.some.injEq] at h; exact h ▸ rfl
  | waits _ _ => simp [coxDone] at h
  | held _ => simp [coxDone] at h

/-- A node with some records in its tray, its graph instance, 9, with a standing hold; the scene with it. -/
def node (recs cap : Nat) : Node :=
  { kernel := kern, rsz := 16, coal := 8, flush := 0, prio := 0, ord := false, keyoff := 0, ublk := 0, nevent := 0, nirq := false
    tcap := cap, rpoff := 0, tray := List.replicate recs ⟨List.replicate 16 0, 0, []⟩, fired := 0, streams := [] }

def graph (n : Node) : Graph :=
  { bed := 0, inst := 9, nodes := [n], count := 1, hold := true, dbg := false, rfl := 0, parkt := 0, slice := 0, stat := 0, event := 0
    tag := 0, irq := false }

def graphed (n : Node) : State := { one 2 with graphs := [graph n] }

/-- Room for one record more, none; a record that closes the instance, and one the Cox refuses with code 5. -/
theorem wit_Launching : let x := view (one 2) crew (group [0] 2) 0 (thread 0)
    let p : List Part := [⟨.mod 0x28040, 320, 0, none⟩]
    Solo crew (group [0] 2) g7 0 (thread 0) ∧ (crew.s.get 26).toNat / 2 ^ 24 = 0 ∧ (crew.s.get 26).toNat % 4096 = 0 ∧
    (∀ n ∈ [node 7 8, node 8 8], let s := graphed n
      calmB s crew (group [0] 2) = true ∧ s.emitInst x (crew.s.get 26) = some 9 ∧ s.graph? 0 9 = some (graph n) ∧
      (graph n).nodes[0]? = some n ∧ 4 * ((3 : BitVec 6).toNat + 1) = n.rsz ∧
      MayCommit s s crew (group [0] 2) (thread 0) head2 ∧
      MayCommit s { s with graphs := [{ graph n with count := 2 }] } crew (group [0] 2) (thread 0) head2) ∧
    (node 7 8).tray.length < 8 ∧ 8 ≤ (node 8 8).tray.length ∧
    (∀ s ∈ [graphed (node 0 8), one 2], calmB s crew (group [0] 2) = true ∧ s.access x .read 0x18040 320 = .inr p ∧
      s.watch x false true false 0x18040 320 = none ∧ s.migrWait p = none) ∧
    (∃ s1, (graphed (node 0 8)).submit 0 ((graphed (node 0 8)).readParts p) true ((graphed (node 0 8)).upTo x.agent) =
        .ok (s1, .accepted 9) ∧
      MayCommit (graphed (node 0 8)) (s1.coxForget 0) crew (group [0] 2) (thread 0) head2) ∧
    (∃ s1, (one 2).submit 0 ((one 2).readParts p) true ((one 2).upTo x.agent) = .ok (s1, .refused 5) ∧
      MayCommit (one 2) (s1.coxForget 0) crew (group [0] 2) (thread 0) head2) ∧
    MayCommit (one 2) ((one 2).releaseStream 0 1 ((one 2).upTo x.agent)) crew (group [0] 2) (thread 0) head2 := by
  refine ⟨solo.2, ?_, ?_, ?_, ?_, ?_, ?_, ⟨((coxDone ((graphed (node 0 8)).submit 0 ((graphed (node 0 8)).readParts
      [⟨.mod 0x28040, 320, 0, none⟩]) true ((graphed (node 0 8)).upTo agent0))).getD (one 2, .refused 0)).1, cox_done ?_, ?_⟩,
    ⟨((coxDone ((one 2).submit 0 ((one 2).readParts [⟨.mod 0x28040, 320, 0, none⟩]) true ((one 2).upTo agent0))).getD
      (one 2, .refused 0)).1, cox_done ?_, ?_⟩, ?_⟩ <;> (try unfold MayCommit) <;> decide +kernel

/-- The object at 0x18020: its count is 5; thresholds of 5 and 6; the same while its page moves. -/
theorem wit_EventObjects : let x := view (one 2) crew (group [0] 2) 0 (thread 0)
    let p : Part := ⟨.mod 0x28020, 8, 0, none⟩
    let w := (one 2).objectWrite x p.loc (Machine.modOf .rel .device) (.atomic .add .b64 1)
    Calm (one 2) crew (group [0] 2) ∧ Solo crew (group [0] 2) g7 0 (thread 0) ∧ x.reg64 (.s 16) = 0x18020 ∧
    (one 2).eventObject x .atomic 0x18020 = .inr [p] ∧ (one 2).watch x false true true 0x18020 8 = none ∧ p.mig = none ∧
    MayCommit (one 2) (((one 2).make p.loc w).1.lineAfter (one 2) x p .dflt 0x18020 8) crew (group [0] 2) (thread 0) head2 ∧
    (let s := migrating [];
      Calm s crew (group [0] 2) ∧
        s.eventObject (view s crew (group [0] 2) 0 (thread 0)) .atomic 0x18020 = .inr [⟨.mod 0x28020, 8, 0, some (0, 0x18020)⟩] ∧
        MayCommit s (s.hold 0 0x18020 w) crew (group [0] 2) (thread 0) head2) ∧
    (one 2).waitObject x 0x18020 = .inr (.mod 0x28020) ∧ (one 2).watch x false true false 0x18020 8 = none ∧
    leNat ((one 2).read (.mod 0x28020) 8) = 5 ∧ pattern x true (.int 21) = 5 ∧ pattern x true (.int 22) = 6 ∧
    Onward (one 2) crew (group [0] 2) head2 ∧ MayCommit (one 2) (one 2) crew (group [0] 2) (thread 0) head2 ∧
    (∀ w ∈ [Leaving.preempt 0, .park [.event (.va 0 0x18020) 6]],
      MayCommit (one 2) ((one 2).setTeam ⟨0, 1, 0⟩ fun x => x.toLeave w) crew (group [0] 2) (thread 0) head2) := by
  refine ⟨calm_one, solo.2, ?_, ?_, ?_, ?_, ?_, ⟨calm_of ?_, ?_, ?_⟩, ?_⟩ <;> (try unfold MayCommit) <;> (try unfold Onward) <;>
    decide +kernel

/-- m1 holds lane 1, whose guard @p0 is false; under @p7 every lane of it executes. -/
theorem wit_Exchange : Calm (one 2) crew (group [0] 2) ∧ Solo crew (group [0] 2) g7 0 (thread 0) ∧ (thread 0).handler = false ∧
    crew.tokens = [] ∧ (thread 0).pend = [] ∧ (one 2).commitCheck crew (group [0] 2) [] = .ok ∧ Ready 2 ∧
    (∃ f : RedlF, Instr.redl ⟨g7, 511, .v 4 .self, 11, .iadd, 0⟩ = .redl f ∧ f.d.toNat < 512 ∧ f.m.toNat < 12) ∧
    (∃ f : ScanlF, Instr.scanl ⟨g0, 8, .v 4 .self, 1, .iadd, true, 2⟩ = .scanl f ∧ f.incl = true) ∧
    Together crew (group [0, 1] 2) ∧ 4 ∈ [4, 5, 6] ∧ crew.lanes.length = 2 ^ 4 ∧ Idle crew (group [0, 1] 2) ∧
    (∃ j ∈ members crew 1, j ∉ actives crew (group [0, 1] 2) g0) ∧
    (∀ j ∈ members crew 1, j ∈ actives crew (group [0, 1] 2) g7) ∧ actives crew (group [0, 1] 2) g7 ≠ [] :=
  ⟨calm_one, solo.2, rfl, rfl, rfl, by decide +kernel, ready.1, ⟨_, rfl, by decide, by decide⟩, ⟨_, rfl, rfl⟩, each (by decide +kernel),
    by decide, rfl, each (by decide +kernel), by decide +kernel, by decide +kernel, by decide +kernel⟩

/-- A crew of team 1 in slot 1 of the core, with one thread. -/
def crew1 : Crew :=
  { crew with cid := 1, slot := 1, owner := 1, lanes := some { thread 0 with team := 1 } :: List.replicate 15 none }

/-- The scene with team 1 placed too, halted perhaps, and recorded to halt at its placement perhaps. -/
def debugged (halted later : Bool) (place : Option Place) : State :=
  { one 2 with
    crews := if place.isSome then [crew, crew1] else [crew]
    teams := [sceneTeam, { freshTeam ⟨0, 1, 1⟩ with place := place, started := true, halted := halted, haltAtPlace := later }] }

def place1 : Option Place := some ⟨0, [0], [(0, 1)]⟩

/-- The same crew, its thread at a REDL. -/
def summing : Crew :=
  { crew1 with lanes := some { thread 0 with
      team := 1, redl := some { id := 0, m := 0, op := .iadd, d := 9, scan := false, incl := false, pc := 0x10008, value := 1, left := 0
                                hdr := 0x10000 } } :: List.replicate 15 none }

/-- Lane 0 asks for team 1 in each of the states it may be in; team 3 does not exist; a launch without debug privilege. -/
theorem wit_Debugging : let f : DbgF := ⟨g7, .v 8, .s 20, .int 16, .int 16⟩
    let r : TeamRef := ⟨0, 1, 1⟩
    let poor := here crew { launch with dbg := false } [0, 1] 2
    let x := view (one 2) crew (group [0] 2) 0 (thread 0)
    Calm (one 2) crew (group [0] 2) ∧ Onward (one 2) crew (group [0] 2) head2 ∧
    Calm poor crew (group [0, 1] 2) ∧ Onward poor crew (group [0, 1] 2) head2 ∧ Leads crew (group [0, 1] 2) f.g 0 (thread 0) ∧
    Deliverable poor crew (group [0, 1] 2) 8 { kern with width := 16 } head2 ∧
    (poor.launch? 0 1).map (·.dbg) = some false ∧
    Solo crew (group [0] 2) g7 0 (thread 0) ∧ (one 2).exists_ (x.target (.s 22)) = false ∧
    (∃ la, (one 2).launch? 0 1 = some la ∧ la.dbg = true) ∧ (∀ q, (thread 0).wait ≠ .step q true ∧ (thread 0).wait ≠ .halt q) ∧
    (∀ w ∈ [Wait.halt r, .step r true], let c := { crew with lanes := some { thread 0 with wait := w } :: List.replicate 15 none }
      calmB (with_ c) c (group [0] 2) = true ∧ (view (with_ c) c (group [0] 2) 0 { thread 0 with wait := w }).target f.a = r) ∧
    ((debugged false false place1).treeWaits r = false ∧ let s := { debugged false false place1 with crews := [crew, summing] };
      calmB s crew (group [0] 2) = true ∧ s.treeWaits r = true ∧ s.exists_ r = true ∧ s.halted r = false) ∧
    (∀ s ∈ [one 2, debugged false false place1, debugged false false none, debugged false true none, debugged true false place1,
        debugged true false none],
      calmB s crew (group [0] 2) = true ∧ after (group [0] 2) ≠ blockEnd 0x10000 head1 ∧
      s.launch? 0 1 = some launch ∧ launch.dbg = true ∧ (view s crew (group [0] 2) 0 (thread 0)).target f.a = r ∧ s.exists_ r = true ∧
      (∀ tm ∈ s.team? r, tm.stepping = [])) ∧
    (one 2).team? r = none ∧ (one 2).halted r = false ∧ (debugged true false place1).halted r = true ∧
    (debugged true false none).stepCrews r = [] ∧ (debugged true false place1).stepCrews r ≠ [] ∧
    0 ∉ (debugged true false place1).stepCrews r ∧
    (let s := debugged true false place1;
      s.named r 0x4 = some (0, .v 4) ∧ s.standing r 0 = .lane crew1 0 { thread 0 with team := 1 } ∧
      s.readNamed crew1 0 { thread 0 with team := 1 } (.v 4) = some 0x18000 ∧ (Named.v 4).writable = true ∧
      (crew1.writeNamed 1 0 0x10018 7 (.v 4)).isSome = true ∧ 0 < s.threadsOf r ∧
      pattern x false (.int 16) = 0 * 2 ^ 19 + 0 + 0 ∧ pattern x false (.int 47) = 0 * 2 ^ 19 + 16 + 15) ∧
    (pattern x false (.lit 0x19B) = 3 + 8 * 3 + 32 * 12 ∧ pattern x true (.lit 0x18000) % 2 ^ 12 = 0 ∧
      (debugged true false place1).unitTaken r 0 3 = false) := by
  refine ⟨calm_one, ?_, calm_of ?_, ?_, ?_, ⟨?_, ?_, ?_, fun _ => ?_, ?_⟩, ?_, solo.2, ?_, ⟨_, rfl, rfl⟩, ?_, ?_, ?_, ?_, ?_, ?_, ?_, ?_, ?_, ?_,
    ?_, ?_⟩ <;>
    (try unfold Onward) <;> (try unfold Leads) <;> (try show ∀ l ∈ [0, 1], _) <;>
    (first | decide +kernel | exact fun q => ⟨nofun, nofun⟩ | exact ⟨rfl, rfl, rfl⟩ |
      exact ⟨by decide +kernel, rfl, by decide +kernel⟩)

/-! ## Steps of the engines -/

/-- What an engine has got, where it neither fails nor waits. -/
def got {α : Type} : Gets α → Option α
  | .ok a => some a
  | .fail _ => none
  | .waits _ => none
  | .hold => none

theorem got_ok {α : Type} {x : Gets α} {a : α} (h : got x = some a) : x = .ok a := by
  cases x with
  | ok b => simp only [got, Option.some.injEq] at h; exact h ▸ rfl
  | fail _ => simp [got] at h
  | waits _ => simp [got] at h
  | hold => simp [got] at h

theorem got_some {α : Type} {x : Gets α} (h : (got x).isSome = true) : ∃ a, x = .ok a := by
  cases x with
  | ok b => exact ⟨b, rfl⟩
  | fail _ => simp [got] at h
  | waits _ => simp [got] at h
  | hold => simp [got] at h

/-- The scene with a command alone. -/
def engined (c : Cmd) : State := { one 2 with cmds := [c] }

theorem waiting_of {s : State} {id type : Nat} {c : Cmd}
    (h : (s.cmd? id == some c && c.type == type && c.headOk && c.status.isNone && c.waits.isEmpty && !c.bobj) = true) :
    Waiting s id type c := by
  simp only [Bool.and_eq_true, beq_iff_eq, Option.isNone_iff_eq_none, List.isEmpty_iff, Bool.not_eq_true'] at h
  obtain ⟨⟨⟨⟨⟨h1, h2⟩, h3⟩, h4⟩, h5⟩, h6⟩ := h
  exact ⟨h1, h2, h3, h4, h5, fun e => by simp [h6] at e⟩

/-- The weights of a command are in their slot, or it uses none. -/
theorem weights_there {s : State} {c : Cmd}
    (h : (!Mma.weighs c || (s.weights? c (Mma.ascl c) (Mma.dh c)).isSome) = true) : s.loadWeights c = .ok s := by
  unfold State.loadWeights
  split
  · rfl
  · rename_i hw
    simp only [Bool.or_eq_true, hw, Bool.false_eq_true, false_or] at h
    cases e : s.weights? c (Mma.ascl c) (Mma.dh c) with
    | none => simp [e] at h
    | some _ => rfl

/-- Commands of one element: DENSE, GROUPED on an empty entry, the two latent modes in their key role. -/
def dense : Cmd := cmd 1 0 (0x18000 + 0x18000 * 2 ^ 64 + 32 * 2 ^ 128 + 32 * 2 ^ 160)
def grouped : Cmd := cmd 1 0 (0x18140 + 2 ^ 264)
def expand : Cmd := cmd 1 0 (0x18000 + 0x18100 * 2 ^ 64 + 32 * 2 ^ 128 + 111 * 2 ^ 224 + 14 * 2 ^ 260 + 2 * 2 ^ 264 + 2 ^ 352)
def absorb : Cmd := cmd 1 0 (0x18000 + 0x18100 * 2 ^ 64 + 32 * 2 ^ 128 + 479 * 2 ^ 224 + 14 * 2 ^ 260 + 3 * 2 ^ 264 + 2 ^ 352)

/-- Half of a span pair whose other half does not come. -/
def spanning : Cmd := { cmd 1 0 (0x18000 + 0x18000 * 2 ^ 64 + 32 * 2 ^ 128 + 32 * 2 ^ 160 + 2 ^ 268) with arrived := true, cycles := 2 ^ 24 }

/-- Moves of one element, and a clear. -/
def storing : Cmd := cmd 2 0 0x18000
def loading : Cmd := cmd 3 0 0x18000
def clearing : Cmd := cmd 4 0 0

/-- A command that has started, alone in its group. -/
def started (c : Cmd) (desc : List Word) (entry : Nat) : Cmd := { c with rows := some [], group := [0], desc := desc, entry := entry }

/-- A group table of one entry of one row. -/
def table : List Word := [1, 0, 0x18000, 0, 0x18000, 0, 0x18200, 0]

theorem wit_MatrixCommands :
    (∀ c ∈ [dense, grouped, expand, absorb], Waiting (engined c) 0 1 c ∧ c.rows = none ∧ Mma.span c = 0 ∧
      (engined c).moveTurn c = true ∧ (engined c).mmaStatus c = none ∧
      ∃ desc, (engined c).readDesc c = .ok desc ∧ descStatus c desc = none) ∧
    [dense, grouped, expand, absorb].map Mma.mode = [0, 1, 2, 3] ∧
    (let c := started dense [] 0;
      let s := engined c;
      Waiting s 0 1 c ∧ s.members c = [c] ∧ s.cmdResident c = true ∧ s.loadWeights c = .ok s ∧ (∃ side, s.sideB c = .ok side) ∧
        Mma.rowsOf c = 1 ∧ ∃ a, s.aRow c 0 = .ok a) ∧
    (let c := started expand [0x10000, 0, 0, 2, 0, 0, 0, 0] 0;
      let s := { engined c with lxs := [⟨0, 0, 0, 1, 0, 16, []⟩] };
      Waiting s 0 1 c ∧ s.members c = [c] ∧ s.cmdResident c = true ∧ s.loadWeights c = .ok s ∧ (∃ side, s.sideB c = .ok side) ∧
        ∃ a, s.aRow c 0 = .ok a) ∧
    (let c := started grouped table 1;
      Waiting (engined c) 0 1 c ∧ (engined c).members c = [c] ∧ Mma.entries c ≤ c.entry) ∧
    (let c := started grouped table 0;
      let s := (engined c).scratchSlots [c];
      Waiting (engined c) 0 1 c ∧ (engined c).members c = [c] ∧ c.entry < Mma.entries c ∧ c.rp < (tableEntry c.desc c.entry).rows ∧
        ∃ r, s.groupedRow c 0 0 = .ok r ∧ ∃ ps, s.parts c .write r.1 = .ok ps) ∧
    (let s := engined spanning;
      Waiting s 0 1 spanning ∧ s.joins spanning spanning = true ∧ (s.spanGroup spanning).length < (spanTile (Mma.span spanning)).2.2 ∧
        ∃ x ∈ s.spanGroup spanning, x.arrived = true ∧ 2 ^ 24 ≤ x.cycles) ∧
    (let s := engined storing;
      Waiting s 0 2 storing ∧ s.moveTurn storing = true ∧ s.moveStatus storing = none ∧ Move.rows storing = 1 ∧
        ∃ ps, s.parts storing .write (Move.range storing 0) = .ok ps) ∧
    (let s := engined loading;
      Waiting s 0 3 loading ∧ s.moveTurn loading = true ∧ s.moveStatus loading = none ∧ Move.rows loading = 1 ∧
        ∃ bs, s.operand loading false 0x18000 4 = .ok bs) ∧
    (let s := engined clearing;
      Waiting s 0 4 clearing ∧ s.moveTurn clearing = true ∧ clearing.f 0 128 = 0 ∧ clearing.f 130 286 = 0 ∧
        s.badSlot clearing = false) := by
  refine ⟨?_, ?_, ⟨waiting_of ?_, ?_, ?_, weights_there ?_, got_some ?_, ?_, got_some ?_⟩,
    ⟨waiting_of ?_, ?_, ?_, weights_there ?_, got_some ?_, got_some ?_⟩,
    ⟨waiting_of ?_, ?_, ?_⟩, ⟨waiting_of ?_, ?_, ?_, ?_, _, got_ok (Option.some_get ?_).symm, got_some ?_⟩,
    ⟨waiting_of ?_, ?_, ?_, ?_⟩, ⟨waiting_of ?_, ?_, ?_, ?_, got_some ?_⟩, ⟨waiting_of ?_, ?_, ?_, ?_, got_some ?_⟩,
    ⟨waiting_of ?_, ?_, ?_, ?_, ?_⟩⟩
  · intro c hc
    have h : ∀ c ∈ [dense, grouped, expand, absorb], ((engined c).cmd? 0 == some c && c.type == 1 && c.headOk && c.status.isNone &&
      c.waits.isEmpty && !c.bobj) = true ∧ c.rows = none ∧ Mma.span c = 0 ∧ (engined c).moveTurn c = true ∧
      (engined c).mmaStatus c = none ∧ (got ((engined c).readDesc c)).isSome = true ∧
      descStatus c ((got ((engined c).readDesc c)).getD []) = none := by decide +kernel
    obtain ⟨h1, h2, h3, h4, h5, h6, h7⟩ := h c hc
    obtain ⟨d, hd⟩ := got_some h6
    exact ⟨waiting_of h1, h2, h3, h4, h5, d, hd, by rw [hd] at h7; exact h7⟩
  all_goals decide +kernel

/-- The first bytes of a page are free to copy to. -/
abbrev part (off n : Nat) : List Part := [⟨.mod (0x20000 + off), n, 0, none⟩]

/-- A row to memory and to plot; a packed row by an index in range and by one that is not; the same scattered and added; an empty bag
and a bad one; a tile to the one target; a weight slot. -/
def copying (plot : Bool) : Cmd := cmd 5 1 (0x18000 + (if plot then 0x100 else 0x18400) * 2 ^ 64 + 4 * 2 ^ 128 + if plot then 2 ^ 257 else 0)
def gathering (rows : Nat) : Cmd := cmd 6 2 (0x18000 + 4 * 2 ^ 64 + rows * 2 ^ 96 + 0x18200 * 2 ^ 160 + 0x18400 * 2 ^ 256)
def scattering (rows : Nat) (add : Bool) : Cmd :=
  cmd 7 2 (0x18000 + 4 * 2 ^ 64 + rows * 2 ^ 96 + (if add then 2 ^ 138 else 0) + 0x18200 * 2 ^ 160 + 0x18400 * 2 ^ 256)
def raking (offs : Nat) : Cmd := cmd 8 3 (0x18180 + 0x18200 * 2 ^ 64 + offs * 2 ^ 192 + 0x18400 * 2 ^ 256)
def casting : Cmd := cmd 11 7 (0x18400 + 256 * 2 ^ 64 + 2 ^ 160)
def weighing : Cmd := cmd 10 5 (0x18400 + 2 ^ 68)

theorem wit_TransferCommands :
    (∀ b ∈ [false, true], let c := copying b
      let s := engined c
      let to_ : List Part := if b then [⟨.plot ⟨0, 1, 0⟩ 0x100, 4, 0, none⟩] else part 0x8400 4
      Waiting s 0 5 c ∧ c.f 176 16 = 0 ∧ c.f 258 158 = 0 ∧ c.f 128 32 = 4 ∧ c.f 160 16 = 0 ∧ c.bit 256 = false ∧
        (c.bit 257 = true → c.f 96 32 = 0 ∧ s.plotRows c (c.f 64 64) (c.f 224 32) 1 4 = true) ∧
        (∃ bs, s.gets c ⟨false, 0x18000, 4⟩ = .ok bs) ∧ s.parts c .read ⟨false, 0x18000, 4⟩ = .ok (part 0x8000 4) ∧
        s.parts c .write ⟨b, c.f 64 64, 4⟩ = .ok to_ ∧
        ∀ p ∈ to_, ∀ i, i < p.len → ∀ o ∈ part 0x8000 4, o.has (p.loc.add i) = false) ∧
    (∀ n ∈ [0, 1], let c := gathering n
      let s := engined c
      Waiting s 0 6 c ∧ c.table.nr = n ∧ s.tableStatus c true 256 = none ∧ s.getsWords c ⟨false, 0x18200, 4⟩ = .ok [0] ∧
        (∃ bs, s.gets c ⟨false, 0x18000, 4⟩ = .ok bs) ∧ s.parts c .write ⟨false, 0x18400, 256⟩ = .ok (part 0x8400 256)) ∧
    (∀ n ∈ [0, 1], ∀ b ∈ [false, true], let c := scattering n b
      let s := engined c
      Waiting s 0 7 c ∧ c.table.nr = n ∧ c.bit 138 = b ∧ s.tableStatus c false 4 = none ∧ s.getsWords c ⟨false, 0x18200, 4⟩ = .ok [0] ∧
        (∃ bs, s.gets c ⟨false, 0x18400, 4⟩ = .ok bs) ∧ s.parts c .write ⟨false, 0x18000, 4⟩ = .ok (part 0x8000 4) ∧
        s.migrWait (part 0x8000 4) = none) ∧
    (∀ x ∈ [(0x18200, [(0 : Word), 0], some [(0 : Byte), 0, 0, 0]), (0x18004, [1, 0], none)], let c := raking x.1
      let s := engined c
      Waiting s 0 8 c ∧ c.f 387 29 = 0 ∧ c.f 336 16 = 0 ∧ c.f 384 2 = 0 ∧ c.f 128 64 = 0 ∧ c.f 0 64 % 32 = 0 ∧ c.f 64 64 % 4 = 0 ∧
        c.f 192 64 % 4 = 0 ∧ c.f 256 64 % 4 = 0 ∧ c.f 352 32 = 0 ∧ c.f 320 16 = 0 ∧ c.bit 386 = false ∧
        s.gets c ⟨false, c.f 0 64, 32⟩ = .ok (natBytes 32 (32 * 2 ^ 128)) ∧ s.getsWords c ⟨false, c.f 192 64, 8⟩ = .ok x.2.1 ∧
        s.rakeBag c (32 * 2 ^ 128) x.2.1 0 = .ok x.2.2 ∧ s.parts c .write ⟨false, 0x18400, 4⟩ = .ok (part 0x8400 4)) ∧
    (let c := casting;
      let s := engined c;
      Waiting s 0 11 c ∧ s.launch? 0 1 = some launch ∧ c.f 193 223 = 0 ∧ c.f 64 32 = 256 ∧ c.f 96 32 = 0 ∧ 0 + 256 ≤ launch.kernel.plot ∧
        c.bit 192 = false ∧ ((List.range 32).filter fun i => c.bit (160 + i)) = [0] ∧ c.f 128 32 = 0 ∧ 0 < launch.teams ∧
        s.residentIn ⟨0, 1, 0⟩ 0 = true ∧ ∃ bs, s.gets c ⟨false, 0x18400, 256⟩ = .ok bs) ∧
    (let c := weighing;
      let s := engined c;
      Waiting s 0 10 c ∧ c.f 72 344 = 0 ∧ c.f 68 4 = 1 ∧ c.f 0 64 % 256 = 0 ∧ s.lxs = [] ∧
        ∃ bs, s.gets c ⟨false, 0x18400, 768 * 16⟩ = .ok bs) := by
  refine ⟨fun b hb => ?_, fun n hn => ?_, fun n hn b hb => ?_, fun n hn => ?_, ⟨waiting_of ?_, ?_, ?_, ?_, ?_, ?_, ?_, ?_, ?_, ?_, ?_,
    got_some ?_⟩, ⟨waiting_of ?_, ?_, ?_, ?_, rfl, got_some ?_⟩⟩
  · refine ⟨waiting_of ?_, ?_, ?_, ?_, ?_, ?_, ?_, got_some ?_, got_ok ?_, got_ok ?_, ?_⟩ <;> (revert b; decide +kernel)
  · refine ⟨waiting_of ?_, ?_, ?_, got_ok ?_, got_some ?_, got_ok ?_⟩ <;> (revert n; decide +kernel)
  · refine ⟨waiting_of ?_, ?_, ?_, ?_, got_ok ?_, got_some ?_, got_ok ?_, ?_⟩ <;> (revert n b; decide +kernel)
  · refine ⟨waiting_of ?_, ?_, ?_, ?_, ?_, ?_, ?_, ?_, ?_, ?_, ?_, ?_, got_ok ?_, got_ok ?_, got_ok ?_, got_ok ?_⟩ <;>
      (revert n; decide +kernel)
  all_goals decide +kernel

/-- A pattern list of one position, which the record includes; a partial of one row and column; a command with an object to update. -/
def listing : Cmd := cmd 13 4 (0x18240 + 2 ^ 64 + 2 ^ 128 + 0x10000 * 2 ^ 160 + 0x18400 * 2 ^ 224 + 0x18408 * 2 ^ 288 + 2 ^ 352)
def merging : Cmd := cmd 12 6 (0x100 + 0x200 * 2 ^ 32 + 7 * 2 ^ 64 + 2 * 2 ^ 80 + 2 ^ 96)
def updating : Cmd := { cmd 5 1 (0x18000 * 2 ^ 416 + 2 ^ 494) with status := some 0, update := some 4 }

/-- The same with its object on a page that nothing backs. -/
def parting : Cmd := { cmd 5 1 (0x30000 * 2 ^ 416 + 2 ^ 494) with status := some 0, update := some 4 }

/-- A member of the same group from another team, arrived; the same long ago. -/
def partner : Cmd := { merging with id := 1, team := 1, arrived := true }
def late_ : Cmd := { merging with arrived := true, cycles := 2 ^ 24 }

theorem wit_TokensAndLists :
    (let c := listing;
      let s := engined c;
      Waiting s 0 13 c ∧ c.f 120 8 = 0 ∧ c.f 152 8 = 0 ∧ c.f 384 32 = 0 ∧ c.f 128 24 = 1 ∧ c.f 96 24 = 0 ∧ c.f 64 32 = 1 ∧
        c.f 224 64 % 4 = 0 ∧ c.f 288 64 % 8 = 0 ∧ s.gets c ⟨false, c.f 0 64, 64⟩ = .ok (natBytes 64 1) ∧
        field (leNat (natBytes 64 1)) 0 32 = 1 ∧ field (leNat (natBytes 64 1)) 32 480 = 0 ∧ s.getsWords c ⟨false, 0, 0⟩ = .ok [] ∧
        [0].Pairwise (· < ·) ∧ [0].length ≤ c.f 352 32 ∧ s.parts c .write ⟨false, c.f 224 64, 8⟩ = .ok (part 0x8400 8) ∧
        s.parts c .write ⟨false, c.f 288 64, 16⟩ = .ok (part 0x8408 16)) ∧
    (∀ l ∈ [[], [partner]], let c := merging
      let s := { engined c with cmds := c :: l }
      Waiting s 0 12 c ∧ c.arrived = false ∧ s.cmdResident c = true ∧ s.mergeStatus c = none ∧ s.mergeGroup c = l ∧
        (∀ x ∈ s.mergeGroup c, Mrg.key x = Mrg.key c ∧ x.team ≠ c.team) ∧ (s.mergeGroups 0).length < 8 ∧
        ∃ ws, s.getsWords c ⟨true, Mrg.poff c, Mrg.rows c * Mrg.pitch c⟩ = .ok ws) ∧
    (Waiting (engined late_) 0 12 late_ ∧ late_.arrived = true ∧ ∃ x ∈ (engined late_).mergeGroup late_, 2 ^ 24 ≤ x.cycles) ∧
    (let c := { late_ with partial_ := [[1, 0x3F800000, 0x3F800000]] };
      let d := { partner with partial_ := [[0, 0x3F800000, 0]] };
      let s := { engined c with cmds := [c, d] };
      [c, d].Perm [d, c] ∧ [c, d].Pairwise (fun x y => x.team < y.team ∧ x.id ≠ y.id) ∧ c.type = 12 ∧ d.type = 12 ∧ Mrg.key d = Mrg.key c ∧
        Mrg.rows c = 1 ∧ s.parts c .write ⟨true, Mrg.ooff c + 0 * Mrg.outPitch c, Mrg.outLen c⟩ =
          .ok [⟨.plot ⟨0, 1, 0⟩ 0x200, 12, 0, none⟩]) ∧
    (∀ c ∈ [{ dense with status := some 0 }, cmd 0 0 0], (engined c).cmd? 0 = some c ∧ c.waits = [] ∧
      (engined c).crew? c.cid = some crew ∧ c.bobj = false ∧
      (c.status = some 0 ∧ (∀ x ∈ (engined c).updatesBefore c, x.update = none) ∨ c.status = none ∧ c.typeOk = false)) ∧
    (let c := updating;
      let s := engined c;
      s.cmd? 0 = some c ∧ c.waits = [] ∧ s.crew? c.cid = some crew ∧ c.status = some 0 ∧ c.update = some 4 ∧ s.updatesBefore c = [c] ∧
        s.cmdObject c = .ok ⟨.mod 0x28000, 16, 0, none⟩ ∧ s.read (.mod 0x28000) 16 = object 0 1 0 1 ∧ 0 ≤ (1 : Word).toInt ∧
        0 < (1 : Word).toInt) ∧
    (∀ p ∈ [(updating, true), (parting, false)], let s := engined p.1
      s.cmd? 0 = some p.1 ∧ p.1.waits = [] ∧ p.1.status.isSome = true ∧ ∃ u, s.makeUpdates (s.updatesBefore p.1) = (u, p.2)) := by
  refine ⟨⟨waiting_of ?_, ?_, ?_, ?_, ?_, ?_, ?_, ?_, ?_, got_ok ?_, ?_, ?_, got_ok ?_, ?_, ?_, got_ok ?_, got_ok ?_⟩, fun l hl => ?_,
    ⟨waiting_of ?_, ?_, ?_⟩, ⟨List.Perm.swap _ _ _, ?_, ?_, ?_, ?_, ?_, got_ok ?_⟩, ?_, ⟨?_, ?_, ?_, ?_, ?_, ?_, got_ok ?_, ?_, ?_, ?_⟩,
    fun p hp => ⟨?_, ?_, ?_, _, Prod.ext rfl ?_⟩⟩
  rotate_left 17
  · refine ⟨waiting_of ?_, ?_, ?_, ?_, ?_, ?_, ?_, got_some ?_⟩ <;> (revert l; decide +kernel)
  all_goals first | (revert p; decide +kernel) | decide +kernel

/-- Subscriptions to an input ring of the tensor of record 1, to an output ring, and to a list of five pages' tiles. -/
def subscribing (out : Bool) : Cmd :=
  cmd 9 4 (0x100 + 2 ^ 32 + 2 ^ 48 + (if out then 2 ^ 52 else 0) + 2 ^ 64 + 9 * 2 ^ 224 + 2 ^ 256 + 2 ^ 288)
def listed : Cmd := cmd 9 4 (0x100 + 2 ^ 48 + 2 ^ 53 + 2 ^ 64 + 0x18020 * 2 ^ 96)

/-- The same under way, at a tile. -/
def walking (out : Bool) (cursor : Nat) : Cmd := { subscribing out with walk := some (walk out cursor) }

/-- A thread with a result in flight for v9. -/
def flying : Crew :=
  { crew with lanes := some { thread 0 with pend := [⟨1, 2, 0x10000, [(9, 5)], [], 1⟩] } :: some (thread 1) :: List.replicate 14 none }

theorem wit_RingEngines :
    (∀ out ∈ [false, true], let c := subscribing out
      let s := engined c
      Waiting s 0 9 c ∧ c.walk = none ∧ c.f 80 16 = 0 ∧ c.f 54 10 = 0 ∧ c.f 48 4 = 1 ∧ c.f 64 16 = 1 ∧ c.f 0 32 = 0x100 ∧
        0x100 + 256 + 256 * 1 * 2 ≤ ((s.kernel? 0 1).map (·.plot)).getD 0 ∧ s.ringBusy c 0x100 = false ∧ c.bit 53 = false ∧
        c.f 224 32 * c.f 256 32 * c.f 288 32 = 9 ∧ ∃ r, s.shape 0 0 1 c.home [] = .record r) ∧
    (let c := listed;
      let s := engined c;
      Waiting s 0 9 c ∧ c.walk = none ∧ c.f 80 16 = 0 ∧ c.f 54 10 = 0 ∧ c.f 48 4 = 1 ∧ c.f 64 16 = 1 ∧ c.f 0 32 = 0x100 ∧
        s.ringBusy c 0x100 = false ∧ c.bit 53 = true ∧ c.f 32 16 = 0 ∧ c.f 160 64 = 0 ∧ c.f 224 192 = 0 ∧ c.f 96 64 % 8 = 0 ∧
        s.gets c ⟨false, c.f 96 64, 8⟩ = .ok (natBytes 8 5) ∧ 255 * leNat (natBytes 8 5) < 2 ^ 32) ∧
    (∀ out ∈ [false, true], let c := walking out 0
      let s := ringed (if out then 4 + 2 ^ 52 else 0) [c]
      Waiting s 0 9 c ∧ ((s.team? c.ref).any fun tm => tm.place.isSome) = true ∧ (walk out 0).cursor < (walk out 0).tiles ∧
        ringStage (s.ringHeader ⟨0, 1, 0⟩ 0x100) (ringHead (s.ringHeader ⟨0, 1, 0⟩ 0x100)) = if out then 4 else 0) ∧
    (let c := walking false 0;
      let s := ringed 1 [c];
      Waiting s 0 9 c ∧ ringStage (s.ringHeader ⟨0, 1, 0⟩ 0x100) 0 = 1 ∧
        (∃ bs, (s.walkTile c (walk false 0) 0).bind (s.tileBytes c) = .ok bs) ∧
        s.parts c .write ⟨true, 0x200, 256⟩ = .ok [⟨.plot ⟨0, 1, 0⟩ 0x200, 256, 0, none⟩]) ∧
    (let c := walking true 8;
      let s := ringed (5 + 2 ^ 52) [c];
      Waiting s 0 9 c ∧ ringStage (s.ringHeader ⟨0, 1, 0⟩ 0x100) 0 = 5 ∧ (∃ bs, s.gets c ⟨true, 0x200, 256⟩ = .ok bs) ∧
        (∃ tile, s.walkTile c (walk true 0) 0 = .ok tile ∧ tile.1 = [(0, ⟨false, 0x18000, 16⟩)]) ∧
        s.parts c .write ⟨false, 0x18000, 16⟩ = .ok (part 0x8000 16) ∧ (walk true 8).tiles ≤ (walk true 8).cursor + 1) ∧
    (with_ flying).crew? 0 = some flying ∧ (∃ t, flying.thread? 0 = some t ∧ t.pend[0]? = some ⟨1, 2, 0x10000, [(9, 5)], [], 1⟩) ∧
    [((9, 5) : Nat × Word)].Pairwise (fun a b => a.1 ≠ b.1) := by
  refine ⟨fun out ho => ?_, ⟨waiting_of ?_, ?_, ?_, ?_, ?_, ?_, ?_, ?_, ?_, ?_, ?_, ?_, ?_, got_ok ?_, ?_⟩, fun out ho => ?_,
    ⟨waiting_of ?_, ?_, got_some ?_, got_ok ?_⟩, ⟨waiting_of ?_, ?_, got_some ?_, ⟨([(0, ⟨false, 0x18000, 16⟩)], false), got_ok ?_, rfl⟩,
      got_ok ?_, ?_⟩, ?_, ⟨_, rfl, ?_⟩, ?_⟩
  · refine ⟨waiting_of ?_, ?_, ?_, ?_, ?_, ?_, ?_, ?_, ?_, ?_, ?_, ⟨0x18000 + 4 * 2 ^ 128 + 2 ^ 458, ?_⟩⟩ <;> (revert out; decide +kernel)
  rotate_left 15
  · refine ⟨waiting_of ?_, ?_, ?_, ?_⟩ <;> (revert out; decide +kernel)
  all_goals decide +kernel

/-! ## The encoding and the whole machine -/

/-- The scene of withFetchWord with MOV v8, v9, its thread's group next. -/
abbrev fetching : State := { scene State.reset 0x001C000000902101 with agenda := [.issue 0 0x10000] }

theorem wit_StepRunsDecoded :
    (let u := { fetching with fresh := fetching.fresh + 1, cur := none, agenda := [] };
      let k : Group := ⟨0, [0], 0x10008, 0x10000, head1, 2⟩;
      let ws : List Word := [0x00902101, 0x001C0000];
      fetching.agenda = [.issue k.cid sceneThread.pc] ∧ fetching.modState ≠ 3 ∧ Issuing u sceneCrew k sceneThread ws ∧
        decodeWords (((noted u sceneCrew k).keepWords sceneCrew 2 k.pc).limits sceneCrew k.lanes) ws =
          .instr (.mov ⟨g7, .v 8, .v 9 .self⟩) 2 ∧
        scoreboard sceneCrew k (.mov ⟨g7, .v 8, .v 9 .self⟩) (guardIn 2 ws) (Instr.mov ⟨g7, .v 8, .v 9 .self⟩).touch = [] ∧
        sceneCrew.errs = []) ∧
    family (.powerOn ⟨true, 0, 0⟩ ⟨true, 0, 0⟩) = .event ∧ State.reset.modState ≠ 3 := by
  refine ⟨⟨?_, ?_, ⟨⟨?_, ?_, ?_, ?_, ?_, ?_, ?_, ?_⟩, ?_, ⟨0x00902101, ?_⟩, ?_, ?_⟩, ?_, ?_, ?_⟩, ?_, ?_⟩ <;> decide +kernel

theorem wit_ControlRoundTrip : (Instr.exit g7).wf lim = true ∧ family (.exit g7) = .control ∧
    (Instr.movCompact ⟨8, 9⟩).wf lim = true ∧ family (.movCompact ⟨8, 9⟩) = .compact := by decide

theorem wit_IntegerRoundTrip : ∃ f, family (.iadd f) = .integer ∧ (Instr.iadd f).wf lim = true :=
  ⟨⟨g7, .v 7, .v 4 .self, .lit 0x3E8, false, false, false⟩, by decide⟩

theorem wit_FloatRoundTrip : (∃ f, family (.mov f) = .move ∧ (Instr.mov f).wf lim = true) ∧
    ∃ f, family (.ffma f) = .float ∧ (Instr.ffma f).wf lim = true :=
  ⟨⟨⟨g7, .v 8, .v 9 .self⟩, by decide⟩, ⟨g7, .v 6, .v 1 .self, .v 2 .self, .v 3 .self, .rn, false, false⟩, by decide⟩

theorem wit_MemoryRoundTrip : (∃ f, family (.lds f) = .memory ∧ (Instr.lds f).wf lim = true) ∧
    ∃ f, family (.pqtake f) = .barrier ∧ (Instr.pqtake f).wf lim = true :=
  ⟨⟨⟨g7, .v 12, .v 4, .int 32, .b64, ⟨false, .dflt, .acq, .device⟩, 1⟩, by decide⟩, ⟨⟨false, 3⟩, .v 20, 4, .s 8, 0, 0⟩, by decide⟩

theorem wit_EngineRoundTrip : (∃ f, family (.push f) = .engine ∧ (Instr.push f).wf lim = true) ∧
    (family (.ordrel g7) = .scheduling ∧ (Instr.ordrel g7).wf lim = true) ∧
    ∃ f, family (.dbgSetwp f) = .debug ∧ (Instr.dbgSetwp f).wf lim = true :=
  ⟨⟨⟨g7, 1, 2, 1⟩, by decide⟩, by decide, ⟨g7, .v 2, .s 0, .int 80, .int 100⟩, by decide⟩

theorem stepped {o : Host.Outcome State Fault Refusal} (h : (match o with | .next _ => true | .fault _ => false | .refused _ => false) = true) :
    ∃ t, o = .next t := by
  cases o with
  | next t => exact ⟨t, rfl⟩
  | fault _ => simp at h
  | refused _ => simp at h

/-- A canonical state with a byte of memory, and a step from it. -/
theorem wit_StepKeepsCanonical : Canonical fetching ∧ ∃ t, step fetching = .next t :=
  ⟨⟨by decide +kernel, by decide +kernel, by decide +kernel⟩, stepped (by decide +kernel)⟩

/-! ## Records and placement -/

/-- A record that launches one team of the kernel described at 0x18280, one that starts a graph instance and is refused, one that
closes instance 9. -/
def launchHeader : Nat := 0x18280 + 2 ^ 111
def graphHeader : Nat := 0x18280 + 2 ^ 105 + 2 ^ 111
def closeHeader : Nat := 2 ^ 105 + 2 ^ 108 + 2 ^ 111 + 9 * 2 ^ 224

/-- The scene with a record in the last inlet, a kernel of 16 lanes described at 0x18280, and graph instance 9. -/
def offered (h : Nat) : State :=
  let s := graphed (node 0 8);
  { s with
    mem := s.mem.write 0x28282 [1]
    beds := modifyAt s.beds 0 fun b => { b with inlets := Memory.write [] (512 * 15) (natBytes 64 h) } }

theorem cox_some {α : Type} {x : Cox α} (h : (coxDone x).isSome = true) : ∃ a, x = .ok a := by
  cases x with
  | ok b => exact ⟨b, rfl⟩
  | waits _ _ => simp [coxDone] at h
  | held _ => simp [coxDone] at h

theorem good_of {x : Cox (Machine.Desc Kernel)} (h : (match coxDone x with
    | some (.good _) => true
    | some .bad => false
    | some .unread => false
    | none => false) = true) : ∃ k, x = .ok (.good k) := by
  cases x with
  | ok d => cases d with
    | good k => exact ⟨k, rfl⟩
    | bad => simp [coxDone] at h
    | unread => simp [coxDone] at h
  | waits _ _ => simp [coxDone] at h
  | held _ => simp [coxDone] at h

theorem cox_read {α : Type} {x : Cox (Option α)} (h : ((coxDone x).bind id).isSome = true) : ∃ a, x = .ok (some a) := by
  cases x with
  | ok b => cases b with
    | some a => exact ⟨a, rfl⟩
    | none => simp [coxDone] at h
  | waits _ _ => simp [coxDone] at h
  | held _ => simp [coxDone] at h

theorem wit_Records :
    (∀ h ∈ [launchHeader, graphHeader, closeHeader], let s := offered h
      Record.valid (leNat ((s.bed 0).inlets.read (512 * 15) 64)) = true ∧
        ∃ r, s.submit 0 ((s.bed 0).inlets.read (512 * 15) 320) true (s.upTo .companion) = .ok r) ∧
    [launchHeader, graphHeader, closeHeader].map (fun h => (Record.graph h, Record.close h)) =
      [(false, false), (true, false), (true, true)] ∧
    (let s := offered 0;
      let h := leNat ((natBytes 64 launchHeader).take 64);
      (s.bed 0).on = true ∧ (s.bed 0).fenced = false ∧ Record.graph h = false ∧ s.loadOf 0 < 65536 ∧ Record.dbg h = false ∧
        s.recordBad 0 h = false ∧ (s.bed 0).prioOk (Record.prio h) = true ∧ (Record.kdesc h).toNat % 64 = 0 ∧
        (∃ k, s.readKernel 0 (Record.kdesc h) = .ok (.good k)) ∧ Record.stat h = 0) ∧
    (let s := graphed (node 8 8);
      s.graph? 0 9 = some (graph (node 8 8)) ∧ (graph (node 8 8)).nodes[0]? = some (node 8 8) ∧ (s.bed 0).fenced = false ∧
        (∀ n ∈ [node 8 8, { node 8 8 with ord := true }], n.fires (if n.ord then some 0 else none) = true) ∧
        (node 8 8).coal ≠ 0 ∧ (node 8 8).ublk = 0 ∧ s.launch? 0 (s.launchId 0) = none) ∧
    ∃ bs, (graphed (node 8 8)).coxRead 0 0x10000 256 = .ok (some bs) := by
  refine ⟨fun h m => ⟨?_, cox_some ?_⟩, ?_, ⟨?_, ?_, ?_, ?_, ?_, ?_, ?_, ?_, good_of ?_, ?_⟩, ⟨?_, ?_, ?_, ?_, ?_, ?_, ?_⟩, cox_read ?_⟩
  · revert h; decide +kernel
  · revert h; decide +kernel
  all_goals decide +kernel

theorem both_some {α β : Type} {x : Option α} {f : α → Option β} (h : (x.bind f).isSome = true) : ∃ a b, x = some a ∧ f a = some b := by
  cases x with
  | none => simp at h
  | some a => cases e : f a with
    | none => simp [e] at h
    | some b => exact ⟨a, b, rfl, e⟩

/-- The scene with a team, the crews and some entries of the pool; the launch has slices of 1024 cycles and a park threshold. -/
def crowd (tm : Team) (cs : List Crew) (pool : List PoolEntry) : State :=
  { one 2 with
    cur := none, teams := [tm], crews := cs, pool := pool
    launches := [{ launch with slice := 1, parkt := 1, rfl := 5 }] }

/-- A team that waits to be placed; the crew of the scene with both threads at a WAITEV; a thread in a Riddle bin. -/
def entry1 : PoolEntry := ⟨0, 1, none, 0, 0⟩
def dozing : Crew :=
  { crew with lanes := some { thread 0 with wait := .waitev (.va 0 0x18020) 6 1 } :: List.replicate 15 none }
def binned (seq : Nat) (due : Bool) : Binned :=
  { bed := 0, launch := 1, cluster := some 0, bin := none, key := 7, team := 0, tid := seq, pc := 0x10018, vp := 0, payload := []
    seq := seq, waited := 5, due := due, exempt := [], fences := [] }

/-- The crowd with launch 2, more urgent, whose teams have that much plot memory; its entry. -/
def rivals (plot : Nat) (pool : List PoolEntry) : State :=
  { crowd sceneTeam [crew] pool with
    launches := [{ launch with prio := 1 }, { launch with id := 2, prio := 0, kernel := { kern with plot := plot } }] }
def entry2 : PoolEntry := ⟨0, 2, none, 0, 0⟩

theorem not_both {α β : Type} {x : Option α} {f : α → Option β} (h : (x.all fun a => (f a).isNone) = true) : ∀ a, x = some a → f a = none := by
  intro a e
  subst e
  simpa using h

/-- The first entry placed; one that no cluster can ever hold passed over, alone and before another; one placed by a pre-emption. -/
theorem wit_Placement :
    (let s := crowd sceneTeam [crew] [entry1];
      (s.bed 0).on = true ∧ (s.bed 0).fenced = false ∧ s.poolOrder 0 = [entry1] ∧
        (∃ u t, s.entryUnit entry1 0 = some u ∧ s.placeUnit 0 u = some t) ∧ ∀ x ∈ s.pool, s.overdue x = false) ∧
    (∀ post ∈ [[], [entry1]], let s := rivals 0x500000 (post ++ [entry2])
      s.poolOrder 0 = [entry2] ++ post ∧ (s.bed 0).on = true ∧ (s.bed 0).fenced = false ∧
        (∀ u, s.entryUnit entry2 0 = some u → s.placeUnit 0 u = none) ∧ (∀ u, s.entryUnit entry2 0 = some u → s.chooseVictims entry2 u = none)) ∧
    (let s := rivals 0x500000 [entry1, entry2]; ∃ u t, s.entryUnit entry1 0 = some u ∧ s.placeUnit 0 u = some t) ∧
    (let s := rivals 4186112 [entry2];
      s.poolOrder 0 = [entry2] ∧ s.entryUnit entry2 0 = some [⟨0, 2, 1⟩] ∧ s.placeUnit 0 [⟨0, 2, 1⟩] = none ∧
        s.chooseVictims entry2 [⟨0, 2, 1⟩] = some (0, [⟨0, 1, 0⟩])) ∧
    (let s := crowd { sceneTeam with slice := 1024 } [crew] [entry1];
      ∃ la, s.team? ⟨0, 1, 0⟩ = some { sceneTeam with slice := 1024 } ∧ s.launch? 0 1 = some la ∧ sceneTeam.place.isSome = true ∧
        (∀ q ∈ s.unitOf ⟨0, 1, 0⟩, s.halted q = false) ∧ 0 < la.slice ∧ la.slice * 1024 ≤ 1024 ∧ 0 < s.liveThreads ⟨0, 1, 0⟩ ∧
        ∃ e ∈ s.pool, e.bed = 0 ∧ s.levelOf e ≤ la.prio) ∧
    (crowd sceneTeam [crew] []).pool = [] ∧ sceneTeam.leaving = none ∧ sceneTeam.halted = false ∧
    (let s := crowd sceneTeam [dozing] [];
      ∃ la, s.launch? 0 1 = some la ∧ 0 < la.parkt ∧ s.parkDue ⟨0, 1, 0⟩ la.parkt = true) ∧
    (let q : Cond := .event (.va 0 0x18020) 5;
      (crowd { sceneTeam with place := none, parked := true, conds := [q] } [] []).condHolds q = true) ∧
    (let s := crowd { sceneTeam with exited := 16 } [] [];
      sceneTeam.started = true ∧ s.liveThreads ⟨0, 1, 0⟩ = 0 ∧ s.cmds = [] ∧
        ∃ la, s.launch? 0 1 = some la ∧ la.failed = false ∧ la.tev = false ∧ la.firing = none ∧ la.retired + 1 < la.teams) ∧
    (∀ d ∈ [false, true], let s := { crowd { sceneTeam with place := some ⟨0, [0], [(0, 0), (0, 1)]⟩ } [crew] [] with
        bins := [binned 3 d, binned 4 d] };
      let bin : BinRef := ⟨0, 1, 0, none, 7⟩;
      ∃ la, s.launch? 0 1 = some la ∧ s.emptySlots 0 1 0 none = [(0, 0, 1)] ∧
        (s.binOf bin).take la.kernel.width = [binned 3 d, binned 4 d] ∧ s.binOf bin = [binned 3 d, binned 4 d] ∧ 0 < la.rfl ∧
        la.rfl ≤ (binned 3 d).waited ∧ (∀ b ∈ s.domain 0 1 0, b.inBin bin = true ∧ b.due = d)) := by
  refine ⟨⟨?_, ?_, ?_, both_some ?_, ?_⟩, fun post hp => ⟨?_, ?_, ?_, not_both ?_, not_both ?_⟩, both_some ?_, ⟨?_, ?_, ?_, ?_⟩,
    ⟨_, ?_, rfl, ?_, ?_, ?_, ?_, ?_, ?_⟩, ?_, ?_, ?_, ⟨_, rfl, ?_, ?_⟩, ?_, ⟨?_, ?_, ?_, _, rfl, ?_, ?_, ?_, ?_⟩,
    fun d hd => ⟨_, rfl, ?_, ?_, ?_, ?_, ?_, ?_⟩⟩
  all_goals first | (revert post; decide +kernel) | (revert d; decide +kernel) | decide +kernel

/-! ## The memory system -/

/-- A request: an operation, a kind, a page, another address; rights R and W, cacheability 1. -/
def request (op kind va src : Nat) : Nat := op + 0x1300 + kind * 2 ^ 14 + va * 2 ^ 64 + src * 2 ^ 128 + 2 ^ 192

/-- The scene with a request of the companion at host address 0x1000, a thread parked on pages 1 and 3, of which page 1 is backed, an
expert on page 1, and some migrations. -/
def asked (h : Nat) (ms : List Migration) : State :=
  let s := one 2;
  { s with
    cur := none, migrations := ms
    crews := [{ crew with lanes := some { thread 0 with wait := .parked [⟨1, .read, false⟩, ⟨3, .read, false⟩] } :: List.replicate 15 none }]
    host := Memory.write [] 0x1000 (natBytes 64 h)
    beds := modifyAt s.beds 0 fun b =>
      { b with
        block := { b.block with capBase := 0xC000000000, capSize := 0x4000000 }, passed := [0x1000], experts := [⟨1, 0x10000, 1, 0⟩] } }

/-- The leaf of page 1. -/
def leaf1 : Leaf := ⟨0x16008, 0x10000, 16, 0x20079⟩

theorem left_some {α β : Type} {x : α ⊕ Nat} {f : α → Option β} (h : (match x with
    | .inl a => (f a).isSome
    | .inr _ => false) = true) : ∃ a b, x = .inl a ∧ f a = some b := by
  cases x with
  | inl a => cases e : f a with
    | none => simp [e] at h
    | some b => exact ⟨a, b, rfl, e⟩
  | inr _ => simp at h

theorem left_none {α β : Type} {x : α ⊕ Nat} {f : α → Option β} (h : (match x with
    | .inl a => (f a).isNone
    | .inr _ => false) = true) : ∃ a, x = .inl a ∧ f a = none := by
  cases x with
  | inl a => exact ⟨a, rfl, Option.isNone_iff_eq_none.1 h⟩
  | inr _ => simp at h

theorem left_of {α : Type} {x : α ⊕ Nat} (h : x.isLeft = true) : ∃ a, x = .inl a := by
  cases x with
  | inl a => exact ⟨a, rfl⟩
  | inr _ => simp at h

def postedB (s : State) (src : ReqSource) (op h : Nat) : Bool :=
  s.request? src == some h && Req.op h == op && (s.bed (srcBed src)).on && !s.mmpSwitching &&
    (s.migrations.all fun m => m.bed != srcBed src || m.reply.isNone) && !reqBad src h

theorem posted_of {s : State} {src : ReqSource} {op h : Nat} (e : postedB s src op h = true) : Posted s src op h := by
  simp only [postedB, Bool.and_eq_true, beq_iff_eq, Bool.not_eq_true', List.all_eq_true, Bool.or_eq_true, bne_iff_ne, ne_eq,
    Option.isNone_iff_eq_none] at e
  obtain ⟨⟨⟨⟨⟨h1, h2⟩, h3⟩, h4⟩, h5⟩, h6⟩ := e
  exact ⟨h1, h2, h3, h4, fun m hm e => (h5 m hm).resolve_left (fun n => n e), h6⟩

theorem wit_MemoryService : let src : ReqSource := .companion 0
    (∀ kind ∈ [0, 2], ∀ pick ∈ [0, 1], let h := request 1 kind 0x30000 0
      let s := asked h []
      Posted s src 1 h ∧ Req.count h = 1 ∧ Req.kind h = kind ∧ Req.cache h = 1) ∧
    (∃ r t, (asked (request 1 0 0x30000 0) []).newLeafAt 0 0x30000 3 0 = .inl r ∧ r.1.takeFrames 0 0 1 0 = some t) ∧
    (∃ r, (asked (request 1 2 0x30000 0) []).newLeafAt 0 0x30000 3 1 = .inl r ∧ r.1.takeFrames 0 2 1 1 = none) ∧
    (∀ op ∈ [2, 4], let h := request op 0 0x10000 0
      Posted (asked h []) src op h ∧ Req.count h = 1 ∧ Req.cache h ≠ 3 ∧ (asked h []).pageLeaf 0 0x10000 16 = some leaf1) ∧
    (let h := request 3 0 0x30000 0x10000;
      let s := asked h [];
      Posted s src 3 h ∧ Req.count h = 1 ∧ Req.rangeOk h (Req.src h) = true ∧ s.pageLeaf 0 0x10000 16 = some leaf1 ∧ leaf1.mig = false ∧
        Req.rights h &&& leaf1.rights = Req.rights h ∧ (∀ x ∈ (s.bed 0).framesOf leaf1.kind, x.refs < 0xFFFF) ∧
        ∃ r, s.newLeafAt 0 0x30000 3 (s.choose 30 0x30000 (2 ^ 40)) = .inl r) ∧
    (let h := request 5 2 0x10000 0;
      let s := asked h [];
      Posted s src 5 h ∧ Req.count h = 1 ∧ Req.kind h ≤ 2 ∧ s.pageLeaf 0 0x10000 16 = some leaf1 ∧ ∃ r, s.takeFrames 0 2 1 0 = some r) ∧
    (let h := request 6 0 0x10000 0x18000;
      let s := asked h [];
      Posted s src 6 h ∧ (Req.src h).toNat % 8 = 0 ∧ 8 * Req.count h = 8 ∧
        s.translate 0 [] .write 0x18000 8 = .ok [⟨.mod 0x28000, 8, 0, none⟩] ∧ 0 < s.beds.length) ∧
    (asked 0 [moving]).mmpSwitching = false ∧ (asked 0 [moving]).migration? 0 (1 * 65536) = some moving ∧ moving.reply = none ∧
    (let s := asked 0 [];
      ((s.bed 0).experts.find? fun e => e.num == 1) = some ⟨1, 0x10000, 1, 0⟩ ∧ vaIndex 0x10000 + 65536 * (0 % max 1 1) = 0x10000 ∧
        s.walk 0 0x10000 = some leaf1 ∧ leaf1.mig = false ∧ leaf1.kind ≤ 1 ∧ ∃ t, s.beginMove 0 leaf1 (1 - leaf1.kind) 0 none = some t) ∧
    (let s := asked 0 [];
      s.pageWanted 0 1 = true ∧ s.pageWanted 0 3 = true ∧ s.walk 0 (3 * 65536) = none ∧ s.walk 0 (1 * 65536) = some leaf1 ∧
        leaf1.fw = false ∧ s.entryOk 0 3 0x70079 = true ∧ ∃ r, s.ensureEntry 0 (3 * 65536) 3 (s.choose 30 3 (2 ^ 40)) 4 = some r) ∧
    (let s := { asked 0 [] with mem := memory.write 0x1600F [4] };
      let l := { leaf1 with entry := leaf1.entry + 2 ^ 58 };
      s.pageWanted 0 1 = true ∧ s.walk 0 (1 * 65536) = some l ∧ l.fw = true ∧ l.mig = false ∧ l.shift = 16 ∧
        s.moving 0 (1 * 65536) = false ∧ s.entryOk 0 3 0x70079 = true) ∧
    (asked 0 []).moving 0 0x10000 = false ∧ (asked 0 []).mmpSwitching = false ∧ 0 < (asked 0 []).beds.length := by
  refine ⟨fun kind hk pick hp => ⟨posted_of ?_, ?_, ?_, ?_⟩, left_some ?_, left_none ?_, fun op ho => ⟨posted_of ?_, ?_, ?_, ?_⟩,
    ⟨posted_of ?_, ?_, ?_, ?_, ?_, ?_, ?_, left_of ?_⟩, ⟨posted_of ?_, ?_, ?_, ?_, ?_⟩, ⟨posted_of ?_, ?_, ?_, ?_, ?_⟩, ?_, ?_, ?_,
    ⟨?_, ?_, ?_, ?_, ?_, ?_⟩, ⟨?_, ?_, ?_, ?_, ?_, ?_, ?_⟩, ⟨?_, ?_, ?_, ?_, ?_, ?_, ?_⟩, ?_, ?_, ?_⟩
  · revert kind; decide +kernel
  · revert kind; decide +kernel
  · revert kind; decide +kernel
  · revert kind; decide +kernel
  · decide +kernel
  · decide +kernel
  · revert op; decide +kernel
  · revert op; decide +kernel
  · revert op; decide +kernel
  · revert op; decide +kernel
  all_goals first | (refine Option.isSome_iff_exists.1 ?_; decide +kernel) | decide +kernel

/-- A steering rule that every frame meets: 256-byte buffers, one, at 0x18400, its sequence number at 0x18600, the tray of node 0 of
instance 9. -/
def steering : Nat := 1 + 9 * 2 ^ 232 + 0x18600 * 2 ^ 256 + 2 ^ 408 + 2 ^ 416 + 0x18400 * 2 ^ 448

/-- A report; a mailbox at 0x18700. -/
def report : Report := ⟨1, 0, 0, 0, 0, 0, 1, 5, 0, 1, 0x10008⟩

/-- The scene with graph instance 9, link 0 up to peer 7, perhaps the rule at port 0 with a record held, perhaps a mailbox. -/
def joined (rule : Nat) (held : List HeldRec) (mbox : Dword) : State :=
  let s := graphed (node 0 8);
  { s with
    links := modifyAt s.links 0 fun _ => ⟨7, true⟩
    ports := modifyAt s.ports 0 fun p => { p with rules := modifyAt p.rules 0 fun _ => BitVec.ofNat 512 rule, held := held }
    beds := modifyAt s.beds 0 fun b => { b with block := { b.block with mbox := mbox }, reports := [report] } }

/-- Reads of memory that no bed owns and of a bed's own; a write, an atomic, a remote EMIT. -/
theorem wit_OutsideTraffic : let s := joined 0 [] 0
    Canonical s ∧ s.movingFrame 0x28000 = none ∧ s.paWaits 0x28000 4 = false ∧
    (migrating [{ heldByte with off := 0x8000 }]).paWaits 0x28000 4 = true ∧ (∀ i, i < 4 → s.apertureKeeps (0x28000 + i) = true ∧ windowRo (0x28000 + i) = false ∧
      slotMask (0x28000 + i) = 0xFF) ∧
    (aBits .b32 ≤ 64 ∧ 5 < 2 ^ aBits .b32 ∧ 0x28000 % (aBits .b32 / 8) = 0) ∧
    s.links[0]? = some ⟨7, true⟩ ∧ s.seqs = [] ∧
    (∀ op ∈ [PeerOp.read 0x28000 4, .write 0x28000 [1], .atomic 0x28000 .add .b32 1, .emitCount 0 9 0 4,
        .emitRecord 0 9 0 [0, 0, 0, 0]],
      s.peerWaits op = false ∧ peerBed s op = some 0 ∧
        (∀ q ∈ [PeerSeq.mk 7 3 (peerBlock op)], q.peer = 7 → q.block = peerBlock op → q.seq < 4) ∧
        ∃ q ∈ [PeerSeq.mk 7 3 (peerBlock op)], q.peer = 7 ∧ q.block = peerBlock op ∧ 3 ≤ q.seq) ∧
    peerBed s (.read 0xB000000000 4) = none ∧ s.peerWaits (.read 0xB000000000 4) = false ∧ (s.bed 0).fenced = false ∧
    2 ≤ s.modState ∧ s.modState ≠ 3 ∧ 0 < s.ports.length ∧
    (∃ frame : List Byte, 8388608 < 64 * (s.port 0).held.length + frame.length) ∧
    64 * (s.port 0).held.length + (List.replicate 14 (0 : Byte)).length ≤ 8388608 ∧ s.steer? 0 (List.replicate 14 0) = none ∧
    (let s := joined steering [] 0;
      s.steer? 0 (List.replicate 14 0) = some 0 ∧ Rule.bed steering = 0 ∧ (s.bed 0).on = true ∧
        (s.bed 0).fenced = false ∧ ((((s.port 0).rules[0]?).map (·.toNat)).getD 0) = steering ∧ packKey steering 0 = 0 ∧
        s.portParts 0 (Rule.seqt steering) 4 = some (part 0x8600 4) ∧
        256 * Rule.bsz steering = 256 ∧ s.portParts 0 (Rule.fbase steering) 256 = some (part 0x8400 256) ∧ s.trayRoom 0 9 0 = true) ∧
    (let x : HeldRec := ⟨0, 9, 0, List.replicate 64 0, []⟩;
      let s := joined steering [x] 0;
      takeHeld 0 9 0 (s.port 0).held = some (x, []) ∧ (s.bed 0).fenced = false ∧ s.trayRoom 0 9 0 = true) ∧
    (∃ p, s.ports[0]? = some p ∧ p.holdover = false ∧ 0 ≤ (p.sec : Int) * 1000000000 + p.ns + 2000000 ∧ p.ns < 1000000000 ∧
      p.frac < 65536 ∧ (p.sec : Int) * 1000000000 + p.ns + 2000000 < 2 ^ 48 * 1000000000) ∧
    (s.bed 0).reports = [report] ∧ (s.bed 0).block.mbox = 0 ∧
    (let s := joined 0 [] 0x18700;
      (s.bed 0).reports = [report] ∧ (s.bed 0).block.mbox = 0x18700 ∧
        s.mailParts 0 0x18700 16 = .ok (some (part 0x8700 16)) ∧ (∀ p ∈ part 0x8700 16, s.partWaits p = none) ∧
        leNat (s.readParts (part 0x8700 16)) = 0 ∧ (0 : Word) - 0 ≠ 32 ∧
        s.mailParts 0 0x18800 64 = .ok (some (part 0x8800 64)) ∧ s.mailParts 0 0x18708 4 = .ok (some (part 0x8708 4)) ∧
        s.mailParts 0 0x18700 8 = .ok (some (part 0x8700 8))) := by
  refine ⟨⟨?_, ?_, ?_⟩, ?_, ?_, ?_, ?_, ?_, ?_, ?_, ?_, ?_, ?_, ?_, ?_, ?_, ?_, ⟨List.replicate 8388609 0, ?_⟩, ?_, ?_,
    ⟨?_, ?_, ?_, ?_, ?_, ?_, ?_, ?_, ?_, ?_⟩,
    ⟨?_, ?_, ?_⟩, ⟨_, rfl, ?_⟩, ?_, ?_, ?_, ?_, cox_done ?_, ?_, ?_, ?_, cox_done ?_, cox_done ?_, cox_done ?_⟩
  rotate_left 17
  · rw [List.length_replicate]; decide +kernel
  all_goals decide +kernel

/-! ## Errors, power and Trellis -/

/-- A bed that is on and may stop its clocks. -/
def resting : State :=
  { one 2 with
    crews := [], teams := [{ sceneTeam with place := none }], graphs := [graph (node 0 8)]
    beds := modifyAt (one 2).beds 0 fun b => { b with block := { b.block with pstate := 2 } } }

/-- A die just past its limit, just at it; a corrected error of the last kind; a power trip. -/
theorem wit_ErrorsAndPower :
    (one 2).modState ≠ 3 ∧ 840 < { one 2 with dieTemp := 841 }.dieTemp ∧
    (let s := { one 2 with dieTemp := 840, inletTemp := 360 }; s.dieTemp ≤ 840 ∧ s.inletTemp ≤ 360) ∧
    (let s := { one 2 with agenda := [.corrected 11] }; s.agenda = [.corrected 11] ∧ s.modState ≠ 3) ∧
    (let s := { one 2 with agenda := [.powerTrip] }; s.agenda = [.powerTrip] ∧ s.modState ≠ 3) ∧
    (one 2).crew? 0 = some crew ∧ (engined dense).cmd? 0 = some dense ∧ dense.status = none ∧
    (resting.bed 0).on = true ∧ (resting.bed 0).block.pstate.getLsbD 1 = true ∧ (∀ t ∈ resting.teams, t.place = none) ∧ resting.pool = [] ∧
    (∀ g ∈ resting.graphs, ∀ n ∈ g.nodes, n.tray = []) ∧ (∀ i, i < 16 → ((resting.bed 0).inlets.get (512 * i + 13)).getLsbD 7 = false) ∧
    State.reset.modState = 0 := by
  decide +kernel

/-- A state in which Trellis serves a command with three arguments. -/
def told_ (s : State) (op a b c : Nat) : State :=
  { s with modState := 2, cdone := false, cmdReg := BitVec.ofNat 512 (op + 2 ^ 63 + a * 2 ^ 64 + b * 2 ^ 128 + c * 2 ^ 192) }

def orderedB (s : State) (op : Nat) : Bool :=
  s.cmdPosted && s.cmdOp == op && decide (2 ≤ s.modState) && s.update.isNone

theorem ordered_of {s : State} {op : Nat} (h : orderedB s op = true) : Ordered s op := by
  simp only [orderedB, Bool.and_eq_true, beq_iff_eq, decide_eq_true_eq, Option.isNone_iff_eq_none] at h
  obtain ⟨⟨⟨h1, h2⟩, h3⟩, h4⟩ := h
  exact ⟨h1, h2, h3, fun u e => by simp [h4] at e⟩

/-- Bed 0 off, its block in range; a rule at host address 0x2000. -/
def off_ : State :=
  { State.reset with beds := modifyAt State.reset.beds 0 fun b =>
      { b with configured := true, block := { b.block with hbmSize := 0x4000000, pq := 0x3F00000 } } }

def ruled (r : Nat) : State :=
  let s := joined 0 [] 0;
  { s with
    host := Memory.write [] 0x2000 (natBytes 64 r)
    graphs := [graph { node 0 8 with rsz := 64 }]
    beds := modifyAt s.beds 0 fun b => { b with block := { b.block with ports := 1 } } }

theorem wit_TrellisCommands :
    State.reset.cdone = true ∧ (State.reset.bed 7).on = false ∧
    (∀ op ∈ [1, 6, 9, 10], let x : BitVec 512 := BitVec.ofNat 512 (putField State.reset.cmdReg.toNat 0 64 (op + 2 ^ 63))
      x.getLsbD 63 = true ∧ x.toNat % 256 = op) ∧ (BitVec.ofNat 512 (putField State.reset.cmdReg.toNat 0 64 10)).getLsbD 63 = false ∧
    State.reset.modState < 2 ∧ 2 ≤ (one 2).modState ∧
    (∀ op ∈ [1, 2, 3, 4, 5, 7, 8, 9], let s := { told_ State.reset op 0 0 0 with modState := 1 }
      s.cmdPosted = true ∧ s.modState < 2 ∧ s.cmdOp = op) ∧
    (∀ x ∈ [(0, true), (1, false)], Ordered (told_ off_ 1 x.1 0 0) 1 ∧ (told_ off_ 1 x.1 0 0).blockOk x.1 = x.2) ∧
    (let s := told_ off_ 2 0 0 0;
      Ordered s 2 ∧ s.cmdArg 0 = 0 ∧ 0 < s.beds.length ∧ (s.bed 0).on = false ∧ (s.bed 0).configured = true ∧
        ∃ r, ((opened s).setBed 0 Bed.started).newTable 0 (s.choose 35 100 (2 ^ 40)) = some r) ∧
    (∀ s ∈ [{ one 2 with launches := [] }, one 2], let s := told_ s 3 0 0 0
      Ordered s 3 ∧ s.cmdArg 0 = 0 ∧ (s.bed 0).on = true) ∧
    ({ one 2 with launches := [] } : State).loadOf 0 = 0 ∧ (one 2).loadOf 0 ≠ 0 ∧
    Ordered (told_ State.reset 4 0 0 0) 4 ∧
    (let s := told_ State.reset 5 0x3000 1 0;
      Ordered s 5 ∧ s.cmdArg 1 ≤ 1 ∧ s.modState ≠ 3 ∧ s.update = none) ∧
    (∀ target ∈ [0, 1], let x : Nat × FwImage := (target, ⟨true, 5, 6⟩)
      let s := { State.reset with modState := 4, update := some x }
      s.update = some x ∧ s.modState = 4 ∧ (s.update.map (·.1) = some 1 ↔ target = 1) ∧ s.cdone = true) ∧
    (told_ State.reset 4 0 0 0).cdone = false ∧
    (told_ State.reset 6 0 0 0).cmdPosted = true ∧ (told_ State.reset 6 0 0 0).cmdOp = 6 ∧
    (let s := told_ (one 2) 7 0 5 0x10000;
      Ordered s 7 ∧ s.cmdArg 0 < s.beds.length ∧ (s.bed (s.cmdArg 0)).on = true) ∧
    (∀ x ∈ [(steering, true), (1, false)], let s := told_ (ruled x.1) 8 0 63 0x2000
      Ordered s 8 ∧ s.cmdArg 0 < s.ports.length ∧ s.cmdArg 1 < 64 ∧ leNat (s.host.read (s.cmdArg 2) 64) = x.1 ∧
        Rule.valid x.1 = true ∧ s.ruleOk 0 x.1 = x.2 ∧ Rule.valid ((((s.port 0).rules[63]?).map (·.toNat)).getD 0) = false) ∧
    (let s := told_ (one 2) 9 0 0x1000 0;
      Ordered s 9 ∧ s.cmdArg 0 < s.beds.length ∧ (s.bed (s.cmdArg 0)).on = true ∧ s.mmpSwitching = false) := by
  refine ⟨?_, ?_, ?_, ?_, ?_, ?_, ?_, fun x h => ⟨ordered_of ?_, ?_⟩, ⟨ordered_of ?_, ?_, ?_, ?_, ?_, Option.isSome_iff_exists.1 ?_⟩, fun s h =>
    ⟨ordered_of ?_, ?_, ?_⟩, ?_, ?_, ordered_of ?_, ⟨ordered_of ?_, ?_, ?_, ?_⟩, ?_, ?_, ?_, ?_, ⟨ordered_of ?_, ?_, ?_⟩,
    fun x h => ⟨ordered_of ?_, ?_, ?_, ?_, ?_, ?_, ?_⟩, ordered_of ?_, ?_, ?_, ?_⟩
  all_goals first | (revert s; decide +kernel) | (revert x; decide +kernel) | decide +kernel

end Sys2Proof.Tests
end

section
/-! PROOFS. The scope family: a read of bytes after a write of them (R6, R183, R185, R206, R207; assumptions 12 and 20). -/

namespace Sys2Proof.Machine

open Sys2Proof.Claim

/-! ## Bytes of module memory -/

/-- A read is the list of the single bytes from its address. -/
theorem Memory.read_eq_map_get (m : Memory) (a n : Nat) : m.read a n = (List.range n).map fun i => m.get (a + i) := by
  induction n generalizing a with
  | zero => rfl
  | succ n ih => simp [Memory.read, ih, List.range_succ_eq_map, Nat.add_assoc, Nat.add_comm 1]

/-- A written byte that memory backs and that programs may write holds what was written, the reserved bits of a request slot
apart (R6, R206, R207). -/
theorem writeMod_get_inside {m : Memory} (a i : Nat) (bs : List Byte) (h : m.wf = true) (hi : i < bs.length)
    (hro : windowRo (a + i) = false) (hmem : noMemory (a + i) = false) :
    (writeMod m a bs).get (a + i) = bs[i] &&& slotMask (a + i) := by
  induction bs generalizing m a i with
  | nil => simp at hi
  | cons b t ih =>
    cases i with
    | zero =>
      rw [Nat.add_zero] at hro hmem
      simp only [writeMod, hro, hmem, Bool.or_self, Bool.false_eq_true, if_false, Nat.add_zero, List.getElem_cons_zero]
      rw [writeMod_get_outside (a + 1) a t (Memory.set_wf a _ h) (by omega), Memory.get_set a a _ h, if_pos rfl]
    | succ i =>
      have hit : i < t.length := by simpa using hi
      rw [show a + (i + 1) = a + 1 + i by omega] at hro hmem ⊢
      unfold writeMod
      split
      · exact ih (a + 1) i h hit hro hmem
      · exact ih (a + 1) i (Memory.set_wf a _ h) hit hro hmem

/-- A read of module memory that begins where there is memory gives its bytes; a read of no bytes gives none anywhere. -/
theorem State.read_mod (s : State) (a n : Nat) (h : 0 < n → noMemory a = false) : s.read (.mod a) n = s.mem.read a n := by
  cases n with
  | zero => simp [State.read, Memory.read]
  | succ n => simp [State.read, h (Nat.succ_pos n)]

/-- The bytes of a run that memory backs and that programs may write, read after the run was written. -/
theorem State.read_write_mod {s : State} (a : Nat) (bs : List Byte) (h : s.mem.wf = true)
    (hw : ∀ i, i < bs.length → windowRo (a + i) = false ∧ noMemory (a + i) = false) :
    (s.write (.mod a) bs).read (.mod a) bs.length =
      (List.range bs.length).map fun i => (bs[i]?).getD 0 &&& slotMask (a + i) := by
  rw [State.read_mod _ a _ fun hpos => (hw 0 hpos).2, Memory.read_eq_map_get]
  refine List.map_congr_left fun i hi => ?_
  have hlt : i < bs.length := List.mem_range.1 hi
  simp only [List.getElem?_eq_getElem hlt, Option.getD_some]
  exact writeMod_get_inside a i bs h hlt (hw i hlt).1 (hw i hlt).2

/-- Where every bit keeps what is written, masking a run gives the run. -/
theorem map_and_slotMask_of_full {a : Nat} {bs : List Byte} (h : ∀ i, i < bs.length → slotMask (a + i) = 0xFF) :
    ((List.range bs.length).map fun i => (bs[i]?).getD 0 &&& slotMask (a + i)) = bs := by
  refine List.ext_getElem (by simp) fun i _ hi => ?_
  have hmask : slotMask (a + i) = BitVec.allOnes 8 := h i hi
  rw [List.getElem_map, List.getElem_range, List.getElem?_eq_getElem hi, Option.getD_some, hmask, BitVec.and_allOnes]

/-! ## Writes and the canonical form -/

theorem canonical_write_mod {s : State} (a : Nat) (bs : List Byte) (h : Canonical s) : Canonical (s.write (.mod a) bs) := by
  obtain ⟨hmem, hhost, hpeers⟩ := h
  exact ⟨writeMod_wf a bs hmem, hhost, hpeers⟩

theorem canonical_write_host {s : State} (a : Nat) (bs : List Byte) (h : Canonical s) : Canonical (s.write (.host a) bs) := by
  obtain ⟨hmem, hhost, hpeers⟩ := h
  exact ⟨hmem, Memory.write_wf a bs hhost, hpeers⟩

/-! ## The obligation -/

/-- Settles O38: each clause is the read of the run that was written. The placing of the window's frames in `windowRo` and
`slotMask` and the end of memory in `noMemory` are the model's choices (assumptions 20 and 12). -/
theorem readAfterWrite : Obligations.ReadAfterWrite := by
  unfold Obligations.ReadAfterWrite
  intro s a bs hs
  have ⟨hmem, hhost, _⟩ := hs
  refine ⟨State.read_write_mod a bs hmem, fun hw => ?_, Memory.read_write a bs hhost, canonical_write_mod a bs hs,
    canonical_write_host a bs hs⟩
  calc (s.write (.mod a) bs).read (.mod a) bs.length
      = (List.range bs.length).map fun i => (bs[i]?).getD 0 &&& slotMask (a + i) :=
        State.read_write_mod a bs hmem fun i hi => ⟨(hw i hi).1, (hw i hi).2.1⟩
    _ = bs := map_and_slotMask_of_full fun i hi => (hw i hi).2.2

end Sys2Proof.Machine
end

section
/-! PROOFS. The execution commentary family: moves, and reads of another lane (R50, R71, R119, R151; assumption 10). -/

namespace Sys2Proof.Machine

open Sys2Proof.Claim

/-! ## Instructions that write what their lanes read -/

section

variable {s : State} {c : Crew} {k : Group} {hd : Dword} (h : Calm s c k) (hon : Onward s c k hd)
include h hon

/-- An instruction that, on each lane's view, leaves the state as it is and makes the plain writes `f`, makes them and no more. -/
theorem writes_of_views {i : Instr} {uniform : Bool} {g : Guard} {F : State → Ctx → State × LaneOut} {f : Ctx → List Put}
    (hexec : exec i s = drive false uniform g s F) (hf : ∀ x, ∀ p ∈ f x, p.plain = true)
    (hF : ∀ l t, c.thread? l = some t → F s (view s c k l t) = (s, .ok (f (view s c k l t)))) :
    Writes i s c k hd uniform g f := by
  unfold Writes
  rw [hexec, drive_still h uniform g F (fun x => .ok (f x)) fun l _ => hF l]
  exact drive_writes h hon uniform g f hf

end

/-! ## Reads of a named lane (R50, R71, R119) -/

theorem Ctx.laneA_eq_across (x : Ctx) (l : Nat) (n : Neigh) (r : Nat) : x.laneA l n r = across x l n r := by
  unfold Ctx.laneA across Ctx.beside Crew.width
  cases x.crew.thread? l with
  | none => rfl
  | some t =>
    cases n with
    | self => rfl
    | left => by_cases hl : l = 0 <;> simp [hl]
    | right => by_cases hr : l + 1 < x.crew.lanes.length <;> simp [hr]

/-- A lane waits for a register of its own only while a REDL or SCANL of its own is pending. -/
theorem Ctx.ownPends_of_redl_none {x : Ctx} (h : x.t.redl = none) (j r : Nat) : x.ownPends j r = false := by
  simp [Ctx.ownPends, h]

/-- The value of A in the lane that an instruction names; zero where it names none. -/
def acrossNamed (x : Ctx) (l : Option Nat) (n : Neigh) (r : Nat) : Word := l.elim 0 fun l => across x l n r

/-- A lane with no reduction pending reads the named lane without waiting. -/
theorem readLane_of_redl_none {x : Ctx} (h : x.t.redl = none) (d a : BitVec 9) (n : Neigh) (l : Option Nat) :
    readLane x d a n l = .ok [.v d.toNat (acrossNamed x l n a.toNat)] := by
  cases l with
  | none => rfl
  | some l =>
    have hpends : ((x.beside l n).map fun j => x.ownPends j a.toNat).getD false = false := by
      cases x.beside l n with
      | none => rfl
      | some j => exact x.ownPends_of_redl_none h j a.toNat
    simp [readLane, hpends, acrossNamed, x.laneA_eq_across]

theorem Ctx.other_of_no_thread {x : Ctx} {j : Nat} (h : x.crew.thread? j = none) (r : Nat) : x.other j r = 0 := by
  simp [Ctx.other, h]

/-- A register that no result in flight names is read as it stands (R119). -/
theorem Ctx.other_of_not_pending {x : Ctx} {j r : Nat} {u : Thread} (h : x.crew.thread? j = some u)
    (hr : ∀ p ∈ u.pend, ∀ w ∈ p.v, w.1 ≠ r) : x.other j r = u.v.get r := by
  have hlate : (u.pend.flatMap (·.v)).filter (·.1 == r) = [] := by simpa using fun a b p hp hm => hr p hp (a, b) hm
  simp [Ctx.other, h, hlate]

/-! ## The forms of MOVL (R151) -/

/-- A pair takes a zero-extended word as the word and zero. -/
theorem put64_setWidth (d : Reg) (w : Word) : Reg.put64 d (w.setWidth 64) = [Reg.put d 0 w, Reg.put d 1 0] := by
  have hlo : lo32 (w.setWidth 64) = w := (BitVec.extractLsb'_setWidth_of_le (by decide)).trans BitVec.extractLsb'_eq_self
  have hhi : hi32 (w.setWidth 64) = 0 := by
    unfold hi32
    ext i hi
    simp
  simp only [Reg.put64, Reg.puts, putsFrom, hlo, hhi]

/-- What each form of MOVL writes (R151). -/
def movlPuts (f : MovlF) (x : Ctx) : List Put :=
  match f.mode with
  | .full => Reg.put64 f.d (x.w64 f.a)
  | .zx => [Reg.put f.d 0 (x.w32 f.a), Reg.put f.d 1 0]
  | .hi => [Reg.put f.d 1 (x.w32 f.a)]

theorem movlPuts_plain (f : MovlF) (x : Ctx) : ∀ p ∈ movlPuts f x, p.plain = true := by
  have hpair : ∀ v, ∀ p ∈ Reg.put64 f.d v, p.plain = true := fun v p hp => (putsFrom_plain f.d 0 _ p hp).1
  unfold movlPuts
  cases f.mode with
  | full => exact hpair _
  | zx => exact put64_setWidth f.d _ ▸ hpair _
  | hi => exact fun p hp => by rw [List.mem_singleton.1 hp]; exact (put_plain _ _ _).1

/-! ## What the instructions write (R151) -/

section

variable {s : State} {c : Crew} {k : Group} {hd : Dword} (h : Calm s c k) (hon : Onward s c k hd)
include h hon

theorem mov_writes (f : MovF) : Writes (.mov f) s c k hd f.d.isS f.g fun x => [Reg.put f.d 0 (x.w32 f.a)] :=
  writes_of_views h hon rfl (fun _ _ hp => by rw [List.mem_singleton.1 hp]; exact (put_plain _ _ _).1) fun _ _ _ => rfl

theorem movCompact_writes (f : CTwo) :
    Writes (.movCompact f) s c k hd false always fun x => [.v f.d.toNat (x.t.v.get f.a.toNat)] :=
  writes_of_views h hon rfl (fun _ _ hp => by rw [List.mem_singleton.1 hp]; rfl) fun _ _ _ => rfl

theorem movl_writes (f : MovlF) : Writes (.movl f) s c k hd f.d.isS f.g (movlPuts f) :=
  writes_of_views h hon rfl (movlPuts_plain f) fun l t _ => by
    unfold movlPuts
    cases f.mode with
    | full => rfl
    | zx => exact congrArg (fun ps => (s, LaneOut.ok ps)) (put64_setWidth f.d _)
    | hi => rfl

/-- An instruction that writes D with A of the lane it names (R151). -/
theorem writes_of_readLane {i : Instr} {g : Guard} {d a : BitVec 9} {n : Neigh} {pick : Ctx → Option Nat} {w : Ctx → Word}
    (hexec : exec i s = drive false false g s fun s x => (s, readLane x d a n (pick x)))
    (hw : ∀ l t, let x := view s c k l t; acrossNamed x (pick x) n a.toNat = w x) :
    Writes i s c k hd false g fun x => [.v d.toNat (w x)] :=
  writes_of_views h hon hexec (fun _ _ hp => by rw [List.mem_singleton.1 hp]; rfl) fun l t ht => by
    rw [readLane_of_redl_none (h.tree l t ht), hw l t]

end

/-! ## The obligation -/

/-- Settles O17: a move writes what its own lane reads; BCAST, RDLANE and PERM read the lane they name, and none of
the group's lanes waits to do so, since no reduction is pending in a calm crew. The neighbour select on A is the model's reading
(assumption 10). -/
theorem crossLane : Obligations.CrossLane := by
  unfold Obligations.CrossLane
  intro s c k hd h hon
  refine ⟨movCompact_writes h hon, mov_writes h hon, movl_writes h hon, fun f => writes_of_readLane h hon rfl fun l t => ?bcast,
    fun f => writes_of_readLane h hon rfl fun l t => rfl, fun f => writes_of_readLane h hon rfl fun l t => ?perm,
    fun l t j r _ => ⟨fun hj => Ctx.other_of_no_thread hj r, fun u hu hr => Ctx.other_of_not_pending hu hr⟩⟩
  case bcast =>
    change acrossNamed _ (members c f.m).head? f.an f.a.toNat = _
    cases (members c f.m).head? with
    | none => rfl
    | some l => rfl
  case perm =>
    unfold permLane
    cases f.mode with
    | idx => rfl
    | xor => rfl
    | rot => rfl

end Sys2Proof.Machine
end
